-- ==== Sys2Proof/Word.lean ====
section
/-!
DEFINITION. The word types of FOURIER-CORE and the names of its seven data memories
(spec 00_scope.md R8, R9; 10_state.md R23). Bit-field helpers stand in Machine/Ops.lean.
-/

namespace Sys2Proof

/-- A `u8`: one sample, one byte of a window. -/
abbrev Byte := BitVec 8

/-- A `u32`: a register, a command word, the data path of the port (10_state.md R22, R28). -/
abbrev Word := BitVec 32

/-- The bit pattern of an IEEE 754 binary64 value (43_convolution.md R179). -/
abbrev F64 := BitVec 64

/-- One element of the planes A and K: a pair of binary64 values (10_state.md R48). -/
structure Cplx where
  re : F64
  im : F64
  deriving DecidableEq, Repr, Inhabited

/-- The data memories of 10_state.md section 3 (R23, R46 to R50). -/
inductive Plane where
  | pix | ker | mag | dir | cls | a | k
  deriving DecidableEq, Repr, Inhabited

end Sys2Proof
end

