-- ==== Sys2Proof/Config.lean ====
section
/-!
DEFINITION. What an implementation fixes (00_scope.md R6) and what the spec leaves open
(93_implementation_defined.md). The size parameters are an argument of the model, carried by State; an open
value is an opaque constant with no body: a statement that holds, holds for every value of it.
-/

namespace Sys2Proof

/-- A non-negative rational, as plain data: num / den. -/
structure Ratio where
  num : Nat
  den : Nat
  deriving DecidableEq, Repr

/-- The size parameters and error bounds of an implementation (R6; 93 U17: parameters). MAX_PW and MAX_PH are
functions of them (`Config.maxPW`, `Config.maxPH` in Machine/Ops.lean). DESIGN CHOICE, log 3: State carries
them, and no step changes them (safe). -/
structure Config where
  /-- MAX_W. -/
  maxW : Nat
  /-- MAX_H. -/
  maxH : Nat
  /-- MAX_SIZE_F. -/
  maxSizeF : Nat
  /-- EPS_KER. -/
  epsKer : Ratio
  /-- EPS_CONV. -/
  epsConv : Ratio
  deriving DecidableEq, Repr

end Sys2Proof

namespace Sys2Proof.Config

open Sys2Proof

/-- The reference configuration: the values R6 decides. -/
def reference : Config :=
  { maxW := 1024, maxH := 1024, maxSizeF := 31, epsKer := { num := 1, den := 2 ^ 40 }
    epsConv := { num := 1, den := 2 ^ 20 } }

/-! Platform parameters (93 U16). Log 4 (safe). -/

/-- ENGINE_BASE in units of 2^28: the base is aligned to 2^28 (R6). -/
opaque engineBaseIndex : Nat
/-- IRQ_LINE, the platform interrupt line the engine drives (R6, 60_exceptions.md R240). -/
opaque irqLine : Nat

/-! Free values. The numerics record NUM is the opaque constant of Machine/Num.lean. -/

/-- What byte `addr` of an unwritten element of a memory gives at the draw numbered `draw`
(10_state.md R56; 93 U1, treatment `any value`). Log 2 (safe). -/
opaque freeByte : (draw : Nat) → Plane → (addr : Nat) → Byte

/-- Sign and fraction of the NaN a binary64 product gives (R179: "There is no canonical NaN").
Log 7 (safe). -/
opaque nanPattern : (a b : F64) → F64

end Sys2Proof.Config

namespace Sys2Proof

/-- The numerics record NUM (43_convolution.md R160): four functions of their arguments alone. The arrays are
row-major, element [u, v] at `v*PW + u`. -/
structure Numerics where
  /-- kerImpl(STD, S)[i]. -/
  ker : (std : Int) → (s i : Nat) → F64
  /-- Element `idx` of fftFwd(PW, PH, x). -/
  fftFwd : (pw ph : Nat) → (x : List Cplx) → (idx : Nat) → Cplx
  /-- Element `idx` of fftInv(PW, PH, X). -/
  fftInv : (pw ph : Nat) → (x : List Cplx) → (idx : Nat) → Cplx
  /-- Element `idx` of pmul(PW, PH, a, k). -/
  pmul : (pw ph : Nat) → (a k : List Cplx) → (idx : Nat) → Cplx

end Sys2Proof
end

