-- ==== Sys2Proof/Syntax.lean ====
section
/-!
DEFINITION. The instructions of FOURIER-CORE: one constructor per row of spec/opcode_table.json.
Sixteen are command words written to CMD (30_encoding.md R90, R95); two are control operations,
values written to CTRL (R100).
-/

namespace Sys2Proof

inductive Instr where
  /-- NOP (40_command.md R116). -/
  | nop
  /-- CVT with TGT = RGB (41_colorspace.md R130). -/
  | cvtRgb
  /-- CVT with TGT = YCbCr (41_colorspace.md R130). -/
  | cvtYcbcr
  /-- CVT with TGT = Grayscale (41_colorspace.md R130). -/
  | cvtGray
  /-- KBUILD (42_kernel.md R150). -/
  | kbuild
  /-- FFTF.IMG ch, `ch` the unsigned channel index of R92 (43_convolution.md R166). -/
  | fftfImg (ch : Nat)
  /-- FFTF.KER (R167). -/
  | fftfKer
  /-- PMUL (R168). -/
  | pmul
  /-- FFTI (R169). -/
  | ffti
  /-- WBACK ch (R170). -/
  | wback (ch : Nat)
  /-- BLUR (R171). -/
  | blur
  /-- GRAD (44_canny.md R191). -/
  | grad
  /-- NMS (R194). -/
  | nms
  /-- THRESH (R197). -/
  | thresh
  /-- HYST (R203). -/
  | hyst
  /-- CANNY (R205). -/
  | canny
  /-- START: a CTRL write with bit 0 = 1 and bit 1 = 0; bit 2 carries IRQ_EN (R100, 40_command.md R110). -/
  | start (irqEn : Bool)
  /-- SRST: a CTRL write with bit 1 = 1; bit 2 carries IRQ_EN, bit 0 is ignored (R100, 40_command.md R115). -/
  | srst (irqEn : Bool)
  deriving DecidableEq, Repr

/-- The control operations are values written to CTRL, not command words (30_encoding.md R100). -/
def Instr.isControl : Instr → Bool
  | .nop | .cvtRgb | .cvtYcbcr | .cvtGray | .kbuild | .fftfImg _ | .fftfKer | .pmul | .ffti
  | .wback _ | .blur | .grad | .nms | .thresh | .hyst | .canny => false
  | .start _ | .srst _ => true

end Sys2Proof
end

