-- ==== Sys2Proof/Machine/State.lean ====
section
/-!
DEFINITION. The state of FOURIER-CORE: the tuple of 10_state.md R23 with every register of R29, the
command latch (R26), the seven memories (R46 to R50), the parameters (00_scope.md R6), the inputs still to
come and the port's last response; and the state after power-on reset (R55, R56).
-/

namespace Sys2Proof.Machine

open Sys2Proof

/-- One data memory: (byte index, byte) cells, addresses strictly rising. An index that is not listed
belongs to an element nothing has written and has no value (10_state.md R56). The index counts from the
start of the memory's window, so that the aperture offset is window base + index (20_memory.md R61);
a cell of DIR or CLS holds the two-bit code of the pixel with that index. -/
abbrev Memory := List Host.Cell

/-- PHASE (10_state.md R27). -/
inductive Phase where
  | idle | busy
  deriving DecidableEq, Repr

/-- LATCH, the command latch (10_state.md R26; 40_command.md R111). -/
structure Latch where
  cmd : Word
  w : BitVec 16
  h : BitVec 16
  color : BitVec 2
  std : Word
  sizeF : Word
  hi : Word
  lo : Word
  deriving DecidableEq, Repr

/-! The port (10_state.md R22). -/

inductive AccessKind where
  | read | write
  deriving DecidableEq, Repr

/-- The access sizes 1, 2 and 4 (R22). -/
inductive Size where
  | one | two | four
  deriving DecidableEq, Repr

/-- A request: `off` is a byte offset into the 2^28-byte aperture (R22). -/
structure BusReq where
  kind : AccessKind
  off : BitVec 28
  size : Size
  wdata : Word
  deriving DecidableEq, Repr

inductive RespCode where
  | okay | slverr
  deriving DecidableEq, Repr

/-- A response (R22). -/
structure BusResp where
  code : RespCode
  rdata : Word
  deriving DecidableEq, Repr

/-- One input of the machine, in the order in which they land. A list of them is one interleaving of
the host's accesses, the engine's turns and the reset input (20_memory.md R80; 60_exceptions.md R241).
DESIGN CHOICE, log 8 (safe). -/
inductive Event where
  /-- The host (any bus master) performs one access (R20, R80). -/
  | bus (r : BusReq)
  /-- The engine takes its turn: the completion step if it is enabled (40_command.md R113). -/
  | engine
  /-- The reset input is asserted and released (70_reset_and_hazards.md R260, R261). What the port answers to an
  access in between is not said there: DESIGN CHOICE, log 21, the two are one input and none lands in between. -/
  | powerOn
  deriving DecidableEq, Repr

/-- The machine state (10_state.md R23). STATUS.BUSY is `phase` (R27). -/
structure State where
  /-- The implementation's parameters (00_scope.md R6), which CAP0 and CAP1 show (R32, R33). The model's own field:
  R23 calls them parameters, and an argument of `step` can only come in State. Log 3. -/
  cfg : Config
  phase : Phase
  latch : Latch
  /-- CTRL.IRQ_EN (R34). -/
  irqEn : Bool
  /-- STATUS.DONE, ERR, OVF, HAZ (R35). -/
  done : Bool
  err : Bool
  ovf : Bool
  haz : Bool
  /-- ERR_CODE.CODE (R36). -/
  errCode : BitVec 4
  /-- ERR_INFO (R37). -/
  errInfo : Word
  /-- CMD (R39). -/
  cmd : Word
  /-- IMG_W.W (R40). -/
  imgW : BitVec 16
  /-- IMG_H.H (R41). -/
  imgH : BitVec 16
  /-- IMG_FMT.COLOR (R42). -/
  color : BitVec 2
  /-- STD_DEV, SIZE_F, THR_HI, THR_LO (R38). -/
  stdDev : Word
  sizeF : Word
  thrHi : Word
  thrLo : Word
  /-- KER_LEN (R44). -/
  kerLen : Word
  /-- PIX (R46). -/
  pix : Memory
  /-- KER (R47). -/
  ker : Memory
  /-- MAG (R49). -/
  mag : Memory
  /-- DIR (R50). -/
  dir : Memory
  /-- CLS (R50). -/
  cls : Memory
  /-- A (R48). -/
  planeA : Memory
  /-- K (R48). -/
  planeK : Memory
  /-- The model's own: inputs still to come. -/
  events : List Event
  /-- The port's last response (R22). -/
  resp : Option BusResp
  /-- The model's own: the number of the next draw of free values (R56). -/
  draws : Nat
  deriving DecidableEq, Repr

/-- Why the machine stops. No constructor: the engine has no fatal condition; it never halts, locks up
or needs a reset to accept the next command (60_exceptions.md R236). Errors are completions (R231) and
SLVERR is a response (R232). Log 13. -/
inductive Fault where
  deriving DecidableEq, Repr

/-- Why an instruction has no meaning here. -/
inductive Refusal where
  /-- Raised by an arm of `exec` whose instruction is not modelled yet (safe). No arm raises it. -/
  | notModelled (mnemonic : String)
  deriving DecidableEq, Repr

/-- LATCH after power-on reset, at power-up and by the reset input alike (`powerOnReset`): the spec leaves it
unspecified and no rule reads it in IDLE (R55; 93 U13: any value). DESIGN CHOICE, log 1: zeros. -/
def Latch.reset : Latch :=
  { cmd := 0, w := 0, h := 0, color := 0, std := 0, sizeF := 0, hi := 0, lo := 0 }

/-- The state after power-on reset of an engine with these parameters (10_state.md R55, R56;
70_reset_and_hazards.md R260). -/
def State.resetOf (c : Config) : State :=
  { cfg := c
    phase := .idle
    latch := Latch.reset
    irqEn := false
    done := false
    err := false
    ovf := false
    haz := false
    errCode := 0
    errInfo := 0
    cmd := 0
    imgW := 0
    imgH := 0
    color := 0
    stdDev := 1400
    sizeF := 2
    thrHi := 76800
    thrLo := 25600
    kerLen := 0
    pix := []
    ker := []
    mag := []
    dir := []
    cls := []
    planeA := []
    planeK := []
    events := []
    resp := none
    draws := 0 }

/-- The reference configuration after power-on reset (00_scope.md R6). -/
def State.reset : State := State.resetOf Config.reference

end Sys2Proof.Machine
end

