-- ==== Sys2Proof/Machine/Flags.lean ====
section
/-!
DEFINITION. The flags of the machine: STATUS (10_state.md R35, R54) and the IRQ output (R52;
60_exceptions.md R240). There are no condition codes.
-/

namespace Sys2Proof.Machine

open Sys2Proof

/-- STATUS.BUSY mirrors PHASE (R27, R35). -/
def State.busy (s : State) : Bool :=
  match s.phase with
  | .idle => false
  | .busy => true

/-- The word a read of STATUS returns (R35): BUSY, DONE, ERR, OVF, HAZ in bits 0 to 4. -/
def statusWord (s : State) : Word :=
  BitVec.ofNat 27 0 ++ BitVec.ofBool s.haz ++ BitVec.ofBool s.ovf ++ BitVec.ofBool s.err
    ++ BitVec.ofBool s.done ++ BitVec.ofBool s.busy

/-- A write of `v` to STATUS clears bit i, for i in 1 to 4, where v[i] = 1; BUSY is unchanged (R35). It is
how a host acknowledges a completion (60_exceptions.md R243). -/
def acknowledge (v : Word) (s : State) : State :=
  { s with
    done := s.done && !v.getLsbD 1
    err := s.err && !v.getLsbD 2
    ovf := s.ovf && !v.getLsbD 3
    haz := s.haz && !v.getLsbD 4 }

/-- A dropped doorbell or soft-reset request sets OVF (R35; 40_command.md R112, R115). -/
def flagOverflow (s : State) : State := { s with ovf := true }

/-- A blocked host access sets HAZ (R35; 20_memory.md R76). -/
def flagHazard (s : State) : State := { s with haz := true }

/-- The IRQ output: the level IRQ_EN ∧ (DONE ∨ ERR) (R52; 60_exceptions.md R240). -/
def irq (s : State) : Bool := s.irqEn && (s.done || s.err)

/-- The level on platform interrupt line `line`, as far as the engine drives it (R240). -/
def irqOn (line : Nat) (s : State) : Bool := decide (line = Config.irqLine) && irq s

/-- A completion step that ends without error (40_command.md R113): DONE is set, PHASE is IDLE. -/
def completeDone (s : State) : State := { s with done := true, phase := .idle }

end Sys2Proof.Machine
end

