-- ==== Sys2Proof/Machine/Ops.lean ====
section
/-!
DEFINITION. The shared operations: arithmetic primitives (00_scope.md R10), little-endian assembly
(20_memory.md R63), reads and writes of the memories, raising an error (60_exceptions.md R231), the
doorbell (40_command.md R110 to R112) and the soft reset (R115).
-/

namespace Sys2Proof.Machine

open Sys2Proof

/-! ## Arithmetic primitives (R10) -/

/-- rhu(n/d) = floor(n/d + 1/2), round half up, for d > 0 (R10). `/` on Int floors for a positive divisor. -/
def rhu (n : Int) (d : Nat) : Int := (2 * n + d) / (2 * d)

/-- clamp8(v) = min(255, max(0, v)) (R10). -/
def clamp8 (v : Int) : Byte := BitVec.ofNat 8 (min 255 (max 0 v)).toNat

/-- The least power of two that is at least n, for n ≥ 1 (R10). -/
def pow2ceil (n : Nat) : Nat := if n ≤ 1 then 1 else 2 ^ (Nat.log2 (n - 1) + 1)

end Sys2Proof.Machine

namespace Sys2Proof

/-! ## Parameters derived from others (R6) -/

/-- MAX_PW = pow2ceil(MAX_W + 2*MAX_SIZE_F). -/
def Config.maxPW (c : Config) : Nat := Machine.pow2ceil (c.maxW + 2 * c.maxSizeF)
/-- MAX_PH = pow2ceil(MAX_H + 2*MAX_SIZE_F). -/
def Config.maxPH (c : Config) : Nat := Machine.pow2ceil (c.maxH + 2 * c.maxSizeF)

end Sys2Proof

namespace Sys2Proof.Machine

open Sys2Proof

/-! ## Little-endian values (20_memory.md R63) -/

/-- The `n` low bytes of `v`, least significant first. -/
def leBytes : (n : Nat) → (v : Nat) → List Byte
  | 0, _ => []
  | n + 1, v => BitVec.ofNat 8 v :: leBytes n (v / 256)

/-- The number a list of bytes spells, least significant first. -/
def fromLE : List Byte → Nat
  | [] => 0
  | b :: bs => b.toNat + 256 * fromLE bs

/-! ## One memory -/

/-- The byte at index `a`, or none where nothing has written it (10_state.md R56). -/
def Memory.read : Memory → Nat → Option Byte
  | [], _ => none
  | (k, v) :: m, a => if k = a then some v else Memory.read m a

/-- The canonical form: addresses strictly rising. (No entry can equal what an unlisted address reads
as: an unlisted address has no value.) -/
abbrev Memory.wf (m : Memory) : Prop := List.Pairwise (fun c d : Host.Cell => c.1 < d.1) m

/-- Consecutive cells from index `a`. -/
def Memory.cells (a : Nat) : List Byte → Memory
  | [] => []
  | b :: bs => (a, b) :: Memory.cells (a + 1) bs

/-- Write `bs` at the indices a, a+1, …: the one way a memory is written. -/
def Memory.writeRun (m : Memory) (a : Nat) (bs : List Byte) : Memory :=
  m.filter (fun c => decide (c.1 < a)) ++ Memory.cells a bs
    ++ m.filter (fun c => decide (a + bs.length ≤ c.1))

/-- Several runs, in order. -/
def Memory.writeRuns (m : Memory) (runs : List (Nat × List Byte)) : Memory :=
  runs.foldl (fun m r => Memory.writeRun m r.1 r.2) m

/-- Make every index that `p` names unwritten (70_reset_and_hazards.md R261). -/
def Memory.erase (m : Memory) (p : Nat → Bool) : Memory := m.filter (fun c => !p c.1)

/-- The cells of the `n` indices from `a`: what one row of a plane holds. -/
def Memory.slice (m : Memory) (a n : Nat) : Memory :=
  m.filter (fun c => decide (a ≤ c.1) && decide (c.1 < a + n))

/-- Rows of a plane: row number y is stored at base + y*stride (10_state.md R51). -/
def rowRuns (base stride : Nat) : List (List Byte) → List (Nat × List Byte)
  | [] => []
  | r :: rs => (base, r) :: rowRuns (base + stride) stride rs

/-! ## The seven memories -/

def State.mem (s : State) : Plane → Memory
  | .pix => s.pix
  | .ker => s.ker
  | .mag => s.mag
  | .dir => s.dir
  | .cls => s.cls
  | .a => s.planeA
  | .k => s.planeK

def State.withMem (s : State) (p : Plane) (m : Memory) : State :=
  match p with
  | .pix => { s with pix := m }
  | .ker => { s with ker := m }
  | .mag => { s with mag := m }
  | .dir => { s with dir := m }
  | .cls => { s with cls := m }
  | .a => { s with planeA := m }
  | .k => { s with planeK := m }

/-- How many bytes each memory has (10_state.md R46 to R50; 00_scope.md R7). -/
def planeSize (c : Config) : Plane → Nat
  | .pix => 3 * c.maxW * c.maxH
  | .ker => 8 * (2 * c.maxSizeF + 1)
  | .mag => 4 * c.maxW * c.maxH
  | .dir => c.maxW * c.maxH
  | .cls => c.maxW * c.maxH
  | .a => 16 * c.maxPW * c.maxPH
  | .k => 16 * c.maxPW * c.maxPH

/-- The value byte `addr` of an unwritten element gives at a draw: any value of the element's type (R56,
93 U1). A DIR code is any of 0 to 3; a CLS code is any of 0 to 2, since the value 3 is never written and
never seen (10_state.md R50; 93 U12). Log 2, log 16. -/
def freeElement (draw : Nat) (p : Plane) (addr : Nat) : Byte :=
  match p with
  | .dir => BitVec.ofNat 8 ((Config.freeByte draw .dir addr).toNat % 4)
  | .cls => BitVec.ofNat 8 ((Config.freeByte draw .cls addr).toNat % 3)
  | .pix => Config.freeByte draw .pix addr
  | .ker => Config.freeByte draw .ker addr
  | .mag => Config.freeByte draw .mag addr
  | .a => Config.freeByte draw .a addr
  | .k => Config.freeByte draw .k addr

/-- Byte `addr` as a reader sees it at a draw: the stored byte, or the free value of that draw. -/
def byteIn (m : Memory) (draw : Nat) (p : Plane) (addr : Nat) : Byte :=
  (Memory.read m addr).getD (freeElement draw p addr)

/-- Byte `addr` of memory `p` as the next reader sees it. Within one command every element has one
value: a command computes from some value of the element's type (R56). -/
def State.byteAt (s : State) (p : Plane) (addr : Nat) : Byte := byteIn (s.mem p) s.draws p addr

/-- The `n`-byte little-endian number at index `addr` of a memory. -/
def leIn (m : Memory) (draw : Nat) (p : Plane) (addr n : Nat) : Nat :=
  fromLE ((List.range n).map fun i => byteIn m draw p (addr + i))

/-- `n` consecutive bytes of memory `p`, as the next reader sees them. -/
def State.bytesAt (s : State) (p : Plane) (addr n : Nat) : List Byte :=
  let row := Memory.slice (s.mem p) addr n
  (List.range n).map fun i => byteIn row s.draws p (addr + i)

/-- The next reader draws anew (93 U1: "anew on each occurrence"). -/
def State.nextDraw (s : State) : State := { s with draws := s.draws + 1 }

/-- Write runs into memory `p`. -/
def State.store (s : State) (p : Plane) (runs : List (Nat × List Byte)) : State :=
  s.withMem p (Memory.writeRuns (s.mem p) runs)

/-! ## Errors -/

/-- An error code and its information word (60_exceptions.md R230). -/
structure ErrorReport where
  code : BitVec 4
  info : Word
  deriving DecidableEq, Repr

/-- Raising an error, the engine's only exception: ERR_CODE and ERR_INFO are latched, STATUS.ERR is set,
PHASE is IDLE, and nothing else changes (60_exceptions.md R231, R242; `finishErr` of 40_command.md
R113). There is no return: the host acknowledges by W1C (`acknowledge`) or by the next doorbell (R243). -/
def raiseError (e : ErrorReport) (s : State) : State :=
  { s with errCode := e.code, errInfo := e.info, err := true, phase := .idle }

/-- The report of a word that decodes as ILLEGAL: code 3, the whole latched word (30_encoding.md R97). -/
def illegalReport (w : Word) : ErrorReport := { code := 3, info := w }

/-- The completion step of a decoded command, after its validation: the error, or the effect and DONE
(40_command.md R113, R114). -/
def complete (failure : Option ErrorReport) (effect : State → State) (s : State) :
    Host.Outcome State Fault Refusal :=
  match failure with
  | some e => .next (raiseError e s)
  | none => .next (completeDone (effect s))

/-! ## The control operations -/

/-- What the doorbell latches (40_command.md R111). -/
def State.latched (s : State) : Latch :=
  { cmd := s.cmd, w := s.imgW, h := s.imgH, color := s.color, std := s.stdDev, sizeF := s.sizeF
    hi := s.thrHi, lo := s.thrLo }

/-- Accepting a doorbell (R111). OVF and HAZ keep their values. -/
def acceptDoorbell (s : State) : State :=
  { s with latch := s.latched, done := false, err := false, errCode := 0, errInfo := 0, phase := .busy }

/-- START: accepted in IDLE, dropped with OVF while BUSY (R110 to R112). -/
def doorbell (s : State) : State :=
  match s.phase with
  | .idle => acceptDoorbell s
  | .busy => flagOverflow s

/-- Every CSR at its soft-reset value; the memories and LATCH as they are (10_state.md R55;
40_command.md R115; 70_reset_and_hazards.md R263). -/
def resetRegisters (s : State) : State :=
  { s with
    phase := .idle
    irqEn := false, done := false, err := false, ovf := false, haz := false
    errCode := 0, errInfo := 0, cmd := 0, imgW := 0, imgH := 0, color := 0
    stdDev := 1400, sizeF := 2, thrHi := 76800, thrLo := 25600, kerLen := 0 }

/-- SRST: a soft reset in IDLE, dropped with OVF while BUSY (R115). -/
def softReset (s : State) : State :=
  match s.phase with
  | .idle => resetRegisters s
  | .busy => flagOverflow s

/-- Step 1 of a CTRL write (10_state.md R34). -/
def setIrqEn (e : Bool) (s : State) : State := { s with irqEn := e }

end Sys2Proof.Machine
end

