-- ==== Sys2Proof/Machine/Operands.lean ====
section
/-!
DEFINITION. The operands of a command: its latched parameters (10_state.md R24, R26; 40_command.md
R118), the derived quantities (10_state.md R30; 43_convolution.md R164), and the checks of validation in
the order of 60_exceptions.md R233, R234.
-/

namespace Sys2Proof.Machine

open Sys2Proof

/-- C(COLOR): 3 for RGB and YCbCr, 1 for Grayscale, 0 for the reserved value (10_state.md R30). -/
def channels (color : BitVec 2) : Nat :=
  match color.toNat with
  | 0 => 3
  | 1 => 3
  | 2 => 1
  | _ => 0

/-- geomOK(W, H, COLOR) (R30). -/
def geomOK (c : Config) (w h : Nat) (color : BitVec 2) : Bool :=
  decide (1 ≤ w) && decide (w ≤ c.maxW) && decide (1 ≤ h) && decide (h ≤ c.maxH)
    && decide (color ≠ 3)

/-- sizeOK(S) (R30); S is the s32 reading of SIZE_F (R38). -/
def sizeOK (c : Config) (s : Int) : Bool := decide (0 ≤ s) && decide (s ≤ c.maxSizeF)

/-- PW(W, S) and PH(H, S): pow2ceil(n + 2S) (R30; 43_convolution.md R164). -/
def padded (n : Nat) (s : Int) : Nat := pow2ceil (n + 2 * s.toNat)

/-- W, H, COLOR, STD, S, HI and LO of a command rule: the LATCH fields, the parameters read as s32 (R118,
10_state.md R38). -/
structure Params where
  w : Nat
  h : Nat
  color : BitVec 2
  std : Int
  s : Int
  hi : Int
  lo : Int
  deriving DecidableEq, Repr

/-- The operands a command reads: LATCH, never the live registers (10_state.md R26). -/
def Latch.params (l : Latch) : Params :=
  { w := l.w.toNat, h := l.h.toNat, color := l.color, std := l.std.toInt, s := l.sizeF.toInt
    hi := l.hi.toInt, lo := l.lo.toInt }

/-- The geometry of a convolution: W, H and S (43_convolution.md R164). -/
structure Geom where
  w : Nat
  h : Nat
  s : Nat
  deriving DecidableEq, Repr

/-- PW = pow2ceil(W + 2S) (R164). -/
def Geom.pw (g : Geom) : Nat := pow2ceil (g.w + 2 * g.s)
/-- PH = pow2ceil(H + 2S) (R164). -/
def Geom.ph (g : Geom) : Nat := pow2ceil (g.h + 2 * g.s)

/-- C, the channel count of a command's operands. -/
def Params.c (p : Params) : Nat := channels p.color
/-- S as a count, once it is known not to be negative. -/
def Params.half (p : Params) : Nat := p.s.toNat
/-- PW (43_convolution.md R164). -/
def Params.pw (p : Params) : Nat := padded p.w p.s
/-- PH (R164). -/
def Params.ph (p : Params) : Nat := padded p.h p.s
/-- W, H and S of a convolution (R164). -/
def Params.geom (p : Params) : Geom := { w := p.w, h := p.h, s := p.half }

/-! ## Validation -/

/-- One row of the tables of 60_exceptions.md R233 and R234. -/
inductive Check where
  | width | height | color | std | sizeNonneg | sizeMax | thresholds
  | channel (ch : Nat)
  | grayscale | kernelLength
  | pair (target : BitVec 2)
  deriving DecidableEq, Repr

/-- The condition under which a check fails (R230). -/
def Check.fails (p : Params) (s : State) : Check → Bool
  | .width => decide (p.w = 0) || decide (s.cfg.maxW < p.w)
  | .height => decide (p.h = 0) || decide (s.cfg.maxH < p.h)
  | .color => decide (p.color = 3)
  | .std => decide (p.std ≤ 0)
  | .sizeNonneg => decide (p.s < 0)
  | .sizeMax => decide ((s.cfg.maxSizeF : Int) < p.s)
  | .thresholds => decide (p.hi < p.lo)
  | .channel ch => decide (p.c ≤ ch)
  | .grayscale => decide (p.color ≠ 2)
  | .kernelLength => decide ((s.kerLen.toNat : Int) ≠ 2 * p.s + 1)
  | .pair target => decide (p.color = 2) && decide (target ≠ 2)

/-- The code and information word a failed check reports (R230). -/
def Check.report (p : Params) : Check → ErrorReport
  | .width => { code := 1, info := 5 }
  | .height => { code := 1, info := 6 }
  | .color => { code := 1, info := 7 }
  | .std => { code := 1, info := 1 }
  | .sizeNonneg => { code := 1, info := 2 }
  | .sizeMax => { code := 1, info := 3 }
  | .thresholds => { code := 1, info := 4 }
  | .channel _ => { code := 1, info := 8 }
  | .grayscale => { code := 4, info := 1 }
  | .kernelLength => { code := 4, info := 2 }
  | .pair target => { code := 2, info := BitVec.ofNat 32 (p.color.toNat * 16 + target.toNat) }

/-- The report of the first check of a list that fails (R233), if one does. -/
def firstFailure (p : Params) (s : State) : List Check → Option ErrorReport
  | [] => none
  | c :: cs => if Check.fails p s c then some (Check.report p c) else firstFailure p s cs

/-! The checks each command performs (R234), in R233's order. -/

/-- 1 ≤ W ≤ MAX_W, 1 ≤ H ≤ MAX_H, COLOR ≠ 3. -/
def geometryChecks : List Check := [.width, .height, .color]

/-- The shared checks of the primitive convolution commands (43_convolution.md R165). -/
def convolutionChecks : List Check := geometryChecks ++ [.sizeNonneg, .sizeMax]

def cvtChecks (target : BitVec 2) : List Check := geometryChecks ++ [.pair target]
def kbuildChecks : List Check := [.std, .sizeNonneg, .sizeMax]
def channelChecks (ch : Nat) : List Check := convolutionChecks ++ [.channel ch]
def fftfKerChecks : List Check := convolutionChecks ++ [.kernelLength]
def blurChecks : List Check := geometryChecks ++ [.std, .sizeNonneg, .sizeMax]
def gradChecks : List Check := geometryChecks ++ [.grayscale]
def threshChecks : List Check := geometryChecks ++ [.thresholds]
def cannyChecks : List Check := geometryChecks ++ [.std, .sizeNonneg, .sizeMax, .thresholds]

/-- The global order of R233 below the decode, for a given channel and conversion target. -/
def checkOrder (ch : Nat) (target : BitVec 2) : List Check :=
  [.width, .height, .color, .std, .sizeNonneg, .sizeMax, .thresholds, .channel ch, .grayscale,
    .kernelLength, .pair target]

/-- The completion step of a command with these checks and this effect on these operands: the latched
parameters (R113, R118). -/
def runCommand (checks : List Check) (effect : Params → State → State) (s : State) :
    Host.Outcome State Fault Refusal :=
  complete (firstFailure s.latch.params s checks) (effect s.latch.params) s

end Sys2Proof.Machine
end

