-- ==== Sys2Proof/Machine/Control.lean ====
section
/-!
DEFINITION. NOP and the control operations START and SRST (40_command.md R110 to R116; 30_encoding.md R100).
-/

namespace Sys2Proof.Machine

open Sys2Proof

/-- NOP: no check, no change; it completes with DONE (40_command.md R116). -/
def execNop (st : State) : Host.Outcome State Fault Refusal := runCommand [] (fun _ st => st) st

/-- START: IRQ_EN is written first, then the doorbell rings (10_state.md R34; 40_command.md R110). -/
def execStart (irqEn : Bool) (st : State) : Host.Outcome State Fault Refusal :=
  .next (doorbell (setIrqEn irqEn st))

/-- SRST: IRQ_EN is written first, then the soft reset is requested (10_state.md R34; 40_command.md R115). -/
def execSrst (irqEn : Bool) (st : State) : Host.Outcome State Fault Refusal :=
  .next (softReset (setIrqEn irqEn st))

end Sys2Proof.Machine
end

