-- ==== Sys2Proof/Machine/Color.lean ====
section
/-!
DEFINITION. The colour-space converter CVT (41_colorspace.md R130 to R138). The table's three rows
CVT_rgb, CVT_ycbcr and CVT_gray are its three targets.
-/

namespace Sys2Proof.Machine

open Sys2Proof

/-- Three samples of one pixel. -/
structure Pixel where
  p0 : Byte
  p1 : Byte
  p2 : Byte
  deriving DecidableEq, Repr

/-- A sample as an exact integer. -/
def sampleInt (b : Byte) : Int := b.toNat

/-- clamp8(rhu(n / 10^6)): the coefficients of R132 and R133 in millionths. -/
def roundMillionths (n : Int) : Byte := clamp8 (rhu n 1000000)

/-- Y of R132, the luma of R134: 0.299 R + 0.587 G + 0.114 B. -/
def luma (p : Pixel) : Byte :=
  roundMillionths (299000 * sampleInt p.p0 + 587000 * sampleInt p.p1 + 114000 * sampleInt p.p2)

/-- RGB to YCbCr (R132). -/
def rgbToYcbcr (p : Pixel) : Pixel :=
  { p0 := luma p
    p1 := roundMillionths
      (128000000 - 168736 * sampleInt p.p0 - 331264 * sampleInt p.p1 + 500000 * sampleInt p.p2)
    p2 := roundMillionths
      (128000000 + 500000 * sampleInt p.p0 - 418688 * sampleInt p.p1 - 81312 * sampleInt p.p2) }

/-- YCbCr to RGB (R133). -/
def ycbcrToRgb (p : Pixel) : Pixel :=
  { p0 := roundMillionths (1000000 * sampleInt p.p0 + 1402000 * (sampleInt p.p2 - 128))
    p1 := roundMillionths
      (1000000 * sampleInt p.p0 - 344136 * (sampleInt p.p1 - 128) - 714136 * (sampleInt p.p2 - 128))
    p2 := roundMillionths (1000000 * sampleInt p.p0 + 1772000 * (sampleInt p.p1 - 128)) }

/-- YCbCr to Grayscale takes Y (R135). -/
def takeY (p : Pixel) : Byte := p.p0

/-- The three bytes of a converted pixel, in memory order. -/
def Pixel.bytes (p : Pixel) : List Byte := [p.p0, p.p1, p.p2]

/-- Pixel i of the snapshot of a three-channel image (R131; 00_scope.md R13). -/
def pixelOf (old : List Byte) (i : Nat) : Pixel :=
  { p0 := old.getD (3 * i) 0, p1 := old.getD (3 * i + 1) 0, p2 := old.getD (3 * i + 2) 0 }

/-- The snapshot of PIX a converting CVT reads: bytes [0, 3*W*H) (R131). -/
def snapshot (p : Params) (st : State) : List Byte := st.bytesAt .pix 0 (3 * (p.w * p.h))

/-- The converting cases with a three-channel target (R131): PIX bytes [0, 3*W*H) and COLOR. -/
def convertColor (f : Pixel → Pixel) (target : BitVec 2) (p : Params) (st : State) : State :=
  let old := snapshot p st
  let st' := (st.store .pix [(0, (List.range (p.w * p.h)).flatMap fun i => Pixel.bytes (f (pixelOf old i)))]).nextDraw
  { st' with color := target }

/-- The converting cases with target Grayscale (R131): PIX bytes [0, W*H) and COLOR; the bytes beyond
keep their values (10_state.md R53). -/
def convertGray (f : Pixel → Byte) (p : Params) (st : State) : State :=
  let old := snapshot p st
  let st' := (st.store .pix [(0, (List.range (p.w * p.h)).map fun i => f (pixelOf old i))]).nextDraw
  { st' with color := 2 }

/-- `CVT rgb`: a no-op from RGB (R136), R133 from YCbCr. -/
def cvtRgbEffect (p : Params) (st : State) : State :=
  match p.color.toNat with
  | 1 => convertColor ycbcrToRgb 0 p st
  | _ => st

/-- `CVT ycbcr`: R132 from RGB, a no-op from YCbCr (R136). -/
def cvtYcbcrEffect (p : Params) (st : State) : State :=
  match p.color.toNat with
  | 0 => convertColor rgbToYcbcr 1 p st
  | _ => st

/-- `CVT gray`: R134 from RGB, R135 from YCbCr, a no-op from Grayscale (R136). -/
def cvtGrayEffect (p : Params) (st : State) : State :=
  match p.color.toNat with
  | 0 => convertGray luma p st
  | 1 => convertGray takeY p st
  | _ => st

/-- CVT rgb (R130): validation geometry, then the pair (R137). -/
def execCvtRgb (st : State) : Host.Outcome State Fault Refusal := runCommand (cvtChecks 0) cvtRgbEffect st

/-- CVT ycbcr (R130). -/
def execCvtYcbcr (st : State) : Host.Outcome State Fault Refusal := runCommand (cvtChecks 1) cvtYcbcrEffect st

/-- CVT gray (R130). -/
def execCvtGray (st : State) : Host.Outcome State Fault Refusal := runCommand (cvtChecks 2) cvtGrayEffect st

end Sys2Proof.Machine
end

