-- ==== Sys2Proof/Machine/Float.lean ====
section
/-!
DEFINITION. The floating-point environment (43_convolution.md R179): the binary64 format, the product
rounded to nearest, ties to even, and the conversions u8 → binary64 and binary64 → u8 (wb, R170).
The format and the product are the spec's own general knowledge (93 G4).
-/

namespace Sys2Proof.Machine

open Sys2Proof

/-- Sign, bit 63 (R179). -/
def f64Sign (x : F64) : Bool := x.getLsbD 63
/-- Exponent field, bits [62:52], bias 1023 (R179). -/
def f64Exp (x : F64) : Nat := x.toNat / 2 ^ 52 % 2 ^ 11
/-- Fraction field, bits [51:0] (R179). -/
def f64Frac (x : F64) : Nat := x.toNat % 2 ^ 52

def f64IsNaN (x : F64) : Bool := decide (f64Exp x = 2047) && decide (f64Frac x ≠ 0)
def f64IsInf (x : F64) : Bool := decide (f64Exp x = 2047) && decide (f64Frac x = 0)
def f64IsFinite (x : F64) : Bool := decide (f64Exp x ≠ 2047)

/-- The magnitude of a finite value in units of 2^-1074, the smallest subnormal: an exact integer. -/
def f64Units (x : F64) : Nat :=
  if f64Exp x = 0 then f64Frac x else (2 ^ 52 + f64Frac x) * 2 ^ (f64Exp x - 1)

/-- A finite value as an exact rational, counted in units of 2^-1074. -/
def f64Int (x : F64) : Int := if f64Sign x then -(f64Units x : Int) else f64Units x

/-- The exact rational a finite binary64 value stands for (R179). -/
def f64Rat (x : F64) : ℚ := (f64Int x : ℚ) / 2 ^ 1074

/-- A bit pattern from a sign and the 63 bits of a magnitude. -/
def f64Pack (sign : Bool) (magnitude : Nat) : F64 :=
  BitVec.ofBool sign ++ BitVec.ofNat 63 magnitude

/-- Infinity's exponent and fraction fields. -/
def f64InfBits : Nat := 2047 * 2 ^ 52

/-- How many low bits of `n` a rounding to binary64 drops, when `n` counts units of 2^-(1074+sh): all but
53 significant bits, and at least the `sh` bits below the smallest subnormal. -/
def f64Drop (n sh : Nat) : Nat := max sh (Nat.log2 n + 1 - 53)

/-- n / 2^d rounded to nearest, ties to even. -/
def roundEven (n d : Nat) : Nat :=
  let q := n / 2 ^ d
  let r := n % 2 ^ d
  if 2 ^ d < 2 * r ∨ (2 * r = 2 ^ d ∧ q % 2 = 1) then q + 1 else q

/-- The 63 magnitude bits of n * 2^-(1074+sh), rounded to nearest, ties to even; from 2^1024 on, infinity.
A carry out of the fraction moves into the exponent field by itself. -/
def f64Magnitude (n sh : Nat) : Nat :=
  let d := f64Drop n sh
  min f64InfBits ((d - sh) * 2 ^ 52 + roundEven n d)

/-- n * 2^-(1074+sh) with a sign, rounded to binary64. -/
def f64Round (sign : Bool) (n sh : Nat) : F64 := f64Pack sign (f64Magnitude n sh)

/-- A u8 sample converts to binary64 exactly (R179). -/
def f64OfByte (b : Byte) : F64 := f64Round false (b.toNat * 2 ^ 1074) 0

/-- +0. -/
def f64Zero : F64 := 0
/-- 1.0, 0x3FF0_0000_0000_0000 (42_kernel.md R153). -/
def f64One : F64 := 0x3FF0000000000000#64

/-- A NaN: the spec fixes no pattern ("There is no canonical NaN", R179), so sign and fraction are free. Log 7. -/
def f64FreeNaN (a b : F64) : F64 :=
  f64Pack (f64Sign (Config.nanPattern a b)) (f64InfBits + max 1 (f64Frac (Config.nanPattern a b)))

/-- `a *f64 b`: the IEEE 754 binary64 product, rounded to nearest, ties to even (R179). -/
def f64Mul (a b : F64) : F64 :=
  if f64IsNaN a || f64IsNaN b then f64FreeNaN a b
  else if f64IsInf a || f64IsInf b then
    if a.toNat % 2 ^ 63 = 0 ∨ b.toNat % 2 ^ 63 = 0 then f64FreeNaN a b
    else f64Pack (xor (f64Sign a) (f64Sign b)) f64InfBits
  else f64Round (xor (f64Sign a) (f64Sign b)) (f64Units a * f64Units b) 1074

/-- wb(a) (43_convolution.md R170): round half up and clamp; 0 for NaN and -∞, 255 for +∞. -/
def writeBack (a : F64) : Byte :=
  if f64IsFinite a then clamp8 (rhu (f64Int a) (2 ^ 1074))
  else if f64IsInf a && !f64Sign a then 255
  else 0

/-- The bytes of an element of A or K: re, then im, little-endian (20_memory.md R61). -/
def cplxBytes (z : Cplx) : List Byte := leBytes 8 z.re.toNat ++ leBytes 8 z.im.toNat

/-- The element of A or K whose first byte has index `addr`. -/
def cplxIn (m : Memory) (draw : Nat) (p : Plane) (addr : Nat) : Cplx :=
  { re := BitVec.ofNat 64 (leIn m draw p addr 8), im := BitVec.ofNat 64 (leIn m draw p (addr + 8) 8) }

/-- The index of element [u, v] of A or K (10_state.md R51; 20_memory.md R61). -/
def cplxAddr (c : Config) (u v : Nat) : Nat := 16 * (v * c.maxPW + u)

/-- A[u, v] or K[u, v], as the next reader sees it. -/
def State.cplxAt (s : State) (p : Plane) (u v : Nat) : Cplx := cplxIn (s.mem p) s.draws p (cplxAddr s.cfg u v)

/-- The region [0, PW) × [0, PH) of a plane, row-major, as one array (10_state.md R48). -/
def State.region (s : State) (p : Plane) (pw ph : Nat) : List Cplx :=
  (List.range ph).flatMap fun v =>
    let row := Memory.slice (s.mem p) (cplxAddr s.cfg 0 v) (16 * pw)
    (List.range pw).map fun u => cplxIn row s.draws p (cplxAddr s.cfg u v)

/-- The runs that store f(u, v) over the region [0, PW) × [0, PH) of a plane. -/
def regionRuns (c : Config) (pw ph : Nat) (f : Nat → Nat → Cplx) : List (Nat × List Byte) :=
  rowRuns 0 (16 * c.maxPW)
    ((List.range ph).map fun v => (List.range pw).flatMap fun u => cplxBytes (f u v))

/-- TAP k of KER: the 8 bytes at index 8k (10_state.md R47; 20_memory.md R61). -/
def State.tapAt (s : State) (k : Nat) : F64 := BitVec.ofNat 64 (leIn s.ker s.draws .ker (8 * k) 8)

end Sys2Proof.Machine
end

