-- ==== Sys2Proof/Machine/Numerics.lean ====
section
/-!
DEFINITION. The numerics record NUM and what the spec promises of it: the exact kernel (42_kernel.md R152) and
the exact convolution (43_convolution.md R173), the input arrays of the transforms (R166, R167), and the
contract of NUM (42_kernel.md R153; 43_convolution.md R161), stated on the real numbers.
-/

namespace Sys2Proof

/-- The real number a ratio stands for. -/
noncomputable def Ratio.toReal (r : Ratio) : ℝ := (r.num : ℝ) / r.den

/-- R6's constraints on the five numbers, inside the windows the address map gives them (R7; 20_memory.md R60: the
KER window has room for MAX_SIZE_F = 31): EPS_KER > 0 and 0 < EPS_CONV < 1/2. Log 3. -/
def Config.InRange (c : Config) : Prop :=
  1 ≤ c.maxW ∧ c.maxW ≤ 65535 ∧ 1 ≤ c.maxH ∧ c.maxH ≤ 65535 ∧ c.maxW * c.maxH ≤ 2 ^ 20
    ∧ c.maxSizeF ≤ 31 ∧ c.maxPW * c.maxPH ≤ 2 ^ 22
    ∧ 0 < c.epsKer.num ∧ 0 < c.epsKer.den
    ∧ 0 < c.epsConv.num ∧ 0 < c.epsConv.den ∧ 2 * c.epsConv.num < c.epsConv.den

/-- Error bounds no tighter than R6's reference values: EPS_KER ≥ 2^-40 and EPS_CONV ≥ 2^-20. -/
def Config.ReferenceBounds (c : Config) : Prop :=
  c.epsKer.den ≤ c.epsKer.num * 2 ^ 40 ∧ c.epsConv.den ≤ c.epsConv.num * 2 ^ 20

end Sys2Proof

namespace Sys2Proof.Machine

open Sys2Proof

/-! ## The exact kernel and the exact convolution -/

/-- g_k = exp(-k² / (2σ²)) for σ = STD/1000 (42_kernel.md R152). -/
noncomputable def exactGauss (std : ℤ) (k : ℤ) : ℝ :=
  Real.exp (-(k : ℝ) ^ 2 / (2 * ((std : ℝ) / 1000) ^ 2))

/-- w_k = g_k / Σ_j g_j over j ∈ [-S, S] (R152). -/
noncomputable def exactWeight (std : ℤ) (s : ℕ) (k : ℤ) : ℝ :=
  exactGauss std k / ∑ j ∈ Finset.Icc (-(s : ℤ)) s, exactGauss std j

/-- P_ch(x', y'): the sample, or 0 outside the image (43_convolution.md R173). -/
def paddedSample (samples : List Byte) (w h : Nat) (x y : Int) : Nat :=
  if 0 ≤ x ∧ x < w ∧ 0 ≤ y ∧ y < h then (samples.getD (y.toNat * w + x.toNat) 0).toNat else 0

/-- e[x, y], the exact convolution with zero padding (R173). -/
noncomputable def exactConv (std : ℤ) (g : Geom) (samples : List Byte) (x y : ℕ) : ℝ :=
  ∑ i ∈ Finset.Icc (-(g.s : ℤ)) g.s, ∑ j ∈ Finset.Icc (-(g.s : ℤ)) g.s,
    exactWeight std g.s i * exactWeight std g.s j * (paddedSample samples g.w g.h (x - i) (y - j) : ℝ)

/-! ## The input arrays of the transforms -/

/-- FFTF.IMG's input array: the samples at the origin, zero padding elsewhere (R166). -/
def paddedImage (g : Geom) (samples : List Byte) : List Cplx :=
  (List.range g.ph).flatMap fun v => (List.range g.pw).map fun u =>
    if u < g.w ∧ v < g.h then { re := f64OfByte (samples.getD (v * g.w + u) 0), im := f64Zero }
    else { re := f64Zero, im := f64Zero }

/-- The tap number S+i of the offset i with i mod n = u, if u is the place of one (R167). -/
def wrappedTap (s n u : Nat) : Option Nat :=
  if u ≤ s then some (s + u) else if n ≤ u + s then some (u + s - n) else none

/-- Entry [u, v] of FFTF.KER's input array: the product of two taps, or zero (R167). -/
def kernelEntry (g : Geom) (tap : Nat → F64) (u v : Nat) : Cplx :=
  match wrappedTap g.s g.pw u, wrappedTap g.s g.ph v with
  | some i, some j => { re := f64Mul (tap i) (tap j), im := f64Zero }
  | _, _ => { re := f64Zero, im := f64Zero }

/-- FFTF.KER's input array: the products of the taps, centred on [0, 0] and wrapped (R167). -/
def wrappedKernel (g : Geom) (tap : Nat → F64) : List Cplx :=
  (List.range g.ph).flatMap fun v => (List.range g.pw).map fun u => kernelEntry g tap u v

/-- An array given by its elements. -/
def arrayOf (n : Nat) (f : Nat → Cplx) : List Cplx := (List.range n).map f

/-- The result of the canonical sequence on one channel (R161): FFTF.IMG, FFTF.KER, PMUL, FFTI. -/
def canonicalArray (n : Numerics) (std : Int) (g : Geom) (samples : List Byte) : Nat → Cplx :=
  let size := g.pw * g.ph
  let a := arrayOf size (n.fftFwd g.pw g.ph (paddedImage g samples))
  let k := arrayOf size (n.fftFwd g.pw g.ph (wrappedKernel g (n.ker std g.s)))
  n.fftInv g.pw g.ph (arrayOf size (n.pmul g.pw g.ph a k))

/-! ## The contract -/

/-- What a model may assume of NUM.kerImpl (42_kernel.md R153): symmetric; 1.0 at S = 0; finite, 0 ≤ q ≤ 1;
within EPS_KER of the exact weight. -/
def KernelContract (c : Config) (n : Numerics) : Prop :=
  ∀ (std : Int) (s i : Nat), 0 < std → s ≤ c.maxSizeF → i ≤ 2 * s →
    n.ker std s i = n.ker std s (2 * s - i)
    ∧ (s = 0 → n.ker std s i = f64One)
    ∧ f64IsFinite (n.ker std s i) = true
    ∧ 0 ≤ f64Rat (n.ker std s i) ∧ f64Rat (n.ker std s i) ≤ 1
    ∧ |(f64Rat (n.ker std s i) : ℝ) - exactWeight std s ((i : ℤ) - s)| ≤ c.epsKer.toReal

/-- What a model may assume of a canonical sequence with S ≥ 1 (43_convolution.md R161): at every pixel the real
part is finite and within EPS_CONV of the exact convolution. -/
def CanonicalContract (c : Config) (n : Numerics) : Prop :=
  ∀ (std : Int) (g : Geom) (samples : List Byte) (x y : Nat), 0 < std → 1 ≤ g.s → g.s ≤ c.maxSizeF →
    g.w ≤ c.maxW → g.h ≤ c.maxH → samples.length = g.w * g.h → x < g.w → y < g.h →
    f64IsFinite (canonicalArray n std g samples (y * g.pw + x)).re = true
    ∧ |(f64Rat (canonicalArray n std g samples (y * g.pw + x)).re : ℝ) - exactConv std g samples x y|
        ≤ c.epsConv.toReal

/-- The contract of NUM: "NUM's output has no other property a model may assume" (R161). -/
def NumContract (c : Config) (n : Numerics) : Prop := KernelContract c n ∧ CanonicalContract c n

end Sys2Proof.Machine
end

