-- ==== Sys2Proof/Laws/Arrays.lean ====
section
/-!
SUPPORT. Arrays built from blocks of equal length, the padded geometry (43_convolution.md R164), and the entries
of the transforms' input arrays (R166, R167).
-/

namespace Sys2Proof.Machine

open Sys2Proof

/-! ## Blocks -/

/-- Blocks of equal length, joined: element i of block x. -/
theorem getElem?_flatMap_blocks {α : Type} (w k : Nat) (g : Nat → List α) (hk : ∀ x, x < w → (g x).length = k)
    {x i : Nat} (hx : x < w) (hi : i < k) : ((List.range w).flatMap g)[x * k + i]? = (g x)[i]? := by
  induction w with
  | zero => omega
  | succ w ih =>
    have hlen : ∀ v, v ≤ w → ((List.range v).flatMap g).length = v * k := by
      intro v hv
      induction v with
      | zero => simp
      | succ v ihv =>
        rw [List.range_succ, List.flatMap_append, List.length_append, ihv (by omega)]
        simp [hk v (by omega), Nat.succ_mul]
    rw [List.range_succ, List.flatMap_append]
    rcases Nat.lt_or_ge x w with h | h
    · have hb : x * k + i < w * k := by nlinarith [Nat.mul_le_mul_right k (show x + 1 ≤ w from h)]
      rw [List.getElem?_append_left (by rw [hlen w le_rfl]; exact hb)]
      exact ih (fun x hx => hk x (by omega)) h
    · have : x = w := by omega
      subst this
      rw [List.getElem?_append_right (by rw [hlen x le_rfl]; omega), hlen x le_rfl]
      simp

theorem length_flatMap_blocks {α : Type} (w k : Nat) (g : Nat → List α) (hk : ∀ x, x < w → (g x).length = k) :
    ((List.range w).flatMap g).length = w * k := by
  induction w with
  | zero => simp
  | succ w ih =>
    rw [List.range_succ, List.flatMap_append, List.length_append, ih fun x hx => hk x (by omega)]
    simp [hk w (by omega), Nat.succ_mul]

/-- Arrays built row by row: entry v*w + u. -/
theorem getElem?_rows {α : Type} (w h : Nat) (f : Nat → Nat → α) {u v : Nat} (hu : u < w) (hv : v < h) :
    ((List.range h).flatMap fun v => (List.range w).map fun u => f u v)[v * w + u]? = some (f u v) := by
  rw [getElem?_flatMap_blocks h w _ (fun _ _ => by simp) hv hu]
  simp [hu]

theorem length_rows {α : Type} (w h : Nat) (f : Nat → Nat → α) :
    ((List.range h).flatMap fun v => (List.range w).map fun u => f u v).length = h * w :=
  length_flatMap_blocks h w _ fun _ _ => by simp

theorem length_arrayOf (n : Nat) (f : Nat → Cplx) : (arrayOf n f).length = n := by simp [arrayOf]

theorem arrayOf_getD {n i : Nat} (h : i < n) (f : Nat → Cplx) (d : Cplx) : (arrayOf n f).getD i d = f i := by
  simp [arrayOf, h]

/-- An array is given by its entries. -/
theorem eq_arrayOf {l : List Cplx} {n : Nat} {f : Nat → Cplx} (hl : l.length = n)
    (h : ∀ i, i < n → l[i]? = some (f i)) : l = arrayOf n f := by
  refine List.ext_getElem? fun i => ?_
  rcases Nat.lt_or_ge i n with hi | hi
  · rw [h i hi]
    simp [arrayOf, hi]
  · rw [List.getElem?_eq_none (by omega), List.getElem?_eq_none (by simpa [arrayOf] using hi)]

/-! ## The padded geometry -/

theorem le_pow2ceil (n : Nat) : n ≤ pow2ceil n := by
  unfold pow2ceil
  split
  · omega
  · have := Nat.lt_log2_self (n := n - 1)
    omega

theorem pow2ceil_pos (n : Nat) : 0 < pow2ceil n := by
  unfold pow2ceil
  split <;> simp

theorem pow2ceil_le_pow {n k : Nat} (h : n ≤ 2 ^ k) : pow2ceil n ≤ 2 ^ k := by
  unfold pow2ceil
  split
  · exact Nat.one_le_two_pow
  · rename_i hn
    apply Nat.pow_le_pow_right (by norm_num)
    have : Nat.log2 (n - 1) < k := (Nat.log2_lt (by omega)).2 (by omega)
    omega

theorem pow2ceil_mono {m n : Nat} (h : m ≤ n) : pow2ceil m ≤ pow2ceil n := by
  rcases Nat.lt_or_ge n 2 with hn | hn
  · simp [pow2ceil, show m ≤ 1 by omega, show n ≤ 1 by omega]
  · have : pow2ceil n = 2 ^ (Nat.log2 (n - 1) + 1) := by simp [pow2ceil, show ¬ n ≤ 1 by omega]
    rw [this]
    exact pow2ceil_le_pow (h.trans ((le_pow2ceil n).trans_eq this))

theorem Geom.w_add_le_pw (g : Geom) : g.w + 2 * g.s ≤ g.pw := le_pow2ceil _

theorem Geom.h_add_le_ph (g : Geom) : g.h + 2 * g.s ≤ g.ph := le_pow2ceil _

/-! ## The input arrays of the transforms -/

/-- The offset i lands on i mod n and is found there as tap S+i (R167). -/
theorem wrappedTap_mod {s n : Nat} {i : Int} (hn : 2 * s + 1 ≤ n) (h1 : -(s : Int) ≤ i) (h2 : i ≤ s) :
    wrappedTap s n (i % n).toNat = some ((s : Int) + i).toNat := by
  unfold wrappedTap
  by_cases hi : 0 ≤ i
  · rw [Int.emod_eq_of_lt hi (by omega), if_pos (by omega)]
    congr 1
    omega
  · have : i % n = i + n := by
      rw [← Int.add_emod_right, Int.emod_eq_of_lt (by omega) (by omega)]
    rw [this, if_neg (by omega), if_pos (by omega)]
    congr 1
    omega

/-- A place that holds a tap is some offset's. -/
theorem wrappedTap_some {s n u k : Nat} (_hn : 2 * s + 1 ≤ n) (hu : u < n) (h : wrappedTap s n u = some k) :
    ∃ i : Int, -(s : Int) ≤ i ∧ i ≤ s ∧ i % n = u ∧ k = ((s : Int) + i).toNat := by
  unfold wrappedTap at h
  split at h
  · cases h
    exact ⟨u, by omega, by omega, Int.emod_eq_of_lt (by omega) (by omega), by omega⟩
  · split at h
    · cases h
      refine ⟨(u : Int) - n, by omega, by omega, ?_, by omega⟩
      rw [Int.sub_emod_right, Int.emod_eq_of_lt (by omega) (by omega)]
    · cases h

/-- An offset of less than half the width, but beyond S, lands on no tap. -/
theorem wrappedTap_mod_none {s n : Nat} {i : Int} (h1 : 2 * i < n) (h2 : -(n : Int) < 2 * i)
    (h3 : i < -(s : Int) ∨ (s : Int) < i) : wrappedTap s n (i % n).toNat = none := by
  unfold wrappedTap
  by_cases hi : 0 ≤ i
  · rw [Int.emod_eq_of_lt hi (by omega), if_neg (by omega), if_neg (by omega)]
  · have : i % n = i + n := by
      rw [← Int.add_emod_right, Int.emod_eq_of_lt (by omega) (by omega)]
    rw [this, if_neg (by omega), if_neg (by omega)]

theorem paddedImage_length (g : Geom) (samples : List Byte) : (paddedImage g samples).length = g.pw * g.ph := by
  rw [paddedImage, length_rows, Nat.mul_comm]

theorem paddedImage_get (g : Geom) (samples : List Byte) {u v : Nat} (hu : u < g.pw) (hv : v < g.ph) :
    (paddedImage g samples)[v * g.pw + u]? = some
      (if u < g.w ∧ v < g.h then { re := f64OfByte (samples.getD (v * g.w + u) 0), im := f64Zero }
      else { re := f64Zero, im := f64Zero }) :=
  getElem?_rows g.pw g.ph _ hu hv

theorem wrappedKernel_length (g : Geom) (tap : Nat → F64) : (wrappedKernel g tap).length = g.pw * g.ph := by
  rw [wrappedKernel, length_rows, Nat.mul_comm]

theorem wrappedKernel_get (g : Geom) (tap : Nat → F64) {u v : Nat} (hu : u < g.pw) (hv : v < g.ph) :
    (wrappedKernel g tap)[v * g.pw + u]? = some (kernelEntry g tap u v) :=
  getElem?_rows g.pw g.ph _ hu hv

theorem wrappedTap_le {s n u k : Nat} (hu : u < n) (h : wrappedTap s n u = some k) : k ≤ 2 * s := by
  unfold wrappedTap at h
  split at h
  · cases h
    omega
  · split at h
    · cases h
      omega
    · cases h

/-- The kernel's array is made of taps 0 to 2S. -/
theorem wrappedKernel_congr (g : Geom) {tap tap' : Nat → F64} (h : ∀ i, i ≤ 2 * g.s → tap i = tap' i) :
    wrappedKernel g tap = wrappedKernel g tap' := by
  unfold wrappedKernel
  refine List.flatMap_congr fun v hv => List.map_congr_left fun u hu => ?_
  have hu := List.mem_range.1 hu
  have hv := List.mem_range.1 hv
  unfold kernelEntry
  cases h1 : wrappedTap g.s g.pw u with
  | none => rfl
  | some i =>
    cases h2 : wrappedTap g.s g.ph v with
    | none => rfl
    | some j => simp only [h i (wrappedTap_le hu h1), h j (wrappedTap_le hv h2)]

end Sys2Proof.Machine
end

