-- ==== Sys2Proof/Laws/Float.lean ====
section
/-!
SUPPORT. The binary64 format (43_convolution.md R179): the fields of a packed pattern, what rounding gives, and
the error of a product.
-/

namespace Sys2Proof.Machine

open Sys2Proof

/-! ## The fields of a packed pattern -/

theorem f64Pack_toNat (s : Bool) {m : Nat} (h : m < 2 ^ 63) : (f64Pack s m).toNat = s.toNat * 2 ^ 63 + m := by
  rw [f64Pack, BitVec.toNat_append, BitVec.toNat_ofBool, BitVec.toNat_ofNat, Nat.mod_eq_of_lt h,
    ← Nat.shiftLeft_add_eq_or_of_lt h, Nat.shiftLeft_eq]

theorem f64Sign_pack (s : Bool) {m : Nat} (h : m < 2 ^ 63) : f64Sign (f64Pack s m) = s := by
  rw [f64Sign, BitVec.getLsbD, f64Pack_toNat s h, Nat.testBit_eq_decide_div_mod_eq]
  cases s <;> simp <;> omega

theorem f64Exp_pack (s : Bool) {m : Nat} (h : m < 2 ^ 63) : f64Exp (f64Pack s m) = m / 2 ^ 52 := by
  rw [f64Exp, f64Pack_toNat s h]
  cases s <;> simp only [Bool.toNat_true, Bool.toNat_false] <;> omega

theorem f64Frac_pack (s : Bool) {m : Nat} (h : m < 2 ^ 63) : f64Frac (f64Pack s m) = m % 2 ^ 52 := by
  rw [f64Frac, f64Pack_toNat s h]
  cases s <;> simp only [Bool.toNat_true, Bool.toNat_false] <;> omega

theorem f64IsFinite_pack (s : Bool) {m : Nat} (h : m < f64InfBits) : f64IsFinite (f64Pack s m) = true := by
  have hm : m < 2 ^ 63 := by simp only [f64InfBits] at h; omega
  simp only [f64IsFinite, f64Exp_pack s hm, decide_eq_true_eq]
  simp only [f64InfBits] at h
  omega

/-- The pattern e*2^52 + r, r a 53-bit significand (normalised unless e = 0) or 2^53, is r*2^e units of 2^-1074. -/
theorem f64Units_pack (s : Bool) {e r : Nat} (hr : r ≤ 2 ^ 53) (he : e = 0 ∨ 2 ^ 52 ≤ r)
    (h : e * 2 ^ 52 + r < f64InfBits) : f64Units (f64Pack s (e * 2 ^ 52 + r)) = r * 2 ^ e := by
  have hm : e * 2 ^ 52 + r < 2 ^ 63 := by simp only [f64InfBits] at h; omega
  rw [f64Units, f64Exp_pack s hm, f64Frac_pack s hm]
  rcases Nat.lt_or_ge r (2 ^ 52) with h1 | h1
  · obtain rfl : e = 0 := by omega
    rw [if_pos (by omega)]
    omega
  · rcases Nat.lt_or_ge r (2 ^ 53) with h2 | h2
    · rw [if_neg (by omega), show (e * 2 ^ 52 + r) / 2 ^ 52 = e + 1 by omega,
        show (e * 2 ^ 52 + r) % 2 ^ 52 = r - 2 ^ 52 by omega, Nat.add_sub_cancel, Nat.add_sub_cancel' h1]
    · obtain rfl : r = 2 ^ 53 := by omega
      rw [if_neg (by omega), show (e * 2 ^ 52 + 2 ^ 53) / 2 ^ 52 = e + 2 by omega,
        show (e * 2 ^ 52 + 2 ^ 53) % 2 ^ 52 = 0 by omega, Nat.add_zero, show e + 2 - 1 = e + 1 by omega]
      ring

/-! ## Rounding -/

/-- Rounding moves a number by at most half of what it drops. -/
theorem roundEven_error (n d : Nat) :
    2 * n ≤ 2 * (roundEven n d * 2 ^ d) + 2 ^ d ∧ 2 * (roundEven n d * 2 ^ d) ≤ 2 * n + 2 ^ d := by
  have h := Nat.div_add_mod n (2 ^ d)
  have hlt := Nat.mod_lt n (Nat.two_pow_pos d)
  simp only [roundEven]
  set q := n / 2 ^ d
  set r := n % 2 ^ d
  rw [Nat.mul_comm] at h
  split_ifs with hc
  · rw [Nat.add_mul, Nat.one_mul]
    omega
  · omega

theorem roundEven_le {n d k : Nat} (h : n ≤ k * 2 ^ d) : roundEven n d ≤ k := by
  have hp := Nat.two_pow_pos d
  have hdm := Nat.div_add_mod n (2 ^ d)
  have hlt := Nat.mod_lt n hp
  rw [Nat.mul_comm] at hdm
  simp only [roundEven]
  split_ifs with hc
  · by_contra hk
    have : k * 2 ^ d ≤ n / 2 ^ d * 2 ^ d := Nat.mul_le_mul_right _ (by omega)
    omega
  · by_contra hk
    have : (k + 1) * 2 ^ d ≤ n / 2 ^ d * 2 ^ d := Nat.mul_le_mul_right _ (by omega)
    rw [Nat.add_mul] at this
    omega

theorem le_roundEven {n d k : Nat} (h : k * 2 ^ d ≤ n) : k ≤ roundEven n d := by
  have : k ≤ n / 2 ^ d := (Nat.le_div_iff_mul_le (Nat.two_pow_pos d)).2 h
  simp only [roundEven]
  split_ifs <;> omega

/-- What rounding drops leaves at most 53 bits, and 53 bits exactly where it drops more than it must. -/
theorem f64Drop_spec (n sh : Nat) :
    sh ≤ f64Drop n sh ∧ n ≤ 2 ^ 53 * 2 ^ f64Drop n sh
      ∧ (f64Drop n sh = sh ∨ 2 ^ 52 * 2 ^ f64Drop n sh ≤ n) := by
  have h1 : n < 2 ^ (Nat.log2 n + 1) := Nat.lt_log2_self
  refine ⟨le_max_left _ _, ?_, ?_⟩
  · rw [← pow_add]
    refine h1.le.trans (Nat.pow_le_pow_right (by norm_num) ?_)
    simp only [f64Drop]
    omega
  · rcases Nat.lt_or_ge sh (Nat.log2 n + 1 - 53) with h | h
    · right
      have hd : f64Drop n sh = Nat.log2 n + 1 - 53 := max_eq_right h.le
      rw [hd, ← pow_add, show 52 + (Nat.log2 n + 1 - 53) = Nat.log2 n by omega]
      exact Nat.log2_self_le (by rintro rfl; simp at h)
    · exact .inl (max_eq_left h)

/-- Rounding n * 2^-(1074+sh) to binary64, where the result is finite: a multiple of what it drops. -/
theorem f64Round_spec (s : Bool) {n sh : Nat}
    (h : (f64Drop n sh - sh) * 2 ^ 52 + roundEven n (f64Drop n sh) < f64InfBits) :
    f64IsFinite (f64Round s n sh) = true ∧ f64Sign (f64Round s n sh) = s
      ∧ f64Units (f64Round s n sh) * 2 ^ sh = roundEven n (f64Drop n sh) * 2 ^ f64Drop n sh := by
  obtain ⟨h1, h2, h3⟩ := f64Drop_spec n sh
  have hm : f64Magnitude n sh = (f64Drop n sh - sh) * 2 ^ 52 + roundEven n (f64Drop n sh) := min_eq_right h.le
  have hi : f64InfBits < 2 ^ 63 := by decide
  rw [f64Round, hm]
  refine ⟨f64IsFinite_pack s h, f64Sign_pack s (h.trans hi), ?_⟩
  rw [f64Units_pack s (roundEven_le h2) ?_ h, Nat.mul_assoc, ← pow_add, Nat.sub_add_cancel h1]
  rcases h3 with h3 | h3
  · exact .inl (by omega)
  · exact .inr (le_roundEven h3)

/-- A number of at most 53 bits is rounded to itself. -/
theorem f64Round_exact (s : Bool) {t e : Nat} (ht : t ≤ 2 ^ 53) (he : e ≤ 2043) :
    f64IsFinite (f64Round s (t * 2 ^ e) 0) = true ∧ f64Sign (f64Round s (t * 2 ^ e) 0) = s
      ∧ f64Units (f64Round s (t * 2 ^ e) 0) = t * 2 ^ e := by
  obtain ⟨h1, h2, h3⟩ := f64Drop_spec (t * 2 ^ e) 0
  set n := t * 2 ^ e with hn
  set d := f64Drop n 0 with hd
  have hde : d ≤ e + 1 := by
    by_contra hc
    rcases h3 with h3 | h3
    · omega
    · have hd0 : 2 ^ (e + 2) ≤ 2 ^ d := Nat.pow_le_pow_right (by norm_num) (by omega)
      have : 2 ^ 52 * 2 ^ (e + 2) ≤ t * 2 ^ e := (Nat.mul_le_mul_left _ hd0).trans (h3.trans hn.le)
      rw [pow_add, ← Nat.mul_assoc, Nat.mul_right_comm] at this
      have := Nat.le_of_mul_le_mul_right this (Nat.two_pow_pos e)
      omega
  have hr : roundEven n d * 2 ^ d = n := by
    have hdvd : 2 ^ d ∣ n := by
      rcases Nat.lt_or_ge e d with h | h
      · have he1 : d = e + 1 := by omega
        clear_value d
        subst he1
        rcases h3 with h3 | h3
        · omega
        · have h4 : 2 ^ 52 * (2 * 2 ^ e) ≤ t * 2 ^ e := by rw [← pow_succ']; exact h3
          have h5 : 2 ^ 53 ≤ t := by
            refine Nat.le_of_mul_le_mul_right ?_ (Nat.two_pow_pos e)
            rw [show 2 ^ 53 * 2 ^ e = 2 ^ 52 * (2 * 2 ^ e) by ring]
            exact h4
          obtain rfl : t = 2 ^ 53 := by omega
          exact ⟨2 ^ 52, by rw [hn]; ring⟩
      · exact (pow_dvd_pow 2 h).trans (Dvd.intro_left t rfl)
    have hz : n % 2 ^ d = 0 := Nat.mod_eq_zero_of_dvd hdvd
    rw [roundEven, hz, if_neg (by have := Nat.two_pow_pos d; omega)]
    exact Nat.div_mul_cancel hdvd
  have hfin : (d - 0) * 2 ^ 52 + roundEven n d < f64InfBits := by
    have h5 : roundEven n d ≤ 2 ^ 53 := roundEven_le h2
    simp only [f64InfBits]
    omega
  obtain ⟨r1, r2, r3⟩ := f64Round_spec s hfin
  refine ⟨r1, r2, ?_⟩
  rw [pow_zero, Nat.mul_one] at r3
  rw [r3, hr]

/-! ## Values as rationals -/

theorem f64Rat_of_units {x : F64} (hs : f64Sign x = false) : f64Rat x = (f64Units x : ℚ) / 2 ^ 1074 := by
  rw [f64Rat, f64Int, hs]
  simp

theorem f64Rat_nonneg {x : F64} (hs : f64Sign x = false) : 0 ≤ f64Rat x := by
  rw [f64Rat_of_units hs]
  exact div_nonneg (Nat.cast_nonneg' _) (pow_nonneg zero_le_two 1074)

/-- t * 2^e units, t of at most 53 bits, as the binary64 value it is. -/
theorem f64Rat_round_exact {t e : Nat} (ht : t ≤ 2 ^ 53) (he : e ≤ 2043) :
    f64Rat (f64Round false (t * 2 ^ e) 0) = (t : ℚ) * 2 ^ e / 2 ^ 1074 := by
  obtain ⟨-, h2, h3⟩ := f64Round_exact false ht he
  rw [f64Rat_of_units h2, h3]
  push_cast
  rfl

theorem not_nan_of_finite {x : F64} (h : f64IsFinite x = true) : f64IsNaN x = false ∧ f64IsInf x = false := by
  simp only [f64IsFinite, decide_eq_true_eq] at h
  simp [f64IsNaN, f64IsInf, h]

/-- The product of two finite values is the rounded product of their counts. -/
theorem f64Mul_of_finite {a b : F64} (ha : f64IsFinite a = true) (hb : f64IsFinite b = true) :
    f64Mul a b = f64Round (xor (f64Sign a) (f64Sign b)) (f64Units a * f64Units b) 1074 := by
  obtain ⟨a1, a2⟩ := not_nan_of_finite ha
  obtain ⟨b1, b2⟩ := not_nan_of_finite hb
  simp [f64Mul, a1, a2, b1, b2]

theorem abs_sub_le_of_twice {n r d b : ℚ} (h1 : 2 * n ≤ 2 * r + d) (h2 : 2 * r ≤ 2 * n + d) (h3 : d ≤ 2 * b) :
    |r - n| ≤ b := by
  rw [abs_le]
  constructor <;> linarith

/-- Products of values in [0, 1] are finite, in [0, 1], and within 2^-53 of the exact product. -/
theorem f64Mul_error {a b : F64} (ha : f64IsFinite a = true) (hb : f64IsFinite b = true) (sa : f64Sign a = false)
    (sb : f64Sign b = false) (ua : f64Units a ≤ 2 ^ 1074) (ub : f64Units b ≤ 2 ^ 1074) :
    f64IsFinite (f64Mul a b) = true ∧ 0 ≤ f64Rat (f64Mul a b)
      ∧ |f64Rat (f64Mul a b) - f64Rat a * f64Rat b| ≤ 1 / 2 ^ 53 := by
  set n := f64Units a * f64Units b with hn
  have hle : n ≤ 2 ^ 2148 := (Nat.mul_le_mul ua ub).trans (by rw [← pow_add])
  obtain ⟨h1, h2, h3⟩ := f64Drop_spec n 1074
  have hd : f64Drop n 1074 ≤ 2096 := by
    rcases h3 with h3 | h3
    · omega
    · have : 2 ^ (52 + f64Drop n 1074) ≤ 2 ^ 2148 := by rw [pow_add]; exact h3.trans hle
      have := (Nat.pow_le_pow_iff_right (a := 2) (by norm_num)).1 this
      omega
  have hfin : (f64Drop n 1074 - 1074) * 2 ^ 52 + roundEven n (f64Drop n 1074) < f64InfBits := by
    have := roundEven_le h2
    simp only [f64InfBits]
    omega
  obtain ⟨r1, r2, r3⟩ := f64Round_spec false hfin
  have hm : f64Mul a b = f64Round false n 1074 := by rw [f64Mul_of_finite ha hb, sa, sb]; rfl
  rw [hm]
  refine ⟨r1, ?_, ?_⟩
  · exact f64Rat_nonneg r2
  · obtain ⟨e1, e2⟩ := roundEven_error n (f64Drop n 1074)
    rw [← r3] at e1 e2
    have hp : (2 : ℚ) ^ f64Drop n 1074 ≤ 2 ^ 2096 := pow_le_pow_right₀ (by norm_num) hd
    have e1' : (2 : ℚ) * n ≤ 2 * (f64Units (f64Round false n 1074) * 2 ^ 1074) + 2 ^ f64Drop n 1074 := by
      exact_mod_cast e1
    have e2' : (2 : ℚ) * (f64Units (f64Round false n 1074) * 2 ^ 1074) ≤ 2 * n + 2 ^ f64Drop n 1074 := by
      exact_mod_cast e2
    have hx : f64Rat (f64Round false n 1074) - f64Rat a * f64Rat b
        = (f64Units (f64Round false n 1074) * 2 ^ 1074 - n) / 2 ^ 2148 := by
      rw [f64Rat_of_units r2, f64Rat_of_units sa, f64Rat_of_units sb, hn]
      push_cast
      field_simp
    rw [hx, abs_div, abs_of_pos (show (0 : ℚ) < 2 ^ 2148 by positivity), div_le_div_iff₀ (by positivity) (by positivity),
      one_mul]
    have : |(f64Units (f64Round false n 1074) : ℚ) * 2 ^ 1074 - n| ≤ 2 ^ 2095 :=
      abs_sub_le_of_twice e1' e2' (hp.trans_eq (pow_succ' 2 2095))
    calc |(f64Units (f64Round false n 1074) : ℚ) * 2 ^ 1074 - n| * 2 ^ 53 ≤ 2 ^ 2095 * 2 ^ 53 := by gcongr
      _ = 2 ^ 2148 := by rw [← pow_add]

end Sys2Proof.Machine
end

