-- ==== Sys2Proof/Machine/Reference.lean ====
section
/-!
DEFINITION. A numerics record that meets the contract of NUM, by rational arithmetic of sufficient precision, with
the proof that it does. It stands for no chip, no step runs it and no statement may rest on it: it shows that the
contract can be met, so that the type of the opaque NUM (Machine/Num.lean) has an element. The spec's own reference
instance is another record (43_convolution.md R162): `ReferenceInstance` in Machine/Instance.lean.
-/

namespace Sys2Proof.Machine

open Sys2Proof

/-! ## A record that meets the contract: the kernel -/

/-- k²/(2σ²) for σ = STD/1000, exactly (42_kernel.md R152). -/
def gaussArg (std k : Int) : ℚ := 500000 * (k : ℚ) ^ 2 / (std : ℚ) ^ 2

/-- (1 - x/n)^n ≤ exp(-x), for 0 ≤ x ≤ n. -/
def expBelow (n : Nat) (x : ℚ) : ℚ := (1 - x / n) ^ n
/-- exp(-x) ≤ 1/(1 + x/n)^n, for 0 ≤ x. -/
def expAbove (n : Nat) (x : ℚ) : ℚ := 1 / (1 + x / n) ^ n

/-- Σ f(j) over j ∈ [-s, s]. -/
def offsetSum (s : Nat) (f : ℤ → ℚ) : ℚ := ∑ j ∈ Finset.range (2 * s + 1), f (j - s)

/-- w_k from below, by bounds on g of precision n. -/
def ratioBelow (std : Int) (s : Nat) (k : Int) (n : Nat) : ℚ :=
  expBelow n (gaussArg std k) / offsetSum s fun j => expAbove n (gaussArg std j)
/-- w_k from above. -/
def ratioAbove (std : Int) (s : Nat) (k : Int) (n : Nat) : ℚ :=
  expAbove n (gaussArg std k) / offsetSum s fun j => expBelow n (gaussArg std j)

/-- Precision n tells w_k to 52 bits. -/
abbrev Precise (std : Int) (s : Nat) (k : Int) (n : Nat) : Prop :=
  0 < n ∧ gaussArg std k ≤ n ∧ (∀ j ∈ Finset.range (2 * s + 1), gaussArg std (j - s) < n)
    ∧ ratioAbove std s k n - ratioBelow std s k n ≤ 1 / 2 ^ 52

theorem sum_offsets {M : Type} [AddCommMonoid M] (s : Nat) (f : ℤ → M) :
    ∑ j ∈ Finset.Icc (-(s : ℤ)) s, f j = ∑ j ∈ Finset.range (2 * s + 1), f (j - s) := by
  refine Finset.sum_nbij' (fun j => (j + s).toNat) (fun n => (n : ℤ) - s) ?_ ?_ ?_ ?_ ?_
  · intro j hj
    simp only [Finset.mem_Icc, Finset.mem_range] at *
    omega
  · intro n hn
    simp only [Finset.mem_Icc, Finset.mem_range] at *
    omega
  · intro j hj
    simp only [Finset.mem_Icc] at hj
    show ((j + s).toNat : ℤ) - s = j
    omega
  · intro n _
    show ((n : ℤ) - s + s).toNat = n
    omega
  · intro j hj
    simp only [Finset.mem_Icc] at hj
    congr 1
    omega

theorem gaussArg_nonneg (std k : Int) : 0 ≤ gaussArg std k := by unfold gaussArg; positivity

theorem exactGauss_eq (std k : Int) : exactGauss std k = Real.exp (-(gaussArg std k : ℝ)) := by
  rw [exactGauss, gaussArg]
  congr 1
  push_cast
  rcases eq_or_ne (std : ℝ) 0 with h | h
  · simp [h]
  · field_simp
    ring

theorem expBelow_le {n : Nat} {x : ℚ} (hn : 0 < n) (hx : x ≤ n) :
    0 ≤ expBelow n x ∧ (expBelow n x : ℝ) ≤ Real.exp (-(x : ℝ)) := by
  constructor
  · refine pow_nonneg ?_ n
    rw [sub_nonneg, div_le_one (by exact_mod_cast hn)]
    exact hx
  · rw [expBelow]
    push_cast
    exact Real.one_sub_div_pow_le_exp_neg (by exact_mod_cast hx)

theorem le_expAbove {n : Nat} {x : ℚ} (hn : 0 < n) (h0 : 0 ≤ x) :
    0 < expAbove n x ∧ Real.exp (-(x : ℝ)) ≤ (expAbove n x : ℝ) := by
  have hpos : (0 : ℚ) < 1 + x / n := by positivity
  refine ⟨by unfold expAbove; positivity, ?_⟩
  have hpos' : (0 : ℝ) < 1 + (x : ℝ) / n := by exact_mod_cast hpos
  have h : (1 + (x : ℝ) / n) ^ n ≤ Real.exp x := by
    calc (1 + (x : ℝ) / n) ^ n ≤ Real.exp ((x : ℝ) / n) ^ n := by
          gcongr
          rw [add_comm]
          exact Real.add_one_le_exp _
      _ = Real.exp x := by
          rw [← Real.exp_nat_mul]
          congr 1
          field_simp
  rw [expAbove, Real.exp_neg]
  push_cast
  rw [one_div]
  exact inv_anti₀ (by positivity) h

open Filter Topology in
theorem tendsto_expBelow (x : ℚ) :
    Tendsto (fun n : ℕ => (expBelow n x : ℝ)) atTop (𝓝 (Real.exp (-(x : ℝ)))) := by
  refine (Real.tendsto_one_add_div_pow_exp (-(x : ℝ))).congr fun n => ?_
  rw [expBelow]
  push_cast
  ring

open Filter Topology in
theorem tendsto_expAbove (x : ℚ) :
    Tendsto (fun n : ℕ => (expAbove n x : ℝ)) atTop (𝓝 (Real.exp (-(x : ℝ)))) := by
  rw [Real.exp_neg]
  refine ((Real.tendsto_one_add_div_pow_exp (x : ℝ)).inv₀ (Real.exp_ne_zero _)).congr fun n => ?_
  rw [expAbove]
  push_cast
  rw [one_div]

theorem exactWeight_eq (std : Int) (s : Nat) (k : Int) :
    exactWeight std s k = Real.exp (-(gaussArg std k : ℝ))
      / ∑ j ∈ Finset.range (2 * s + 1), Real.exp (-(gaussArg std ((j : ℤ) - s) : ℝ)) := by
  rw [exactWeight, sum_offsets]
  simp only [exactGauss_eq]

theorem exp_sum_pos (std : Int) (s : Nat) :
    0 < ∑ j ∈ Finset.range (2 * s + 1), Real.exp (-(gaussArg std ((j : ℤ) - s) : ℝ)) :=
  Finset.sum_pos (fun _ _ => Real.exp_pos _) ⟨0, by simp⟩

open Filter Topology in
theorem exists_precise (std : Int) (s : Nat) (k : Int) : ∃ n, Precise std s k n := by
  have hsum := (exp_sum_pos std s).ne'
  have hb : Tendsto (fun n => (ratioBelow std s k n : ℝ)) atTop (𝓝 (exactWeight std s k)) := by
    simp only [ratioBelow, offsetSum, exactWeight_eq]
    push_cast
    exact (tendsto_expBelow _).div (tendsto_finsetSum _ fun j _ => tendsto_expAbove _) hsum
  have ha : Tendsto (fun n => (ratioAbove std s k n : ℝ)) atTop (𝓝 (exactWeight std s k)) := by
    simp only [ratioAbove, offsetSum, exactWeight_eq]
    push_cast
    exact (tendsto_expAbove _).div (tendsto_finsetSum _ fun j _ => tendsto_expBelow _) hsum
  have hd := ha.sub hb
  rw [sub_self] at hd
  have h1 := hd.eventually (gt_mem_nhds (show (0 : ℝ) < 1 / 2 ^ 52 by positivity))
  have h2 : ∀ j : ℤ, ∀ᶠ n : ℕ in atTop, gaussArg std j < n := fun j => by
    obtain ⟨m, hm⟩ := exists_nat_gt (gaussArg std j)
    filter_upwards [eventually_ge_atTop m] with n hn
    exact hm.trans_le (by exact_mod_cast hn)
  have h3 : ∀ᶠ n : ℕ in atTop, ∀ j ∈ Finset.range (2 * s + 1), gaussArg std ((j : ℤ) - s) < n :=
    (Finset.eventually_all _).2 fun j _ => h2 _
  obtain ⟨n, h1, h2, h3, h4⟩ := (h1.and ((h2 k).and (h3.and (eventually_gt_atTop 0)))).exists
  refine ⟨n, h4, h2.le, h3, ?_⟩
  have h5 : ((ratioAbove std s k n - ratioBelow std s k n : ℚ) : ℝ) ≤ ((1 / 2 ^ 52 : ℚ) : ℝ) := by
    push_cast
    exact h1.le
  exact_mod_cast h5

/-! ### The taps -/

theorem exactWeight_le_one (std : Int) {s : Nat} {k : Int} (h1 : -(s : Int) ≤ k) (h2 : k ≤ s) :
    0 ≤ exactWeight std s k ∧ exactWeight std s k ≤ 1 := by
  have hpos : 0 < ∑ j ∈ Finset.Icc (-(s : ℤ)) s, exactGauss std j :=
    Finset.sum_pos (fun _ _ => Real.exp_pos _) ⟨0, by simp⟩
  refine ⟨div_nonneg (Real.exp_pos _).le hpos.le, ?_⟩
  rw [exactWeight, div_le_one hpos]
  exact Finset.single_le_sum (f := exactGauss std) (fun j _ => (Real.exp_pos _).le) (Finset.mem_Icc.2 ⟨h1, h2⟩)

theorem gaussArg_natAbs (std k : Int) : gaussArg std (k.natAbs : Int) = gaussArg std k := by
  simp only [gaussArg, Int.natCast_natAbs, Int.cast_abs, sq_abs]

theorem exactWeight_natAbs (std : Int) (s : Nat) (k : Int) :
    exactWeight std s (k.natAbs : Int) = exactWeight std s k := by
  rw [exactWeight, exactWeight, exactGauss_eq, exactGauss_eq std k, gaussArg_natAbs]

/-- Where the precision is enough, the bounds enclose w_k. -/
theorem ratio_enclosure {std : Int} {s n : Nat} {k : Int} (h : Precise std s k n) :
    0 ≤ ratioBelow std s k n ∧ (ratioBelow std s k n : ℝ) ≤ exactWeight std s k
      ∧ exactWeight std s k ≤ (ratioBelow std s k n : ℝ) + 1 / 2 ^ 52 := by
  obtain ⟨hn, hk, hj, hp⟩ := h
  have hlow := expBelow_le hn hk
  have hup := le_expAbove hn (gaussArg_nonneg std k)
  have sumpos : 0 < ∑ j ∈ Finset.range (2 * s + 1), expAbove n (gaussArg std ((j : ℤ) - s)) :=
    Finset.sum_pos (fun j _ => (le_expAbove hn (gaussArg_nonneg std _)).1) ⟨0, by simp⟩
  have sumpos' : 0 < ∑ j ∈ Finset.range (2 * s + 1), expBelow n (gaussArg std ((j : ℤ) - s)) := by
    refine Finset.sum_pos (fun j hj' => pow_pos ?_ n) ⟨0, by simp⟩
    rw [sub_pos, div_lt_one (by exact_mod_cast hn)]
    exact hj j hj'
  have hexp := exp_sum_pos std s
  have habove : ∑ j ∈ Finset.range (2 * s + 1), Real.exp (-(gaussArg std ((j : ℤ) - s) : ℝ))
      ≤ ∑ j ∈ Finset.range (2 * s + 1), (expAbove n (gaussArg std ((j : ℤ) - s)) : ℝ) :=
    Finset.sum_le_sum fun j _ => (le_expAbove hn (gaussArg_nonneg std _)).2
  have hbelow : ∑ j ∈ Finset.range (2 * s + 1), (expBelow n (gaussArg std ((j : ℤ) - s)) : ℝ)
      ≤ ∑ j ∈ Finset.range (2 * s + 1), Real.exp (-(gaussArg std ((j : ℤ) - s) : ℝ)) :=
    Finset.sum_le_sum fun j hj' => (expBelow_le hn (hj j hj').le).2
  have h1 : (ratioBelow std s k n : ℝ) ≤ exactWeight std s k := by
    rw [exactWeight_eq, ratioBelow, offsetSum]
    push_cast
    exact div_le_div₀ (Real.exp_pos _).le hlow.2 hexp habove
  have h2 : exactWeight std s k ≤ (ratioAbove std s k n : ℝ) := by
    rw [exactWeight_eq, ratioAbove, offsetSum]
    push_cast
    refine div_le_div₀ (by exact_mod_cast hup.1.le) hup.2 (by exact_mod_cast sumpos') hbelow
  refine ⟨div_nonneg hlow.1 sumpos.le, h1, ?_⟩
  have hp' : (ratioAbove std s k n : ℝ) - ratioBelow std s k n ≤ 1 / 2 ^ 52 := by
    have : ((ratioAbove std s k n - ratioBelow std s k n : ℚ) : ℝ) ≤ ((1 / 2 ^ 52 : ℚ) : ℝ) := by exact_mod_cast hp
    push_cast at this
    exact this
  linarith

/-- Tap i of the kernel in units of 2^-52. -/
def refTap (std : Int) (s i : Nat) : Nat :=
  let k : Int := ((i : Int) - s).natAbs
  min ⌊ratioBelow std s k (Nat.find (exists_precise std s k)) * 2 ^ 52⌋₊ (2 ^ 52)

theorem refTap_error (std : Int) {s i : Nat} (hi : i ≤ 2 * s) :
    |(refTap std s i : ℝ) / 2 ^ 52 - exactWeight std s ((i : ℤ) - s)| ≤ 1 / 2 ^ 51 := by
  obtain ⟨h0, h1, h2⟩ := ratio_enclosure (Nat.find_spec (exists_precise std s (((i : Int) - s).natAbs : Int)))
  rw [exactWeight_natAbs] at h1 h2
  set r := ratioBelow std s (((i : Int) - s).natAbs : Int)
    (Nat.find (exists_precise std s (((i : Int) - s).natAbs : Int))) with hr
  have hw := (exactWeight_le_one std (s := s) (k := (i : ℤ) - s) (by omega) (by omega)).2
  have hr1 : r ≤ 1 := by exact_mod_cast h1.trans hw
  have hfl : ⌊r * 2 ^ 52⌋₊ ≤ 2 ^ 52 := by
    refine Nat.floor_le_of_le ?_
    push_cast
    nlinarith
  have ht : refTap std s i = ⌊r * 2 ^ 52⌋₊ := by
    rw [refTap]
    exact min_eq_left hfl
  have hlo : (⌊r * 2 ^ 52⌋₊ : ℝ) ≤ r * 2 ^ 52 := by
    have : (⌊r * 2 ^ 52⌋₊ : ℚ) ≤ r * 2 ^ 52 := Nat.floor_le (by positivity)
    exact_mod_cast this
  have hhi : (r : ℝ) * 2 ^ 52 < ⌊r * 2 ^ 52⌋₊ + 1 := by
    have : r * 2 ^ 52 < (⌊r * 2 ^ 52⌋₊ : ℚ) + 1 := Nat.lt_floor_add_one _
    exact_mod_cast this
  rw [ht, abs_le]
  constructor
  · suffices exactWeight std s ((i : ℤ) - s) - 1 / 2 ^ 51 ≤ ((⌊r * 2 ^ 52⌋₊ : ℝ)) / 2 ^ 52 by linarith
    rw [le_div_iff₀ (by positivity), sub_mul]
    have := mul_le_mul_of_nonneg_right h2 (show (0 : ℝ) ≤ 2 ^ 52 by positivity)
    rw [add_mul, one_div_mul_cancel (by positivity)] at this
    have e : (1 : ℝ) / 2 ^ 51 * 2 ^ 52 = 2 := by norm_num
    rw [e]
    clear_value r
    generalize (⌊r * 2 ^ 52⌋₊ : ℝ) = f at *
    generalize exactWeight std s ((i : ℤ) - s) * 2 ^ 52 = w at *
    generalize (r : ℝ) * 2 ^ 52 = q at *
    linarith
  · have : ((⌊r * 2 ^ 52⌋₊ : ℝ)) / 2 ^ 52 ≤ exactWeight std s ((i : ℤ) - s) := by
      rw [div_le_iff₀ (by positivity)]
      nlinarith
    have : (0 : ℝ) ≤ 1 / 2 ^ 51 := by positivity
    linarith

/-- kerImpl of this record. -/
def refKer (std : Int) (s i : Nat) : F64 :=
  if s = 0 then f64One else f64Round false (refTap std s i * 2 ^ 1022) 0

theorem refTap_le (std : Int) (s i : Nat) : refTap std s i ≤ 2 ^ 52 := min_le_right _ _

theorem refTap_symm (std : Int) {s i : Nat} (h : i ≤ 2 * s) : refTap std s i = refTap std s (2 * s - i) := by
  have : ((i : Int) - s).natAbs = (((2 * s - i : ℕ) : Int) - s).natAbs := by omega
  simp only [refTap, this]

theorem refKer_spec (std : Int) {s : Nat} (hs : s ≠ 0) (i : Nat) :
    f64IsFinite (refKer std s i) = true ∧ f64Sign (refKer std s i) = false
      ∧ f64Units (refKer std s i) ≤ 2 ^ 1074 ∧ f64Rat (refKer std s i) = (refTap std s i : ℚ) / 2 ^ 52 := by
  have ht := refTap_le std s i
  obtain ⟨h1, h2, h3⟩ := f64Round_exact false (t := refTap std s i) (e := 1022) (ht.trans (by norm_num)) (by norm_num)
  rw [refKer, if_neg hs]
  refine ⟨h1, h2, ?_, ?_⟩
  · rw [h3]
    calc refTap std s i * 2 ^ 1022 ≤ 2 ^ 52 * 2 ^ 1022 := Nat.mul_le_mul_right _ ht
      _ = 2 ^ 1074 := by rw [← pow_add]
  · rw [f64Rat_round_exact (ht.trans (by norm_num)) (by norm_num)]
    field_simp

theorem refKer_error (std : Int) {s i : Nat} (hs : s ≠ 0) (hi : i ≤ 2 * s) :
    |(f64Rat (refKer std s i) : ℝ) - exactWeight std s ((i : ℤ) - s)| ≤ 1 / 2 ^ 51 := by
  have := refTap_error std hi
  rw [(refKer_spec std hs i).2.2.2]
  push_cast
  exact this

theorem f64One_facts : f64IsFinite f64One = true ∧ f64Sign f64One = false ∧ f64Units f64One = 2 ^ 1074 := by
  have he : f64Exp f64One = 1023 := by decide
  have hf : f64Frac f64One = 0 := by decide
  refine ⟨by decide, by decide, ?_⟩
  rw [f64Units, he, hf, if_neg (by decide), Nat.add_zero, ← pow_add]

theorem f64Rat_one : f64Rat f64One = 1 := by
  rw [f64Rat_of_units f64One_facts.2.1, f64One_facts.2.2, Nat.cast_pow, Nat.cast_ofNat]
  exact div_self (by positivity)

theorem exactWeight_zero (std : Int) : exactWeight std 0 0 = 1 := by
  rw [exactWeight]
  simp only [Nat.cast_zero, neg_zero, Finset.Icc_self, Finset.sum_singleton]
  exact div_self (Real.exp_pos _).ne'

theorem Ratio.le_toReal {r : Ratio} {k : Nat} (h0 : 0 < r.den) (h : r.den ≤ r.num * 2 ^ k) :
    1 / 2 ^ k ≤ r.toReal := by
  rw [Ratio.toReal, div_le_div_iff₀ (by positivity) (by exact_mod_cast h0), one_mul]
  exact_mod_cast h

theorem ref_kernelContract {c : Config} (hc : c.InRange) (hr : c.ReferenceBounds) (n : Numerics) (hn : n.ker = refKer) :
    KernelContract c n := by
  obtain ⟨-, -, -, -, -, -, -, -, ker_den, -⟩ := hc
  have heps : (1 : ℝ) / 2 ^ 40 ≤ c.epsKer.toReal := Ratio.le_toReal ker_den hr.1
  intro std s i _ _ hi
  rw [hn]
  rcases eq_or_ne s 0 with rfl | hs
  · obtain rfl : i = 0 := by omega
    have h1 : refKer std 0 0 = f64One := rfl
    rw [h1]
    refine ⟨rfl, fun _ => rfl, f64One_facts.1, ?_, ?_, ?_⟩
    · rw [f64Rat_one]; exact zero_le_one
    · rw [f64Rat_one]
    · rw [f64Rat_one]
      simp only [Nat.cast_zero, exactWeight_zero, Rat.cast_one, sub_self, abs_zero]
      exact le_trans (by positivity) heps
  · obtain ⟨h1, h2, -, h4⟩ := refKer_spec std hs i
    refine ⟨?_, fun h => absurd h hs, h1, f64Rat_nonneg h2, ?_, ?_⟩
    · rw [refKer, refKer, if_neg hs, if_neg hs, refTap_symm std hi]
    · rw [h4, div_le_one (by positivity)]
      exact_mod_cast refTap_le std s i
    · refine (refKer_error std hs hi).trans (le_trans ?_ heps)
      exact one_div_le_one_div_of_le (by positivity) (pow_le_pow_right₀ (by norm_num) (by norm_num))

/-! ## A record that meets the contract: the convolution

Its transforms are the identity and its product is the convolution of the two arrays. -/

/-- Zero. -/
def cplxZero : Cplx := { re := f64Zero, im := f64Zero }

/-- The real part at the offset [i, j] of an array centred on [0, 0], if the offset is under half the width. -/
def offsetAt (pw ph : Nat) (k : List Cplx) (i j : Int) : ℚ :=
  if 2 * i < pw ∧ -(pw : Int) < 2 * i ∧ 2 * j < ph ∧ -(ph : Int) < 2 * j then
    f64Rat (k.getD ((j % ph).toNat * pw + (i % pw).toNat) cplxZero).re
  else 0

/-- The real part at [x, y] of an array, 0 outside it. -/
def pixelAt (pw ph : Nat) (a : List Cplx) (x y : Int) : ℚ :=
  if 0 ≤ x ∧ x < pw ∧ 0 ≤ y ∧ y < ph then f64Rat (a.getD (y.toNat * pw + x.toNat) cplxZero).re else 0

/-- The convolution of two arrays at [x, y], over the offsets up to 31. -/
def refConv (pw ph : Nat) (a k : List Cplx) (x y : Nat) : ℚ :=
  offsetSum 31 fun i => offsetSum 31 fun j => offsetAt pw ph k i j * pixelAt pw ph a (x - i) (y - j)

/-- pmul of this record. -/
def refPmul (pw ph : Nat) (a k : List Cplx) (idx : Nat) : Cplx :=
  { re := f64Round false (min ⌊refConv pw ph a k (idx % pw) (idx / pw) * 2 ^ 30⌋₊ (2 ^ 52) * 2 ^ 1044) 0
    im := f64Zero }

/-- A record that meets the contract. -/
def refNumerics : Numerics :=
  { ker := refKer
    fftFwd := fun _ _ x idx => x.getD idx cplxZero
    fftInv := fun _ _ x idx => x.getD idx cplxZero
    pmul := refPmul }

theorem arrayOf_self {l : List Cplx} {n : Nat} (h : l.length = n) (d : Cplx) : arrayOf n (fun i => l.getD i d) = l :=
  (eq_arrayOf h fun i hi => by rw [List.getD_eq_getElem?_getD, List.getElem?_eq_getElem (by omega)]; rfl).symm

theorem f64Rat_zero : f64Rat f64Zero = 0 := by
  have h : f64Int f64Zero = 0 := by decide
  rw [f64Rat, h, Int.cast_zero, zero_div]

theorem f64Rat_ofByte (b : Byte) : f64Rat (f64OfByte b) = b.toNat := by
  have := b.isLt
  rw [f64OfByte, f64Rat_round_exact (by omega) (by norm_num)]
  exact mul_div_cancel_right₀ _ (by positivity)

theorem grid_index {x y pw ph : Nat} (hx : x < pw) (hy : y < ph) :
    y * pw + x < pw * ph ∧ (y * pw + x) % pw = x ∧ (y * pw + x) / pw = y := by
  refine ⟨by nlinarith [Nat.mul_le_mul_right pw (show y + 1 ≤ ph from hy)], ?_, ?_⟩
  · rw [Nat.mul_comm, Nat.mul_add_mod, Nat.mod_eq_of_lt hx]
  · rw [Nat.mul_comm, Nat.mul_add_div (by omega), Nat.div_eq_of_lt hx, Nat.add_zero]

/-- The result of the canonical sequence is the product. -/
theorem canonical_ref (std : Int) (g : Geom) (samples : List Byte) {x y : Nat} (hx : x < g.pw) (hy : y < g.ph) :
    canonicalArray refNumerics std g samples (y * g.pw + x)
      = refPmul g.pw g.ph (paddedImage g samples) (wrappedKernel g (refKer std g.s)) (y * g.pw + x) := by
  simp only [canonicalArray, refNumerics, arrayOf_self (paddedImage_length _ _),
    arrayOf_self (wrappedKernel_length _ _)]
  exact arrayOf_getD (grid_index hx hy).1 _ _

theorem pixelAt_paddedImage (g : Geom) (samples : List Byte) (x y : Int) :
    pixelAt g.pw g.ph (paddedImage g samples) x y = paddedSample samples g.w g.h x y := by
  have h1 := g.w_add_le_pw
  have h2 := g.h_add_le_ph
  unfold pixelAt paddedSample
  by_cases hin : 0 ≤ x ∧ x < g.pw ∧ 0 ≤ y ∧ y < g.ph
  · rw [if_pos hin, List.getD_eq_getElem?_getD,
      paddedImage_get g samples (u := x.toNat) (v := y.toNat) (by omega) (by omega), Option.getD_some]
    by_cases hp : x.toNat < g.w ∧ y.toNat < g.h
    · rw [if_pos hp, if_pos (by omega)]
      exact f64Rat_ofByte _
    · rw [if_neg hp, if_neg (by omega)]
      simp [f64Rat_zero]
  · rw [if_neg hin, if_neg (by omega), Nat.cast_zero]

theorem offsetAt_wrappedKernel (g : Geom) (tap : Nat → F64) (hw : 1 ≤ g.w) (hh : 1 ≤ g.h) (i j : Int) :
    offsetAt g.pw g.ph (wrappedKernel g tap) i j
      = if (-(g.s : Int) ≤ i ∧ i ≤ g.s) ∧ (-(g.s : Int) ≤ j ∧ j ≤ g.s) then
          f64Rat (f64Mul (tap ((g.s : Int) + i).toNat) (tap ((g.s : Int) + j).toNat))
        else 0 := by
  have h1 := g.w_add_le_pw
  have h2 := g.h_add_le_ph
  unfold offsetAt
  by_cases hin : 2 * i < g.pw ∧ -(g.pw : Int) < 2 * i ∧ 2 * j < g.ph ∧ -(g.ph : Int) < 2 * j
  · obtain ⟨i1, i2, j1, j2⟩ := hin
    have hi := Int.emod_lt_of_pos i (show (0 : Int) < g.pw by omega)
    have hj := Int.emod_lt_of_pos j (show (0 : Int) < g.ph by omega)
    rw [if_pos ⟨i1, i2, j1, j2⟩, List.getD_eq_getElem?_getD,
      wrappedKernel_get g tap (u := (i % g.pw).toNat) (v := (j % g.ph).toNat) (by omega) (by omega), Option.getD_some,
      kernelEntry]
    by_cases h3 : -(g.s : Int) ≤ i ∧ i ≤ g.s
    · rw [wrappedTap_mod (by omega) h3.1 h3.2]
      by_cases h4 : -(g.s : Int) ≤ j ∧ j ≤ g.s
      · rw [wrappedTap_mod (by omega) h4.1 h4.2, if_pos ⟨h3, h4⟩]
      · rw [wrappedTap_mod_none j1 j2 (by omega), if_neg (fun h => h4 h.2)]
        exact f64Rat_zero
    · rw [wrappedTap_mod_none i1 i2 (by omega), if_neg (fun h => h3 h.1)]
      exact f64Rat_zero
  · rw [if_neg hin, if_neg (by omega)]

/-- The product of two taps, as it is stored, is close to the product of the exact weights. -/
theorem refKer_mul_error (std : Int) {s i j : Nat} (hs : s ≠ 0) (hi : i ≤ 2 * s) (hj : j ≤ 2 * s) :
    0 ≤ f64Rat (f64Mul (refKer std s i) (refKer std s j))
      ∧ |(f64Rat (f64Mul (refKer std s i) (refKer std s j)) : ℝ)
          - exactWeight std s ((i : ℤ) - s) * exactWeight std s ((j : ℤ) - s)| ≤ 1 / 2 ^ 49 := by
  obtain ⟨i1, i2, i3, i4⟩ := refKer_spec std hs i
  obtain ⟨j1, j2, j3, j4⟩ := refKer_spec std hs j
  obtain ⟨-, m2, m3⟩ := f64Mul_error i1 j1 i2 j2 i3 j3
  refine ⟨m2, ?_⟩
  have m3' : |(f64Rat (f64Mul (refKer std s i) (refKer std s j)) : ℝ)
      - f64Rat (refKer std s i) * f64Rat (refKer std s j)| ≤ 1 / 2 ^ 53 := by
    have : ((|f64Rat (f64Mul (refKer std s i) (refKer std s j))
      - f64Rat (refKer std s i) * f64Rat (refKer std s j)| : ℚ) : ℝ) ≤ ((1 / 2 ^ 53 : ℚ) : ℝ) := by exact_mod_cast m3
    push_cast at this
    exact this
  have ei := refKer_error std hs hi
  have ej := refKer_error std hs hj
  have wi := exactWeight_le_one std (s := s) (k := (i : ℤ) - s) (by omega) (by omega)
  have qj0 : (0 : ℝ) ≤ f64Rat (refKer std s j) := by exact_mod_cast f64Rat_nonneg j2
  have qj1 : (f64Rat (refKer std s j) : ℝ) ≤ 1 := by
    have : f64Rat (refKer std s j) ≤ 1 := by
      rw [j4, div_le_one (by positivity)]
      exact_mod_cast refTap_le std s j
    exact_mod_cast this
  generalize (f64Rat (f64Mul (refKer std s i) (refKer std s j)) : ℝ) = m at *
  generalize (f64Rat (refKer std s i) : ℝ) = a at *
  generalize (f64Rat (refKer std s j) : ℝ) = b at *
  generalize exactWeight std s ((i : ℤ) - s) = u at *
  generalize exactWeight std s ((j : ℤ) - s) = v at *
  have h1 : |a * b - u * v| ≤ 1 / 2 ^ 51 + 1 / 2 ^ 51 := by
    have : a * b - u * v = (a - u) * b + u * (b - v) := by ring
    rw [this]
    refine (abs_add_le _ _).trans (add_le_add ?_ ?_)
    · rw [abs_mul, abs_of_nonneg qj0]
      exact (mul_le_of_le_one_right (abs_nonneg _) qj1).trans ei
    · rw [abs_mul, abs_of_nonneg wi.1]
      exact (mul_le_of_le_one_left (abs_nonneg _) wi.2).trans ej
  calc |m - u * v| = |(m - a * b) + (a * b - u * v)| := by ring_nf
    _ ≤ |m - a * b| + |a * b - u * v| := abs_add_le _ _
    _ ≤ 1 / 2 ^ 53 + (1 / 2 ^ 51 + 1 / 2 ^ 51) := add_le_add m3' h1
    _ ≤ 1 / 2 ^ 49 := by norm_num

theorem paddedSample_le (samples : List Byte) (w h : Nat) (x y : Int) : paddedSample samples w h x y ≤ 255 := by
  unfold paddedSample
  split
  · have := (samples.getD (y.toNat * w + x.toNat) 0).isLt
    omega
  · omega

/-- Offsets beyond S add nothing. -/
theorem offsetSum_support {s : Nat} (hs : s ≤ 31) (f : ℤ → ℚ) (h : ∀ i, ¬ (-(s : Int) ≤ i ∧ i ≤ s) → f i = 0) :
    offsetSum 31 f = ∑ i ∈ Finset.Icc (-(s : ℤ)) s, f i := by
  rw [offsetSum, ← sum_offsets 31 f]
  refine (Finset.sum_subset ?_ fun i _ hi => h i fun hc => hi (Finset.mem_Icc.2 hc)).symm
  intro i hi
  rw [Finset.mem_Icc] at hi ⊢
  omega

theorem refConv_eq (std : Int) (g : Geom) (samples : List Byte) (hs : g.s ≤ 31) (hw : 1 ≤ g.w) (hh : 1 ≤ g.h)
    (x y : Nat) :
    refConv g.pw g.ph (paddedImage g samples) (wrappedKernel g (refKer std g.s)) x y
      = ∑ i ∈ Finset.Icc (-(g.s : ℤ)) g.s, ∑ j ∈ Finset.Icc (-(g.s : ℤ)) g.s,
          f64Rat (f64Mul (refKer std g.s ((g.s : Int) + i).toNat) (refKer std g.s ((g.s : Int) + j).toNat))
            * (paddedSample samples g.w g.h (x - i) (y - j) : ℚ) := by
  simp only [refConv, pixelAt_paddedImage, offsetAt_wrappedKernel g _ hw hh]
  rw [offsetSum_support hs]
  · refine Finset.sum_congr rfl fun i hi => ?_
    rw [Finset.mem_Icc] at hi
    rw [offsetSum_support hs]
    · refine Finset.sum_congr rfl fun j hj => ?_
      rw [Finset.mem_Icc] at hj
      rw [if_pos ⟨hi, hj⟩]
    · intro j hj
      rw [if_neg fun h => hj h.2, zero_mul]
  · intro i hi
    simp only [if_neg (fun h : (-(g.s : Int) ≤ i ∧ i ≤ g.s) ∧ _ => hi h.1), zero_mul, offsetSum,
      Finset.sum_const_zero]

theorem card_offsets {s : Nat} (hs : s ≤ 31) : ((Finset.Icc (-(s : ℤ)) s).card : ℝ) ≤ 63 := by
  have : (Finset.Icc (-(s : ℤ)) s).card ≤ 63 := by
    rw [Int.card_Icc]
    omega
  exact_mod_cast this

/-- A double sum of bounded terms. -/
theorem offsets_sum_le {s : Nat} (hs : s ≤ 31) {b : ℝ} (hb : 0 ≤ b) (f : ℤ → ℤ → ℝ)
    (h : ∀ i j, (-(s : Int) ≤ i ∧ i ≤ s) → (-(s : Int) ≤ j ∧ j ≤ s) → |f i j| ≤ b) :
    |∑ i ∈ Finset.Icc (-(s : ℤ)) s, ∑ j ∈ Finset.Icc (-(s : ℤ)) s, f i j| ≤ 63 * (63 * b) := by
  have hc := card_offsets hs
  refine (Finset.abs_sum_le_sum_abs _ _).trans ?_
  refine (Finset.sum_le_card_nsmul _ _ (63 * b) fun i hi => ?_).trans ?_
  · refine (Finset.abs_sum_le_sum_abs _ _).trans ?_
    refine (Finset.sum_le_card_nsmul _ _ b fun j hj => h i j (Finset.mem_Icc.1 hi) (Finset.mem_Icc.1 hj)).trans ?_
    rw [nsmul_eq_mul]
    exact mul_le_mul_of_nonneg_right hc hb
  · rw [nsmul_eq_mul]
    exact mul_le_mul_of_nonneg_right hc (by positivity)

theorem refConv_error (std : Int) (g : Geom) (samples : List Byte) (h1 : 1 ≤ g.s) (hs : g.s ≤ 31) (hw : 1 ≤ g.w)
    (hh : 1 ≤ g.h) (x y : Nat) :
    0 ≤ refConv g.pw g.ph (paddedImage g samples) (wrappedKernel g (refKer std g.s)) x y
      ∧ refConv g.pw g.ph (paddedImage g samples) (wrappedKernel g (refKer std g.s)) x y ≤ 2 ^ 21
      ∧ |(refConv g.pw g.ph (paddedImage g samples) (wrappedKernel g (refKer std g.s)) x y : ℝ)
          - exactConv std g samples x y| ≤ 1 / 2 ^ 28 := by
  rw [refConv_eq std g samples hs hw hh]
  have mul_error : ∀ i j : Int, (-(g.s : Int) ≤ i ∧ i ≤ g.s) → (-(g.s : Int) ≤ j ∧ j ≤ g.s) →
      0 ≤ f64Rat (f64Mul (refKer std g.s ((g.s : Int) + i).toNat) (refKer std g.s ((g.s : Int) + j).toNat))
        ∧ |(f64Rat (f64Mul (refKer std g.s ((g.s : Int) + i).toNat) (refKer std g.s ((g.s : Int) + j).toNat)) : ℝ)
          - exactWeight std g.s i * exactWeight std g.s j| ≤ 1 / 2 ^ 49 := by
    intro i j hi hj
    have := refKer_mul_error std (s := g.s) (i := ((g.s : Int) + i).toNat) (j := ((g.s : Int) + j).toNat) (by omega)
      (by omega) (by omega)
    rwa [show ((((g.s : Int) + i).toNat : ℕ) : ℤ) - g.s = i by omega,
      show ((((g.s : Int) + j).toNat : ℕ) : ℤ) - g.s = j by omega] at this
  have sample0 : ∀ i j : Int, (0 : ℝ) ≤ (paddedSample samples g.w g.h (x - i) (y - j) : ℝ) := fun i j => by positivity
  have sample1 : ∀ i j : Int, (paddedSample samples g.w g.h (x - i) (y - j) : ℝ) ≤ 255 := fun i j => by
    exact_mod_cast paddedSample_le samples g.w g.h (x - i) (y - j)
  refine ⟨?_, ?_, ?_⟩
  · refine Finset.sum_nonneg fun i hi => Finset.sum_nonneg fun j hj => ?_
    exact mul_nonneg (mul_error i j (Finset.mem_Icc.1 hi) (Finset.mem_Icc.1 hj)).1 (by positivity)
  · have := offsets_sum_le hs (b := 2 * 255) (by norm_num) (fun i j =>
      (f64Rat (f64Mul (refKer std g.s ((g.s : Int) + i).toNat) (refKer std g.s ((g.s : Int) + j).toNat)) : ℝ)
        * (paddedSample samples g.w g.h (x - i) (y - j) : ℝ)) (fun i j hi hj => ?_)
    · have h2 : ((∑ i ∈ Finset.Icc (-(g.s : ℤ)) g.s, ∑ j ∈ Finset.Icc (-(g.s : ℤ)) g.s,
          f64Rat (f64Mul (refKer std g.s ((g.s : Int) + i).toNat) (refKer std g.s ((g.s : Int) + j).toNat))
            * (paddedSample samples g.w g.h (x - i) (y - j) : ℚ) : ℚ) : ℝ) ≤ 2 ^ 21 := by
        push_cast
        exact (le_abs_self _).trans (this.trans (by norm_num))
      exact_mod_cast h2
    · obtain ⟨m0, m1⟩ := mul_error i j hi hj
      have wi := exactWeight_le_one std hi.1 hi.2
      have wj := exactWeight_le_one std hj.1 hj.2
      have hww : exactWeight std g.s i * exactWeight std g.s j ≤ 1 := mul_le_one₀ wi.2 wj.1 wj.2
      have m0' : (0 : ℝ) ≤ f64Rat (f64Mul (refKer std g.s ((g.s : Int) + i).toNat)
        (refKer std g.s ((g.s : Int) + j).toNat)) := by exact_mod_cast m0
      have m2 := (abs_le.1 m1).2
      have e : (1 : ℝ) / 2 ^ 49 ≤ 1 := by norm_num
      rw [abs_of_nonneg (mul_nonneg m0' (sample0 i j))]
      exact mul_le_mul (by linarith) (sample1 i j) (sample0 i j) (by norm_num)
  · have := offsets_sum_le hs (b := 1 / 2 ^ 49 * 255) (by norm_num) (fun i j =>
      ((f64Rat (f64Mul (refKer std g.s ((g.s : Int) + i).toNat) (refKer std g.s ((g.s : Int) + j).toNat)) : ℝ)
        - exactWeight std g.s i * exactWeight std g.s j)
        * (paddedSample samples g.w g.h (x - i) (y - j) : ℝ)) (fun i j hi hj => ?_)
    · rw [exactConv]
      push_cast
      rw [← Finset.sum_sub_distrib]
      simp only [← Finset.sum_sub_distrib, ← sub_mul]
      exact this.trans (by norm_num)
    · rw [abs_mul, abs_of_nonneg (sample0 i j)]
      exact mul_le_mul (mul_error i j hi hj).2 (sample1 i j) (sample0 i j) (by positivity)

theorem ref_canonicalContract {c : Config} (hc : c.InRange) (hr : c.ReferenceBounds) :
    CanonicalContract c refNumerics := by
  obtain ⟨-, -, -, -, -, size_le, -, -, -, -, conv_den, -⟩ := hc
  have heps : (1 : ℝ) / 2 ^ 20 ≤ c.epsConv.toReal := Ratio.le_toReal conv_den hr.2
  intro std g samples x y _ h1 hs _ _ _ hx hy
  have hs31 : g.s ≤ 31 := hs.trans size_le
  have hpw := g.w_add_le_pw
  have hph := g.h_add_le_ph
  have hxp : x < g.pw := by omega
  have hyp : y < g.ph := by omega
  obtain ⟨-, e1, e2⟩ := grid_index hxp hyp
  rw [canonical_ref std g samples hxp hyp, refPmul, e1, e2]
  obtain ⟨r0, r1, r2⟩ := refConv_error std g samples h1 hs31 (by omega) (by omega) x y
  generalize refConv g.pw g.ph (paddedImage g samples) (wrappedKernel g (refKer std g.s)) x y = r at *
  have hfl : ⌊r * 2 ^ 30⌋₊ ≤ 2 ^ 52 := by
    refine Nat.floor_le_of_le ?_
    calc r * 2 ^ 30 ≤ 2 ^ 21 * 2 ^ 30 := mul_le_mul_of_nonneg_right r1 (by positivity)
      _ ≤ ((2 ^ 52 : ℕ) : ℚ) := by norm_num
  simp only [min_eq_left hfl]
  have hlo : (⌊r * 2 ^ 30⌋₊ : ℚ) ≤ r * 2 ^ 30 := Nat.floor_le (by positivity)
  have hhi : r * 2 ^ 30 < (⌊r * 2 ^ 30⌋₊ : ℚ) + 1 := Nat.lt_floor_add_one _
  generalize ⌊r * 2 ^ 30⌋₊ = t at *
  refine ⟨(f64Round_exact false (hfl.trans (by norm_num)) (by norm_num)).1, ?_⟩
  have hv : f64Rat (f64Round false (t * 2 ^ 1044) 0) = (t : ℚ) / 2 ^ 30 := by
    rw [f64Rat_round_exact (hfl.trans (by norm_num)) (by norm_num)]
    field_simp
  rw [hv]
  have hd : |(t : ℚ) / 2 ^ 30 - r| ≤ 1 / 2 ^ 30 := by
    rw [abs_le]
    constructor
    · suffices r - 1 / 2 ^ 30 ≤ (t : ℚ) / 2 ^ 30 by linarith
      rw [le_div_iff₀ (by positivity), sub_mul, one_div_mul_cancel (by positivity)]
      linarith
    · suffices (t : ℚ) / 2 ^ 30 ≤ r by
        have : (0 : ℚ) ≤ 1 / 2 ^ 30 := by positivity
        linarith
      rw [div_le_iff₀ (by positivity)]
      exact hlo
  have hd' : |((t : ℚ) / 2 ^ 30 : ℚ) - (r : ℝ)| ≤ 1 / 2 ^ 30 := by
    have : ((|(t : ℚ) / 2 ^ 30 - r| : ℚ) : ℝ) ≤ ((1 / 2 ^ 30 : ℚ) : ℝ) := by exact_mod_cast hd
    push_cast at this ⊢
    exact this
  refine (abs_sub_le _ (r : ℝ) _).trans ((add_le_add hd' r2).trans (le_trans ?_ heps))
  norm_num

theorem ref_contract {c : Config} (h : c.InRange ∧ c.ReferenceBounds) : NumContract c refNumerics :=
  ⟨ref_kernelContract h.1 h.2 _ rfl, ref_canonicalContract h.1 h.2⟩

end Sys2Proof.Machine
end

