-- ==== Sys2Proof/Machine/Num.lean ====
section
/-!
DEFINITION. NUM (43_convolution.md R160, R161): an opaque record whose type is its contract; and the parameters of
an engine this spec describes (00_scope.md R6).
-/

namespace Sys2Proof.Machine

open Sys2Proof

/-- A numerics record that meets the contract wherever the error bounds are the reference values or looser. -/
abbrev NumFor (c : Config) : Type := { n : Numerics // c.InRange ∧ c.ReferenceBounds → NumContract c n }

/-- NUM of an implementation with these parameters: any record of that type (43_convolution.md R160, R161; 93 U2,
U3). An opaque constant: nothing else about it can be proved. Its argument only says that there is such a record
(Machine/Reference.lean); the constant need not be that one. Log 5 (safe). -/
opaque numFrom [∀ c, Inhabited (NumFor c)] (c : Config) : NumFor c

end Sys2Proof.Machine

namespace Sys2Proof

open Sys2Proof.Machine

/-- NUM (R160). -/
def Config.num (c : Config) : Numerics := (@numFrom (fun _ => ⟨⟨refNumerics, ref_contract⟩⟩) c).val

/-- The parameters of an engine this spec describes: every row of R6's table, NUM's among them ("any record meeting
its contract"). Where the error bounds are the reference values or looser, NUM meets the contract by its type. Where
they are tighter, whether any record meets it depends on the numbers (a weight is irrational and a tap is a binary64,
so some bounds no engine meets), and NUM's row is a condition of its own. Log 3, log 5. -/
def Config.Valid (c : Config) : Prop := c.InRange ∧ (c.ReferenceBounds ∨ NumContract c c.num)

/-- What a statement may use of NUM: the constraint of its row in R6's table. -/
theorem Config.num_contract {c : Config} (h : c.Valid) : NumContract c c.num :=
  h.2.elim (fun bounds => (@numFrom (fun _ => ⟨⟨refNumerics, ref_contract⟩⟩) c).property ⟨h.1, bounds⟩) id

end Sys2Proof
end

