-- ==== Sys2Proof/Machine/Kernel.lean ====
section
/-!
DEFINITION. The Gaussian kernel builder (42_kernel.md R150 to R154).
-/

namespace Sys2Proof.Machine

open Sys2Proof

/-- NUM.kerImpl(STD, S)[i] (R153): 1.0 at S = 0, as R153 says of every NUM; else NUM's tap. Log 5. -/
def kerImpl (c : Config) (std : Int) (s i : Nat) : F64 := if s = 0 then f64One else c.num.ker std s i

/-- The bytes of KER[0 .. 2S] (R151). -/
def kernelBytes (c : Config) (std : Int) (s : Nat) : List Byte :=
  (List.range (2 * s + 1)).flatMap fun i => leBytes 8 (kerImpl c std s i).toNat

/-- KBUILD's effect: KER[0 .. 2S] and KER_LEN (R151). -/
def kbuildEffect (p : Params) (st : State) : State :=
  { st.store .ker [(0, kernelBytes st.cfg p.std p.half)] with kerLen := BitVec.ofNat 32 (2 * p.half + 1) }

/-- KBUILD (R150). -/
def execKbuild (st : State) : Host.Outcome State Fault Refusal := runCommand kbuildChecks kbuildEffect st

end Sys2Proof.Machine
end

