-- ==== Sys2Proof/Machine/Convolution.lean ====
section
/-!
DEFINITION. Frequency-domain convolution (43_convolution.md R160 to R179): FFTF.IMG, FFTF.KER, PMUL,
FFTI, WBACK and the macro BLUR. The arrays are NUM's output (R160); what R161 promises of them is the contract of
NUM (Machine/Numerics.lean).
-/

namespace Sys2Proof.Machine

open Sys2Proof

/-! ## Primitive commands -/

/-- The samples of channel `ch`, row-major: PIX[(y*W + x)*C + ch] (10_state.md R46). -/
def channelSamples (p : Params) (ch : Nat) (st : State) : List Byte :=
  (List.range p.h).flatMap fun y =>
    let row := st.bytesAt .pix (y * p.w * p.c) (p.w * p.c)
    (List.range p.w).map fun x => row.getD (x * p.c + ch) 0

/-- Store an array over the region [0, PW) × [0, PH) of a plane (10_state.md R48). -/
def storeRegion (p : Params) (plane : Plane) (f : Nat → Nat → Cplx) (st : State) : State :=
  st.store plane (regionRuns st.cfg p.pw p.ph f)

/-- FFTF.IMG ch's effect (R166): the region of A, and nothing else. -/
def fftfImgEffect (ch : Nat) (p : Params) (st : State) : State :=
  let x := paddedImage p.geom (channelSamples p ch st)
  (storeRegion p .a (fun u v => st.cfg.num.fftFwd p.pw p.ph x (v * p.pw + u)) st).nextDraw

/-- FFTF.IMG (R166). -/
def execFftfImg (ch : Nat) (st : State) : Host.Outcome State Fault Refusal :=
  runCommand (channelChecks ch) (fftfImgEffect ch) st

/-- FFTF.KER's effect (R167): the region of K. -/
def fftfKerEffect (p : Params) (st : State) : State :=
  let taps := (List.range (2 * p.half + 1)).map st.tapAt
  let kin := wrappedKernel p.geom (fun i => taps.getD i f64Zero)
  (storeRegion p .k (fun u v => st.cfg.num.fftFwd p.pw p.ph kin (v * p.pw + u)) st).nextDraw

/-- FFTF.KER (R167). -/
def execFftfKer (st : State) : Host.Outcome State Fault Refusal := runCommand fftfKerChecks fftfKerEffect st

/-- PMUL's effect (R168): the region of A; K is unchanged. -/
def pmulEffect (p : Params) (st : State) : State :=
  let a := st.region .a p.pw p.ph
  let k := st.region .k p.pw p.ph
  (storeRegion p .a (fun u v => st.cfg.num.pmul p.pw p.ph a k (v * p.pw + u)) st).nextDraw

/-- PMUL (R168). -/
def execPmul (st : State) : Host.Outcome State Fault Refusal := runCommand convolutionChecks pmulEffect st

/-- FFTI's effect (R169): the region of A, in place. -/
def fftiEffect (p : Params) (st : State) : State :=
  let x := st.region .a p.pw p.ph
  (storeRegion p .a (fun u v => st.cfg.num.fftInv p.pw p.ph x (v * p.pw + u)) st).nextDraw

/-- FFTI (R169). -/
def execFfti (st : State) : Host.Outcome State Fault Refusal := runCommand convolutionChecks fftiEffect st

/-- The real parts A[x, y].re over the image, row-major. -/
def realParts (p : Params) (st : State) : List F64 :=
  (List.range p.h).flatMap fun y =>
    let row := Memory.slice (st.mem .a) (cplxAddr st.cfg 0 y) (16 * p.w)
    (List.range p.w).map fun x => (cplxIn row st.draws .a (cplxAddr st.cfg x y)).re

/-- WBACK ch's effect (R170): byte (y*W + x)*C + ch of PIX for each pixel, and nothing else. -/
def wbackEffect (ch : Nat) (p : Params) (st : State) : State :=
  (st.store .pix (rowRuns ch p.c ((realParts p st).map fun a => [writeBack a]))).nextDraw

/-- WBACK (R170). -/
def execWback (ch : Nat) (st : State) : Host.Outcome State Fault Refusal :=
  runCommand (channelChecks ch) (wbackEffect ch) st

/-! ## The BLUR macro (R171, R172) -/

/-- One channel pass of BLUR: FFTF.IMG ch, PMUL, FFTI, WBACK ch (R171). -/
def blurChannel (p : Params) (st : State) (ch : Nat) : State :=
  wbackEffect ch p (fftiEffect p (pmulEffect p (fftfImgEffect ch p st)))

/-- BLUR's effect: the kernel only at S = 0 (R172); else the kernel, its transform, and the channels in
ascending order (R171). -/
def blurEffect (p : Params) (st : State) : State :=
  if p.s = 0 then kbuildEffect p st
  else (List.range p.c).foldl (blurChannel p) (fftfKerEffect p (kbuildEffect p st))

/-- BLUR (R171). -/
def execBlur (st : State) : Host.Outcome State Fault Refusal := runCommand blurChecks blurEffect st

end Sys2Proof.Machine
end

