-- ==== Sys2Proof/Machine/Edge.lean ====
section
/-!
DEFINITION. The edge pipeline (44_canny.md R190 to R207): GRAD, NMS, THRESH, HYST and the macro CANNY.
-/

namespace Sys2Proof.Machine

open Sys2Proof

/-! ## Coordinates -/

/-- The linear index of element [x, y] of MAG, DIR and CLS (10_state.md R51). -/
def planeIndex (c : Config) (x y : Nat) : Nat := y * c.maxW + x

/-- An interior pixel: 1 ≤ x ≤ W-2 and 1 ≤ y ≤ H-2 (00_scope.md R12). -/
def isInterior (w h x y : Nat) : Bool :=
  decide (1 ≤ x) && decide (x + 2 ≤ w) && decide (1 ≤ y) && decide (y + 2 ≤ h)

/-- The rows of an array of bytes: row y holds f 0 y, …, f (W-1) y. -/
def byteRows (w h : Nat) (f : Nat → Nat → List Byte) : List (List Byte) :=
  (List.range h).map fun y => (List.range w).flatMap fun x => f x y

/-- P[x, y] = PIX[y*W + x], the Grayscale sample, as an exact integer (R190). -/
def grayAt (p : Params) (st : State) (x y : Nat) : Int := sampleInt (st.byteAt .pix (y * p.w + x))

/-- MAG[x, y] (10_state.md R49). -/
def magAt (st : State) (x y : Nat) : Nat := leIn st.mag st.draws .mag (4 * planeIndex st.cfg x y) 4
/-- DIR[x, y] (R50). -/
def dirAt (st : State) (x y : Nat) : Nat := (st.byteAt .dir (planeIndex st.cfg x y)).toNat
/-- CLS[x, y] (R50). -/
def clsAt (st : State) (x y : Nat) : Nat := (st.byteAt .cls (planeIndex st.cfg x y)).toNat

/-! ## Gradient -/

/-- gx at an interior pixel, P given as a function (R190). -/
def sobelX (P : Nat → Nat → Int) (x y : Nat) : Int :=
  (P (x + 1) (y - 1) + 2 * P (x + 1) y + P (x + 1) (y + 1))
    - (P (x - 1) (y - 1) + 2 * P (x - 1) y + P (x - 1) (y + 1))

/-- gy at an interior pixel (R190). -/
def sobelY (P : Nat → Nat → Int) (x y : Nat) : Int :=
  (P (x - 1) (y + 1) + 2 * P x (y + 1) + P (x + 1) (y + 1))
    - (P (x - 1) (y - 1) + 2 * P x (y - 1) + P (x + 1) (y - 1))

/-- The quantized direction of a gradient (R192). -/
def quant (gx gy : Int) : Nat :=
  let ax : Int := gx.natAbs
  let ay : Int := gy.natAbs
  if gx = 0 ∧ gy = 0 then 0
  else if (ax + ay) * (ax + ay) < 2 * (ax * ax) then 0
  else if ax < ay ∧ 2 * (ax * ax) < (ay - ax) * (ay - ax) then 2
  else if 0 < gx * gy then 1
  else 3

/-- The magnitude GRAD writes at [x, y]: gx² + gy² inside, 0 at the border (R191). -/
def gradMag (w h : Nat) (P : Nat → Nat → Int) (x y : Nat) : Nat :=
  if isInterior w h x y then
    (sobelX P x y * sobelX P x y + sobelY P x y * sobelY P x y).toNat
  else 0

/-- The direction GRAD writes at [x, y] (R191). -/
def gradDir (w h : Nat) (P : Nat → Nat → Int) (x y : Nat) : Nat :=
  if isInterior w h x y then quant (sobelX P x y) (sobelY P x y) else 0

/-- GRAD's effect: MAG and DIR over [0, W) × [0, H) (R191). -/
def gradEffect (p : Params) (st : State) : State :=
  let P := grayAt p st
  let st1 := st.store .mag
    (rowRuns 0 (4 * st.cfg.maxW) (byteRows p.w p.h fun x y => leBytes 4 (gradMag p.w p.h P x y)))
  let st2 := st1.store .dir
    (rowRuns 0 st.cfg.maxW (byteRows p.w p.h fun x y => [BitVec.ofNat 8 (gradDir p.w p.h P x y)]))
  st2.nextDraw

/-- GRAD (R191). -/
def execGrad (st : State) : Host.Outcome State Fault Refusal := runCommand gradChecks gradEffect st

/-! ## Non-maximum suppression -/

/-- The neighbour pair of a direction at an interior pixel (R193). -/
def neighbourPair (dir x y : Nat) : (Nat × Nat) × (Nat × Nat) :=
  match dir with
  | 0 => ((x + 1, y), (x - 1, y))
  | 1 => ((x + 1, y + 1), (x - 1, y - 1))
  | 2 => ((x, y + 1), (x, y - 1))
  | _ => ((x - 1, y + 1), (x + 1, y - 1))

/-- NMS suppresses [x, y]: its magnitude is below one of the pair's, in the snapshot M (R194). -/
def suppressed (M D : Nat → Nat → Nat) (x y : Nat) : Bool :=
  let n := neighbourPair (D x y) x y
  !(decide (M n.1.1 n.1.2 ≤ M x y) && decide (M n.2.1 n.2.2 ≤ M x y))

/-- The suppressed interior pixels, row by row. -/
def suppressedPixels (w h : Nat) (M D : Nat → Nat → Nat) : List (Nat × Nat) :=
  (List.range h).flatMap fun y =>
    ((List.range w).filter fun x => isInterior w h x y && suppressed M D x y).map fun x => (x, y)

/-- NMS's effect: 0 at every suppressed pixel of MAG, against a snapshot; nothing else (R194). -/
def nmsEffect (p : Params) (st : State) : State :=
  (st.store .mag ((suppressedPixels p.w p.h (magAt st) (dirAt st)).map fun q =>
    (4 * planeIndex st.cfg q.1 q.2, leBytes 4 0))).nextDraw

/-- NMS (R194). -/
def execNms (st : State) : Host.Outcome State Fault Refusal := runCommand geometryChecks nmsEffect st

/-! ## Double threshold -/

/-- sqrt(M2) ≥ T/1000, exactly: T ≤ 0 or 10^6 * M2 ≥ T² (R196). -/
def thresholdGe (m : Nat) (t : Int) : Bool := decide (t ≤ 0) || decide (t * t ≤ 1000000 * (m : Int))

/-- The class of a magnitude (R197); 0 is never a candidate (R198). -/
def classOf (m : Nat) (hi lo : Int) : Nat :=
  if m = 0 then 0
  else if thresholdGe m hi then 2
  else if thresholdGe m lo then 1
  else 0

/-- THRESH's effect: CLS over [0, W) × [0, H) (R197). -/
def threshEffect (p : Params) (st : State) : State :=
  (st.store .cls (rowRuns 0 st.cfg.maxW
    (byteRows p.w p.h fun x y => [BitVec.ofNat 8 (classOf (magAt st x y) p.hi p.lo)]))).nextDraw

/-- THRESH (R197). -/
def execThresh (st : State) : Host.Outcome State Fault Refusal := runCommand threshChecks threshEffect st

/-! ## Hysteresis -/

/-- Two pixels are neighbours: at Chebyshev distance 1 (R199). -/
def adjacent (a b : Nat × Nat) : Bool :=
  decide (a ≠ b) && decide (a.1 ≤ b.1 + 1) && decide (b.1 ≤ a.1 + 1)
    && decide (a.2 ≤ b.2 + 1) && decide (b.2 ≤ a.2 + 1)

/-- The pixels of the image, row by row. -/
def imagePixels (w h : Nat) : List (Nat × Nat) :=
  (List.range h).flatMap fun y => (List.range w).map fun x => (x, y)

/-- Link: from the pixels just found (`front`), take the weak pixels next to one of them out of `weak`,
and go on from those, until no weak pixel is next to the front. One unit of `fuel` a round. The order
does not matter (R201). -/
def linkEdges : (fuel : Nat) → (edges front weak : List (Nat × Nat)) → List (Nat × Nat)
  | 0, edges, _, _ => edges
  | fuel + 1, edges, front, weak =>
    let found := weak.filter fun q => front.any (adjacent q)
    if found.isEmpty then edges
    else linkEdges fuel (edges ++ found) found (weak.filter fun q => !front.any (adjacent q))

/-- The edge set E: the candidates joined to a strong pixel through candidates (R200). -/
def edgeSet (w h : Nat) (cls : Nat → Nat → Nat) : List (Nat × Nat) :=
  let strong := (imagePixels w h).filter fun q => decide (cls q.1 q.2 = 2)
  let weak := (imagePixels w h).filter fun q => decide (cls q.1 q.2 = 1)
  linkEdges (weak.length + 1) strong strong weak

/-- The edge map: 255 on an edge, 0 elsewhere, W*H bytes (R203). -/
def edgeMap (w h : Nat) (cls : Nat → Nat → Nat) : List Byte :=
  let e := edgeSet w h cls
  (imagePixels w h).map fun q => if e.contains q then 255 else 0

/-- HYST's effect: PIX bytes [0, W*H) and COLOR = Grayscale (R203). -/
def hystEffect (p : Params) (st : State) : State :=
  let st' := (st.store .pix [(0, edgeMap p.w p.h (clsAt st))]).nextDraw
  { st' with color := 2 }

/-- HYST (R202, R203). -/
def execHyst (st : State) : Host.Outcome State Fault Refusal := runCommand geometryChecks hystEffect st

/-! ## The CANNY macro -/

/-- CANNY's effect (R205): CVT gray unless the image is Grayscale, then BLUR on one channel, GRAD, NMS,
THRESH and HYST, each on the latched operands with COLOR as the sub-command before left it (log 20). -/
def cannyEffect (p : Params) (st : State) : State :=
  let gray := { p with color := (2 : BitVec 2) }
  let st1 := if p.color ≠ 2 then cvtGrayEffect p st else st
  hystEffect gray (threshEffect gray (nmsEffect gray (gradEffect gray (blurEffect gray st1))))

/-- CANNY (R204, R205). -/
def execCanny (st : State) : Host.Outcome State Fault Refusal := runCommand cannyChecks cannyEffect st

end Sys2Proof.Machine
end

