-- ==== Sys2Proof/Machine/Dispatch.lean ====
section
/-! DEFINITION. One arm per instruction, each one direct call of its meaning. -/

namespace Sys2Proof.Machine

open Sys2Proof

def exec (i : Instr) (s : State) : Host.Outcome State Fault Refusal :=
  match i with
  | .nop => Sys2Proof.Machine.execNop s
  | .cvtRgb => Sys2Proof.Machine.execCvtRgb s
  | .cvtYcbcr => Sys2Proof.Machine.execCvtYcbcr s
  | .cvtGray => Sys2Proof.Machine.execCvtGray s
  | .kbuild => Sys2Proof.Machine.execKbuild s
  | .fftfImg ch => Sys2Proof.Machine.execFftfImg ch s
  | .fftfKer => Sys2Proof.Machine.execFftfKer s
  | .pmul => Sys2Proof.Machine.execPmul s
  | .ffti => Sys2Proof.Machine.execFfti s
  | .wback ch => Sys2Proof.Machine.execWback ch s
  | .blur => Sys2Proof.Machine.execBlur s
  | .grad => Sys2Proof.Machine.execGrad s
  | .nms => Sys2Proof.Machine.execNms s
  | .thresh => Sys2Proof.Machine.execThresh s
  | .hyst => Sys2Proof.Machine.execHyst s
  | .canny => Sys2Proof.Machine.execCanny s
  | .start irqEn => Sys2Proof.Machine.execStart irqEn s
  | .srst irqEn => Sys2Proof.Machine.execSrst irqEn s

end Sys2Proof.Machine
end

