-- ==== Sys2Proof/WellFormed.lean ====
section
/-!
DEFINITION. Well-formed instructions: the channel operand is a two-bit index (30_encoding.md R92).
-/

namespace Sys2Proof

/-- CH is zero-extended to an unsigned channel index in [0, 3] (R92); no other operand has a bound. -/
def Instr.wf : Instr → Bool
  | .fftfImg ch => decide (ch < 4)
  | .wback ch => decide (ch < 4)
  | .nop | .cvtRgb | .cvtYcbcr | .cvtGray | .kbuild | .fftfKer | .pmul | .ffti
  | .blur | .grad | .nms | .thresh | .hyst | .canny => true
  | .start _ | .srst _ => true

end Sys2Proof
end

