-- ==== Sys2Proof/Decode.lean ====
section
/-!
DEFINITION. The decoder of command words (30_encoding.md R90 to R99), the decoder of CTRL writes
(R100), and the encoder of both, written from the same tables. Both decoders are total.
-/

namespace Sys2Proof

/-- Why a word is ILLEGAL, one name per test of R96. The engine reports all of them alike (R97). -/
inductive DecodeError where
  /-- RES0 = CMD[11:10] or RES1 = CMD[31:14] is not zero (R94). -/
  | reservedBits
  /-- OP is not in the table of R95. -/
  | reservedOp
  /-- CH ≠ 0 on a command that takes no channel (R92). -/
  | strayChannel
  /-- TGT ≠ 0 on a command that is not CVT (R93). -/
  | strayTarget
  /-- CVT with TGT = 3 (R93). -/
  | reservedTarget
  deriving DecidableEq, Repr

/-! The fields of a command word (R90). -/

/-- OP = CMD[7:0] (R91). -/
def opField (w : Word) : Nat := (w.extractLsb 7 0).toNat
/-- CH = CMD[9:8] (R92). -/
def chField (w : Word) : Nat := (w.extractLsb 9 8).toNat
/-- RES0 = CMD[11:10] (R94). -/
def res0Field (w : Word) : Nat := (w.extractLsb 11 10).toNat
/-- TGT = CMD[13:12] (R93). -/
def tgtField (w : Word) : Nat := (w.extractLsb 13 12).toNat
/-- RES1 = CMD[31:14] (R94). -/
def res1Field (w : Word) : Nat := (w.extractLsb 31 14).toNat

/-- A command that takes neither CH nor TGT: both must be zero (R92, R93). -/
def plainCommand (i : Instr) (ch tgt : Nat) : Except DecodeError Instr :=
  if ch ≠ 0 then .error .strayChannel
  else if tgt ≠ 0 then .error .strayTarget
  else .ok i

/-- A command that takes CH: TGT must be zero (R93), every CH is accepted (R92). -/
def channelCommand (i : Nat → Instr) (ch tgt : Nat) : Except DecodeError Instr :=
  if tgt ≠ 0 then .error .strayTarget else .ok (i ch)

/-- CVT: CH must be zero, TGT = 3 is reserved (R92, R93). -/
def cvtCommand (ch tgt : Nat) : Except DecodeError Instr :=
  if ch ≠ 0 then .error .strayChannel
  else match tgt with
    | 0 => .ok .cvtRgb
    | 1 => .ok .cvtYcbcr
    | 2 => .ok .cvtGray
    | _ => .error .reservedTarget

/-- The opcode map (R95), applied to the fields of one word. -/
def decodeFields (op ch tgt : Nat) : Except DecodeError Instr :=
  match op with
  | 0x00 => plainCommand .nop ch tgt
  | 0x01 => cvtCommand ch tgt
  | 0x02 => plainCommand .kbuild ch tgt
  | 0x10 => channelCommand .fftfImg ch tgt
  | 0x11 => plainCommand .fftfKer ch tgt
  | 0x12 => plainCommand .pmul ch tgt
  | 0x13 => plainCommand .ffti ch tgt
  | 0x14 => channelCommand .wback ch tgt
  | 0x1F => plainCommand .blur ch tgt
  | 0x20 => plainCommand .grad ch tgt
  | 0x21 => plainCommand .nms ch tgt
  | 0x22 => plainCommand .thresh ch tgt
  | 0x23 => plainCommand .hyst ch tgt
  | 0x2F => plainCommand .canny ch tgt
  | _ => .error .reservedOp

/-- The decoder of R96, total on every 32-bit word. -/
def decodeCommand (w : Word) : Except DecodeError Instr :=
  if res0Field w ≠ 0 ∨ res1Field w ≠ 0 then .error .reservedBits
  else decodeFields (opField w) (chField w) (tgtField w)

/-- The control operation a CTRL write of `v` spells (R100): SRST by bit 1, else START by bit 0, else
none (such a write only sets IRQ_EN, 10_state.md R34). -/
def decodeControl (v : Word) : Option Instr :=
  if v.getLsbD 1 then some (.srst (v.getLsbD 2))
  else if v.getLsbD 0 then some (.start (v.getLsbD 2))
  else none

/-! The encoder: `enc(cmd) = OP | CH << 8 | TGT << 12` (R101), and the CTRL values of R100. -/

/-- A command word from its three fields; the reserved fields are zero (R90, R94). -/
def commandWord (op ch tgt : Nat) : Word :=
  BitVec.ofNat 18 0 ++ BitVec.ofNat 2 tgt ++ BitVec.ofNat 2 0 ++ BitVec.ofNat 2 ch ++ BitVec.ofNat 8 op

/-- A CTRL value from its three bits (10_state.md R34). -/
def controlValue (irqEn srst start : Bool) : Word :=
  BitVec.ofNat 29 0 ++ BitVec.ofBool irqEn ++ BitVec.ofBool srst ++ BitVec.ofBool start

/-- The word an instruction spells: a command word (R95), or a value for CTRL (R100). -/
def encode : Instr → Word
  | .nop => commandWord 0x00 0 0
  | .cvtRgb => commandWord 0x01 0 0
  | .cvtYcbcr => commandWord 0x01 0 1
  | .cvtGray => commandWord 0x01 0 2
  | .kbuild => commandWord 0x02 0 0
  | .fftfImg ch => commandWord 0x10 ch 0
  | .fftfKer => commandWord 0x11 0 0
  | .pmul => commandWord 0x12 0 0
  | .ffti => commandWord 0x13 0 0
  | .wback ch => commandWord 0x14 ch 0
  | .blur => commandWord 0x1F 0 0
  | .grad => commandWord 0x20 0 0
  | .nms => commandWord 0x21 0 0
  | .thresh => commandWord 0x22 0 0
  | .hyst => commandWord 0x23 0 0
  | .canny => commandWord 0x2F 0 0
  | .start irqEn => controlValue irqEn false true
  | .srst irqEn => controlValue irqEn true false

/-- A row of spec/opcode_table.json spells either a command word (32 bits) or a CTRL write (at most 8
bits). The two tables overlap as numbers, so the width says which decoder reads the word. Log 10. -/
def isControlRow (nbits : Nat) : Bool := decide (nbits ≤ 8)

/-- The instruction the decoder reads from the word `w` of a table row of `nbits` bits. -/
def decodeTableWord (nbits w : Nat) : Option Instr :=
  if isControlRow nbits then decodeControl (BitVec.ofNat 32 w)
  else
    match decodeCommand (BitVec.ofNat 32 w) with
    | .ok i => some i
    | .error _ => none

end Sys2Proof
end

