-- ==== Sys2Proof/Machine/Bus.lean ====
section
/-!
DEFINITION. The slave port: the address map (20_memory.md R60, R61), the access rules (R70 to R77) and
the control and status registers as the host reads and writes them (10_state.md R28 to R45).
-/

namespace Sys2Proof.Machine

open Sys2Proof

/-- The regions of the aperture (20_memory.md R60). -/
inductive Region where
  | csr | ker | pix | mag | aux | planeA | planeK
  deriving DecidableEq, Repr

/-- First offset of a region (R60). -/
def regionBase : Region → Nat
  | .csr => 0x0000000
  | .ker => 0x0001000
  | .pix => 0x0100000
  | .mag => 0x0400000
  | .aux => 0x0800000
  | .planeA => 0x4000000
  | .planeK => 0x8000000

/-- First offset past a region (R60). -/
def regionEnd : Region → Nat
  | .csr => 0x0001000
  | .ker => 0x0001200
  | .pix => 0x0400000
  | .mag => 0x0800000
  | .aux => 0x0900000
  | .planeA => 0x8000000
  | .planeK => 0xC000000

/-- An offset lies in a region. -/
def inRegion (r : Region) (off : Nat) : Bool := decide (regionBase r ≤ off) && decide (off < regionEnd r)

/-- The region of an offset, none where the aperture is unmapped (R60, R75). -/
def regionOf (off : Nat) : Option Region :=
  [Region.csr, .ker, .pix, .mag, .aux, .planeA, .planeK].find? fun r => inRegion r off

/-- The bytes of an access size (10_state.md R22). -/
def sizeBytes : Size → Nat
  | .one => 1
  | .two => 2
  | .four => 4

/-- The bus address of the aperture's offset 0 (00_scope.md R6). -/
def engineBase : Nat := 2 ^ 28 * Config.engineBaseIndex

/-- The aperture offset of a bus address, none outside the aperture (20_memory.md R60). -/
def apertureOffset (addr : Nat) : Option (BitVec 28) :=
  if engineBase ≤ addr ∧ addr < engineBase + 2 ^ 28 then some (BitVec.ofNat 28 (addr - engineBase)) else none

/-! ## Registers -/

/-- PAD_W (10_state.md R43): combinational on the live registers. -/
def padW (s : State) : Nat :=
  if geomOK s.cfg s.imgW.toNat s.imgH.toNat s.color && sizeOK s.cfg s.sizeF.toInt
  then padded s.imgW.toNat s.sizeF.toInt else 0

/-- PAD_H (R43). -/
def padH (s : State) : Nat :=
  if geomOK s.cfg s.imgW.toNat s.imgH.toNat s.color && sizeOK s.cfg s.sizeF.toInt
  then padded s.imgH.toNat s.sizeF.toInt else 0

/-- The word a read of the CSR at an offset returns (R29, R31 to R45). -/
def csrRead (off : Nat) (s : State) : Word :=
  match off with
  | 0x000 => 0x46540001
  | 0x004 => BitVec.ofNat 32 (s.cfg.maxW + s.cfg.maxH * 2 ^ 16)
  | 0x008 => BitVec.ofNat 32
      (s.cfg.maxSizeF + Nat.log2 s.cfg.maxPW * 2 ^ 8 + Nat.log2 s.cfg.maxPH * 2 ^ 16)
  | 0x010 => BitVec.ofNat 29 0 ++ BitVec.ofBool s.irqEn ++ BitVec.ofNat 2 0
  | 0x014 => statusWord s
  | 0x018 => s.errCode.zeroExtend 32
  | 0x01C => s.errInfo
  | 0x020 => s.cmd
  | 0x024 => s.imgW.zeroExtend 32
  | 0x028 => s.imgH.zeroExtend 32
  | 0x02C => BitVec.ofNat 32 (s.color.toNat + channels s.color * 2 ^ 4)
  | 0x030 => s.stdDev
  | 0x034 => s.sizeF
  | 0x038 => s.thrHi
  | 0x03C => s.thrLo
  | 0x040 => BitVec.ofNat 32 (padW s)
  | 0x044 => BitVec.ofNat 32 (padH s)
  | 0x048 => s.kerLen
  | _ => 0

/-- A write to IMG_W, IMG_H or IMG_FMT: ignored while BUSY, and flagged (R40 to R42). -/
def geometryWrite (write : State → State) (s : State) : State :=
  match s.phase with
  | .idle => write s
  | .busy => flagHazard s

/-- A write of `v` to the CSR at an offset, CTRL aside (R29, R35, R38 to R45). Read-only and reserved
registers ignore it. -/
def csrWrite (off : Nat) (v : Word) (s : State) : State :=
  match off with
  | 0x014 => acknowledge v s
  | 0x020 => { s with cmd := v }
  | 0x024 => geometryWrite (fun s => { s with imgW := v.extractLsb' 0 16 }) s
  | 0x028 => geometryWrite (fun s => { s with imgH := v.extractLsb' 0 16 }) s
  | 0x02C => geometryWrite (fun s => { s with color := v.extractLsb' 0 2 }) s
  | 0x030 => { s with stdDev := v }
  | 0x034 => { s with sizeF := v }
  | 0x038 => { s with thrHi := v }
  | 0x03C => { s with thrLo := v }
  | _ => s

/-- The offset of CTRL (R34). -/
def ctrlOffset : Nat := 0x010

/-! ## Windows -/

/-- The memories a window shows (20_memory.md R61): AUX is DIR and CLS. -/
def windowPlanes : Region → List Plane
  | .csr => []
  | .ker => [.ker]
  | .pix => [.pix]
  | .mag => [.mag]
  | .aux => [.dir, .cls]
  | .planeA => [.a]
  | .planeK => [.k]

/-- The memories and indices behind byte `i` of a window. -/
def windowCells (c : Config) (r : Region) (i : Nat) : List (Plane × Nat) :=
  ((windowPlanes r).filter fun p => decide (i < planeSize c p)).map fun p => (p, i)

/-- Byte `i` of a memory as its window shows it. The KER window reads zero past the last tap (R61); DESIGN
CHOICE, log 3: so does every window past the last element, where the parameters are smaller than the window. -/
def shownByte (s : State) (p : Plane) (i : Nat) : Byte := if i < planeSize s.cfg p then s.byteAt p i else 0

/-- Byte `i` of a window (R61): the AUX byte is CLS << 2 | DIR. -/
def windowByte (s : State) (r : Region) (i : Nat) : Byte :=
  match r with
  | .csr => 0
  | .ker => shownByte s .ker i
  | .pix => shownByte s .pix i
  | .mag => shownByte s .mag i
  | .aux => BitVec.ofNat 8 ((shownByte s .cls i).toNat * 4 + (shownByte s .dir i).toNat)
  | .planeA => shownByte s .a i
  | .planeK => shownByte s .k i

/-- MemRead(off, n): the n bytes of a window at index i, little-endian (R63, R70). -/
def memRead (s : State) (r : Region) (i n : Nat) : Word :=
  BitVec.ofNat 32 (fromLE ((List.range n).map fun j => windowByte s r (i + j)))

/-- Every cell behind the n window bytes at index i has been written. -/
def allWritten (s : State) (r : Region) (i n : Nat) : Bool :=
  (List.range n).all fun j =>
    (windowCells s.cfg r (i + j)).all fun c => (Memory.read (s.mem c.1) c.2).isSome

/-- MemWrite(off, n, v): store n bytes into PIX (R64, R70), those that PIX has (log 3). -/
def memWrite (s : State) (i n : Nat) (v : Word) : State :=
  s.store .pix [(i, (leBytes n v.toNat).take (planeSize s.cfg .pix - i))]

/-! ## Accesses -/

/-- The checks of R70, in order: the region an access is let through to, or none for SLVERR. -/
def accessRegion (r : BusReq) : Option Region :=
  let off := r.off.toNat
  let n := sizeBytes r.size
  match regionOf off with
  | none => none
  | some reg =>
    if !inRegion reg (off + n - 1) then none
    else match reg with
      | .csr => if n ≠ 4 ∨ off % 4 ≠ 0 then none else some .csr
      | .pix => if off % n ≠ 0 then none else some .pix
      | reg => if off % n ≠ 0 then none else if r.kind = .write then none else some reg

/-- The port answers (10_state.md R22). -/
def respond (code : RespCode) (rdata : Word) (s : State) : State :=
  { s with resp := some { code := code, rdata := rdata } }

/-- The value an access writes to CTRL, if it is let through to CTRL as a write. -/
def ctrlWriteOf (r : BusReq) : Option Word :=
  match accessRegion r, r.kind with
  | some .csr, .write => if r.off.toNat = ctrlOffset then some r.wdata else none
  | _, _ => none

/-- A CSR access (R70), CTRL writes aside. -/
def csrAccess (r : BusReq) (s : State) : State :=
  match r.kind with
  | .read => respond .okay (csrRead r.off.toNat s) s
  | .write => respond .okay 0 (csrWrite r.off.toNat r.wdata s)

/-- A window read in IDLE (R70). A read of an unwritten element draws its value anew (10_state.md R56). -/
def windowRead (reg : Region) (i n : Nat) (s : State) : State :=
  let s' := respond .okay (memRead s reg i n) s
  if allWritten s reg i n then s' else s'.nextDraw

/-- A window access that passed the checks: blocked and flagged while BUSY (R76), else done (R70). -/
def windowAccess (reg : Region) (r : BusReq) (s : State) : State :=
  let i := r.off.toNat - regionBase reg
  let n := sizeBytes r.size
  match s.phase, r.kind with
  | .busy, _ => respond .okay 0 (flagHazard s)
  | .idle, .read => windowRead reg i n s
  | .idle, .write => respond .okay 0 (memWrite s i n r.wdata)

/-- `access` of R70, for every access but a CTRL write: that one is an instruction (30_encoding.md R100),
or only sets IRQ_EN. -/
def access (r : BusReq) (s : State) : State :=
  match accessRegion r with
  | none => respond .slverr 0 s
  | some .csr => csrAccess r s
  | some reg => windowAccess reg r s

end Sys2Proof.Machine
end

