-- ==== Sys2Proof/Machine/PowerOn.lean ====
section
/-!
DEFINITION. Power-on reset (70_reset_and_hazards.md R260 to R262): what a command's rule names as
written, and what the reset input does in IDLE and while BUSY.
-/

namespace Sys2Proof.Machine

open Sys2Proof

/-- Index `a` of MAG lies in the bytes of some pixel [x, y] with x < W, y < H for which `q x y`. -/
def magNamed (c : Config) (w h : Nat) (q : Nat → Nat → Bool) (a : Nat) : Bool :=
  let x := a / 4 % c.maxW
  let y := a / 4 / c.maxW
  decide (x < w) && decide (y < h) && q x y

/-- Index `a` of DIR or CLS is a pixel [x, y] with x < W, y < H. -/
def codeNamed (c : Config) (w h a : Nat) : Bool := decide (a % c.maxW < w) && decide (a / c.maxW < h)

/-- Index `a` of A or K lies in the region [0, PW) × [0, PH). -/
def regionNamed (c : Config) (p : Params) (a : Nat) : Bool :=
  decide (a / 16 % c.maxPW < p.pw) && decide (a / 16 / c.maxPW < p.ph)

/-- Index `a` of KER lies in KER[0 .. 2S]. -/
def tapNamed (p : Params) (a : Nat) : Bool := decide (a < 8 * (2 * p.half + 1))

/-- The bytes BLUR names, C_out channels (43_convolution.md R171, R172). -/
def blurNames (c : Config) (p : Params) (channels : Nat) (plane : Plane) (a : Nat) : Bool :=
  match plane with
  | .ker => tapNamed p a
  | .a | .k => decide (p.s ≠ 0) && regionNamed c p a
  | .pix => decide (p.s ≠ 0) && decide (a < p.w * p.h * channels)
  | .mag | .dir | .cls => false

/-- The bytes a CVT to `target` names (41_colorspace.md R131, R136). -/
def cvtNames (p : Params) (target : BitVec 2) (plane : Plane) (a : Nat) : Bool :=
  match plane with
  | .pix => decide (p.color ≠ target) && decide (a < p.w * p.h * channels target)
  | .ker | .a | .k | .mag | .dir | .cls => false

/-- The bytes of each memory that a command's rule names as written, for operands that pass its
validation ("State written" of the rules of files 41 to 44). -/
def namesWritten (c : Config) (i : Instr) (p : Params) (plane : Plane) (a : Nat) : Bool :=
  match i with
  | .nop => false
  | .cvtRgb => cvtNames p 0 plane a
  | .cvtYcbcr => cvtNames p 1 plane a
  | .cvtGray => cvtNames p 2 plane a
  | .kbuild => decide (plane = .ker) && tapNamed p a
  | .fftfImg _ => decide (plane = .a) && regionNamed c p a
  | .fftfKer => decide (plane = .k) && regionNamed c p a
  | .pmul => decide (plane = .a) && regionNamed c p a
  | .ffti => decide (plane = .a) && regionNamed c p a
  | .wback ch => decide (plane = .pix) && decide (a % p.c = ch) && decide (a < p.w * p.h * p.c)
  | .blur => blurNames c p p.c plane a
  | .grad =>
    match plane with
    | .mag => magNamed c p.w p.h (fun _ _ => true) a
    | .dir => codeNamed c p.w p.h a
    | .pix | .ker | .cls | .a | .k => false
  | .nms => decide (plane = .mag) && magNamed c p.w p.h (isInterior p.w p.h) a
  | .thresh => decide (plane = .cls) && codeNamed c p.w p.h a
  | .hyst => decide (plane = .pix) && decide (a < p.w * p.h)
  | .canny =>
    match plane with
    | .pix => decide (a < p.w * p.h)
    | .mag => magNamed c p.w p.h (fun _ _ => true) a
    | .dir | .cls => codeNamed c p.w p.h a
    | .ker | .a | .k => blurNames c p 1 plane a
  | .start _ | .srst _ => false

/-- The checks of a command (60_exceptions.md R234). -/
def checksOf : Instr → List Check
  | .nop => []
  | .cvtRgb => cvtChecks 0
  | .cvtYcbcr => cvtChecks 1
  | .cvtGray => cvtChecks 2
  | .kbuild => kbuildChecks
  | .fftfImg ch => channelChecks ch
  | .fftfKer => fftfKerChecks
  | .pmul => convolutionChecks
  | .ffti => convolutionChecks
  | .wback ch => channelChecks ch
  | .blur => blurChecks
  | .grad => gradChecks
  | .nms => geometryChecks
  | .thresh => threshChecks
  | .hyst => geometryChecks
  | .canny => cannyChecks
  | .start _ => []
  | .srst _ => []

/-- The bytes the running command's rule names as written, evaluated on LATCH (70 R261). A word that is
ILLEGAL and a command its validation rejects name nothing (40_command.md R114; log 12). -/
def cancelledWrites (s : State) (plane : Plane) (a : Nat) : Bool :=
  match decodeCommand s.latch.cmd with
  | .error _ => false
  | .ok i =>
    match firstFailure s.latch.params s (checksOf i) with
    | some _ => false
    | none => namesWritten s.cfg i s.latch.params plane a

/-- Make unwritten, in every memory, the bytes that `q` names. -/
def eraseMemories (q : Plane → Nat → Bool) (s : State) : State :=
  { s with
    pix := Memory.erase s.pix (q .pix)
    ker := Memory.erase s.ker (q .ker)
    mag := Memory.erase s.mag (q .mag)
    dir := Memory.erase s.dir (q .dir)
    cls := Memory.erase s.cls (q .cls)
    planeA := Memory.erase s.planeA (q .a)
    planeK := Memory.erase s.planeK (q .k) }

/-- LATCH after a power-on reset, at power-up and by the reset input alike: the spec leaves it unspecified and
any value may stand (10_state.md R55; 93 U13). DESIGN CHOICE, log 1: zeros. -/
def clearLatch (s : State) : State := { s with latch := Latch.reset }

/-- Power-on reset. Every CSR takes its power-on value and PHASE is IDLE (R260). In IDLE every element
becomes unwritten (R260). While BUSY the running command is cancelled: the elements its rule names
become unwritten and every other element keeps its value (R261). Log 11; log 21. LATCH: the spec names no value, and the
model puts zeros there (`clearLatch`; DESIGN CHOICE, log 1). The parameters, the inputs still to come and the
port's last response are not the engine's, and stay. -/
def powerOnReset (s : State) : State :=
  match s.phase with
  | .idle => clearLatch (resetRegisters (eraseMemories (fun _ _ => true) s))
  | .busy => clearLatch (resetRegisters (eraseMemories (cancelledWrites s) s))

end Sys2Proof.Machine
end

