-- ==== Sys2Proof/Machine/Fetch.lean ====
section
/-!
DEFINITION. What moves next (10_state.md R20, R25, R27): the next input lands, or the engine takes its
turn; and where an instruction comes from: the latched command word at the completion step
(30_encoding.md R96), or the value of a CTRL write (R100).
-/

namespace Sys2Proof.Machine

open Sys2Proof

/-- One turn of the machine, up to the execution of an instruction. -/
inductive Turn where
  /-- The turn runs this instruction in this state. -/
  | run (i : Instr) (s : State)
  /-- The turn runs no instruction and leaves this state. -/
  | done (s : State)
  deriving DecidableEq, Repr

/-- The engine's turn: while BUSY the latched word is decoded and run, or reported as ILLEGAL; in IDLE no
step is enabled (40_command.md R113; 30_encoding.md R97). -/
def engineTurn (s : State) : Turn :=
  match s.phase with
  | .idle => .done s
  | .busy =>
    match decodeCommand s.latch.cmd with
    | .ok i => .run i s
    | .error _ => .done (raiseError (illegalReport s.latch.cmd) s)

/-- The host's turn: a CTRL write runs its control operation, or only sets IRQ_EN (10_state.md R34); it
gets OKAY. Every other access is `access` (20_memory.md R70). -/
def busTurn (r : BusReq) (s : State) : Turn :=
  match ctrlWriteOf r with
  | none => .done (access r s)
  | some v =>
    match decodeControl v with
    | some i => .run i (respond .okay 0 s)
    | none => .done (setIrqEn (v.getLsbD 2) (respond .okay 0 s))

/-- The next turn. With no input left the engine's step is taken, as its fairness says (70 R277). Log 8.
DESIGN CHOICE, log 21: 70 R260 does not say what the port answers to an access that arrives while the reset input is
still held asserted; assertion and release are one indivisible input here, so no access lands between them. -/
def nextTurn (s : State) : Turn :=
  match s.events with
  | [] => engineTurn s
  | .engine :: rest => engineTurn { s with events := rest }
  | .bus r :: rest => busTurn r { s with events := rest }
  | .powerOn :: rest => .done (powerOnReset { s with events := rest })

/-- A write of `v` to CTRL. -/
def ctrlWrite (v : Word) : BusReq :=
  { kind := .write, off := BitVec.ofNat 28 ctrlOffset, size := .four, wdata := v }

/-- The state whose very next turn runs the word `w` of a table row of `nbits` bits: a CTRL write lands
next, or the engine is BUSY with `w` latched beside the live parameters and takes its turn. Log 9. -/
def placeWord (s : State) (nbits w : Nat) : State :=
  if isControlRow nbits then
    { s with events := .bus (ctrlWrite (BitVec.ofNat 32 w)) :: s.events }
  else
    { s with
      phase := .busy
      latch := { s.latched with cmd := BitVec.ofNat 32 w }
      events := .engine :: s.events }

end Sys2Proof.Machine
end

