-- ==== Sys2Proof/Machine/Step.lean ====
section
/-!
DEFINITION. One step of the machine: the next turn (Machine/Fetch.lean), and the instruction it runs.
-/

namespace Sys2Proof.Machine

open Sys2Proof

/-- One step: the next input lands, or the engine takes its completion step (10_state.md R20, R27). -/
def step (s : State) : Host.Outcome State Fault Refusal :=
  match nextTurn s with
  | .run i s' => exec i s'
  | .done s' => .next s'

/-- `s` with the word `w` of a table row of `nbits` bits placed where the very next step runs it. -/
def State.withFetchWord (s : State) (nbits w : Nat) : State := placeWord s nbits w

end Sys2Proof.Machine
end

