-- ==== Sys2Proof/Machine/Driver.lean ====
section
/-!
DEFINITION. The host's side of the port as far as the spec describes it: the command syntax
(30_encoding.md R101), the script statements as lists of inputs (R102, R103), and the driver's
conversions and command sequences (R104). No rule of the engine reads this file.
-/

namespace Sys2Proof.Machine

open Sys2Proof

/-! ## Command syntax (R101) -/

/-- The decimal channel operand of FFTF.IMG and WBACK, from 0 to 3. -/
def channelToken (t : String) : Option Nat :=
  match t with
  | "0" => some 0
  | "1" => some 1
  | "2" => some 2
  | "3" => some 3
  | _ => none

/-- The command that lower-case tokens spell. -/
def assembleTokens (tokens : List String) : Option Instr :=
  match tokens with
  | ["nop"] => some .nop
  | ["cvt", "rgb"] => some .cvtRgb
  | ["cvt", "ycbcr"] => some .cvtYcbcr
  | ["cvt", "gray"] => some .cvtGray
  | ["kbuild"] => some .kbuild
  | ["fftf.img", ch] => (channelToken ch).map .fftfImg
  | ["fftf.ker"] => some .fftfKer
  | ["pmul"] => some .pmul
  | ["ffti"] => some .ffti
  | ["wback", ch] => (channelToken ch).map .wback
  | ["blur"] => some .blur
  | ["grad"] => some .grad
  | ["nms"] => some .nms
  | ["thresh"] => some .thresh
  | ["hyst"] => some .hyst
  | ["canny"] => some .canny
  | _ => none

/-- The command a line spells: mnemonic, then operands, separated by spaces (R101). R101 makes the mnemonics
case-insensitive. DESIGN CHOICE, log 15: so are CVT's operand words `rgb`, `ycbcr` and `gray`, of whose case R101
says nothing. -/
def assemble (line : String) : Option Instr :=
  assembleTokens (((line.splitOn " ").filter fun t => t != "").map String.toLower)

/-! ## Script statements (R102, R103) -/

/-- WR32, WR16, WR8: one write at an aperture offset. -/
def writeStatement (size : Size) (off : Nat) (v : Word) : Event :=
  .bus { kind := .write, off := BitVec.ofNat 28 off, size := size, wdata := v }

/-- RD32, RD16, RD8: one read. -/
def readStatement (size : Size) (off : Nat) : Event :=
  .bus { kind := .read, off := BitVec.ofNat 28 off, size := size, wdata := 0 }

def wr32 (off : Nat) (v : Word) : Event := writeStatement .four off v
def wr8 (off : Nat) (v : Word) : Event := writeStatement .one off v
def rd32 (off : Nat) : Event := readStatement .four off

/-- WAIT (R103) with `polls` STATUS reads before the completion step and one after it; the number is
unspecified (70 R278). -/
def waitStatements (polls : Nat) : List Event :=
  List.replicate polls (rd32 0x014) ++ [.engine, rd32 0x014]

/-- RUN <command> (R103). -/
def runStatements (ien : Bool) (polls : Nat) (i : Instr) : List Event :=
  [wr32 0x020 (encode i), wr32 0x010 (controlValue ien false true)] ++ waitStatements polls

/-- SETIMG W, H, COLOR (R103). -/
def setImgStatements (w h color : Word) : List Event := [wr32 0x024 w, wr32 0x028 h, wr32 0x02C color]

/-- LOADPIX from index i on (R103). -/
def loadPixStatements (i : Nat) : List Byte → List Event
  | [] => []
  | b :: bs => wr8 (regionBase .pix + i) (b.zeroExtend 32) :: loadPixStatements (i + 1) bs

/-! ## The driver (R104). A real argument is the rational n/d, d > 0. -/

/-- milli(t) = rhu(1000 t). -/
def milli (n : Int) (d : Nat) : Int := rhu (n * 1000) d

/-- sigmaReg(σ): max(1, milli(σ)) for σ > 0, milli(σ) otherwise. -/
def sigmaReg (n : Int) (d : Nat) : Int := if 0 < n then max 1 (milli n d) else milli n d

/-- A register value, none where it does not fit in s32 (the driver raises InvalidParameter). -/
def fitS32 (v : Int) : Option Word :=
  if -(2 ^ 31) ≤ v ∧ v < 2 ^ 31 then some (BitVec.ofInt 32 v) else none

/-- `gaussian_blur(std_dev, size_f)` (R104); none where the driver raises InvalidParameter itself. -/
def gaussianBlur (polls : Nat) (sn : Int) (sd : Nat) (sizeF : Int) : Option (List Event) := do
  let sigma ← fitS32 (sigmaReg sn sd)
  let size ← fitS32 sizeF
  return [wr32 0x030 sigma, wr32 0x034 size] ++ runStatements false polls .blur

/-- `canny_edge_detect(std_dev, size_f, upper, lower)` (R104): the driver compares the thresholds as
reals, ln/ld > un/ud, and raises InvalidParameter itself. -/
def cannyEdgeDetect (polls : Nat) (sn : Int) (sd : Nat) (sizeF : Int) (un : Int) (ud : Nat) (ln : Int) (ld : Nat) :
    Option (List Event) := do
  if un * ld < ln * ud then none
  let sigma ← fitS32 (sigmaReg sn sd)
  let size ← fitS32 sizeF
  let hi ← fitS32 (milli un ud)
  let lo ← fitS32 (milli ln ld)
  return [wr32 0x030 sigma, wr32 0x034 size, wr32 0x038 hi, wr32 0x03C lo] ++ runStatements false polls .canny

/-- `to_YCbCr()` (R104). -/
def toYCbCr (polls : Nat) : List Event := runStatements false polls .cvtYcbcr

/-- `to_gray()` (R104). -/
def toGray (polls : Nat) : List Event := runStatements false polls .cvtGray

end Sys2Proof.Machine
end

