-- ==== Sys2Proof/Machine/Enclosure.lean ====
section
/-!
DEFINITION. Computed bounds of the spec's exact mathematics: the exact kernel (42_kernel.md R152) and the exact
convolution (43_convolution.md R173) between two fixed-point rationals. No meaning reads them: they are terms of
statements, by which a value the spec gives as a real number can be computed (log 6).
-/

namespace Sys2Proof.Machine

open Sys2Proof

/-! ## The exact kernel

Everything counts units of 1/kerOne. `Lo` functions round down, `Hi` functions round up, so that the
exact value lies between them. -/

/-- The fixed-point unit: 2^160 stands for 1. -/
def kerOne : Nat := 2 ^ 160

/-- Division rounded up. -/
def divUp (a b : Nat) : Nat := (a + b - 1) / b

/-- A product of two fixed-point numbers, rounded down. -/
def fxMulLo (a b : Nat) : Nat := a * b / kerOne
/-- A product of two fixed-point numbers, rounded up. -/
def fxMulHi (a b : Nat) : Nat := divUp (a * b) kerOne

/-- The next `fuel` terms of Σ t^n/n! for t = num/den, from term number n on, rounded down. -/
def expSumLo (num den : Nat) : (fuel n term : Nat) → Nat
  | 0, _, _ => 0
  | fuel + 1, n, term => term + expSumLo num den fuel (n + 1) (term * num / (den * (n + 1)))

/-- The same terms rounded up, and twice the next term for all that follow (t ≤ 1). -/
def expSumHi (num den : Nat) : (fuel n term : Nat) → Nat
  | 0, _, term => 2 * term
  | fuel + 1, n, term => term + expSumHi num den fuel (n + 1) (divUp (term * num) (den * (n + 1)))

/-- Terms taken of the exponential series. -/
def expTerms : Nat := 40

/-- `k` squarings, rounded down. -/
def squareLo : Nat → Nat → Nat
  | 0, x => x
  | k + 1, x => squareLo k (fxMulLo x x)

/-- `k` squarings, rounded up. -/
def squareHi : Nat → Nat → Nat
  | 0, x => x
  | k + 1, x => squareHi k (fxMulHi x x)

/-- x^n, rounded down. -/
def powLo (x : Nat) : Nat → Nat
  | 0 => kerOne
  | n + 1 => fxMulLo (powLo x n) x

/-- x^n, rounded up. -/
def powHi (x : Nat) : Nat → Nat
  | 0 => kerOne
  | n + 1 => fxMulHi (powHi x n) x

/-- σ at and above which the exponent 1/(2σ²)/256 is at most 1, in thousandths; below it
exp(-1/(2σ²)) is under 2^-160. -/
def stdSplit : Nat := 45

/-- r = exp(-1/(2σ²)) = exp(-500000/STD²), from below: exp(-500000/(256 STD²)) to the power 2^8. -/
def ratioLo (std : Nat) : Nat :=
  if std < stdSplit then 0
  else squareLo 8 (kerOne * kerOne / expSumHi 500000 (256 * (std * std)) expTerms 0 kerOne)

/-- r from above. -/
def ratioHi (std : Nat) : Nat :=
  if std < stdSplit then 1
  else squareHi 8 (divUp (kerOne * kerOne) (expSumLo 500000 (256 * (std * std)) expTerms 0 kerOne))

/-- g_k = exp(-k²/(2σ²)) = r^(k²) (R152), from below. -/
def gaussLo (std k : Nat) : Nat := powLo (ratioLo std) (k * k)
/-- g_k from above. -/
def gaussHi (std k : Nat) : Nat := powHi (ratioHi std) (k * k)

/-- Σ g_j over j ∈ [-S, S] is g_0 + 2(g_1 + … + g_S). -/
def gaussSum (g : Nat → Nat) : Nat → Nat
  | 0 => g 0
  | s + 1 => gaussSum g s + 2 * g (s + 1)

/-- w_k = g_k / Σ g_j (R152), from below. -/
def weightLo (std s k : Nat) : Nat := kerOne * gaussLo std k / gaussSum (gaussHi std) s
/-- w_k from above. -/
def weightHi (std s k : Nat) : Nat := divUp (kerOne * gaussHi std k) (gaussSum (gaussLo std) s)

/-! ## The exact convolution (R173) -/

/-- |a - S| for the tap number a of offset i = a - S. -/
def tapDistance (s a : Nat) : Nat := (((a : Int) - s).natAbs)

/-- Σ_i Σ_j wt_i · wt_j · P(x - i, y - j) over i, j ∈ [-S, S] (R173), for the weights wt of distances 0 to S. -/
def convolveWith (wt : Nat → Nat) (g : Geom) (samples : List Byte) (x y : Nat) : Nat :=
  ((List.range (2 * g.s + 1)).map fun a =>
    ((List.range (2 * g.s + 1)).map fun b =>
      wt (tapDistance g.s a) * wt (tapDistance g.s b)
        * paddedSample samples g.w g.h ((x : Int) - ((a : Int) - g.s)) ((y : Int) - ((b : Int) - g.s))).sum).sum

/-- A list of the weights of distances 0 to S, computed once. -/
def weightTable (wt : Nat → Nat) (s : Nat) : List Nat := (List.range (s + 1)).map wt

/-- e_ch[x, y] from below, in units of 1/kerOne². -/
def convLo (std : Int) (g : Geom) (samples : List Byte) (x y : Nat) : Nat :=
  let table := weightTable (weightLo std.toNat g.s) g.s
  convolveWith (fun k => table.getD k 0) g samples x y

/-- e_ch[x, y] from above, in units of 1/kerOne². -/
def convHi (std : Int) (g : Geom) (samples : List Byte) (x y : Nat) : Nat :=
  let table := weightTable (weightHi std.toNat g.s) g.s
  convolveWith (fun k => table.getD k 0) g samples x y

end Sys2Proof.Machine
end

