-- ==== Sys2Proof/Safety.lean ====
section
/-!
DEFINITION. The terms statements are made in: valid operands, what a memory holds and what stays
unchanged, sequences of commands, the invariants of the machine, and the spec's exact mathematics on rationals,
against which the machine's integer arithmetic is stated (that of the kernel and the convolution, on reals, is in
Machine/Numerics.lean).
-/

namespace Sys2Proof.Machine

open Sys2Proof

/-! ## Operands -/

/-- 1 ≤ W ≤ MAX_W, 1 ≤ H ≤ MAX_H and COLOR ≠ 3 (10_state.md R30; 60_exceptions.md R230). -/
def GeometryValid (c : Config) (p : Params) : Prop :=
  1 ≤ p.w ∧ p.w ≤ c.maxW ∧ 1 ≤ p.h ∧ p.h ≤ c.maxH ∧ p.color ≠ 3

/-- 0 ≤ S ≤ MAX_SIZE_F (10_state.md R30). -/
def SizeValid (c : Config) (p : Params) : Prop := 0 ≤ p.s ∧ p.s ≤ c.maxSizeF

/-! ## Memories -/

/-- Memory `m` holds the bytes `bs` from index `a` on, all of them written. -/
def HoldsRun (m : Memory) (a : Nat) (bs : List Byte) : Prop :=
  ∀ i, (h : i < bs.length) → Memory.read m (a + i) = some bs[i]

/-- Every byte outside `inside` reads in `m'` as it does in `m`. -/
def SameOutside (inside : Nat → Prop) (m m' : Memory) : Prop :=
  ∀ a, ¬ inside a → Memory.read m' a = Memory.read m a

/-- Index `a` is one of the `n` bytes from `start`. -/
def InRun (start n a : Nat) : Prop := start ≤ a ∧ a < start + n

/-- Index `a` is a byte of some element [u, v] of the region [0, PW) × [0, PH) of A or K. -/
def InRegion (c : Config) (p : Params) (a : Nat) : Prop :=
  ∃ u v, u < p.pw ∧ v < p.ph ∧ InRun (cplxAddr c u v) 16 a

/-- Index `a` is a byte of MAG[x, y] for some x < W, y < H. -/
def InMag (c : Config) (w h a : Nat) : Prop := ∃ x y, x < w ∧ y < h ∧ InRun (4 * planeIndex c x y) 4 a

/-- Index `a` is DIR[x, y] or CLS[x, y] for some x < W, y < H. -/
def InCode (c : Config) (w h a : Nat) : Prop := ∃ x y, x < w ∧ y < h ∧ a = planeIndex c x y

/-- Index `a` is PIX's byte of channel `ch` of some pixel. -/
def InChannel (p : Params) (ch a : Nat) : Prop := ∃ x y, x < p.w ∧ y < p.h ∧ a = (y * p.w + x) * p.c + ch

/-- Every index below `n` of a memory has been written. -/
def WrittenTo (m : Memory) (n : Nat) : Prop := ∀ a, a < n → (Memory.read m a).isSome

/-- Element [x, y] of A after a command: its 16 bytes are written and hold `z`. -/
def HoldsElement (c : Config) (m : Memory) (u v : Nat) (z : Cplx) : Prop := HoldsRun m (cplxAddr c u v) (cplxBytes z)

/-- Index `a` of a memory is a byte of one of the elements that a command's rule names in its "State written"
line, for operands that pass its validation (41_colorspace.md R131, R136; 42_kernel.md R150; 43_convolution.md R166
to R172; 44_canny.md R191, R194, R197, R203, R205). Which bytes a rule "names" where its effect is smaller than its
line is the model's reading of R261 (log 12, DEDUCED): a BLUR with S = 0 names no element of A, K or PIX, a CVT to the
current space names nothing, and an NMS names every interior pixel, those it leaves as they are among them. -/
def RuleWrites (c : Config) (p : Params) (i : Instr) (plane : Plane) (a : Nat) : Prop :=
  match i with
  | .nop => False
  | .cvtRgb => plane = .pix ∧ p.color ≠ 0 ∧ InRun 0 (3 * (p.w * p.h)) a
  | .cvtYcbcr => plane = .pix ∧ p.color ≠ 1 ∧ InRun 0 (3 * (p.w * p.h)) a
  | .cvtGray => plane = .pix ∧ p.color ≠ 2 ∧ InRun 0 (p.w * p.h) a
  | .kbuild => plane = .ker ∧ InRun 0 (8 * (2 * p.half + 1)) a
  | .fftfImg _ => plane = .a ∧ InRegion c p a
  | .fftfKer => plane = .k ∧ InRegion c p a
  | .pmul => plane = .a ∧ InRegion c p a
  | .ffti => plane = .a ∧ InRegion c p a
  | .wback ch => plane = .pix ∧ InChannel p ch a
  | .blur => (plane = .ker ∧ InRun 0 (8 * (2 * p.half + 1)) a)
      ∨ ((plane = .a ∨ plane = .k) ∧ p.s ≠ 0 ∧ InRegion c p a)
      ∨ (plane = .pix ∧ p.s ≠ 0 ∧ InRun 0 (p.w * p.h * p.c) a)
  | .grad => (plane = .mag ∧ InMag c p.w p.h a) ∨ (plane = .dir ∧ InCode c p.w p.h a)
  | .nms => plane = .mag ∧ ∃ x y, isInterior p.w p.h x y = true ∧ InRun (4 * planeIndex c x y) 4 a
  | .thresh => plane = .cls ∧ InCode c p.w p.h a
  | .hyst => plane = .pix ∧ InRun 0 (p.w * p.h) a
  | .canny => (plane = .pix ∧ InRun 0 (p.w * p.h) a) ∨ (plane = .mag ∧ InMag c p.w p.h a)
      ∨ ((plane = .dir ∨ plane = .cls) ∧ InCode c p.w p.h a)
      ∨ (plane = .ker ∧ InRun 0 (8 * (2 * p.half + 1)) a)
      ∨ ((plane = .a ∨ plane = .k) ∧ p.s ≠ 0 ∧ InRegion c p a)
  | .start _ => False
  | .srst _ => False

/-- Nothing of the state differs but what a command that writes the memories named by `writes` may change:
those memories, COLOR and KER_LEN, the flags of its completion, and the model's own draw counter. -/
def CommandFrame (writes : Plane → Bool) (s t : State) : Prop :=
  (∀ p, writes p = false → t.mem p = s.mem p)
    ∧ t.cfg = s.cfg ∧ t.latch = s.latch ∧ t.irqEn = s.irqEn ∧ t.err = s.err ∧ t.ovf = s.ovf ∧ t.haz = s.haz
    ∧ t.errCode = s.errCode ∧ t.errInfo = s.errInfo ∧ t.cmd = s.cmd ∧ t.imgW = s.imgW ∧ t.imgH = s.imgH
    ∧ t.stdDev = s.stdDev ∧ t.sizeF = s.sizeF ∧ t.thrHi = s.thrHi ∧ t.thrLo = s.thrLo
    ∧ t.events = s.events ∧ t.resp = s.resp ∧ t.done = true ∧ t.phase = .idle

/-! ## Accesses -/

/-- The accesses that get SLVERR (20_memory.md R70 to R75): outside every region, a CSR access that is not
an aligned word, a misaligned window access, a write to a read-only window. -/
def BadAccess (r : BusReq) : Prop :=
  (∀ reg, ¬ (regionBase reg ≤ r.off.toNat ∧ r.off.toNat + sizeBytes r.size ≤ regionEnd reg))
    ∨ (r.off.toNat < 0x1000 ∧ (sizeBytes r.size ≠ 4 ∨ r.off.toNat % 4 ≠ 0))
    ∨ (0x1000 ≤ r.off.toNat ∧ r.off.toNat % sizeBytes r.size ≠ 0)
    ∨ (r.kind = .write ∧ 0x1000 ≤ r.off.toNat ∧ ¬ (0x100000 ≤ r.off.toNat ∧ r.off.toNat < 0x400000))

/-- A window: its first offset, how many bytes of it show elements, and what each of them reads as. -/
structure Window where
  base : Nat
  size : Nat
  shows : Nat → Byte

/-- The six windows (20_memory.md R60, R61, R65; sizes by 00_scope.md R7): the KER window shows zeros past the last
tap, a byte of AUX is CLS << 2 | DIR. -/
def windows (s : State) : List Window :=
  [{ base := 0x0001000, size := 0x200
     shows := fun j => if j < 8 * (2 * s.cfg.maxSizeF + 1) then s.byteAt .ker j else 0 },
   { base := 0x0100000, size := 3 * s.cfg.maxW * s.cfg.maxH, shows := s.byteAt .pix },
   { base := 0x0400000, size := 4 * s.cfg.maxW * s.cfg.maxH, shows := s.byteAt .mag },
   { base := 0x0800000, size := s.cfg.maxW * s.cfg.maxH
     shows := fun j => s.byteAt .cls j <<< 2 ||| s.byteAt .dir j },
   { base := 0x4000000, size := 16 * s.cfg.maxPW * s.cfg.maxPH, shows := s.byteAt .a },
   { base := 0x8000000, size := 16 * s.cfg.maxPW * s.cfg.maxPH, shows := s.byteAt .k }]

/-! ## Runs -/

/-- Execute instructions one after another, stopping where one stops. -/
def runSeq : List Instr → State → Host.Outcome State Fault Refusal
  | [], s => .next s
  | i :: is, s =>
    match exec i s with
    | .next t => runSeq is t
    | .fault r => .fault r
    | .refused r => .refused r

/-- The commands of one channel pass of BLUR (43_convolution.md R171). -/
def channelPass (ch : Nat) : List Instr := [.fftfImg ch, .pmul, .ffti, .wback ch]

/-! ## Invariants -/

/-- The memories keep their canonical form, hold only bytes they have, and DIR and CLS hold only codes of
their element types (10_state.md R46 to R50). -/
structure MemoriesOk (s : State) : Prop where
  canonical : ∀ p, Memory.wf (s.mem p)
  bounded : ∀ p, ∀ c ∈ s.mem p, c.1 < planeSize s.cfg p
  dirCodes : ∀ c ∈ s.dir, c.2.toNat < 4
  clsCodes : ∀ c ∈ s.cls, c.2.toNat < 3

/-- STATUS and the error report agree (10_state.md R36, R37; 60_exceptions.md R230, R241; 93 U11). -/
structure FlagsOk (s : State) : Prop where
  busyClear : s.phase = .busy → s.done = false ∧ s.err = false
  notBoth : ¬ (s.done = true ∧ s.err = true)
  codeRange : s.errCode.toNat ≤ 4
  errHasCode : s.err = true → s.errCode ≠ 0
  noCodeNoInfo : s.errCode = 0 → s.errInfo = 0

/-- While BUSY the live geometry is the latched geometry: host writes to it are ignored (10_state.md R40
to R42; 40_command.md R111). -/
def LatchOk (s : State) : Prop :=
  s.phase = .busy → s.latch.w = s.imgW ∧ s.latch.h = s.imgH ∧ s.latch.color = s.color

/-- A non-zero KER_LEN is 2k+1 for a kernel that KER holds, its taps all written (10_state.md R44; 42_kernel.md
R151): FFTF.KER never reads an unwritten tap. -/
def KernelOk (s : State) : Prop :=
  s.kerLen ≠ 0 → ∃ (std : Int) (k : Nat), 0 < std ∧ k ≤ s.cfg.maxSizeF ∧ s.kerLen.toNat = 2 * k + 1
    ∧ HoldsRun s.ker 0 (kernelBytes s.cfg std k)

/-! ## Exact mathematics -/

/-- Round half up and clamp to a sample, on an exact rational (00_scope.md R10). -/
def roundSample (q : ℚ) : Byte := BitVec.ofNat 8 (min 255 (max 0 ⌊q + 1 / 2⌋)).toNat

/-- Two pixels are 8-neighbours (44_canny.md R199). -/
def Neighbour (a b : ℕ × ℕ) : Prop :=
  a ≠ b ∧ |(a.1 : ℤ) - b.1| ≤ 1 ∧ |(a.2 : ℤ) - b.2| ≤ 1

/-- Cand: a pixel of the image of class 1 or 2 (44_canny.md R200). -/
def Candidate (w h : ℕ) (cls : ℕ → ℕ → ℕ) (q : ℕ × ℕ) : Prop :=
  q.1 < w ∧ q.2 < h ∧ (cls q.1 q.2 = 1 ∨ cls q.1 q.2 = 2)

/-- `q` is in the edge set E of R200: a path through candidates joins it to a strong pixel. -/
inductive InEdgeSet (w h : ℕ) (cls : ℕ → ℕ → ℕ) : ℕ × ℕ → Prop where
  | strong (q : ℕ × ℕ) : Candidate w h cls q → cls q.1 q.2 = 2 → InEdgeSet w h cls q
  | joined (q r : ℕ × ℕ) : Candidate w h cls q → Neighbour q r → InEdgeSet w h cls r → InEdgeSet w h cls q

end Sys2Proof.Machine
end

