-- ==== Sys2Proof/Certificates/Slice0/Obligations.lean ====
section
/-!
DEFINITION. The statements for the provers. Each docstring names the rule of spec/ the statement comes
from; a clause that rests on a choice of the model says so and names the log entry.
-/

open Sys2Proof Sys2Proof.Machine

/-! ## Encoding -/

/-- R90 to R96, R100, R101: what `enc` spells, the decoders read back, with every operand. -/
def Obligations.decode_encode : Prop :=
  ∀ i : Instr, i.wf = true →
    (i.isControl = false → decodeCommand (encode i) = .ok i)
      ∧ (i.isControl = true → decodeControl (encode i) = some i)

/-- R95 and R98: the opcode table, row by row; every other word is ILLEGAL. -/
def Obligations.opcode_map : Prop :=
  ∀ (w : Word) (i : Instr), decodeCommand w = .ok i ↔
    match i with
    | .nop => w = 0x00000000
    | .cvtRgb => w = 0x00000001
    | .cvtYcbcr => w = 0x00001001
    | .cvtGray => w = 0x00002001
    | .kbuild => w = 0x00000002
    | .fftfImg ch => ch < 4 ∧ w = 0x00000010 + 0x100 * BitVec.ofNat 32 ch
    | .fftfKer => w = 0x00000011
    | .pmul => w = 0x00000012
    | .ffti => w = 0x00000013
    | .wback ch => ch < 4 ∧ w = 0x00000014 + 0x100 * BitVec.ofNat 32 ch
    | .blur => w = 0x0000001F
    | .grad => w = 0x00000020
    | .nms => w = 0x00000021
    | .thresh => w = 0x00000022
    | .hyst => w = 0x00000023
    | .canny => w = 0x0000002F
    | .start _ => False
    | .srst _ => False

/-- R105: the listed words decode as listed, and the four ILLEGAL words do not decode. -/
def Obligations.example_words : Prop :=
  decodeCommand 0x00000000 = .ok .nop ∧ decodeCommand 0x00000001 = .ok .cvtRgb
    ∧ decodeCommand 0x00001001 = .ok .cvtYcbcr ∧ decodeCommand 0x00002001 = .ok .cvtGray
    ∧ decodeCommand 0x00000002 = .ok .kbuild ∧ decodeCommand 0x00000010 = .ok (.fftfImg 0)
    ∧ decodeCommand 0x00000210 = .ok (.fftfImg 2) ∧ decodeCommand 0x00000011 = .ok .fftfKer
    ∧ decodeCommand 0x00000012 = .ok .pmul ∧ decodeCommand 0x00000013 = .ok .ffti
    ∧ decodeCommand 0x00000114 = .ok (.wback 1) ∧ decodeCommand 0x0000001F = .ok .blur
    ∧ decodeCommand 0x00000020 = .ok .grad ∧ decodeCommand 0x00000021 = .ok .nms
    ∧ decodeCommand 0x00000022 = .ok .thresh ∧ decodeCommand 0x00000023 = .ok .hyst
    ∧ decodeCommand 0x0000002F = .ok .canny
    ∧ (∀ w ∈ [0x00003001, 0x00000120, 0x00000420, 0x00000003], ∀ i, decodeCommand w ≠ .ok i)

/-- R100: a CTRL value with bit 1 set is SRST, one with bit 0 set and bit 1 clear is START, bit 2 carries
IRQ_EN; every other value is no operation. -/
def Obligations.control_values : Prop :=
  ∀ v : Word,
    (v.getLsbD 1 = true → decodeControl v = some (.srst (v.getLsbD 2)))
      ∧ (v.getLsbD 0 = true → v.getLsbD 1 = false → decodeControl v = some (.start (v.getLsbD 2)))
      ∧ (v.getLsbD 0 = false → v.getLsbD 1 = false → decodeControl v = none)

/-! ## Steps, the lifecycle and errors -/

/-- A STEP RUNS THE DECODED INSTRUCTION (R34, R96, R113). The engine's turn of a busy engine runs the latched
word; a CTRL write runs its control operation and gets OKAY, or only sets IRQ_EN; an engine turn in IDLE
changes nothing but the list of inputs. That inputs come from a list, and that a busy engine takes its
turn when the list is empty, is the model's choice (log 8); so is rdata = 0 in the answer to a write that gets
OKAY (log 14). -/
def Obligations.step_runs_decoded : Prop :=
  (∀ (s : State) (i : Instr), s.phase = .busy → decodeCommand s.latch.cmd = .ok i →
    (s.events = [] → step s = exec i s)
      ∧ (∀ rest, s.events = .engine :: rest → step s = exec i { s with events := rest }))
  ∧ (∀ (s : State) (v : Word) rest, s.events = .bus (ctrlWrite v) :: rest →
    (∀ i, decodeControl v = some i →
      step s = exec i { s with events := rest, resp := some { code := .okay, rdata := 0 } })
      ∧ (decodeControl v = none →
        step s = .next { s with events := rest, resp := some { code := .okay, rdata := 0 }
                                irqEn := v.getLsbD 2 }))
  ∧ (∀ s : State, s.phase = .idle →
    (s.events = [] → step s = .next s)
      ∧ (∀ rest, s.events = .engine :: rest → step s = .next { s with events := rest }))

/-- R97: an ILLEGAL word completes with code 3 and the whole latched word, and changes no other state. -/
def Obligations.illegal_command : Prop :=
  ∀ (s : State) rest, s.events = .engine :: rest → s.phase = .busy →
    (∀ i, decodeCommand s.latch.cmd ≠ .ok i) →
    step s = .next { s with events := rest, errCode := 3, errInfo := s.latch.cmd, err := true, phase := .idle }

/-- R116: NOP checks nothing and changes nothing; it completes with DONE. -/
def Obligations.nop_completes : Prop :=
  ∀ s : State, exec .nop s = .next { s with done := true, phase := .idle }

/-- R34, R110 to R112: START writes IRQ_EN first; in IDLE it then latches the live registers, clears DONE, ERR,
ERR_CODE and ERR_INFO and makes the engine BUSY; while BUSY the doorbell is dropped and sets OVF. -/
def Obligations.start_rings : Prop :=
  ∀ (s : State) (e : Bool),
    (s.phase = .idle → exec (.start e) s = .next
      { s with
        irqEn := e
        latch := { cmd := s.cmd, w := s.imgW, h := s.imgH, color := s.color, std := s.stdDev
                   sizeF := s.sizeF, hi := s.thrHi, lo := s.thrLo }
        done := false, err := false, errCode := 0, errInfo := 0, phase := .busy })
    ∧ (s.phase = .busy → exec (.start e) s = .next { s with irqEn := e, ovf := true })

/-- R115: SRST in IDLE sets every CSR to its soft-reset value and leaves the memories; while BUSY it is
dropped and sets OVF. IRQ_EN of the same write is written first (R34). -/
def Obligations.soft_reset : Prop :=
  ∀ (s : State) (e : Bool),
    (s.phase = .idle → exec (.srst e) s = .next
      { s with
        irqEn := false, done := false, err := false, ovf := false, haz := false
        errCode := 0, errInfo := 0, cmd := 0, imgW := 0, imgH := 0, color := 0, kerLen := 0
        stdDev := 1400, sizeF := 2, thrHi := 76800, thrLo := 25600 })
    ∧ (s.phase = .busy → exec (.srst e) s = .next { s with irqEn := e, ovf := true })

/-- R231, R114: a command whose validation fails changes only ERR_CODE, ERR_INFO, STATUS.ERR and PHASE. -/
def Obligations.errors_are_precise : Prop :=
  ∀ (s : State) (i : Instr) (e : ErrorReport), i.isControl = false →
    firstFailure s.latch.params s (checksOf i) = some e →
    exec i s = .next { s with errCode := e.code, errInfo := e.info, err := true, phase := .idle }

/-- R233, R234: the error a command reports is that of the first failing check, in the global order, among
the checks it performs. -/
def Obligations.check_order_is_global : Prop :=
  ∀ (s : State) (i : Instr) (ch : Nat) (target : BitVec 2),
    (∀ n, .channel n ∈ checksOf i → n = ch) → (∀ g, .pair g ∈ checksOf i → g = target) →
    firstFailure s.latch.params s (checksOf i) =
      firstFailure s.latch.params s ((checkOrder ch target).filter fun c => decide (c ∈ checksOf i))

/-- R230, R234: every command that checks the geometry reports 1/5 for W out of range, whatever else is
wrong; then 1/6 for H; then 1/7 for COLOR = 3. -/
def Obligations.geometry_errors : Prop :=
  ∀ (s : State) (i : Instr), i.isControl = false → i ≠ .nop → i ≠ .kbuild →
    (s.latch.w.toNat = 0 ∨ s.cfg.maxW < s.latch.w.toNat →
      exec i s = .next { s with errCode := 1, errInfo := 5, err := true, phase := .idle })
    ∧ (1 ≤ s.latch.w.toNat → s.latch.w.toNat ≤ s.cfg.maxW → (s.latch.h.toNat = 0 ∨ s.cfg.maxH < s.latch.h.toNat) →
      exec i s = .next { s with errCode := 1, errInfo := 6, err := true, phase := .idle })
    ∧ (1 ≤ s.latch.w.toNat → s.latch.w.toNat ≤ s.cfg.maxW → 1 ≤ s.latch.h.toNat → s.latch.h.toNat ≤ s.cfg.maxH →
      s.latch.color = 3 →
      exec i s = .next { s with errCode := 1, errInfo := 7, err := true, phase := .idle })

/-- R150, R154: KBUILD reports 1/1 for STD ≤ 0, then 1/2 for S < 0, then 1/3 for S > MAX_SIZE_F. -/
def Obligations.kbuild_errors : Prop :=
  ∀ s : State,
    (s.latch.std.toInt ≤ 0 →
      exec .kbuild s = .next { s with errCode := 1, errInfo := 1, err := true, phase := .idle })
    ∧ (0 < s.latch.std.toInt → s.latch.sizeF.toInt < 0 →
      exec .kbuild s = .next { s with errCode := 1, errInfo := 2, err := true, phase := .idle })
    ∧ (0 < s.latch.std.toInt → (s.cfg.maxSizeF : Int) < s.latch.sizeF.toInt →
      exec .kbuild s = .next { s with errCode := 1, errInfo := 3, err := true, phase := .idle })

/-- R230 with R165, R166, R170, R167, R171, R191, R197, R204: S < 0 is 1/2 and S > MAX_SIZE_F is 1/3 for every
convolution command; STD ≤ 0 is 1/1, then S is 1/2 or 1/3, for BLUR and CANNY; CH ≥ C is 1/8; KER_LEN ≠ 2S+1 is 4/2;
GRAD on a three-channel image is 4/1; LO > HI is 1/4 for THRESH and CANNY. -/
def Obligations.operand_errors : Prop :=
  ∀ s : State, GeometryValid s.cfg s.latch.params →
    (∀ i : Instr, (i ∈ [.fftfKer, .pmul, .ffti] ∨ ∃ ch, i = .fftfImg ch ∨ i = .wback ch) →
      (s.latch.sizeF.toInt < 0 →
        exec i s = .next { s with errCode := 1, errInfo := 2, err := true, phase := .idle })
      ∧ ((s.cfg.maxSizeF : Int) < s.latch.sizeF.toInt →
        exec i s = .next { s with errCode := 1, errInfo := 3, err := true, phase := .idle }))
    ∧ (∀ i ∈ [Instr.blur, .canny],
      (s.latch.std.toInt ≤ 0 →
        exec i s = .next { s with errCode := 1, errInfo := 1, err := true, phase := .idle })
      ∧ (0 < s.latch.std.toInt → s.latch.sizeF.toInt < 0 →
        exec i s = .next { s with errCode := 1, errInfo := 2, err := true, phase := .idle })
      ∧ (0 < s.latch.std.toInt → (s.cfg.maxSizeF : Int) < s.latch.sizeF.toInt →
        exec i s = .next { s with errCode := 1, errInfo := 3, err := true, phase := .idle }))
    ∧ (SizeValid s.cfg s.latch.params → ∀ ch, channels s.latch.color ≤ ch →
      exec (.fftfImg ch) s = .next { s with errCode := 1, errInfo := 8, err := true, phase := .idle }
      ∧ exec (.wback ch) s = .next { s with errCode := 1, errInfo := 8, err := true, phase := .idle })
    ∧ (SizeValid s.cfg s.latch.params → (s.kerLen.toNat : Int) ≠ 2 * s.latch.sizeF.toInt + 1 →
      exec .fftfKer s = .next { s with errCode := 4, errInfo := 2, err := true, phase := .idle })
    ∧ (s.latch.color ≠ 2 →
      exec .grad s = .next { s with errCode := 4, errInfo := 1, err := true, phase := .idle })
    ∧ (s.latch.hi.toInt < s.latch.lo.toInt →
      exec .thresh s = .next { s with errCode := 1, errInfo := 4, err := true, phase := .idle }
      ∧ (0 < s.latch.std.toInt → SizeValid s.cfg s.latch.params →
        exec .canny s = .next { s with errCode := 1, errInfo := 4, err := true, phase := .idle }))

/-- R236: the engine never halts: every step of every state answers a next state. -/
def Obligations.engine_never_halts : Prop := ∀ s : State, ∃ t, step s = .next t

/-- R26: a command reads only LATCH: other values of the live CMD, STD_DEV, SIZE_F, THR_HI and THR_LO change
nothing of what it does. -/
def Obligations.commands_read_only_the_latch : Prop :=
  ∀ (s t : State) (i : Instr) (c a b h l : Word), i.isControl = false → exec i s = .next t →
    exec i { s with cmd := c, stdDev := a, sizeF := b, thrHi := h, thrLo := l }
      = .next { t with cmd := c, stdDev := a, sizeF := b, thrHi := h, thrLo := l }

/-! ## Colour conversion -/

/-- R132, R131: `CVT ycbcr` of an RGB image, pixel by pixel, in exact rationals. A sample that nothing has
written reads as a free value (log 2). -/
def Obligations.cvt_ycbcr_result : Prop :=
  ∀ (s : State) (p : Params), p = s.latch.params → GeometryValid s.cfg p → p.color = 0 →
    ∃ t, exec .cvtYcbcr s = .next t
      ∧ (∀ (j : Nat) (R G B : ℚ), j < p.w * p.h →
        R = ((s.byteAt .pix (3 * j)).toNat : ℚ) → G = ((s.byteAt .pix (3 * j + 1)).toNat : ℚ) →
        B = ((s.byteAt .pix (3 * j + 2)).toNat : ℚ) →
        HoldsRun t.pix (3 * j)
          [roundSample (0.299 * R + 0.587 * G + 0.114 * B),
           roundSample (128 - 0.168736 * R - 0.331264 * G + 0.5 * B),
           roundSample (128 + 0.5 * R - 0.418688 * G - 0.081312 * B)])
      ∧ SameOutside (InRun 0 (3 * (p.w * p.h))) s.pix t.pix
      ∧ t.color = 1 ∧ t.kerLen = s.kerLen ∧ CommandFrame (· == .pix) s t

/-- R133, R131: `CVT rgb` of a YCbCr image, pixel by pixel, in exact rationals. -/
def Obligations.cvt_rgb_result : Prop :=
  ∀ (s : State) (p : Params), p = s.latch.params → GeometryValid s.cfg p → p.color = 1 →
    ∃ t, exec .cvtRgb s = .next t
      ∧ (∀ (j : Nat) (Y Cb Cr : ℚ), j < p.w * p.h →
        Y = ((s.byteAt .pix (3 * j)).toNat : ℚ) → Cb = ((s.byteAt .pix (3 * j + 1)).toNat : ℚ) →
        Cr = ((s.byteAt .pix (3 * j + 2)).toNat : ℚ) →
        HoldsRun t.pix (3 * j)
          [roundSample (Y + 1.402 * (Cr - 128)),
           roundSample (Y - 0.344136 * (Cb - 128) - 0.714136 * (Cr - 128)),
           roundSample (Y + 1.772 * (Cb - 128))])
      ∧ SameOutside (InRun 0 (3 * (p.w * p.h))) s.pix t.pix
      ∧ t.color = 0 ∧ t.kerLen = s.kerLen ∧ CommandFrame (· == .pix) s t

/-- R134, R135, R131, R53: `CVT gray`: the luma of RGB, the Y of YCbCr; the bytes beyond W*H stay. -/
def Obligations.cvt_gray_result : Prop :=
  ∀ (s : State) (p : Params), p = s.latch.params → GeometryValid s.cfg p → p.color ≠ 2 →
    ∃ t, exec .cvtGray s = .next t
      ∧ (∀ (j : Nat) (R G B : ℚ), j < p.w * p.h →
        R = ((s.byteAt .pix (3 * j)).toNat : ℚ) → G = ((s.byteAt .pix (3 * j + 1)).toNat : ℚ) →
        B = ((s.byteAt .pix (3 * j + 2)).toNat : ℚ) →
        Memory.read t.pix j = some
          (if p.color = 0 then roundSample (0.299 * R + 0.587 * G + 0.114 * B) else s.byteAt .pix (3 * j)))
      ∧ SameOutside (InRun 0 (p.w * p.h)) s.pix t.pix
      ∧ t.color = 2 ∧ t.kerLen = s.kerLen ∧ CommandFrame (· == .pix) s t

/-- R136: CVT to the current space writes nothing and completes with DONE. -/
def Obligations.cvt_same_space : Prop :=
  ∀ s : State, GeometryValid s.cfg s.latch.params →
    (s.latch.color = 0 → exec .cvtRgb s = .next { s with done := true, phase := .idle })
    ∧ (s.latch.color = 1 → exec .cvtYcbcr s = .next { s with done := true, phase := .idle })
    ∧ (s.latch.color = 2 → exec .cvtGray s = .next { s with done := true, phase := .idle })

/-- R137: CVT from Grayscale to RGB or YCbCr raises UnsupportedConversion, 0x20 or 0x21. -/
def Obligations.cvt_unsupported : Prop :=
  ∀ s : State, GeometryValid s.cfg s.latch.params → s.latch.color = 2 →
    exec .cvtRgb s = .next { s with errCode := 2, errInfo := 0x20, err := true, phase := .idle }
    ∧ exec .cvtYcbcr s = .next { s with errCode := 2, errInfo := 0x21, err := true, phase := .idle }

/-- R138, first law: a grey pixel converts to (v, 128, 128) and back exactly. -/
def Obligations.grey_pixel_round_trip : Prop :=
  ∀ v : Byte, rgbToYcbcr { p0 := v, p1 := v, p2 := v } = { p0 := v, p1 := 128, p2 := 128 }
    ∧ ycbcrToRgb { p0 := v, p1 := 128, p2 := 128 } = { p0 := v, p1 := v, p2 := v }

/-! ## Kernel -/

/-- R150, R151: KBUILD writes taps 0 to 2S and KER_LEN; taps beyond 2S keep their values. -/
def Obligations.kbuild_result : Prop :=
  ∀ (s : State) (p : Params), p = s.latch.params → 0 < p.std → SizeValid s.cfg p →
    ∃ t, exec .kbuild s = .next t
      ∧ t.kerLen.toNat = 2 * p.half + 1
      ∧ (∀ i, i ≤ 2 * p.half → HoldsRun t.ker (8 * i) (leBytes 8 (kerImpl s.cfg p.std p.half i).toNat))
      ∧ SameOutside (InRun 0 (8 * (2 * p.half + 1))) s.ker t.ker
      ∧ t.color = s.color ∧ t.draws = s.draws ∧ CommandFrame (· == .ker) s t

/-- R153: for every NUM the stored kernel is symmetric, 1.0 at S = 0, finite and in [0, 1], and within EPS_KER of
the exact weight; and a tap KBUILD stored reads back as it is. That there is a NUM, and that nothing else is known
of it, is log 5. For error bounds tighter than the reference values the contract is the condition R6 puts on NUM and a
part of `Config.Valid` (log 3); for the reference values and looser ones it is assumed nowhere. -/
def Obligations.kernel_contract : Prop :=
  (∀ (c : Config) (std : Int) (s i : Nat), c.Valid → 0 < std → s ≤ c.maxSizeF → i ≤ 2 * s →
    kerImpl c std s i = kerImpl c std s (2 * s - i)
    ∧ (s = 0 → kerImpl c std s i = 0x3FF0000000000000#64)
    ∧ f64IsFinite (kerImpl c std s i) = true
    ∧ 0 ≤ f64Rat (kerImpl c std s i) ∧ f64Rat (kerImpl c std s i) ≤ 1
    ∧ |(f64Rat (kerImpl c std s i) : ℝ) - exactWeight std s ((i : ℤ) - s)| ≤ c.epsKer.toReal)
  ∧ ∀ (s : State) (p : Params), p = s.latch.params → 0 < p.std → SizeValid s.cfg p →
    ∃ t, exec .kbuild s = .next t ∧ ∀ i, i ≤ 2 * p.half → t.tapAt i = kerImpl s.cfg p.std p.half i

/-- R152: the exact weight lies between the two bounds the model computes of it (log 6). -/
def Obligations.kernel_enclosure : Prop :=
  ∀ (std : Int) (s k : Nat), 0 < std → k ≤ s →
    (weightLo std.toNat s k : ℝ) / 2 ^ 160 ≤ exactWeight std s k
    ∧ exactWeight std s k ≤ (weightHi std.toNat s k : ℝ) / 2 ^ 160

/-! ## Convolution -/

/-- R179: a u8 sample converts exactly; `a *f64 b` of finite values is the binary64 value nearest to the exact
product, ties to even (a value of another amount that is as near leaves the result an even fraction), with the sign
of the product, and infinite exactly where the exact product is 2^1024 - 2^970 or more in magnitude; a NaN operand,
or an infinity times zero, gives a NaN; any other infinity gives an infinity with the sign of the product. -/
def Obligations.product_is_nearest : Prop :=
  (∀ b : Byte, f64IsFinite (f64OfByte b) = true ∧ f64Rat (f64OfByte b) = b.toNat)
  ∧ (∀ a b : F64, f64IsFinite a = true → f64IsFinite b = true →
    f64Sign (f64Mul a b) = xor (f64Sign a) (f64Sign b)
    ∧ (f64IsFinite (f64Mul a b) = true ↔ |f64Rat a * f64Rat b| < 2 ^ 1024 - 2 ^ 970)
    ∧ (f64IsFinite (f64Mul a b) = true ∨ f64IsInf (f64Mul a b) = true)
    ∧ (f64IsFinite (f64Mul a b) = true → ∀ c : F64, f64IsFinite c = true →
      |f64Rat (f64Mul a b) - f64Rat a * f64Rat b| ≤ |f64Rat c - f64Rat a * f64Rat b|
      ∧ (f64Rat c ≠ f64Rat (f64Mul a b) →
        |f64Rat (f64Mul a b) - f64Rat a * f64Rat b| = |f64Rat c - f64Rat a * f64Rat b| →
        f64Frac (f64Mul a b) % 2 = 0)))
  ∧ (∀ a b : F64, f64IsNaN a = true ∨ f64IsNaN b = true → f64IsNaN (f64Mul a b) = true)
  ∧ ∀ a b : F64, f64IsInf a = true → f64IsNaN b = false →
    (f64IsFinite b = true ∧ f64Rat b = 0 → f64IsNaN (f64Mul a b) = true ∧ f64IsNaN (f64Mul b a) = true)
    ∧ (¬ (f64IsFinite b = true ∧ f64Rat b = 0) →
      (f64IsInf (f64Mul a b) = true ∧ f64Sign (f64Mul a b) = xor (f64Sign a) (f64Sign b))
      ∧ (f64IsInf (f64Mul b a) = true ∧ f64Sign (f64Mul b a) = xor (f64Sign a) (f64Sign b)))

/-- R166: FFTF.IMG pads channel ch and writes NUM's forward transform of it to the region of A. -/
def Obligations.fftf_img_result : Prop :=
  ∀ (s : State) (p : Params) (ch : Nat), p = s.latch.params → GeometryValid s.cfg p → SizeValid s.cfg p → ch < p.c →
    ∃ t x, exec (.fftfImg ch) s = .next t
      ∧ x.length = p.pw * p.ph
      ∧ (∀ u v, u < p.pw → v < p.ph → x[v * p.pw + u]? = some
          (if u < p.w ∧ v < p.h then
            { re := f64OfByte (s.byteAt .pix ((v * p.w + u) * p.c + ch)), im := 0 } else { re := 0, im := 0 }))
      ∧ (∀ u v, u < p.pw → v < p.ph →
          HoldsElement s.cfg t.planeA u v (s.cfg.num.fftFwd p.pw p.ph x (v * p.pw + u)))
      ∧ SameOutside (InRegion s.cfg p) s.planeA t.planeA
      ∧ t.color = s.color ∧ t.kerLen = s.kerLen ∧ CommandFrame (· == .a) s t

/-- R167: FFTF.KER places the products of the taps, centred on [0, 0] and wrapped, and writes NUM's forward
transform of them to the region of K. -/
def Obligations.fftf_ker_result : Prop :=
  ∀ (s : State) (p : Params), p = s.latch.params → GeometryValid s.cfg p → SizeValid s.cfg p →
    (s.kerLen.toNat : Int) = 2 * p.s + 1 →
    ∃ t x, exec .fftfKer s = .next t
      ∧ x.length = p.pw * p.ph
      ∧ (∀ i j : Int, -p.s ≤ i → i ≤ p.s → -p.s ≤ j → j ≤ p.s →
          x[(j % p.ph).toNat * p.pw + (i % p.pw).toNat]? = some
            { re := f64Mul (s.tapAt (p.s + i).toNat) (s.tapAt (p.s + j).toNat), im := 0 })
      ∧ (∀ u v, u < p.pw → v < p.ph →
          (∀ i j : Int, -p.s ≤ i → i ≤ p.s → -p.s ≤ j → j ≤ p.s → ¬ (i % p.pw = u ∧ j % p.ph = v)) →
          x[v * p.pw + u]? = some { re := 0, im := 0 })
      ∧ (∀ u v, u < p.pw → v < p.ph →
          HoldsElement s.cfg t.planeK u v (s.cfg.num.fftFwd p.pw p.ph x (v * p.pw + u)))
      ∧ SameOutside (InRegion s.cfg p) s.planeK t.planeK
      ∧ t.color = s.color ∧ t.kerLen = s.kerLen ∧ CommandFrame (· == .k) s t

/-- R168: PMUL writes NUM's pointwise product of the regions of A and K to the region of A. -/
def Obligations.pmul_result : Prop :=
  ∀ (s : State) (p : Params), p = s.latch.params → GeometryValid s.cfg p → SizeValid s.cfg p →
    ∃ t a k, exec .pmul s = .next t
      ∧ a.length = p.pw * p.ph ∧ k.length = p.pw * p.ph
      ∧ (∀ u v, u < p.pw → v < p.ph →
          a[v * p.pw + u]? = some (s.cplxAt .a u v) ∧ k[v * p.pw + u]? = some (s.cplxAt .k u v))
      ∧ (∀ u v, u < p.pw → v < p.ph →
          HoldsElement s.cfg t.planeA u v (s.cfg.num.pmul p.pw p.ph a k (v * p.pw + u)))
      ∧ SameOutside (InRegion s.cfg p) s.planeA t.planeA
      ∧ t.color = s.color ∧ t.kerLen = s.kerLen ∧ CommandFrame (· == .a) s t

/-- R169: FFTI writes NUM's inverse transform of the region of A over it, every element of it. What R161 promises
of some of them is the contract of NUM (log 5, log 18). -/
def Obligations.ffti_result : Prop :=
  ∀ (s : State) (p : Params), p = s.latch.params → GeometryValid s.cfg p → SizeValid s.cfg p →
    ∃ t x, exec .ffti s = .next t
      ∧ x.length = p.pw * p.ph
      ∧ (∀ u v, u < p.pw → v < p.ph → x[v * p.pw + u]? = some (s.cplxAt .a u v))
      ∧ (∀ u v, u < p.pw → v < p.ph →
          HoldsElement s.cfg t.planeA u v (s.cfg.num.fftInv p.pw p.ph x (v * p.pw + u)))
      ∧ SameOutside (InRegion s.cfg p) s.planeA t.planeA
      ∧ t.color = s.color ∧ t.kerLen = s.kerLen ∧ CommandFrame (· == .a) s t

/-- R170: WBACK writes wb of the real part to channel ch of every pixel, and no other byte. -/
def Obligations.wback_result : Prop :=
  ∀ (s : State) (p : Params) (ch : Nat), p = s.latch.params → GeometryValid s.cfg p → SizeValid s.cfg p → ch < p.c →
    ∃ t, exec (.wback ch) s = .next t
      ∧ (∀ x y, x < p.w → y < p.h →
          Memory.read t.pix ((y * p.w + x) * p.c + ch) = some (writeBack (s.cplxAt .a x y).re))
      ∧ SameOutside (InChannel p ch) s.pix t.pix
      ∧ t.color = s.color ∧ t.kerLen = s.kerLen ∧ CommandFrame (· == .pix) s t

/-- R170, the function wb: round half up and clamp a finite value; 0 for NaN and -∞, 255 for +∞. -/
def Obligations.write_back_function : Prop :=
  ∀ a : F64,
    (f64IsFinite a = true → writeBack a = roundSample (f64Rat a))
    ∧ (f64IsNaN a = true → writeBack a = 0)
    ∧ (a = 0xFFF0000000000000#64 → writeBack a = 0)
    ∧ (a = 0x7FF0000000000000#64 → writeBack a = 255)

/-- R172: BLUR with S = 0 runs only the KBUILD step: KER[0] = 1.0, KER_LEN = 1; PIX, A and K stay. -/
def Obligations.blur_size_zero : Prop :=
  ∀ (s : State) (p : Params), p = s.latch.params → GeometryValid s.cfg p → 0 < p.std → p.s = 0 →
    ∃ t, exec .blur s = .next t
      ∧ t.kerLen = 1
      ∧ HoldsRun t.ker 0 [0, 0, 0, 0, 0, 0, 0xF0, 0x3F]
      ∧ SameOutside (InRun 0 8) s.ker t.ker
      ∧ t.color = s.color ∧ CommandFrame (· == .ker) s t

/-- R171: BLUR with S ≥ 1 is the sequence of its sub-commands: KBUILD, FFTF.KER, then for each channel in
ascending order FFTF.IMG, PMUL, FFTI, WBACK. -/
def Obligations.blur_is_its_sequence : Prop :=
  ∀ (s : State) (p : Params), p = s.latch.params → GeometryValid s.cfg p → SizeValid s.cfg p → 0 < p.std → 1 ≤ p.s →
    (∃ t, exec .blur s = .next t)
    ∧ exec .blur s = runSeq ([.kbuild, .fftfKer] ++ (List.range p.c).flatMap channelPass) s

/-- R173: the exact convolution lies between the two bounds the model computes of it (log 6). -/
def Obligations.convolution_enclosure : Prop :=
  ∀ (std : Int) (g : Geom) (samples : List Byte) (x y : Nat), 0 < std →
    (convLo std g samples x y : ℝ) / 2 ^ 320 ≤ exactConv std g samples x y
    ∧ exactConv std g samples x y ≤ (convHi std g samples x y : ℝ) / 2 ^ 320

/-- R161: after the canonical sequence, in either order of the two forward transforms, the real part of
A[x, y] is finite and within EPS_CONV of the exact convolution of the samples FFTF.IMG read. R161 gives this of
NUM's functions; the statement is that the four commands apply them to the right arrays (log 5, log 18). -/
def Obligations.canonical_accuracy : Prop :=
  ∀ (s : State) (p : Params) (ch : Nat) (order : List Instr), s.cfg.Valid → p = s.latch.params →
    GeometryValid s.cfg p → SizeValid s.cfg p → 0 < p.std → 1 ≤ p.s → ch < p.c →
    WrittenTo s.pix (p.w * p.h * p.c) →
    (order = [.fftfImg ch, .fftfKer] ∨ order = [.fftfKer, .fftfImg ch]) →
    ∃ t samples, runSeq ([.kbuild] ++ order ++ [.pmul, .ffti]) s = .next t
      ∧ (∀ x y, x < p.w → y < p.h →
          samples[y * p.w + x]? = Memory.read s.pix ((y * p.w + x) * p.c + ch))
      ∧ ∀ x y, x < p.w → y < p.h → ∃ z, HoldsElement s.cfg t.planeA x y z ∧ f64IsFinite z.re = true
        ∧ |(f64Rat z.re : ℝ) - exactConv p.std p.geom samples x y| ≤ s.cfg.epsConv.toReal

/-- R175: each byte BLUR writes is round-half-up-and-clamp of some value within EPS_CONV of the exact
convolution of the samples before BLUR (log 5, log 18). -/
def Obligations.blur_samples : Prop :=
  ∀ (s : State) (p : Params), s.cfg.Valid → p = s.latch.params → GeometryValid s.cfg p → SizeValid s.cfg p → 0 < p.std → 1 ≤ p.s →
    WrittenTo s.pix (p.w * p.h * p.c) →
    ∃ t, exec .blur s = .next t
      ∧ (∀ ch x y samples, ch < p.c → x < p.w → y < p.h →
          samples.length = p.w * p.h →
          (∀ x' y', x' < p.w → y' < p.h →
            samples[y' * p.w + x']? = Memory.read s.pix ((y' * p.w + x') * p.c + ch)) →
          ∃ a : ℚ, Memory.read t.pix ((y * p.w + x) * p.c + ch) = some (roundSample a)
            ∧ |(a : ℝ) - exactConv p.std p.geom samples x y| ≤ s.cfg.epsConv.toReal)
      ∧ SameOutside (InRun 0 (p.w * p.h * p.c)) s.pix t.pix
      ∧ SameOutside (InRun 0 (8 * (2 * p.half + 1))) s.ker t.ker
      ∧ SameOutside (InRegion s.cfg p) s.planeA t.planeA ∧ SameOutside (InRegion s.cfg p) s.planeK t.planeK
      ∧ t.kerLen.toNat = 2 * p.half + 1 ∧ t.color = s.color
      ∧ CommandFrame (fun q => q == .pix || q == .ker || q == .a || q == .k) s t

/-! ## Edge pipeline -/

/-- R191 with R190: GRAD writes the squared Sobel magnitude and the quantized direction at interior pixels
and zeros at border pixels. -/
def Obligations.grad_result : Prop :=
  ∀ (s : State) (p : Params) (P : Nat → Nat → Int), p = s.latch.params → GeometryValid s.cfg p → p.color = 2 →
    (∀ x y, P x y = ((s.byteAt .pix (y * p.w + x)).toNat : Int)) →
    ∃ t, exec .grad s = .next t
      ∧ (∀ x y (gx gy : Int), x + 2 < p.w → y + 2 < p.h →
          gx = (P (x + 2) y + 2 * P (x + 2) (y + 1) + P (x + 2) (y + 2))
                - (P x y + 2 * P x (y + 1) + P x (y + 2)) →
          gy = (P x (y + 2) + 2 * P (x + 1) (y + 2) + P (x + 2) (y + 2))
                - (P x y + 2 * P (x + 1) y + P (x + 2) y) →
          HoldsRun t.mag (4 * planeIndex s.cfg (x + 1) (y + 1)) (leBytes 4 (gx * gx + gy * gy).toNat)
          ∧ Memory.read t.dir (planeIndex s.cfg (x + 1) (y + 1)) = some (BitVec.ofNat 8 (quant gx gy)))
      ∧ (∀ x y, x < p.w → y < p.h → (x = 0 ∨ y = 0 ∨ x + 1 = p.w ∨ y + 1 = p.h) →
          HoldsRun t.mag (4 * planeIndex s.cfg x y) [0, 0, 0, 0] ∧ Memory.read t.dir (planeIndex s.cfg x y) = some 0)
      ∧ SameOutside (InMag s.cfg p.w p.h) s.mag t.mag ∧ SameOutside (InCode s.cfg p.w p.h) s.dir t.dir
      ∧ t.color = s.color ∧ t.kerLen = s.kerLen
      ∧ CommandFrame (fun q => q == .mag || q == .dir) s t

/-- R192: quant is the nearest of the four orientations: tan 22.5° = √2 - 1 and tan 67.5° = √2 + 1 bound the
bins, and the sign of gx*gy tells the diagonals apart. -/
def Obligations.quant_is_nearest : Prop :=
  ∀ gx gy : Int, quant gx gy =
    if gx = 0 ∧ gy = 0 then 0
    else if (|gy| : ℝ) < (Real.sqrt 2 - 1) * |gx| then 0
    else if (Real.sqrt 2 + 1) * |gx| < (|gy| : ℝ) then 2
    else if 0 < gx * gy then 1
    else 3

/-- R194 with R193: NMS writes 0 at each interior pixel below one of its pair in the snapshot, and nothing
else. -/
def Obligations.nms_result : Prop :=
  ∀ (s : State) (p : Params) (M : Nat → Nat → Nat), p = s.latch.params → GeometryValid s.cfg p →
    (∀ x y, M x y = leIn s.mag s.draws .mag (4 * planeIndex s.cfg x y) 4) →
    ∃ t, exec .nms s = .next t
      ∧ (∀ x y n1 n2, 1 ≤ x → x + 2 ≤ p.w → 1 ≤ y → y + 2 ≤ p.h →
          (n1, n2) = (match (s.byteAt .dir (planeIndex s.cfg x y)).toNat with
            | 0 => ((x + 1, y), (x - 1, y))
            | 1 => ((x + 1, y + 1), (x - 1, y - 1))
            | 2 => ((x, y + 1), (x, y - 1))
            | _ => ((x - 1, y + 1), (x + 1, y - 1))) →
          ((M n1.1 n1.2 ≤ M x y ∧ M n2.1 n2.2 ≤ M x y) →
            ∀ a, InRun (4 * planeIndex s.cfg x y) 4 a → Memory.read t.mag a = Memory.read s.mag a)
          ∧ (¬ (M n1.1 n1.2 ≤ M x y ∧ M n2.1 n2.2 ≤ M x y) →
            HoldsRun t.mag (4 * planeIndex s.cfg x y) [0, 0, 0, 0]))
      ∧ SameOutside (fun a => ∃ x y, 1 ≤ x ∧ x + 2 ≤ p.w ∧ 1 ≤ y ∧ y + 2 ≤ p.h
          ∧ InRun (4 * planeIndex s.cfg x y) 4 a) s.mag t.mag
      ∧ t.color = s.color ∧ t.kerLen = s.kerLen ∧ CommandFrame (· == .mag) s t

/-- R194, corner case: NMS is idempotent while DIR is unchanged, on written planes. -/
def Obligations.nms_is_idempotent : Prop :=
  ∀ (s t u : State) (p : Params), p = s.latch.params → GeometryValid s.cfg p →
    (∀ x y, x < p.w → y < p.h → (Memory.read s.dir (planeIndex s.cfg x y)).isSome
      ∧ ∀ a, InRun (4 * planeIndex s.cfg x y) 4 a → (Memory.read s.mag a).isSome) →
    exec .nms s = .next t → exec .nms t = .next u →
    ∀ a, Memory.read u.mag a = Memory.read t.mag a

/-- R196: `ge(M2, T)` is sqrt(M2) ≥ T/1000 for T > 0, and always holds for T ≤ 0. -/
def Obligations.threshold_comparison : Prop :=
  ∀ (m : Nat) (T : Int),
    (T ≤ 0 → thresholdGe m T = true)
    ∧ (0 < T → (thresholdGe m T = true ↔ (T : ℝ) / 1000 ≤ Real.sqrt m))

/-- R197 with R198: THRESH writes the class of every magnitude: 0 for magnitude 0, else strong, weak or
non-edge by the two thresholds. -/
def Obligations.thresh_result : Prop :=
  ∀ (s : State) (p : Params) (M : Nat → Nat → Nat), p = s.latch.params → GeometryValid s.cfg p → p.lo ≤ p.hi →
    (∀ x y, M x y = leIn s.mag s.draws .mag (4 * planeIndex s.cfg x y) 4) →
    ∃ t, exec .thresh s = .next t
      ∧ (∀ x y, x < p.w → y < p.h →
          (M x y = 0 → Memory.read t.cls (planeIndex s.cfg x y) = some 0)
          ∧ (M x y ≠ 0 → thresholdGe (M x y) p.hi = true → Memory.read t.cls (planeIndex s.cfg x y) = some 2)
          ∧ (M x y ≠ 0 → thresholdGe (M x y) p.hi = false → thresholdGe (M x y) p.lo = true →
              Memory.read t.cls (planeIndex s.cfg x y) = some 1)
          ∧ (M x y ≠ 0 → thresholdGe (M x y) p.hi = false → thresholdGe (M x y) p.lo = false →
              Memory.read t.cls (planeIndex s.cfg x y) = some 0))
      ∧ SameOutside (InCode s.cfg p.w p.h) s.cls t.cls
      ∧ t.color = s.color ∧ t.kerLen = s.kerLen ∧ CommandFrame (· == .cls) s t

/-- R203 with R199, R200: HYST writes 255 on the edge set and 0 on every other pixel, and makes the image
Grayscale; the bytes beyond W*H stay. -/
def Obligations.hyst_result : Prop :=
  ∀ (s : State) (p : Params) (cls : Nat → Nat → Nat), p = s.latch.params → GeometryValid s.cfg p →
    (∀ x y, cls x y = (s.byteAt .cls (planeIndex s.cfg x y)).toNat) →
    ∃ t, exec .hyst s = .next t
      ∧ (∀ x y, x < p.w → y < p.h →
          (InEdgeSet p.w p.h cls (x, y) → Memory.read t.pix (y * p.w + x) = some 255)
          ∧ (¬ InEdgeSet p.w p.h cls (x, y) → Memory.read t.pix (y * p.w + x) = some 0))
      ∧ SameOutside (InRun 0 (p.w * p.h)) s.pix t.pix
      ∧ t.color = 2 ∧ t.kerLen = s.kerLen ∧ CommandFrame (· == .pix) s t

/-- R205: CANNY on a Grayscale image is BLUR, GRAD, NMS, THRESH, HYST, one after another; on a colour image
CVT gray comes first and the others take COLOR = Grayscale (log 20). -/
def Obligations.canny_is_its_sequence : Prop :=
  ∀ (s : State) (p : Params), p = s.latch.params → GeometryValid s.cfg p → SizeValid s.cfg p → 0 < p.std → p.lo ≤ p.hi →
    (p.color = 2 → (∃ t, exec .canny s = .next t)
      ∧ exec .canny s = runSeq [.blur, .grad, .nms, .thresh, .hyst] s)
    ∧ (p.color ≠ 2 → ∃ t u, exec .cvtGray s = .next t
        ∧ runSeq [.blur, .grad, .nms, .thresh, .hyst] { t with latch := { t.latch with color := 2 } } = .next u
        ∧ exec .canny s = .next { u with latch := s.latch })

/-- R205, R203, R53: CANNY leaves a Grayscale map of 0 and 255, 0 at every border pixel, and the bytes of PIX
beyond W*H as they were. -/
def Obligations.canny_map : Prop :=
  ∀ (s : State) (p : Params), p = s.latch.params → GeometryValid s.cfg p → SizeValid s.cfg p → 0 < p.std → p.lo ≤ p.hi →
    ∃ t, exec .canny s = .next t ∧ t.color = 2 ∧ t.kerLen.toNat = 2 * p.half + 1
      ∧ (∀ x y, x < p.w → y < p.h →
          Memory.read t.pix (y * p.w + x) = some 0 ∨ Memory.read t.pix (y * p.w + x) = some 255)
      ∧ (∀ x y, x < p.w → y < p.h → (x = 0 ∨ y = 0 ∨ x + 1 = p.w ∨ y + 1 = p.h) →
          Memory.read t.pix (y * p.w + x) = some 0)
      ∧ SameOutside (InRun 0 (p.w * p.h)) s.pix t.pix
      ∧ SameOutside (InRun 0 (8 * (2 * p.half + 1))) s.ker t.ker
      ∧ SameOutside (fun a => p.s ≠ 0 ∧ InRegion s.cfg p a) s.planeA t.planeA
      ∧ SameOutside (fun a => p.s ≠ 0 ∧ InRegion s.cfg p a) s.planeK t.planeK
      ∧ SameOutside (InMag s.cfg p.w p.h) s.mag t.mag ∧ SameOutside (InCode s.cfg p.w p.h) s.dir t.dir
      ∧ SameOutside (InCode s.cfg p.w p.h) s.cls t.cls
      ∧ CommandFrame (fun _ => true) s t

/-- R206: CANNY on a uniform image, whatever its space: with S = 0, or every sample 0, the map is all 0; with S ≥ 1
no pixel at distance S+1 or more from the border is an edge. The samples of every pixel are `v 0`, `v 1`, `v 2` (R206
takes them equal; the law holds where they differ too). -/
def Obligations.canny_uniform_image : Prop :=
  ∀ (s : State) (p : Params) (v : Nat → Byte), p = s.latch.params → GeometryValid s.cfg p → SizeValid s.cfg p →
    0 < p.std → p.lo ≤ p.hi →
    (∀ j ch, j < p.w * p.h → ch < p.c → Memory.read s.pix (j * p.c + ch) = some (v ch)) →
    ∃ t, exec .canny s = .next t
      ∧ (p.s = 0 → ∀ j, j < p.w * p.h → Memory.read t.pix j = some 0)
      ∧ (s.cfg.Valid → (∀ ch, ch < p.c → v ch = 0) → ∀ j, j < p.w * p.h → Memory.read t.pix j = some 0)
      ∧ (s.cfg.Valid → 1 ≤ p.s → ∀ x y, p.half + 1 ≤ x → x + p.half + 2 ≤ p.w → p.half + 1 ≤ y →
          y + p.half + 2 ≤ p.h → Memory.read t.pix (y * p.w + x) = some 0)

/-! ## The port -/

/-- R70 to R75, R22: exactly the accesses of `BadAccess` get SLVERR; such an access changes no state and
returns 0. (The response and the list of inputs are the model's own fields, log 8, log 14.) -/
def Obligations.bad_accesses_have_no_effect : Prop :=
  ∀ (s : State) (r : BusReq) rest, s.events = .bus r :: rest →
    (BadAccess r → step s = .next { s with events := rest, resp := some { code := .slverr, rdata := 0 } })
    ∧ (¬ BadAccess r → ∃ t v, step s = .next t ∧ t.resp = some { code := .okay, rdata := v })

/-- R76: while BUSY a window access that passes the checks gets OKAY, reads 0, writes nothing and sets HAZ. -/
def Obligations.busy_windows_are_blocked : Prop :=
  ∀ (s : State) (r : BusReq) rest, s.events = .bus r :: rest → s.phase = .busy → ¬ BadAccess r →
    0x1000 ≤ r.off.toNat →
    step s = .next { s with events := rest, haz := true, resp := some { code := .okay, rdata := 0 } }

/-- R60, R61, R63 to R65, R70: in IDLE a write of n bytes to PIX stores them in order and nothing else, and a read of
the same bytes returns them; an IDLE read of n bytes of any window returns the bytes the window shows there, the
lowest in rdata[7:0] and 0 above them (R22), at every size, and changes nothing. That a write that gets OKAY
answers rdata = 0 is the model's choice (log 14); an element nothing has written shows a free value (log 2). -/
def Obligations.pix_write_then_read : Prop :=
  (∀ (s : State) (r : BusReq) (i n : Nat) rest,
    s.events = .bus r :: .bus { r with kind := .read } :: rest → s.phase = .idle → s.cfg.Valid → r.kind = .write →
    r.off.toNat = 0x100000 + i → n = sizeBytes r.size → i + n ≤ 3 * s.cfg.maxW * s.cfg.maxH → i % n = 0 →
    ∃ t u, step s = .next t ∧ step t = .next u
      ∧ (∀ m, m < n → Memory.read t.pix (i + m) = some (BitVec.ofNat 8 (r.wdata.toNat / 256 ^ m)))
      ∧ SameOutside (InRun i n) s.pix t.pix
      ∧ t = { s with pix := t.pix, events := .bus { r with kind := .read } :: rest
                     resp := some { code := .okay, rdata := 0 } }
      ∧ u = { t with events := rest
                     resp := some { code := .okay, rdata := BitVec.ofNat 32 (r.wdata.toNat % 256 ^ n) } })
  ∧ ∀ (s : State) (r : BusReq) (i n : Nat) (w : Window) rest,
    s.events = .bus r :: rest → s.phase = .idle → s.cfg.Valid → MemoriesOk s → r.kind = .read →
    w ∈ windows s → r.off.toNat = w.base + i → n = sizeBytes r.size → i + n ≤ w.size → i % n = 0 →
    ∃ t v, step s = .next t
      ∧ t = { s with events := rest, draws := t.draws, resp := some { code := .okay, rdata := v } }
      ∧ ∀ m, m < 4 → v.extractLsb' (8 * m) 8 = if m < n then w.shows (i + m) else 0

/-- R35, R52, R240: a write to STATUS clears the named flags among DONE, ERR, OVF and HAZ and nothing else,
in IDLE and while BUSY; IRQ is IRQ_EN and (DONE or ERR). That the answer's rdata is 0 is the model's choice
(log 14). -/
def Obligations.status_write_one_to_clear : Prop :=
  ∀ (s : State) (v : Word) rest, s.events = .bus { kind := .write, off := 0x014, size := .four, wdata := v } :: rest →
    ∃ t, step s = .next t
      ∧ t = { s with events := rest, resp := some { code := .okay, rdata := 0 }
                     done := t.done, err := t.err, ovf := t.ovf, haz := t.haz }
      ∧ (t.done = true ↔ s.done = true ∧ v.getLsbD 1 = false)
      ∧ (t.err = true ↔ s.err = true ∧ v.getLsbD 2 = false)
      ∧ (t.ovf = true ↔ s.ovf = true ∧ v.getLsbD 3 = false)
      ∧ (t.haz = true ↔ s.haz = true ∧ v.getLsbD 4 = false)
      ∧ (irq t = true ↔ t.irqEn = true ∧ (t.done = true ∨ t.err = true))

/-- R38, R39, R40 to R42: CMD and the parameter registers take every write, in IDLE and while BUSY, and read
back as written; IMG_W, IMG_H and IMG_FMT keep their low bits in IDLE, and while BUSY ignore the write and
set HAZ. R31 to R33, R36, R37, R43 to R45: a write to a read-only or reserved register changes nothing. R70, R77: a
read of a CSR returns `csrRead` and changes nothing. That a write that gets OKAY answers rdata = 0 is the model's
choice (log 14). -/
def Obligations.register_writes : Prop :=
  (∀ (s : State) (off : BitVec 28) (v : Word) rest,
    s.events = .bus { kind := .write, off := off, size := .four, wdata := v } :: rest →
    (off ∈ [0x020, 0x030, 0x034, 0x038, 0x03C] →
      ∃ t, step s = .next t ∧ csrRead off.toNat t = v
        ∧ t = { s with events := rest, resp := some { code := .okay, rdata := 0 }
                       cmd := t.cmd, stdDev := t.stdDev, sizeF := t.sizeF, thrHi := t.thrHi, thrLo := t.thrLo }
        ∧ (∀ o ∈ [0x020, 0x030, 0x034, 0x038, 0x03C], o ≠ off → csrRead o.toNat t = csrRead o.toNat s))
    ∧ (off ∈ [0x024, 0x028, 0x02C] →
      (s.phase = .busy →
        step s = .next { s with events := rest, resp := some { code := .okay, rdata := 0 }, haz := true })
      ∧ (s.phase = .idle →
        step s = .next { s with
          events := rest, resp := some { code := .okay, rdata := 0 }
          imgW := if off = 0x024 then BitVec.ofNat 16 v.toNat else s.imgW
          imgH := if off = 0x028 then BitVec.ofNat 16 v.toNat else s.imgH
          color := if off = 0x02C then BitVec.ofNat 2 v.toNat else s.color }))
    ∧ (off.toNat < 0x1000 → off.toNat % 4 = 0 →
      off ∉ [0x010, 0x014, 0x020, 0x024, 0x028, 0x02C, 0x030, 0x034, 0x038, 0x03C] →
      step s = .next { s with events := rest, resp := some { code := .okay, rdata := 0 } }))
  ∧ ∀ (s : State) (off : BitVec 28) (v : Word) rest,
    s.events = .bus { kind := .read, off := off, size := .four, wdata := v } :: rest →
    off.toNat < 0x1000 → off.toNat % 4 = 0 →
    step s = .next { s with events := rest, resp := some { code := .okay, rdata := csrRead off.toNat s } }

/-! ## Reset -/

/-- R55: the registers as the host reads them after power-on reset, PHASE, and no element written. R31 to R45: what
each register reads as in any state. -/
def Obligations.reset_values : Prop :=
  (∀ e ∈ [(0x000, 0x46540001), (0x004, 0x04000400), (0x008, 0x000B0B1F), (0x00C, 0), (0x010, 0), (0x014, 0),
      (0x018, 0), (0x01C, 0), (0x020, 0), (0x024, 0), (0x028, 0), (0x02C, 0x30), (0x030, 1400), (0x034, 2),
      (0x038, 76800), (0x03C, 25600), (0x040, 0), (0x044, 0), (0x048, 0), (0x04C, 0), (0xFFC, 0)],
    csrRead e.1 State.reset = e.2)
  ∧ State.reset.phase = .idle ∧ (∀ p a, Memory.read (State.reset.mem p) a = none)
  ∧ ∀ s : State, s.cfg.Valid →
    csrRead 0x000 s = 0x46540001
    ∧ (csrRead 0x004 s).toNat = s.cfg.maxW + 0x10000 * s.cfg.maxH
    ∧ (∃ a b, s.cfg.maxPW = 2 ^ a ∧ s.cfg.maxPH = 2 ^ b
        ∧ (csrRead 0x008 s).toNat = s.cfg.maxSizeF + 0x100 * a + 0x10000 * b)
    ∧ (∀ i, (csrRead 0x010 s).getLsbD i = (decide (i = 2) && s.irqEn))
    ∧ (∀ i, (csrRead 0x014 s).getLsbD i = ((decide (i = 0) && decide (s.phase = .busy)) || (decide (i = 1) && s.done)
        || (decide (i = 2) && s.err) || (decide (i = 3) && s.ovf) || (decide (i = 4) && s.haz)))
    ∧ (csrRead 0x018 s).toNat = s.errCode.toNat ∧ csrRead 0x01C s = s.errInfo ∧ csrRead 0x020 s = s.cmd
    ∧ (csrRead 0x024 s).toNat = s.imgW.toNat ∧ (csrRead 0x028 s).toNat = s.imgH.toNat
    ∧ (csrRead 0x02C s).toNat = s.color.toNat
        + 0x10 * (if s.color = 0 ∨ s.color = 1 then 3 else if s.color = 2 then 1 else 0)
    ∧ csrRead 0x030 s = s.stdDev ∧ csrRead 0x034 s = s.sizeF ∧ csrRead 0x038 s = s.thrHi ∧ csrRead 0x03C s = s.thrLo
    ∧ (∀ w h S : Nat, w = s.imgW.toNat → h = s.imgH.toNat → (S : Int) = s.sizeF.toInt →
        1 ≤ w → w ≤ s.cfg.maxW → 1 ≤ h → h ≤ s.cfg.maxH → s.color ≠ 3 → S ≤ s.cfg.maxSizeF →
        (∃ a, (csrRead 0x040 s).toNat = 2 ^ a ∧ w + 2 * S ≤ 2 ^ a ∧ 2 ^ a < 2 * (w + 2 * S))
        ∧ ∃ b, (csrRead 0x044 s).toNat = 2 ^ b ∧ h + 2 * S ≤ 2 ^ b ∧ 2 ^ b < 2 * (h + 2 * S))
    ∧ (s.imgW = 0 ∨ s.cfg.maxW < s.imgW.toNat ∨ s.imgH = 0 ∨ s.cfg.maxH < s.imgH.toNat ∨ s.color = 3
        ∨ s.sizeF.toInt < 0 ∨ (s.cfg.maxSizeF : Int) < s.sizeF.toInt → csrRead 0x040 s = 0 ∧ csrRead 0x044 s = 0)
    ∧ csrRead 0x048 s = s.kerLen
    ∧ ∀ off, off ∉ [0x000, 0x004, 0x008, 0x010, 0x014, 0x018, 0x01C, 0x020, 0x024, 0x028, 0x02C, 0x030, 0x034, 0x038,
        0x03C, 0x040, 0x044, 0x048] → csrRead off s = 0

/-- R260, R261: power-on reset gives every CSR its power-on value; in IDLE every element becomes unwritten;
while BUSY the bytes the running command's rule names become unwritten and every other byte keeps its
value. What the rule names is `namesWritten`; that a word or command the engine would reject names nothing
is the model's reading (log 11, log 12). -/
def Obligations.power_on_reset : Prop :=
  ∀ (s : State) rest, s.events = .powerOn :: rest →
    ∃ t, step s = .next t
      ∧ t.phase = .idle ∧ t.irqEn = false ∧ t.done = false ∧ t.err = false ∧ t.ovf = false ∧ t.haz = false
      ∧ (∀ off, csrRead off t = csrRead off (State.resetOf s.cfg))
      ∧ (s.phase = .idle → ∀ p a, Memory.read (t.mem p) a = none)
      ∧ (s.phase = .busy → ∀ i, decodeCommand s.latch.cmd = .ok i →
          (firstFailure s.latch.params s (checksOf i) = none →
            ∀ p a, Memory.read (t.mem p) a =
              if namesWritten s.cfg i s.latch.params p a then none else Memory.read (s.mem p) a)
          ∧ (firstFailure s.latch.params s (checksOf i) ≠ none →
            ∀ p a, Memory.read (t.mem p) a = Memory.read (s.mem p) a))
      ∧ (s.phase = .busy → (∀ i, decodeCommand s.latch.cmd ≠ .ok i) →
          ∀ p a, Memory.read (t.mem p) a = Memory.read (s.mem p) a)

/-- The model's reading of which elements a command's rule "names as written" (R261; log 12, DEDUCED), for a command
that passes its validation: `namesWritten` names exactly the bytes of `RuleWrites`, and the completed command changes
no other byte. `RuleWrites` follows the rules' "State written" lines (R131, R150, R166 to R171, R191, R194, R197, R203,
R205) but for what the model reads out of other rules: a BLUR with S = 0 names no element of A, K or PIX (R172; R171's
own line has no such exception) and a CVT to the current space names nothing (R136). An NMS names every interior pixel
of MAG (R194's line), those it leaves as they are among them; that a CANNY with S = 0 names no element of A or K is
R205's line. -/
def Obligations.named_bytes_cover_the_effect : Prop :=
  ∀ (s : State) (i : Instr), i.isControl = false → firstFailure s.latch.params s (checksOf i) = none →
    (∀ p a, namesWritten s.cfg i s.latch.params p a = true ↔ RuleWrites s.cfg s.latch.params i p a)
    ∧ ∃ t, exec i s = .next t ∧ ∀ p a, namesWritten s.cfg i s.latch.params p a = false →
      Memory.read (t.mem p) a = Memory.read (s.mem p) a

/-! ## Invariants -/

/-- The four invariants hold at reset (R55), for every choice of the parameters (R6, log 3). -/
def Obligations.reset_meets_invariants : Prop :=
  (∀ c : Config, MemoriesOk (State.resetOf c) ∧ FlagsOk (State.resetOf c) ∧ LatchOk (State.resetOf c)
    ∧ KernelOk (State.resetOf c))
  ∧ State.reset = State.resetOf Config.reference

/-- Every step keeps the memories canonical, in range and of their element types (R46 to R50); and no step changes
the parameters (R6; that State carries them is the model's choice, log 3). -/
def Obligations.step_keeps_memories : Prop :=
  ∀ s t : State, MemoriesOk s → step s = .next t → MemoriesOk t ∧ t.cfg = s.cfg

/-- R241, R230, R37: every step keeps STATUS and the error report in agreement: DONE and ERR are never both
1, both are 0 while BUSY, and the code is at most 4. -/
def Obligations.step_keeps_flags : Prop :=
  ∀ s t : State, FlagsOk s → step s = .next t → FlagsOk t

/-- R40 to R42, R111: every step keeps the live geometry equal to the latched one while BUSY. -/
def Obligations.step_keeps_latched_geometry : Prop :=
  ∀ s t : State, LatchOk s → step s = .next t → LatchOk t

/-- R44, R151: every step keeps KER_LEN telling the length of the kernel KER holds. -/
def Obligations.step_keeps_kernel : Prop :=
  ∀ s t : State, KernelOk s → step s = .next t → KernelOk t
end

