-- ==== Sys2Proof/Laws/Memory.lean ====
section
/-!
SUPPORT. What the operations on one memory do: the read of a byte after each of them, and that each keeps
the canonical form.
-/

namespace Sys2Proof.Machine

open Sys2Proof

theorem Memory.read_append (m n : Memory) (a : Nat) :
    Memory.read (m ++ n) a = (Memory.read m a).or (Memory.read n a) := by
  induction m with
  | nil => rfl
  | cons c m ih =>
    obtain ⟨k, v⟩ := c
    by_cases h : k = a <;> simp [Memory.read, h, ih]

theorem Memory.read_filter (p : Nat → Bool) (m : Memory) (a : Nat) :
    Memory.read (m.filter fun c => p c.1) a = if p a then Memory.read m a else none := by
  induction m with
  | nil => simp [Memory.read]
  | cons c m ih =>
    obtain ⟨k, v⟩ := c
    by_cases hk : k = a
    · subst hk
      by_cases hp : p k <;> simp [Memory.read, hp, ih]
    · by_cases hp : p k <;> simp [Memory.read, hp, hk, ih]

theorem Memory.read_cells (bs : List Byte) (a b : Nat) :
    Memory.read (Memory.cells a bs) b = if a ≤ b then bs[b - a]? else none := by
  induction bs generalizing a with
  | nil => simp [Memory.cells, Memory.read]
  | cons v bs ih =>
    simp only [Memory.cells, Memory.read, ih]
    rcases Nat.lt_trichotomy a b with h | h | h
    · have hs : b - a = (b - (a + 1)) + 1 := by omega
      simp [show ¬ a = b by omega, show a + 1 ≤ b by omega, show a ≤ b by omega, hs]
    · simp [h]
    · simp [show ¬ a = b by omega, show ¬ a + 1 ≤ b by omega, show ¬ a ≤ b by omega]

/-- A byte of a memory after a run is written: the run's byte inside it, the old byte outside. -/
theorem Memory.read_writeRun (m : Memory) (a : Nat) (bs : List Byte) (b : Nat) :
    Memory.read (Memory.writeRun m a bs) b =
      if a ≤ b ∧ b < a + bs.length then bs[b - a]? else Memory.read m b := by
  rw [Memory.writeRun, Memory.read_append, Memory.read_append,
    Memory.read_filter (fun k => decide (k < a)), Memory.read_cells,
    Memory.read_filter (fun k => decide (a + bs.length ≤ k))]
  by_cases h1 : b < a
  · simp [h1, show ¬ a ≤ b by omega, show ¬ a + bs.length ≤ b by omega]
  · by_cases h2 : b < a + bs.length
    · simp [h1, h2, show a ≤ b by omega, show ¬ a + bs.length ≤ b by omega]
    · have : bs[b - a]? = none := by simp; omega
      simp [h1, h2, show a ≤ b by omega, show a + bs.length ≤ b by omega, this]

theorem Memory.read_writeRun_outside {m : Memory} {a : Nat} {bs : List Byte} {b : Nat}
    (h : b < a ∨ a + bs.length ≤ b) : Memory.read (Memory.writeRun m a bs) b = Memory.read m b := by
  rw [Memory.read_writeRun, if_neg (by omega)]

theorem Memory.read_writeRun_inside {m : Memory} {a : Nat} {bs : List Byte} {i : Nat} (h : i < bs.length) :
    Memory.read (Memory.writeRun m a bs) (a + i) = some bs[i] := by
  rw [Memory.read_writeRun, if_pos (by omega), Nat.add_sub_cancel_left, List.getElem?_eq_getElem h]

theorem Memory.mem_cells {bs : List Byte} {a : Nat} {c : Host.Cell} (h : c ∈ Memory.cells a bs) :
    a ≤ c.1 ∧ c.1 < a + bs.length ∧ c.2 ∈ bs := by
  induction bs generalizing a with
  | nil => simp [Memory.cells] at h
  | cons v bs ih =>
    rcases List.mem_cons.1 h with h | h
    · subst h; simp
    · have := ih h
      exact ⟨by omega, by simp only [List.length_cons]; omega, by simp [this.2.2]⟩

theorem Memory.mem_writeRun {m : Memory} {a : Nat} {bs : List Byte} {c : Host.Cell}
    (h : c ∈ Memory.writeRun m a bs) : c ∈ m ∨ (a ≤ c.1 ∧ c.1 < a + bs.length ∧ c.2 ∈ bs) := by
  simp only [Memory.writeRun, List.mem_append, List.mem_filter] at h
  rcases h with (h | h) | h
  · exact .inl h.1
  · exact .inr (Memory.mem_cells h)
  · exact .inl h.1

theorem Memory.wf_cells (bs : List Byte) (a : Nat) : Memory.wf (Memory.cells a bs) := by
  induction bs generalizing a with
  | nil => exact List.Pairwise.nil
  | cons v bs ih =>
    refine List.Pairwise.cons (fun c hc => ?_) (ih (a + 1))
    have := (Memory.mem_cells hc).1
    simp only
    omega

/-- A write keeps the canonical form. -/
theorem Memory.wf_writeRun {m : Memory} (hm : Memory.wf m) (a : Nat) (bs : List Byte) :
    Memory.wf (Memory.writeRun m a bs) := by
  refine List.pairwise_append.2 ⟨List.pairwise_append.2 ⟨hm.filter _, Memory.wf_cells bs a, ?_⟩, hm.filter _, ?_⟩
  · intro c hc d hd
    have h1 := (List.mem_filter.1 hc).2
    have h2 := Memory.mem_cells hd
    simp at h1
    omega
  · intro c hc d hd
    have h2 := (List.mem_filter.1 hd).2
    simp at h2
    rcases List.mem_append.1 hc with hc | hc
    · have h1 := (List.mem_filter.1 hc).2
      simp at h1
      omega
    · have h1 := Memory.mem_cells hc
      omega

/-- Several writes keep the canonical form. -/
theorem Memory.wf_writeRuns {m : Memory} (hm : Memory.wf m) (runs : List (Nat × List Byte)) :
    Memory.wf (Memory.writeRuns m runs) := by
  induction runs generalizing m with
  | nil => exact hm
  | cons r rs ih => exact ih (Memory.wf_writeRun hm r.1 r.2)

theorem Memory.mem_writeRuns {m : Memory} {runs : List (Nat × List Byte)} {c : Host.Cell}
    (h : c ∈ Memory.writeRuns m runs) :
    c ∈ m ∨ ∃ r ∈ runs, r.1 ≤ c.1 ∧ c.1 < r.1 + r.2.length ∧ c.2 ∈ r.2 := by
  induction runs generalizing m with
  | nil => exact .inl h
  | cons r rs ih =>
    rcases ih h with h | ⟨r', hr, h⟩
    · rcases Memory.mem_writeRun h with h | h
      · exact .inl h
      · exact .inr ⟨r, by simp, h⟩
    · exact .inr ⟨r', by simp [hr], h⟩

/-- A byte that no run covers reads as before. -/
theorem Memory.read_writeRuns_outside {m : Memory} {runs : List (Nat × List Byte)} {b : Nat}
    (h : ∀ r ∈ runs, b < r.1 ∨ r.1 + r.2.length ≤ b) :
    Memory.read (Memory.writeRuns m runs) b = Memory.read m b := by
  induction runs generalizing m with
  | nil => rfl
  | cons r rs ih =>
    have := ih (m := Memory.writeRun m r.1 r.2) fun r' hr => h r' (by simp [hr])
    simpa [Memory.writeRuns] using this.trans (Memory.read_writeRun_outside (h r (by simp)))

@[simp] theorem Memory.writeRuns_nil (m : Memory) : Memory.writeRuns m [] = m := rfl

@[simp] theorem Memory.writeRuns_one (m : Memory) (r : Nat × List Byte) :
    Memory.writeRuns m [r] = Memory.writeRun m r.1 r.2 := rfl

theorem Memory.writeRuns_cons (m : Memory) (r : Nat × List Byte) (rs : List (Nat × List Byte)) :
    Memory.writeRuns m (r :: rs) = Memory.writeRuns (Memory.writeRun m r.1 r.2) rs := rfl

/-- The runs of rows, by row number. -/
theorem mem_rowRuns {base stride : Nat} {rows : List (List Byte)} {r : Nat × List Byte}
    (h : r ∈ rowRuns base stride rows) :
    ∃ y, ∃ hy : y < rows.length, r = (base + y * stride, rows[y]) := by
  induction rows generalizing base with
  | nil => simp [rowRuns] at h
  | cons row rows ih =>
    rcases List.mem_cons.1 h with h | h
    · exact ⟨0, by simp, by simpa using h⟩
    · obtain ⟨y, hy, he⟩ := ih h
      exact ⟨y + 1, by simpa using hy, by simp [he]; ring⟩

/-- After rows are written, byte i of row y is row y's byte (rows no longer than the stride). -/
theorem Memory.read_rowRuns_inside (m : Memory) (base stride : Nat) (rows : List (List Byte))
    (hlen : ∀ r ∈ rows, r.length ≤ stride) {y i : Nat} (hy : y < rows.length) (hi : i < rows[y].length) :
    Memory.read (Memory.writeRuns m (rowRuns base stride rows)) (base + y * stride + i) = some rows[y][i] := by
  induction rows generalizing base y m with
  | nil => simp at hy
  | cons row rows ih =>
    rw [rowRuns, Memory.writeRuns_cons]
    cases y with
    | zero =>
      simp only [List.getElem_cons_zero] at hi ⊢
      have hr := hlen row (by simp)
      rw [Memory.read_writeRuns_outside]
      · simpa using Memory.read_writeRun_inside (m := m) (a := base) hi
      · intro r hr'
        obtain ⟨z, hz, he⟩ := mem_rowRuns hr'
        subst he
        left
        simp only
        have : 0 ≤ z * stride := Nat.zero_le _
        omega
    | succ y =>
      simp only [List.getElem_cons_succ] at hi ⊢
      have := ih (m := Memory.writeRun m base row) (base := base + stride)
        (fun r hr => hlen r (by simp [hr])) (y := y) (by simpa using hy) hi
      rw [← this]
      congr 1
      ring

/-- A byte outside every row reads as before. -/
theorem Memory.read_rowRuns_outside (m : Memory) (base stride : Nat) (rows : List (List Byte)) {b : Nat}
    (h : ∀ y, (hy : y < rows.length) → b < base + y * stride ∨ base + y * stride + rows[y].length ≤ b) :
    Memory.read (Memory.writeRuns m (rowRuns base stride rows)) b = Memory.read m b := by
  refine Memory.read_writeRuns_outside fun r hr => ?_
  obtain ⟨y, hy, he⟩ := mem_rowRuns hr
  subst he
  exact h y hy

theorem Memory.read_slice (m : Memory) (a n b : Nat) :
    Memory.read (Memory.slice m a n) b = if a ≤ b ∧ b < a + n then Memory.read m b else none := by
  rw [Memory.slice, Memory.read_filter (fun k => decide (a ≤ k) && decide (k < a + n))]
  simp

theorem Memory.read_erase (m : Memory) (p : Nat → Bool) (a : Nat) :
    Memory.read (Memory.erase m p) a = if p a then none else Memory.read m a := by
  rw [Memory.erase, Memory.read_filter (fun k => !p k)]
  by_cases h : p a <;> simp [h]

/-- Making elements unwritten keeps the canonical form. -/
theorem Memory.wf_erase {m : Memory} (hm : Memory.wf m) (p : Nat → Bool) : Memory.wf (Memory.erase m p) :=
  hm.filter _

theorem Memory.mem_erase {m : Memory} {p : Nat → Bool} {c : Host.Cell} (h : c ∈ Memory.erase m p) : c ∈ m :=
  (List.mem_filter.1 h).1

/-- The slice of a row reads as the memory does, on the row. -/
theorem byteIn_slice (m : Memory) (draw : Nat) (p : Plane) {a n b : Nat} (h : a ≤ b ∧ b < a + n) :
    byteIn (Memory.slice m a n) draw p b = byteIn m draw p b := by
  simp [byteIn, Memory.read_slice, h]

/-- `bytesAt` reads each byte as `byteAt` does. -/
theorem State.bytesAt_eq (s : State) (p : Plane) (addr n : Nat) :
    s.bytesAt p addr n = (List.range n).map fun i => s.byteAt p (addr + i) := by
  simp only [State.bytesAt, State.byteAt]
  refine List.map_congr_left fun i hi => ?_
  exact byteIn_slice _ _ _ (by have := List.mem_range.1 hi; omega)

end Sys2Proof.Machine
end

