-- ==== Sys2Proof/Laws/Bytes.lean ====
section
/-!
SUPPORT. Little-endian bytes, and arrays written as blocks of equal length.
-/

namespace Sys2Proof.Machine

open Sys2Proof

@[simp] theorem length_leBytes (n v : Nat) : (leBytes n v).length = n := by
  induction n generalizing v with
  | zero => rfl
  | succ n ih => simp [leBytes, ih]

/-- Reading back what was laid out gives the low bytes of the number. -/
theorem fromLE_leBytes (n v : Nat) : fromLE (leBytes n v) = v % 256 ^ n := by
  induction n generalizing v with
  | zero => simp [leBytes, fromLE, Nat.mod_one]
  | succ n ih =>
    simp only [leBytes, fromLE, ih, BitVec.toNat_ofNat]
    conv_rhs => rw [pow_succ', Nat.mod_mul]

theorem fromLE_leBytes_of_lt {n v : Nat} (h : v < 256 ^ n) : fromLE (leBytes n v) = v := by
  rw [fromLE_leBytes, Nat.mod_eq_of_lt h]

@[simp] theorem length_cplxBytes (z : Cplx) : (cplxBytes z).length = 16 := by simp [cplxBytes]

/-- A number read from bytes that are all written. -/
theorem leIn_of_read {m : Memory} {draw : Nat} {p : Plane} {addr n : Nat} {bs : List Byte} (hn : bs.length = n)
    (h : ∀ i, (hi : i < bs.length) → Memory.read m (addr + i) = some bs[i]) :
    leIn m draw p addr n = fromLE bs := by
  have : ((List.range n).map fun i => byteIn m draw p (addr + i)) = bs := by
    apply List.ext_getElem
    · simp [hn]
    · intro i h1 h2
      simp [byteIn, h i h2]
  rw [leIn, this]

/-- An element of A or K read back after it was written. -/
theorem cplxIn_of_read {m : Memory} {draw : Nat} {p : Plane} {addr : Nat} {z : Cplx}
    (h : ∀ i, (hi : i < (cplxBytes z).length) → Memory.read m (addr + i) = some (cplxBytes z)[i]) :
    cplxIn m draw p addr = z := by
  have hre : leIn m draw p addr 8 = fromLE (leBytes 8 z.re.toNat) := by
    refine leIn_of_read (by simp) fun i hi => ?_
    have hi' : i < 8 := by simpa using hi
    rw [h i (by simp; omega)]
    simp [cplxBytes, hi']
  have him : leIn m draw p (addr + 8) 8 = fromLE (leBytes 8 z.im.toNat) := by
    refine leIn_of_read (by simp) fun i hi => ?_
    have hi' : i < 8 := by simpa using hi
    rw [Nat.add_assoc, h (8 + i) (by simp; omega)]
    simp [cplxBytes]
  have h64 : (256 : Nat) ^ 8 = 2 ^ 64 := by norm_num
  rw [cplxIn, hre, him, fromLE_leBytes, fromLE_leBytes, h64, Nat.mod_eq_of_lt z.re.isLt,
    Nat.mod_eq_of_lt z.im.isLt, BitVec.ofNat_toNat, BitVec.ofNat_toNat, BitVec.setWidth_eq, BitVec.setWidth_eq]

/-- The row slice shows an element of a plane as the plane does. -/
theorem leIn_congr {m m' : Memory} {draw : Nat} {p : Plane} {addr n : Nat}
    (h : ∀ b, addr ≤ b → b < addr + n → byteIn m' draw p b = byteIn m draw p b) :
    leIn m' draw p addr n = leIn m draw p addr n := by
  simp only [leIn]
  congr 1
  refine List.map_congr_left fun i hi => h _ (by omega) ?_
  have := List.mem_range.1 hi
  omega

/-! ## Blocks written row by row -/

section Blocks

variable {m : Memory} {base stride w h k : Nat} {g : Nat → Nat → List Byte}

theorem length_row_blocks (hk : ∀ x y, x < w → y < h → (g x y).length = k) {y : Nat} (hy : y < h) :
    ((List.range w).flatMap fun x => g x y).length = w * k :=
  length_flatMap_blocks w k (fun x => g x y) fun x hx => hk x y hx hy

/-- An array of blocks written row by row: byte i of block [x, y] is that block's byte. -/
theorem Memory.read_blocks_inside (hk : ∀ x y, x < w → y < h → (g x y).length = k) (hw : w * k ≤ stride)
    {x y i : Nat} (hx : x < w) (hy : y < h) (hi : i < k) :
    Memory.read (Memory.writeRuns m (rowRuns base stride (byteRows w h g))) (base + y * stride + (x * k + i))
      = (g x y)[i]? := by
  have hrow : ∀ z, (hz : z < (byteRows w h g).length) →
      (byteRows w h g)[z] = (List.range w).flatMap fun x => g x z := by
    intro z hz
    simp [byteRows]
  have hlen : (byteRows w h g).length = h := by simp [byteRows]
  have hrl : ∀ r ∈ byteRows w h g, r.length ≤ stride := by
    intro r hr
    obtain ⟨z, hz, rfl⟩ := List.getElem_of_mem hr
    rw [hrow z hz, length_row_blocks hk (by omega)]
    exact hw
  have hy' : y < (byteRows w h g).length := by omega
  have hxi : x * k + i < w * k := by nlinarith [Nat.mul_le_mul_right k (show x + 1 ≤ w from hx)]
  have hi' : x * k + i < (byteRows w h g)[y].length := by
    rw [hrow y hy', length_row_blocks hk hy]; exact hxi
  rw [Memory.read_rowRuns_inside m base stride _ hrl hy' hi', ← List.getElem?_eq_getElem hi', hrow y hy']
  exact getElem?_flatMap_blocks w k (fun x => g x y) (fun x hx => hk x y hx hy) hx hi

/-- A byte outside every block reads as before. -/
theorem Memory.read_blocks_outside (hk : ∀ x y, x < w → y < h → (g x y).length = k) {b : Nat}
    (hb : ∀ x y, x < w → y < h → b < base + y * stride + x * k ∨ base + y * stride + x * k + k ≤ b) :
    Memory.read (Memory.writeRuns m (rowRuns base stride (byteRows w h g))) b = Memory.read m b := by
  refine Memory.read_rowRuns_outside m base stride _ fun y hy => ?_
  have hyh : y < h := by simpa [byteRows] using hy
  have hl : (byteRows w h g)[y].length = w * k := by
    simp only [byteRows, List.getElem_map, List.getElem_range]
    exact length_row_blocks hk hyh
  rw [hl]
  by_contra hcon
  push Not at hcon
  obtain ⟨h1, h2⟩ := hcon
  have hkpos : 0 < k := by
    rcases Nat.eq_zero_or_pos k with h | h
    · simp [h] at h2; omega
    · exact h
  set d := b - (base + y * stride) with hd
  have hdx : d / k < w := by
    rw [Nat.div_lt_iff_lt_mul hkpos]
    omega
  have h3 := hb (d / k) y hdx hyh
  have h4 := Nat.div_add_mod d k
  have h5 := Nat.mod_lt d hkpos
  rw [Nat.mul_comm k] at h4
  omega

end Blocks

theorem regionRuns_eq (c : Config) (pw ph : Nat) (f : Nat → Nat → Cplx) :
    regionRuns c pw ph f = rowRuns 0 (16 * c.maxPW) (byteRows pw ph fun u v => cplxBytes (f u v)) := rfl

/-- After an array is stored over a region, element [u, v] is written and holds the array's element. -/
theorem Memory.read_region_inside (m : Memory) {c : Config} {pw ph : Nat} (f : Nat → Nat → Cplx) (hpw : pw ≤ c.maxPW)
    {u v i : Nat} (hu : u < pw) (hv : v < ph) (hi : i < 16) :
    Memory.read (Memory.writeRuns m (regionRuns c pw ph f)) (cplxAddr c u v + i) = (cplxBytes (f u v))[i]? := by
  rw [regionRuns_eq, ← Memory.read_blocks_inside (m := m) (base := 0) (stride := 16 * c.maxPW) (w := pw)
    (h := ph) (k := 16) (g := fun u v => cplxBytes (f u v)) (fun _ _ _ _ => length_cplxBytes _)
    (by omega) hu hv hi]
  congr 1
  simp only [cplxAddr]
  ring

/-- A byte outside the region reads as before. -/
theorem Memory.read_region_outside (m : Memory) {c : Config} {pw ph : Nat} (f : Nat → Nat → Cplx) {b : Nat}
    (hb : ∀ u v, u < pw → v < ph → b < cplxAddr c u v ∨ cplxAddr c u v + 16 ≤ b) :
    Memory.read (Memory.writeRuns m (regionRuns c pw ph f)) b = Memory.read m b := by
  rw [regionRuns_eq]
  refine Memory.read_blocks_outside (k := 16) (fun _ _ _ _ => length_cplxBytes _) fun u v hu hv => ?_
  have := hb u v hu hv
  simp only [cplxAddr] at this
  have e : 0 + v * (16 * c.maxPW) + u * 16 = 16 * (v * c.maxPW + u) := by ring
  omega

end Sys2Proof.Machine
end

