-- ==== Sys2Proof/Laws/State.lean ====
section
/-!
SUPPORT. One lemma per field per update of the state, true by rfl: no later proof unfolds a record update.
-/

namespace Sys2Proof.Machine

open Sys2Proof

/-! ## Reading a memory by name -/

@[simp] theorem State.mem_pix (s : State) : s.mem .pix = s.pix := rfl
@[simp] theorem State.mem_ker (s : State) : s.mem .ker = s.ker := rfl
@[simp] theorem State.mem_mag (s : State) : s.mem .mag = s.mag := rfl
@[simp] theorem State.mem_dir (s : State) : s.mem .dir = s.dir := rfl
@[simp] theorem State.mem_cls (s : State) : s.mem .cls = s.cls := rfl
@[simp] theorem State.mem_a (s : State) : s.mem .a = s.planeA := rfl
@[simp] theorem State.mem_k (s : State) : s.mem .k = s.planeK := rfl

/-! ## `State.withMem` and `State.store` -/

@[simp] theorem State.mem_withMem_same (s : State) (p : Plane) (m : Memory) : (s.withMem p m).mem p = m := by
  cases p <;> rfl

theorem State.mem_withMem_ne (s : State) {p q : Plane} (m : Memory) (h : q ≠ p) :
    (s.withMem p m).mem q = s.mem q := by
  cases p <;> cases q <;> first | rfl | exact absurd rfl h

@[simp] theorem State.mem_store_same (s : State) (p : Plane) (r : List (Nat × List Byte)) :
    (s.store p r).mem p = Memory.writeRuns (s.mem p) r := by
  cases p <;> rfl

theorem State.mem_store_ne (s : State) {p q : Plane} (r : List (Nat × List Byte)) (h : q ≠ p) :
    (s.store p r).mem q = s.mem q :=
  State.mem_withMem_ne s _ h

@[simp] theorem State.store_phase (s : State) (p : Plane) (r : List (Nat × List Byte)) :
    (s.store p r).phase = s.phase := by cases p <;> rfl
@[simp] theorem State.store_latch (s : State) (p : Plane) (r : List (Nat × List Byte)) :
    (s.store p r).latch = s.latch := by cases p <;> rfl
@[simp] theorem State.store_irqEn (s : State) (p : Plane) (r : List (Nat × List Byte)) :
    (s.store p r).irqEn = s.irqEn := by cases p <;> rfl
@[simp] theorem State.store_done (s : State) (p : Plane) (r : List (Nat × List Byte)) :
    (s.store p r).done = s.done := by cases p <;> rfl
@[simp] theorem State.store_err (s : State) (p : Plane) (r : List (Nat × List Byte)) :
    (s.store p r).err = s.err := by cases p <;> rfl
@[simp] theorem State.store_ovf (s : State) (p : Plane) (r : List (Nat × List Byte)) :
    (s.store p r).ovf = s.ovf := by cases p <;> rfl
@[simp] theorem State.store_haz (s : State) (p : Plane) (r : List (Nat × List Byte)) :
    (s.store p r).haz = s.haz := by cases p <;> rfl
@[simp] theorem State.store_errCode (s : State) (p : Plane) (r : List (Nat × List Byte)) :
    (s.store p r).errCode = s.errCode := by cases p <;> rfl
@[simp] theorem State.store_errInfo (s : State) (p : Plane) (r : List (Nat × List Byte)) :
    (s.store p r).errInfo = s.errInfo := by cases p <;> rfl
@[simp] theorem State.store_cmd (s : State) (p : Plane) (r : List (Nat × List Byte)) :
    (s.store p r).cmd = s.cmd := by cases p <;> rfl
@[simp] theorem State.store_imgW (s : State) (p : Plane) (r : List (Nat × List Byte)) :
    (s.store p r).imgW = s.imgW := by cases p <;> rfl
@[simp] theorem State.store_imgH (s : State) (p : Plane) (r : List (Nat × List Byte)) :
    (s.store p r).imgH = s.imgH := by cases p <;> rfl
@[simp] theorem State.store_color (s : State) (p : Plane) (r : List (Nat × List Byte)) :
    (s.store p r).color = s.color := by cases p <;> rfl
@[simp] theorem State.store_stdDev (s : State) (p : Plane) (r : List (Nat × List Byte)) :
    (s.store p r).stdDev = s.stdDev := by cases p <;> rfl
@[simp] theorem State.store_sizeF (s : State) (p : Plane) (r : List (Nat × List Byte)) :
    (s.store p r).sizeF = s.sizeF := by cases p <;> rfl
@[simp] theorem State.store_thrHi (s : State) (p : Plane) (r : List (Nat × List Byte)) :
    (s.store p r).thrHi = s.thrHi := by cases p <;> rfl
@[simp] theorem State.store_thrLo (s : State) (p : Plane) (r : List (Nat × List Byte)) :
    (s.store p r).thrLo = s.thrLo := by cases p <;> rfl
@[simp] theorem State.store_kerLen (s : State) (p : Plane) (r : List (Nat × List Byte)) :
    (s.store p r).kerLen = s.kerLen := by cases p <;> rfl
@[simp] theorem State.store_events (s : State) (p : Plane) (r : List (Nat × List Byte)) :
    (s.store p r).events = s.events := by cases p <;> rfl
@[simp] theorem State.store_resp (s : State) (p : Plane) (r : List (Nat × List Byte)) :
    (s.store p r).resp = s.resp := by cases p <;> rfl
@[simp] theorem State.store_draws (s : State) (p : Plane) (r : List (Nat × List Byte)) :
    (s.store p r).draws = s.draws := by cases p <;> rfl
@[simp] theorem State.store_cfg (s : State) (p : Plane) (r : List (Nat × List Byte)) :
    (s.store p r).cfg = s.cfg := by cases p <;> rfl

@[simp] theorem State.store_pix_pix (s : State) (r : List (Nat × List Byte)) : (s.store .pix r).pix = Memory.writeRuns s.pix r := rfl
@[simp] theorem State.store_pix_ker (s : State) (r : List (Nat × List Byte)) : (s.store .pix r).ker = s.ker := rfl
@[simp] theorem State.store_pix_mag (s : State) (r : List (Nat × List Byte)) : (s.store .pix r).mag = s.mag := rfl
@[simp] theorem State.store_pix_dir (s : State) (r : List (Nat × List Byte)) : (s.store .pix r).dir = s.dir := rfl
@[simp] theorem State.store_pix_cls (s : State) (r : List (Nat × List Byte)) : (s.store .pix r).cls = s.cls := rfl
@[simp] theorem State.store_pix_planeA (s : State) (r : List (Nat × List Byte)) : (s.store .pix r).planeA = s.planeA := rfl
@[simp] theorem State.store_pix_planeK (s : State) (r : List (Nat × List Byte)) : (s.store .pix r).planeK = s.planeK := rfl
@[simp] theorem State.store_ker_pix (s : State) (r : List (Nat × List Byte)) : (s.store .ker r).pix = s.pix := rfl
@[simp] theorem State.store_ker_ker (s : State) (r : List (Nat × List Byte)) : (s.store .ker r).ker = Memory.writeRuns s.ker r := rfl
@[simp] theorem State.store_ker_mag (s : State) (r : List (Nat × List Byte)) : (s.store .ker r).mag = s.mag := rfl
@[simp] theorem State.store_ker_dir (s : State) (r : List (Nat × List Byte)) : (s.store .ker r).dir = s.dir := rfl
@[simp] theorem State.store_ker_cls (s : State) (r : List (Nat × List Byte)) : (s.store .ker r).cls = s.cls := rfl
@[simp] theorem State.store_ker_planeA (s : State) (r : List (Nat × List Byte)) : (s.store .ker r).planeA = s.planeA := rfl
@[simp] theorem State.store_ker_planeK (s : State) (r : List (Nat × List Byte)) : (s.store .ker r).planeK = s.planeK := rfl
@[simp] theorem State.store_mag_pix (s : State) (r : List (Nat × List Byte)) : (s.store .mag r).pix = s.pix := rfl
@[simp] theorem State.store_mag_ker (s : State) (r : List (Nat × List Byte)) : (s.store .mag r).ker = s.ker := rfl
@[simp] theorem State.store_mag_mag (s : State) (r : List (Nat × List Byte)) : (s.store .mag r).mag = Memory.writeRuns s.mag r := rfl
@[simp] theorem State.store_mag_dir (s : State) (r : List (Nat × List Byte)) : (s.store .mag r).dir = s.dir := rfl
@[simp] theorem State.store_mag_cls (s : State) (r : List (Nat × List Byte)) : (s.store .mag r).cls = s.cls := rfl
@[simp] theorem State.store_mag_planeA (s : State) (r : List (Nat × List Byte)) : (s.store .mag r).planeA = s.planeA := rfl
@[simp] theorem State.store_mag_planeK (s : State) (r : List (Nat × List Byte)) : (s.store .mag r).planeK = s.planeK := rfl
@[simp] theorem State.store_dir_pix (s : State) (r : List (Nat × List Byte)) : (s.store .dir r).pix = s.pix := rfl
@[simp] theorem State.store_dir_ker (s : State) (r : List (Nat × List Byte)) : (s.store .dir r).ker = s.ker := rfl
@[simp] theorem State.store_dir_mag (s : State) (r : List (Nat × List Byte)) : (s.store .dir r).mag = s.mag := rfl
@[simp] theorem State.store_dir_dir (s : State) (r : List (Nat × List Byte)) : (s.store .dir r).dir = Memory.writeRuns s.dir r := rfl
@[simp] theorem State.store_dir_cls (s : State) (r : List (Nat × List Byte)) : (s.store .dir r).cls = s.cls := rfl
@[simp] theorem State.store_dir_planeA (s : State) (r : List (Nat × List Byte)) : (s.store .dir r).planeA = s.planeA := rfl
@[simp] theorem State.store_dir_planeK (s : State) (r : List (Nat × List Byte)) : (s.store .dir r).planeK = s.planeK := rfl
@[simp] theorem State.store_cls_pix (s : State) (r : List (Nat × List Byte)) : (s.store .cls r).pix = s.pix := rfl
@[simp] theorem State.store_cls_ker (s : State) (r : List (Nat × List Byte)) : (s.store .cls r).ker = s.ker := rfl
@[simp] theorem State.store_cls_mag (s : State) (r : List (Nat × List Byte)) : (s.store .cls r).mag = s.mag := rfl
@[simp] theorem State.store_cls_dir (s : State) (r : List (Nat × List Byte)) : (s.store .cls r).dir = s.dir := rfl
@[simp] theorem State.store_cls_cls (s : State) (r : List (Nat × List Byte)) : (s.store .cls r).cls = Memory.writeRuns s.cls r := rfl
@[simp] theorem State.store_cls_planeA (s : State) (r : List (Nat × List Byte)) : (s.store .cls r).planeA = s.planeA := rfl
@[simp] theorem State.store_cls_planeK (s : State) (r : List (Nat × List Byte)) : (s.store .cls r).planeK = s.planeK := rfl
@[simp] theorem State.store_a_pix (s : State) (r : List (Nat × List Byte)) : (s.store .a r).pix = s.pix := rfl
@[simp] theorem State.store_a_ker (s : State) (r : List (Nat × List Byte)) : (s.store .a r).ker = s.ker := rfl
@[simp] theorem State.store_a_mag (s : State) (r : List (Nat × List Byte)) : (s.store .a r).mag = s.mag := rfl
@[simp] theorem State.store_a_dir (s : State) (r : List (Nat × List Byte)) : (s.store .a r).dir = s.dir := rfl
@[simp] theorem State.store_a_cls (s : State) (r : List (Nat × List Byte)) : (s.store .a r).cls = s.cls := rfl
@[simp] theorem State.store_a_planeA (s : State) (r : List (Nat × List Byte)) : (s.store .a r).planeA = Memory.writeRuns s.planeA r := rfl
@[simp] theorem State.store_a_planeK (s : State) (r : List (Nat × List Byte)) : (s.store .a r).planeK = s.planeK := rfl
@[simp] theorem State.store_k_pix (s : State) (r : List (Nat × List Byte)) : (s.store .k r).pix = s.pix := rfl
@[simp] theorem State.store_k_ker (s : State) (r : List (Nat × List Byte)) : (s.store .k r).ker = s.ker := rfl
@[simp] theorem State.store_k_mag (s : State) (r : List (Nat × List Byte)) : (s.store .k r).mag = s.mag := rfl
@[simp] theorem State.store_k_dir (s : State) (r : List (Nat × List Byte)) : (s.store .k r).dir = s.dir := rfl
@[simp] theorem State.store_k_cls (s : State) (r : List (Nat × List Byte)) : (s.store .k r).cls = s.cls := rfl
@[simp] theorem State.store_k_planeA (s : State) (r : List (Nat × List Byte)) : (s.store .k r).planeA = s.planeA := rfl
@[simp] theorem State.store_k_planeK (s : State) (r : List (Nat × List Byte)) : (s.store .k r).planeK = Memory.writeRuns s.planeK r := rfl

/-! ## `nextDraw` -/

@[simp] theorem nextDraw_phase (s : State) : (State.nextDraw s).phase = s.phase := rfl
@[simp] theorem nextDraw_latch (s : State) : (State.nextDraw s).latch = s.latch := rfl
@[simp] theorem nextDraw_irqEn (s : State) : (State.nextDraw s).irqEn = s.irqEn := rfl
@[simp] theorem nextDraw_done (s : State) : (State.nextDraw s).done = s.done := rfl
@[simp] theorem nextDraw_err (s : State) : (State.nextDraw s).err = s.err := rfl
@[simp] theorem nextDraw_ovf (s : State) : (State.nextDraw s).ovf = s.ovf := rfl
@[simp] theorem nextDraw_haz (s : State) : (State.nextDraw s).haz = s.haz := rfl
@[simp] theorem nextDraw_errCode (s : State) : (State.nextDraw s).errCode = s.errCode := rfl
@[simp] theorem nextDraw_errInfo (s : State) : (State.nextDraw s).errInfo = s.errInfo := rfl
@[simp] theorem nextDraw_cmd (s : State) : (State.nextDraw s).cmd = s.cmd := rfl
@[simp] theorem nextDraw_imgW (s : State) : (State.nextDraw s).imgW = s.imgW := rfl
@[simp] theorem nextDraw_imgH (s : State) : (State.nextDraw s).imgH = s.imgH := rfl
@[simp] theorem nextDraw_color (s : State) : (State.nextDraw s).color = s.color := rfl
@[simp] theorem nextDraw_stdDev (s : State) : (State.nextDraw s).stdDev = s.stdDev := rfl
@[simp] theorem nextDraw_sizeF (s : State) : (State.nextDraw s).sizeF = s.sizeF := rfl
@[simp] theorem nextDraw_thrHi (s : State) : (State.nextDraw s).thrHi = s.thrHi := rfl
@[simp] theorem nextDraw_thrLo (s : State) : (State.nextDraw s).thrLo = s.thrLo := rfl
@[simp] theorem nextDraw_kerLen (s : State) : (State.nextDraw s).kerLen = s.kerLen := rfl
@[simp] theorem nextDraw_events (s : State) : (State.nextDraw s).events = s.events := rfl
@[simp] theorem nextDraw_resp (s : State) : (State.nextDraw s).resp = s.resp := rfl
@[simp] theorem nextDraw_draws (s : State) : (State.nextDraw s).draws = s.draws + 1 := rfl
@[simp] theorem nextDraw_cfg (s : State) : (State.nextDraw s).cfg = s.cfg := rfl
@[simp] theorem nextDraw_pix (s : State) : (State.nextDraw s).pix = s.pix := rfl
@[simp] theorem nextDraw_ker (s : State) : (State.nextDraw s).ker = s.ker := rfl
@[simp] theorem nextDraw_mag (s : State) : (State.nextDraw s).mag = s.mag := rfl
@[simp] theorem nextDraw_dir (s : State) : (State.nextDraw s).dir = s.dir := rfl
@[simp] theorem nextDraw_cls (s : State) : (State.nextDraw s).cls = s.cls := rfl
@[simp] theorem nextDraw_planeA (s : State) : (State.nextDraw s).planeA = s.planeA := rfl
@[simp] theorem nextDraw_planeK (s : State) : (State.nextDraw s).planeK = s.planeK := rfl
@[simp] theorem nextDraw_mem (s : State) (p : Plane) : (State.nextDraw s).mem p = s.mem p := by cases p <;> rfl

/-! ## `completeDone` -/

@[simp] theorem completeDone_phase (s : State) : (completeDone s).phase = .idle := rfl
@[simp] theorem completeDone_latch (s : State) : (completeDone s).latch = s.latch := rfl
@[simp] theorem completeDone_irqEn (s : State) : (completeDone s).irqEn = s.irqEn := rfl
@[simp] theorem completeDone_done (s : State) : (completeDone s).done = true := rfl
@[simp] theorem completeDone_err (s : State) : (completeDone s).err = s.err := rfl
@[simp] theorem completeDone_ovf (s : State) : (completeDone s).ovf = s.ovf := rfl
@[simp] theorem completeDone_haz (s : State) : (completeDone s).haz = s.haz := rfl
@[simp] theorem completeDone_errCode (s : State) : (completeDone s).errCode = s.errCode := rfl
@[simp] theorem completeDone_errInfo (s : State) : (completeDone s).errInfo = s.errInfo := rfl
@[simp] theorem completeDone_cmd (s : State) : (completeDone s).cmd = s.cmd := rfl
@[simp] theorem completeDone_imgW (s : State) : (completeDone s).imgW = s.imgW := rfl
@[simp] theorem completeDone_imgH (s : State) : (completeDone s).imgH = s.imgH := rfl
@[simp] theorem completeDone_color (s : State) : (completeDone s).color = s.color := rfl
@[simp] theorem completeDone_stdDev (s : State) : (completeDone s).stdDev = s.stdDev := rfl
@[simp] theorem completeDone_sizeF (s : State) : (completeDone s).sizeF = s.sizeF := rfl
@[simp] theorem completeDone_thrHi (s : State) : (completeDone s).thrHi = s.thrHi := rfl
@[simp] theorem completeDone_thrLo (s : State) : (completeDone s).thrLo = s.thrLo := rfl
@[simp] theorem completeDone_kerLen (s : State) : (completeDone s).kerLen = s.kerLen := rfl
@[simp] theorem completeDone_events (s : State) : (completeDone s).events = s.events := rfl
@[simp] theorem completeDone_resp (s : State) : (completeDone s).resp = s.resp := rfl
@[simp] theorem completeDone_draws (s : State) : (completeDone s).draws = s.draws := rfl
@[simp] theorem completeDone_cfg (s : State) : (completeDone s).cfg = s.cfg := rfl
@[simp] theorem completeDone_pix (s : State) : (completeDone s).pix = s.pix := rfl
@[simp] theorem completeDone_ker (s : State) : (completeDone s).ker = s.ker := rfl
@[simp] theorem completeDone_mag (s : State) : (completeDone s).mag = s.mag := rfl
@[simp] theorem completeDone_dir (s : State) : (completeDone s).dir = s.dir := rfl
@[simp] theorem completeDone_cls (s : State) : (completeDone s).cls = s.cls := rfl
@[simp] theorem completeDone_planeA (s : State) : (completeDone s).planeA = s.planeA := rfl
@[simp] theorem completeDone_planeK (s : State) : (completeDone s).planeK = s.planeK := rfl
@[simp] theorem completeDone_mem (s : State) (p : Plane) : (completeDone s).mem p = s.mem p := by cases p <;> rfl

/-! ## `raiseError` -/

@[simp] theorem raiseError_phase (e : ErrorReport) (s : State) : (raiseError e s).phase = .idle := rfl
@[simp] theorem raiseError_latch (e : ErrorReport) (s : State) : (raiseError e s).latch = s.latch := rfl
@[simp] theorem raiseError_irqEn (e : ErrorReport) (s : State) : (raiseError e s).irqEn = s.irqEn := rfl
@[simp] theorem raiseError_done (e : ErrorReport) (s : State) : (raiseError e s).done = s.done := rfl
@[simp] theorem raiseError_err (e : ErrorReport) (s : State) : (raiseError e s).err = true := rfl
@[simp] theorem raiseError_ovf (e : ErrorReport) (s : State) : (raiseError e s).ovf = s.ovf := rfl
@[simp] theorem raiseError_haz (e : ErrorReport) (s : State) : (raiseError e s).haz = s.haz := rfl
@[simp] theorem raiseError_errCode (e : ErrorReport) (s : State) : (raiseError e s).errCode = e.code := rfl
@[simp] theorem raiseError_errInfo (e : ErrorReport) (s : State) : (raiseError e s).errInfo = e.info := rfl
@[simp] theorem raiseError_cmd (e : ErrorReport) (s : State) : (raiseError e s).cmd = s.cmd := rfl
@[simp] theorem raiseError_imgW (e : ErrorReport) (s : State) : (raiseError e s).imgW = s.imgW := rfl
@[simp] theorem raiseError_imgH (e : ErrorReport) (s : State) : (raiseError e s).imgH = s.imgH := rfl
@[simp] theorem raiseError_color (e : ErrorReport) (s : State) : (raiseError e s).color = s.color := rfl
@[simp] theorem raiseError_stdDev (e : ErrorReport) (s : State) : (raiseError e s).stdDev = s.stdDev := rfl
@[simp] theorem raiseError_sizeF (e : ErrorReport) (s : State) : (raiseError e s).sizeF = s.sizeF := rfl
@[simp] theorem raiseError_thrHi (e : ErrorReport) (s : State) : (raiseError e s).thrHi = s.thrHi := rfl
@[simp] theorem raiseError_thrLo (e : ErrorReport) (s : State) : (raiseError e s).thrLo = s.thrLo := rfl
@[simp] theorem raiseError_kerLen (e : ErrorReport) (s : State) : (raiseError e s).kerLen = s.kerLen := rfl
@[simp] theorem raiseError_events (e : ErrorReport) (s : State) : (raiseError e s).events = s.events := rfl
@[simp] theorem raiseError_resp (e : ErrorReport) (s : State) : (raiseError e s).resp = s.resp := rfl
@[simp] theorem raiseError_draws (e : ErrorReport) (s : State) : (raiseError e s).draws = s.draws := rfl
@[simp] theorem raiseError_cfg (e : ErrorReport) (s : State) : (raiseError e s).cfg = s.cfg := rfl
@[simp] theorem raiseError_pix (e : ErrorReport) (s : State) : (raiseError e s).pix = s.pix := rfl
@[simp] theorem raiseError_ker (e : ErrorReport) (s : State) : (raiseError e s).ker = s.ker := rfl
@[simp] theorem raiseError_mag (e : ErrorReport) (s : State) : (raiseError e s).mag = s.mag := rfl
@[simp] theorem raiseError_dir (e : ErrorReport) (s : State) : (raiseError e s).dir = s.dir := rfl
@[simp] theorem raiseError_cls (e : ErrorReport) (s : State) : (raiseError e s).cls = s.cls := rfl
@[simp] theorem raiseError_planeA (e : ErrorReport) (s : State) : (raiseError e s).planeA = s.planeA := rfl
@[simp] theorem raiseError_planeK (e : ErrorReport) (s : State) : (raiseError e s).planeK = s.planeK := rfl
@[simp] theorem raiseError_mem (e : ErrorReport) (s : State) (p : Plane) : (raiseError e s).mem p = s.mem p := by cases p <;> rfl

/-! ## `flagOverflow` -/

@[simp] theorem flagOverflow_phase (s : State) : (flagOverflow s).phase = s.phase := rfl
@[simp] theorem flagOverflow_latch (s : State) : (flagOverflow s).latch = s.latch := rfl
@[simp] theorem flagOverflow_irqEn (s : State) : (flagOverflow s).irqEn = s.irqEn := rfl
@[simp] theorem flagOverflow_done (s : State) : (flagOverflow s).done = s.done := rfl
@[simp] theorem flagOverflow_err (s : State) : (flagOverflow s).err = s.err := rfl
@[simp] theorem flagOverflow_ovf (s : State) : (flagOverflow s).ovf = true := rfl
@[simp] theorem flagOverflow_haz (s : State) : (flagOverflow s).haz = s.haz := rfl
@[simp] theorem flagOverflow_errCode (s : State) : (flagOverflow s).errCode = s.errCode := rfl
@[simp] theorem flagOverflow_errInfo (s : State) : (flagOverflow s).errInfo = s.errInfo := rfl
@[simp] theorem flagOverflow_cmd (s : State) : (flagOverflow s).cmd = s.cmd := rfl
@[simp] theorem flagOverflow_imgW (s : State) : (flagOverflow s).imgW = s.imgW := rfl
@[simp] theorem flagOverflow_imgH (s : State) : (flagOverflow s).imgH = s.imgH := rfl
@[simp] theorem flagOverflow_color (s : State) : (flagOverflow s).color = s.color := rfl
@[simp] theorem flagOverflow_stdDev (s : State) : (flagOverflow s).stdDev = s.stdDev := rfl
@[simp] theorem flagOverflow_sizeF (s : State) : (flagOverflow s).sizeF = s.sizeF := rfl
@[simp] theorem flagOverflow_thrHi (s : State) : (flagOverflow s).thrHi = s.thrHi := rfl
@[simp] theorem flagOverflow_thrLo (s : State) : (flagOverflow s).thrLo = s.thrLo := rfl
@[simp] theorem flagOverflow_kerLen (s : State) : (flagOverflow s).kerLen = s.kerLen := rfl
@[simp] theorem flagOverflow_events (s : State) : (flagOverflow s).events = s.events := rfl
@[simp] theorem flagOverflow_resp (s : State) : (flagOverflow s).resp = s.resp := rfl
@[simp] theorem flagOverflow_draws (s : State) : (flagOverflow s).draws = s.draws := rfl
@[simp] theorem flagOverflow_cfg (s : State) : (flagOverflow s).cfg = s.cfg := rfl
@[simp] theorem flagOverflow_pix (s : State) : (flagOverflow s).pix = s.pix := rfl
@[simp] theorem flagOverflow_ker (s : State) : (flagOverflow s).ker = s.ker := rfl
@[simp] theorem flagOverflow_mag (s : State) : (flagOverflow s).mag = s.mag := rfl
@[simp] theorem flagOverflow_dir (s : State) : (flagOverflow s).dir = s.dir := rfl
@[simp] theorem flagOverflow_cls (s : State) : (flagOverflow s).cls = s.cls := rfl
@[simp] theorem flagOverflow_planeA (s : State) : (flagOverflow s).planeA = s.planeA := rfl
@[simp] theorem flagOverflow_planeK (s : State) : (flagOverflow s).planeK = s.planeK := rfl
@[simp] theorem flagOverflow_mem (s : State) (p : Plane) : (flagOverflow s).mem p = s.mem p := by cases p <;> rfl

/-! ## `flagHazard` -/

@[simp] theorem flagHazard_phase (s : State) : (flagHazard s).phase = s.phase := rfl
@[simp] theorem flagHazard_latch (s : State) : (flagHazard s).latch = s.latch := rfl
@[simp] theorem flagHazard_irqEn (s : State) : (flagHazard s).irqEn = s.irqEn := rfl
@[simp] theorem flagHazard_done (s : State) : (flagHazard s).done = s.done := rfl
@[simp] theorem flagHazard_err (s : State) : (flagHazard s).err = s.err := rfl
@[simp] theorem flagHazard_ovf (s : State) : (flagHazard s).ovf = s.ovf := rfl
@[simp] theorem flagHazard_haz (s : State) : (flagHazard s).haz = true := rfl
@[simp] theorem flagHazard_errCode (s : State) : (flagHazard s).errCode = s.errCode := rfl
@[simp] theorem flagHazard_errInfo (s : State) : (flagHazard s).errInfo = s.errInfo := rfl
@[simp] theorem flagHazard_cmd (s : State) : (flagHazard s).cmd = s.cmd := rfl
@[simp] theorem flagHazard_imgW (s : State) : (flagHazard s).imgW = s.imgW := rfl
@[simp] theorem flagHazard_imgH (s : State) : (flagHazard s).imgH = s.imgH := rfl
@[simp] theorem flagHazard_color (s : State) : (flagHazard s).color = s.color := rfl
@[simp] theorem flagHazard_stdDev (s : State) : (flagHazard s).stdDev = s.stdDev := rfl
@[simp] theorem flagHazard_sizeF (s : State) : (flagHazard s).sizeF = s.sizeF := rfl
@[simp] theorem flagHazard_thrHi (s : State) : (flagHazard s).thrHi = s.thrHi := rfl
@[simp] theorem flagHazard_thrLo (s : State) : (flagHazard s).thrLo = s.thrLo := rfl
@[simp] theorem flagHazard_kerLen (s : State) : (flagHazard s).kerLen = s.kerLen := rfl
@[simp] theorem flagHazard_events (s : State) : (flagHazard s).events = s.events := rfl
@[simp] theorem flagHazard_resp (s : State) : (flagHazard s).resp = s.resp := rfl
@[simp] theorem flagHazard_draws (s : State) : (flagHazard s).draws = s.draws := rfl
@[simp] theorem flagHazard_cfg (s : State) : (flagHazard s).cfg = s.cfg := rfl
@[simp] theorem flagHazard_pix (s : State) : (flagHazard s).pix = s.pix := rfl
@[simp] theorem flagHazard_ker (s : State) : (flagHazard s).ker = s.ker := rfl
@[simp] theorem flagHazard_mag (s : State) : (flagHazard s).mag = s.mag := rfl
@[simp] theorem flagHazard_dir (s : State) : (flagHazard s).dir = s.dir := rfl
@[simp] theorem flagHazard_cls (s : State) : (flagHazard s).cls = s.cls := rfl
@[simp] theorem flagHazard_planeA (s : State) : (flagHazard s).planeA = s.planeA := rfl
@[simp] theorem flagHazard_planeK (s : State) : (flagHazard s).planeK = s.planeK := rfl
@[simp] theorem flagHazard_mem (s : State) (p : Plane) : (flagHazard s).mem p = s.mem p := by cases p <;> rfl

/-! ## `setIrqEn` -/

@[simp] theorem setIrqEn_phase (e : Bool) (s : State) : (setIrqEn e s).phase = s.phase := rfl
@[simp] theorem setIrqEn_latch (e : Bool) (s : State) : (setIrqEn e s).latch = s.latch := rfl
@[simp] theorem setIrqEn_irqEn (e : Bool) (s : State) : (setIrqEn e s).irqEn = e := rfl
@[simp] theorem setIrqEn_done (e : Bool) (s : State) : (setIrqEn e s).done = s.done := rfl
@[simp] theorem setIrqEn_err (e : Bool) (s : State) : (setIrqEn e s).err = s.err := rfl
@[simp] theorem setIrqEn_ovf (e : Bool) (s : State) : (setIrqEn e s).ovf = s.ovf := rfl
@[simp] theorem setIrqEn_haz (e : Bool) (s : State) : (setIrqEn e s).haz = s.haz := rfl
@[simp] theorem setIrqEn_errCode (e : Bool) (s : State) : (setIrqEn e s).errCode = s.errCode := rfl
@[simp] theorem setIrqEn_errInfo (e : Bool) (s : State) : (setIrqEn e s).errInfo = s.errInfo := rfl
@[simp] theorem setIrqEn_cmd (e : Bool) (s : State) : (setIrqEn e s).cmd = s.cmd := rfl
@[simp] theorem setIrqEn_imgW (e : Bool) (s : State) : (setIrqEn e s).imgW = s.imgW := rfl
@[simp] theorem setIrqEn_imgH (e : Bool) (s : State) : (setIrqEn e s).imgH = s.imgH := rfl
@[simp] theorem setIrqEn_color (e : Bool) (s : State) : (setIrqEn e s).color = s.color := rfl
@[simp] theorem setIrqEn_stdDev (e : Bool) (s : State) : (setIrqEn e s).stdDev = s.stdDev := rfl
@[simp] theorem setIrqEn_sizeF (e : Bool) (s : State) : (setIrqEn e s).sizeF = s.sizeF := rfl
@[simp] theorem setIrqEn_thrHi (e : Bool) (s : State) : (setIrqEn e s).thrHi = s.thrHi := rfl
@[simp] theorem setIrqEn_thrLo (e : Bool) (s : State) : (setIrqEn e s).thrLo = s.thrLo := rfl
@[simp] theorem setIrqEn_kerLen (e : Bool) (s : State) : (setIrqEn e s).kerLen = s.kerLen := rfl
@[simp] theorem setIrqEn_events (e : Bool) (s : State) : (setIrqEn e s).events = s.events := rfl
@[simp] theorem setIrqEn_resp (e : Bool) (s : State) : (setIrqEn e s).resp = s.resp := rfl
@[simp] theorem setIrqEn_draws (e : Bool) (s : State) : (setIrqEn e s).draws = s.draws := rfl
@[simp] theorem setIrqEn_cfg (e : Bool) (s : State) : (setIrqEn e s).cfg = s.cfg := rfl
@[simp] theorem setIrqEn_pix (e : Bool) (s : State) : (setIrqEn e s).pix = s.pix := rfl
@[simp] theorem setIrqEn_ker (e : Bool) (s : State) : (setIrqEn e s).ker = s.ker := rfl
@[simp] theorem setIrqEn_mag (e : Bool) (s : State) : (setIrqEn e s).mag = s.mag := rfl
@[simp] theorem setIrqEn_dir (e : Bool) (s : State) : (setIrqEn e s).dir = s.dir := rfl
@[simp] theorem setIrqEn_cls (e : Bool) (s : State) : (setIrqEn e s).cls = s.cls := rfl
@[simp] theorem setIrqEn_planeA (e : Bool) (s : State) : (setIrqEn e s).planeA = s.planeA := rfl
@[simp] theorem setIrqEn_planeK (e : Bool) (s : State) : (setIrqEn e s).planeK = s.planeK := rfl
@[simp] theorem setIrqEn_mem (e : Bool) (s : State) (p : Plane) : (setIrqEn e s).mem p = s.mem p := by cases p <;> rfl

/-! ## `respond` -/

@[simp] theorem respond_phase (c : RespCode) (v : Word) (s : State) : (respond c v s).phase = s.phase := rfl
@[simp] theorem respond_latch (c : RespCode) (v : Word) (s : State) : (respond c v s).latch = s.latch := rfl
@[simp] theorem respond_irqEn (c : RespCode) (v : Word) (s : State) : (respond c v s).irqEn = s.irqEn := rfl
@[simp] theorem respond_done (c : RespCode) (v : Word) (s : State) : (respond c v s).done = s.done := rfl
@[simp] theorem respond_err (c : RespCode) (v : Word) (s : State) : (respond c v s).err = s.err := rfl
@[simp] theorem respond_ovf (c : RespCode) (v : Word) (s : State) : (respond c v s).ovf = s.ovf := rfl
@[simp] theorem respond_haz (c : RespCode) (v : Word) (s : State) : (respond c v s).haz = s.haz := rfl
@[simp] theorem respond_errCode (c : RespCode) (v : Word) (s : State) : (respond c v s).errCode = s.errCode := rfl
@[simp] theorem respond_errInfo (c : RespCode) (v : Word) (s : State) : (respond c v s).errInfo = s.errInfo := rfl
@[simp] theorem respond_cmd (c : RespCode) (v : Word) (s : State) : (respond c v s).cmd = s.cmd := rfl
@[simp] theorem respond_imgW (c : RespCode) (v : Word) (s : State) : (respond c v s).imgW = s.imgW := rfl
@[simp] theorem respond_imgH (c : RespCode) (v : Word) (s : State) : (respond c v s).imgH = s.imgH := rfl
@[simp] theorem respond_color (c : RespCode) (v : Word) (s : State) : (respond c v s).color = s.color := rfl
@[simp] theorem respond_stdDev (c : RespCode) (v : Word) (s : State) : (respond c v s).stdDev = s.stdDev := rfl
@[simp] theorem respond_sizeF (c : RespCode) (v : Word) (s : State) : (respond c v s).sizeF = s.sizeF := rfl
@[simp] theorem respond_thrHi (c : RespCode) (v : Word) (s : State) : (respond c v s).thrHi = s.thrHi := rfl
@[simp] theorem respond_thrLo (c : RespCode) (v : Word) (s : State) : (respond c v s).thrLo = s.thrLo := rfl
@[simp] theorem respond_kerLen (c : RespCode) (v : Word) (s : State) : (respond c v s).kerLen = s.kerLen := rfl
@[simp] theorem respond_events (c : RespCode) (v : Word) (s : State) : (respond c v s).events = s.events := rfl
@[simp] theorem respond_resp (c : RespCode) (v : Word) (s : State) : (respond c v s).resp = some { code := c, rdata := v } := rfl
@[simp] theorem respond_draws (c : RespCode) (v : Word) (s : State) : (respond c v s).draws = s.draws := rfl
@[simp] theorem respond_cfg (c : RespCode) (v : Word) (s : State) : (respond c v s).cfg = s.cfg := rfl
@[simp] theorem respond_pix (c : RespCode) (v : Word) (s : State) : (respond c v s).pix = s.pix := rfl
@[simp] theorem respond_ker (c : RespCode) (v : Word) (s : State) : (respond c v s).ker = s.ker := rfl
@[simp] theorem respond_mag (c : RespCode) (v : Word) (s : State) : (respond c v s).mag = s.mag := rfl
@[simp] theorem respond_dir (c : RespCode) (v : Word) (s : State) : (respond c v s).dir = s.dir := rfl
@[simp] theorem respond_cls (c : RespCode) (v : Word) (s : State) : (respond c v s).cls = s.cls := rfl
@[simp] theorem respond_planeA (c : RespCode) (v : Word) (s : State) : (respond c v s).planeA = s.planeA := rfl
@[simp] theorem respond_planeK (c : RespCode) (v : Word) (s : State) : (respond c v s).planeK = s.planeK := rfl
@[simp] theorem respond_mem (c : RespCode) (v : Word) (s : State) (p : Plane) : (respond c v s).mem p = s.mem p := by cases p <;> rfl

/-! ## `acceptDoorbell` -/

@[simp] theorem acceptDoorbell_phase (s : State) : (acceptDoorbell s).phase = .busy := rfl
@[simp] theorem acceptDoorbell_latch (s : State) : (acceptDoorbell s).latch = s.latched := rfl
@[simp] theorem acceptDoorbell_irqEn (s : State) : (acceptDoorbell s).irqEn = s.irqEn := rfl
@[simp] theorem acceptDoorbell_done (s : State) : (acceptDoorbell s).done = false := rfl
@[simp] theorem acceptDoorbell_err (s : State) : (acceptDoorbell s).err = false := rfl
@[simp] theorem acceptDoorbell_ovf (s : State) : (acceptDoorbell s).ovf = s.ovf := rfl
@[simp] theorem acceptDoorbell_haz (s : State) : (acceptDoorbell s).haz = s.haz := rfl
@[simp] theorem acceptDoorbell_errCode (s : State) : (acceptDoorbell s).errCode = 0 := rfl
@[simp] theorem acceptDoorbell_errInfo (s : State) : (acceptDoorbell s).errInfo = 0 := rfl
@[simp] theorem acceptDoorbell_cmd (s : State) : (acceptDoorbell s).cmd = s.cmd := rfl
@[simp] theorem acceptDoorbell_imgW (s : State) : (acceptDoorbell s).imgW = s.imgW := rfl
@[simp] theorem acceptDoorbell_imgH (s : State) : (acceptDoorbell s).imgH = s.imgH := rfl
@[simp] theorem acceptDoorbell_color (s : State) : (acceptDoorbell s).color = s.color := rfl
@[simp] theorem acceptDoorbell_stdDev (s : State) : (acceptDoorbell s).stdDev = s.stdDev := rfl
@[simp] theorem acceptDoorbell_sizeF (s : State) : (acceptDoorbell s).sizeF = s.sizeF := rfl
@[simp] theorem acceptDoorbell_thrHi (s : State) : (acceptDoorbell s).thrHi = s.thrHi := rfl
@[simp] theorem acceptDoorbell_thrLo (s : State) : (acceptDoorbell s).thrLo = s.thrLo := rfl
@[simp] theorem acceptDoorbell_kerLen (s : State) : (acceptDoorbell s).kerLen = s.kerLen := rfl
@[simp] theorem acceptDoorbell_events (s : State) : (acceptDoorbell s).events = s.events := rfl
@[simp] theorem acceptDoorbell_resp (s : State) : (acceptDoorbell s).resp = s.resp := rfl
@[simp] theorem acceptDoorbell_draws (s : State) : (acceptDoorbell s).draws = s.draws := rfl
@[simp] theorem acceptDoorbell_cfg (s : State) : (acceptDoorbell s).cfg = s.cfg := rfl
@[simp] theorem acceptDoorbell_pix (s : State) : (acceptDoorbell s).pix = s.pix := rfl
@[simp] theorem acceptDoorbell_ker (s : State) : (acceptDoorbell s).ker = s.ker := rfl
@[simp] theorem acceptDoorbell_mag (s : State) : (acceptDoorbell s).mag = s.mag := rfl
@[simp] theorem acceptDoorbell_dir (s : State) : (acceptDoorbell s).dir = s.dir := rfl
@[simp] theorem acceptDoorbell_cls (s : State) : (acceptDoorbell s).cls = s.cls := rfl
@[simp] theorem acceptDoorbell_planeA (s : State) : (acceptDoorbell s).planeA = s.planeA := rfl
@[simp] theorem acceptDoorbell_planeK (s : State) : (acceptDoorbell s).planeK = s.planeK := rfl
@[simp] theorem acceptDoorbell_mem (s : State) (p : Plane) : (acceptDoorbell s).mem p = s.mem p := by cases p <;> rfl

/-! ## `acknowledge` -/

@[simp] theorem acknowledge_phase (v : Word) (s : State) : (acknowledge v s).phase = s.phase := rfl
@[simp] theorem acknowledge_latch (v : Word) (s : State) : (acknowledge v s).latch = s.latch := rfl
@[simp] theorem acknowledge_irqEn (v : Word) (s : State) : (acknowledge v s).irqEn = s.irqEn := rfl
@[simp] theorem acknowledge_done (v : Word) (s : State) : (acknowledge v s).done = (s.done && !v.getLsbD 1) := rfl
@[simp] theorem acknowledge_err (v : Word) (s : State) : (acknowledge v s).err = (s.err && !v.getLsbD 2) := rfl
@[simp] theorem acknowledge_ovf (v : Word) (s : State) : (acknowledge v s).ovf = (s.ovf && !v.getLsbD 3) := rfl
@[simp] theorem acknowledge_haz (v : Word) (s : State) : (acknowledge v s).haz = (s.haz && !v.getLsbD 4) := rfl
@[simp] theorem acknowledge_errCode (v : Word) (s : State) : (acknowledge v s).errCode = s.errCode := rfl
@[simp] theorem acknowledge_errInfo (v : Word) (s : State) : (acknowledge v s).errInfo = s.errInfo := rfl
@[simp] theorem acknowledge_cmd (v : Word) (s : State) : (acknowledge v s).cmd = s.cmd := rfl
@[simp] theorem acknowledge_imgW (v : Word) (s : State) : (acknowledge v s).imgW = s.imgW := rfl
@[simp] theorem acknowledge_imgH (v : Word) (s : State) : (acknowledge v s).imgH = s.imgH := rfl
@[simp] theorem acknowledge_color (v : Word) (s : State) : (acknowledge v s).color = s.color := rfl
@[simp] theorem acknowledge_stdDev (v : Word) (s : State) : (acknowledge v s).stdDev = s.stdDev := rfl
@[simp] theorem acknowledge_sizeF (v : Word) (s : State) : (acknowledge v s).sizeF = s.sizeF := rfl
@[simp] theorem acknowledge_thrHi (v : Word) (s : State) : (acknowledge v s).thrHi = s.thrHi := rfl
@[simp] theorem acknowledge_thrLo (v : Word) (s : State) : (acknowledge v s).thrLo = s.thrLo := rfl
@[simp] theorem acknowledge_kerLen (v : Word) (s : State) : (acknowledge v s).kerLen = s.kerLen := rfl
@[simp] theorem acknowledge_events (v : Word) (s : State) : (acknowledge v s).events = s.events := rfl
@[simp] theorem acknowledge_resp (v : Word) (s : State) : (acknowledge v s).resp = s.resp := rfl
@[simp] theorem acknowledge_draws (v : Word) (s : State) : (acknowledge v s).draws = s.draws := rfl
@[simp] theorem acknowledge_cfg (v : Word) (s : State) : (acknowledge v s).cfg = s.cfg := rfl
@[simp] theorem acknowledge_pix (v : Word) (s : State) : (acknowledge v s).pix = s.pix := rfl
@[simp] theorem acknowledge_ker (v : Word) (s : State) : (acknowledge v s).ker = s.ker := rfl
@[simp] theorem acknowledge_mag (v : Word) (s : State) : (acknowledge v s).mag = s.mag := rfl
@[simp] theorem acknowledge_dir (v : Word) (s : State) : (acknowledge v s).dir = s.dir := rfl
@[simp] theorem acknowledge_cls (v : Word) (s : State) : (acknowledge v s).cls = s.cls := rfl
@[simp] theorem acknowledge_planeA (v : Word) (s : State) : (acknowledge v s).planeA = s.planeA := rfl
@[simp] theorem acknowledge_planeK (v : Word) (s : State) : (acknowledge v s).planeK = s.planeK := rfl
@[simp] theorem acknowledge_mem (v : Word) (s : State) (p : Plane) : (acknowledge v s).mem p = s.mem p := by cases p <;> rfl

/-! ## `resetRegisters` -/

@[simp] theorem resetRegisters_phase (s : State) : (resetRegisters s).phase = .idle := rfl
@[simp] theorem resetRegisters_latch (s : State) : (resetRegisters s).latch = s.latch := rfl
@[simp] theorem resetRegisters_irqEn (s : State) : (resetRegisters s).irqEn = false := rfl
@[simp] theorem resetRegisters_done (s : State) : (resetRegisters s).done = false := rfl
@[simp] theorem resetRegisters_err (s : State) : (resetRegisters s).err = false := rfl
@[simp] theorem resetRegisters_ovf (s : State) : (resetRegisters s).ovf = false := rfl
@[simp] theorem resetRegisters_haz (s : State) : (resetRegisters s).haz = false := rfl
@[simp] theorem resetRegisters_errCode (s : State) : (resetRegisters s).errCode = 0 := rfl
@[simp] theorem resetRegisters_errInfo (s : State) : (resetRegisters s).errInfo = 0 := rfl
@[simp] theorem resetRegisters_cmd (s : State) : (resetRegisters s).cmd = 0 := rfl
@[simp] theorem resetRegisters_imgW (s : State) : (resetRegisters s).imgW = 0 := rfl
@[simp] theorem resetRegisters_imgH (s : State) : (resetRegisters s).imgH = 0 := rfl
@[simp] theorem resetRegisters_color (s : State) : (resetRegisters s).color = 0 := rfl
@[simp] theorem resetRegisters_stdDev (s : State) : (resetRegisters s).stdDev = 1400 := rfl
@[simp] theorem resetRegisters_sizeF (s : State) : (resetRegisters s).sizeF = 2 := rfl
@[simp] theorem resetRegisters_thrHi (s : State) : (resetRegisters s).thrHi = 76800 := rfl
@[simp] theorem resetRegisters_thrLo (s : State) : (resetRegisters s).thrLo = 25600 := rfl
@[simp] theorem resetRegisters_kerLen (s : State) : (resetRegisters s).kerLen = 0 := rfl
@[simp] theorem resetRegisters_events (s : State) : (resetRegisters s).events = s.events := rfl
@[simp] theorem resetRegisters_resp (s : State) : (resetRegisters s).resp = s.resp := rfl
@[simp] theorem resetRegisters_draws (s : State) : (resetRegisters s).draws = s.draws := rfl
@[simp] theorem resetRegisters_cfg (s : State) : (resetRegisters s).cfg = s.cfg := rfl
@[simp] theorem resetRegisters_pix (s : State) : (resetRegisters s).pix = s.pix := rfl
@[simp] theorem resetRegisters_ker (s : State) : (resetRegisters s).ker = s.ker := rfl
@[simp] theorem resetRegisters_mag (s : State) : (resetRegisters s).mag = s.mag := rfl
@[simp] theorem resetRegisters_dir (s : State) : (resetRegisters s).dir = s.dir := rfl
@[simp] theorem resetRegisters_cls (s : State) : (resetRegisters s).cls = s.cls := rfl
@[simp] theorem resetRegisters_planeA (s : State) : (resetRegisters s).planeA = s.planeA := rfl
@[simp] theorem resetRegisters_planeK (s : State) : (resetRegisters s).planeK = s.planeK := rfl
@[simp] theorem resetRegisters_mem (s : State) (p : Plane) : (resetRegisters s).mem p = s.mem p := by cases p <;> rfl

/-! ## `clearLatch` -/

@[simp] theorem clearLatch_latch (s : State) : (clearLatch s).latch = Latch.reset := rfl
@[simp] theorem clearLatch_phase (s : State) : (clearLatch s).phase = s.phase := rfl
@[simp] theorem clearLatch_irqEn (s : State) : (clearLatch s).irqEn = s.irqEn := rfl
@[simp] theorem clearLatch_done (s : State) : (clearLatch s).done = s.done := rfl
@[simp] theorem clearLatch_err (s : State) : (clearLatch s).err = s.err := rfl
@[simp] theorem clearLatch_ovf (s : State) : (clearLatch s).ovf = s.ovf := rfl
@[simp] theorem clearLatch_haz (s : State) : (clearLatch s).haz = s.haz := rfl
@[simp] theorem clearLatch_errCode (s : State) : (clearLatch s).errCode = s.errCode := rfl
@[simp] theorem clearLatch_errInfo (s : State) : (clearLatch s).errInfo = s.errInfo := rfl
@[simp] theorem clearLatch_cmd (s : State) : (clearLatch s).cmd = s.cmd := rfl
@[simp] theorem clearLatch_imgW (s : State) : (clearLatch s).imgW = s.imgW := rfl
@[simp] theorem clearLatch_imgH (s : State) : (clearLatch s).imgH = s.imgH := rfl
@[simp] theorem clearLatch_color (s : State) : (clearLatch s).color = s.color := rfl
@[simp] theorem clearLatch_stdDev (s : State) : (clearLatch s).stdDev = s.stdDev := rfl
@[simp] theorem clearLatch_sizeF (s : State) : (clearLatch s).sizeF = s.sizeF := rfl
@[simp] theorem clearLatch_thrHi (s : State) : (clearLatch s).thrHi = s.thrHi := rfl
@[simp] theorem clearLatch_thrLo (s : State) : (clearLatch s).thrLo = s.thrLo := rfl
@[simp] theorem clearLatch_kerLen (s : State) : (clearLatch s).kerLen = s.kerLen := rfl
@[simp] theorem clearLatch_events (s : State) : (clearLatch s).events = s.events := rfl
@[simp] theorem clearLatch_resp (s : State) : (clearLatch s).resp = s.resp := rfl
@[simp] theorem clearLatch_draws (s : State) : (clearLatch s).draws = s.draws := rfl
@[simp] theorem clearLatch_cfg (s : State) : (clearLatch s).cfg = s.cfg := rfl
@[simp] theorem clearLatch_pix (s : State) : (clearLatch s).pix = s.pix := rfl
@[simp] theorem clearLatch_ker (s : State) : (clearLatch s).ker = s.ker := rfl
@[simp] theorem clearLatch_mag (s : State) : (clearLatch s).mag = s.mag := rfl
@[simp] theorem clearLatch_dir (s : State) : (clearLatch s).dir = s.dir := rfl
@[simp] theorem clearLatch_cls (s : State) : (clearLatch s).cls = s.cls := rfl
@[simp] theorem clearLatch_planeA (s : State) : (clearLatch s).planeA = s.planeA := rfl
@[simp] theorem clearLatch_planeK (s : State) : (clearLatch s).planeK = s.planeK := rfl
@[simp] theorem clearLatch_mem (s : State) (p : Plane) : (clearLatch s).mem p = s.mem p := by cases p <;> rfl

/-! ## The latched operands -/

@[simp] theorem State.latched_cmd (s : State) : s.latched.cmd = s.cmd := rfl
@[simp] theorem State.latched_w (s : State) : s.latched.w = s.imgW := rfl
@[simp] theorem State.latched_h (s : State) : s.latched.h = s.imgH := rfl
@[simp] theorem State.latched_color (s : State) : s.latched.color = s.color := rfl
@[simp] theorem State.latched_std (s : State) : s.latched.std = s.stdDev := rfl
@[simp] theorem State.latched_sizeF (s : State) : s.latched.sizeF = s.sizeF := rfl
@[simp] theorem State.latched_hi (s : State) : s.latched.hi = s.thrHi := rfl
@[simp] theorem State.latched_lo (s : State) : s.latched.lo = s.thrLo := rfl

end Sys2Proof.Machine
end

