-- ==== Sys2Proof/Laws/Commands.lean ====
section
/-!
SUPPORT. What the shared operations of commands do: the completion step, validation, the padded geometry,
and each effect as the record update it is.
-/

namespace Sys2Proof.Machine

open Sys2Proof

/-! ## The completion step -/

/-- The completion step answers a next state: the error, or the effect and DONE. -/
theorem complete_next (e : Option ErrorReport) (f : State → State) (s : State) :
    complete e f s = .next (match e with | some r => raiseError r s | none => completeDone (f s)) := by
  cases e <;> rfl

theorem runCommand_ok {checks : List Check} {effect : Params → State → State} {s : State}
    (h : firstFailure s.latch.params s checks = none) :
    runCommand checks effect s = .next (completeDone (effect s.latch.params s)) := by
  rw [runCommand, complete_next, h]

theorem runCommand_error {checks : List Check} {effect : Params → State → State} {s : State} {e : ErrorReport}
    (h : firstFailure s.latch.params s checks = some e) :
    runCommand checks effect s = .next (raiseError e s) := by
  rw [runCommand, complete_next, h]

/-- A command ends in one of two ways. -/
theorem runCommand_cases {checks : List Check} {effect : Params → State → State} {s t : State}
    (h : runCommand checks effect s = .next t) :
    (firstFailure s.latch.params s checks = none ∧ t = completeDone (effect s.latch.params s))
      ∨ ∃ e, firstFailure s.latch.params s checks = some e ∧ t = raiseError e s := by
  cases hf : firstFailure s.latch.params s checks with
  | none =>
    rw [runCommand_ok hf] at h
    injection h with h
    exact .inl ⟨rfl, h.symm⟩
  | some e =>
    rw [runCommand_error hf] at h
    injection h with h
    exact .inr ⟨e, rfl, h.symm⟩

/-- The meaning of every command word is its checks and an effect (30_encoding.md R95; R234). -/
theorem exec_eq_runCommand (i : Instr) (h : i.isControl = false) :
    ∃ effect, ∀ s, exec i s = runCommand (checksOf i) effect s := by
  cases i with
  | start e => cases h
  | srst e => cases h
  | nop => exact ⟨fun _ st => st, fun s => rfl⟩
  | cvtRgb => exact ⟨_, fun s => rfl⟩
  | cvtYcbcr => exact ⟨_, fun s => rfl⟩
  | cvtGray => exact ⟨_, fun s => rfl⟩
  | kbuild => exact ⟨_, fun s => rfl⟩
  | fftfImg ch => exact ⟨_, fun s => rfl⟩
  | fftfKer => exact ⟨_, fun s => rfl⟩
  | pmul => exact ⟨_, fun s => rfl⟩
  | ffti => exact ⟨_, fun s => rfl⟩
  | wback ch => exact ⟨_, fun s => rfl⟩
  | blur => exact ⟨_, fun s => rfl⟩
  | grad => exact ⟨_, fun s => rfl⟩
  | nms => exact ⟨_, fun s => rfl⟩
  | thresh => exact ⟨_, fun s => rfl⟩
  | hyst => exact ⟨_, fun s => rfl⟩
  | canny => exact ⟨_, fun s => rfl⟩

/-! ## Validation -/

theorem firstFailure_cons (p : Params) (s : State) (c : Check) (cs : List Check) :
    firstFailure p s (c :: cs) = if Check.fails p s c then some (Check.report p c) else firstFailure p s cs := rfl

/-- No failure is reported exactly when no check fails. -/
theorem firstFailure_none_iff (p : Params) (s : State) (cs : List Check) :
    firstFailure p s cs = none ↔ ∀ c ∈ cs, Check.fails p s c = false := by
  induction cs with
  | nil => simp [firstFailure]
  | cons c cs ih =>
    rw [firstFailure_cons]
    by_cases h : Check.fails p s c = true
    · simp [h]
    · have h' : Check.fails p s c = false := by simpa using h
      simp [h', ih]

/-- A reported failure is one of the checks', and that check fails. -/
theorem firstFailure_some {p : Params} {s : State} {cs : List Check} {e : ErrorReport}
    (h : firstFailure p s cs = some e) : ∃ c ∈ cs, Check.fails p s c = true ∧ e = Check.report p c := by
  induction cs with
  | nil => cases h
  | cons c cs ih =>
    rw [firstFailure_cons] at h
    by_cases hc : Check.fails p s c = true
    · rw [if_pos hc] at h
      injection h with h
      exact ⟨c, by simp, hc, h.symm⟩
    · rw [if_neg hc] at h
      obtain ⟨c', hm, h'⟩ := ih h
      exact ⟨c', by simp [hm], h'⟩

/-- Validation reads the state only through the parameters and KER_LEN. -/
theorem firstFailure_congr {p : Params} {s t : State} (hc : t.cfg = s.cfg) (h : t.kerLen = s.kerLen) (cs : List Check) :
    firstFailure p t cs = firstFailure p s cs := by
  induction cs with
  | nil => rfl
  | cons c cs ih =>
    have : Check.fails p t c = Check.fails p s c := by cases c <;> simp [Check.fails, hc, h]
    rw [firstFailure_cons, firstFailure_cons, this, ih]

/-- Checks that pass do not hide the ones after them. -/
theorem firstFailure_append_of_pass {p : Params} {s : State} {cs ds : List Check}
    (h : ∀ c ∈ cs, Check.fails p s c = false) : firstFailure p s (cs ++ ds) = firstFailure p s ds := by
  induction cs with
  | nil => rfl
  | cons c cs ih =>
    rw [List.cons_append, firstFailure_cons, h c (by simp), ih fun c hc => h c (by simp [hc])]
    rfl

/-! When each check fails (60_exceptions.md R230). -/

theorem Check.fails_width (p : Params) (s : State) :
    Check.fails p s .width = true ↔ p.w = 0 ∨ s.cfg.maxW < p.w := by simp [Check.fails]
theorem Check.fails_height (p : Params) (s : State) :
    Check.fails p s .height = true ↔ p.h = 0 ∨ s.cfg.maxH < p.h := by simp [Check.fails]
theorem Check.fails_color (p : Params) (s : State) :
    Check.fails p s .color = true ↔ p.color = 3 := by simp [Check.fails]
theorem Check.fails_std (p : Params) (s : State) :
    Check.fails p s .std = true ↔ p.std ≤ 0 := by simp [Check.fails]
theorem Check.fails_sizeNonneg (p : Params) (s : State) :
    Check.fails p s .sizeNonneg = true ↔ p.s < 0 := by simp [Check.fails]
theorem Check.fails_sizeMax (p : Params) (s : State) :
    Check.fails p s .sizeMax = true ↔ (s.cfg.maxSizeF : Int) < p.s := by simp [Check.fails]
theorem Check.fails_thresholds (p : Params) (s : State) :
    Check.fails p s .thresholds = true ↔ p.hi < p.lo := by simp [Check.fails]
theorem Check.fails_channel (p : Params) (s : State) (ch : Nat) :
    Check.fails p s (.channel ch) = true ↔ p.c ≤ ch := by simp [Check.fails]
theorem Check.fails_grayscale (p : Params) (s : State) :
    Check.fails p s .grayscale = true ↔ p.color ≠ 2 := by simp [Check.fails]
theorem Check.fails_kernelLength (p : Params) (s : State) :
    Check.fails p s .kernelLength = true ↔ (s.kerLen.toNat : Int) ≠ 2 * p.s + 1 := by simp [Check.fails]
theorem Check.fails_pair (p : Params) (s : State) (g : BitVec 2) :
    Check.fails p s (.pair g) = true ↔ p.color = 2 ∧ g ≠ 2 := by simp [Check.fails]

/-- The geometry checks pass on a valid geometry. -/
theorem geometryChecks_pass {p : Params} {s : State}
    (h : 1 ≤ p.w ∧ p.w ≤ s.cfg.maxW ∧ 1 ≤ p.h ∧ p.h ≤ s.cfg.maxH ∧ p.color ≠ 3) :
    ∀ c ∈ geometryChecks, Check.fails p s c = false := by
  obtain ⟨h1, h2, h3, h4, h5⟩ := h
  intro c hc
  simp only [geometryChecks, List.mem_cons, List.not_mem_nil, or_false] at hc
  rcases hc with rfl | rfl | rfl <;> rw [Bool.eq_false_iff]
  · rw [Ne, Check.fails_width]; omega
  · rw [Ne, Check.fails_height]; omega
  · rw [Ne, Check.fails_color]; exact h5

/-- The size checks pass on a valid S. -/
theorem sizeChecks_pass {p : Params} {s : State} (h : 0 ≤ p.s ∧ p.s ≤ s.cfg.maxSizeF) :
    ∀ c ∈ [Check.sizeNonneg, .sizeMax], Check.fails p s c = false := by
  intro c hc
  simp only [List.mem_cons, List.not_mem_nil, or_false] at hc
  rcases hc with rfl | rfl <;> rw [Bool.eq_false_iff]
  · rw [Ne, Check.fails_sizeNonneg]; omega
  · rw [Ne, Check.fails_sizeMax]; omega

/-- What passing the geometry checks means. -/
theorem geometry_of_ok {p : Params} {s : State} {cs : List Check}
    (h : firstFailure p s (geometryChecks ++ cs) = none) :
    1 ≤ p.w ∧ p.w ≤ s.cfg.maxW ∧ 1 ≤ p.h ∧ p.h ≤ s.cfg.maxH ∧ p.color ≠ 3 := by
  rw [firstFailure_none_iff] at h
  have hw := h .width (by simp [geometryChecks])
  have hh := h .height (by simp [geometryChecks])
  have hc := h .color (by simp [geometryChecks])
  simp [Check.fails] at hw hh hc
  exact ⟨by omega, by omega, by omega, by omega, hc⟩

/-! ## CTRL writes -/

/-- A write of a word to CTRL is let through as such. -/
@[simp] theorem ctrlWriteOf_ctrlWrite (v : Word) : ctrlWriteOf (ctrlWrite v) = some v := by
  simp [ctrlWriteOf, accessRegion, ctrlWrite, ctrlOffset, sizeBytes, regionOf, inRegion, regionBase, regionEnd]

/-! ## The padded geometry -/

/-- PW ≤ MAX_PW for a valid width and kernel size (43_convolution.md R164). -/
theorem pw_le {c : Config} {p : Params} (hw : p.w ≤ c.maxW) (hs : p.s ≤ c.maxSizeF) : p.pw ≤ c.maxPW :=
  pow2ceil_mono (by omega)

/-- PH ≤ MAX_PH for a valid height and kernel size (R164). -/
theorem ph_le {c : Config} {p : Params} (hh : p.h ≤ c.maxH) (hs : p.s ≤ c.maxSizeF) : p.ph ≤ c.maxPH :=
  pow2ceil_mono (by omega)

@[simp] theorem Params.geom_pw (p : Params) : p.geom.pw = p.pw := rfl
@[simp] theorem Params.geom_ph (p : Params) : p.geom.ph = p.ph := rfl
@[simp] theorem Params.geom_w (p : Params) : p.geom.w = p.w := rfl
@[simp] theorem Params.geom_h (p : Params) : p.geom.h = p.h := rfl
@[simp] theorem Params.geom_s (p : Params) : p.geom.s = p.half := rfl

theorem w_add_le_pw (p : Params) : p.w + 2 * p.half ≤ p.pw := le_pow2ceil _

theorem h_add_le_ph (p : Params) : p.h + 2 * p.half ≤ p.ph := le_pow2ceil _

/-! ## Regions as arrays -/

theorem byteIn_row {c : Config} {m : Memory} {draw : Nat} {q : Plane} {u v pw b : Nat} (hu : u < pw)
    (h : cplxAddr c u v ≤ b ∧ b < cplxAddr c u v + 16) :
    byteIn (Memory.slice m (cplxAddr c 0 v) (16 * pw)) draw q b = byteIn m draw q b := by
  refine byteIn_slice m draw q ?_
  simp only [cplxAddr] at *
  omega

theorem cplxIn_row {c : Config} {m : Memory} {draw : Nat} {q : Plane} {u v pw : Nat} (hu : u < pw) :
    cplxIn (Memory.slice m (cplxAddr c 0 v) (16 * pw)) draw q (cplxAddr c u v) = cplxIn m draw q (cplxAddr c u v) := by
  rw [cplxIn, cplxIn, leIn_congr fun b h1 h2 => byteIn_row hu ⟨h1, by omega⟩,
    leIn_congr fun b h1 h2 => byteIn_row hu ⟨by omega, by omega⟩]

theorem State.region_length (s : State) (q : Plane) (pw ph : Nat) : (s.region q pw ph).length = pw * ph := by
  rw [State.region, length_flatMap_blocks ph pw _ (fun _ _ => by simp), Nat.mul_comm]

/-- Entry v*PW + u of a region is element [u, v]. -/
theorem State.region_get (s : State) (q : Plane) (pw ph : Nat) {u v : Nat} (hu : u < pw) (hv : v < ph) :
    (s.region q pw ph)[v * pw + u]? = some (s.cplxAt q u v) := by
  rw [State.region, getElem?_flatMap_blocks ph pw _ (fun _ _ => by simp) hv hu]
  simp only [List.getElem?_map, List.getElem?_range hu, Option.map_some]
  rw [cplxIn_row hu, State.cplxAt]

/-! ## The effects as record updates -/

theorem kbuildEffect_eq (p : Params) (s : State) : kbuildEffect p s =
    { s with
      ker := Memory.writeRun s.ker 0 (kernelBytes s.cfg p.std p.half)
      kerLen := BitVec.ofNat 32 (2 * p.half + 1) } := rfl

theorem fftfImgEffect_eq (ch : Nat) (p : Params) (s : State) : fftfImgEffect ch p s =
    { s with
      planeA := Memory.writeRuns s.planeA (regionRuns s.cfg p.pw p.ph fun u v =>
        s.cfg.num.fftFwd p.pw p.ph (paddedImage p.geom (channelSamples p ch s)) (v * p.pw + u))
      draws := s.draws + 1 } := rfl

theorem fftfKerEffect_eq (p : Params) (s : State) : fftfKerEffect p s =
    { s with
      planeK := Memory.writeRuns s.planeK (regionRuns s.cfg p.pw p.ph fun u v =>
        s.cfg.num.fftFwd p.pw p.ph
          (wrappedKernel p.geom fun i => ((List.range (2 * p.half + 1)).map s.tapAt).getD i f64Zero)
          (v * p.pw + u))
      draws := s.draws + 1 } := rfl

theorem pmulEffect_eq (p : Params) (s : State) : pmulEffect p s =
    { s with
      planeA := Memory.writeRuns s.planeA (regionRuns s.cfg p.pw p.ph fun u v =>
        s.cfg.num.pmul p.pw p.ph (s.region .a p.pw p.ph) (s.region .k p.pw p.ph) (v * p.pw + u))
      draws := s.draws + 1 } := rfl

theorem fftiEffect_eq (p : Params) (s : State) : fftiEffect p s =
    { s with
      planeA := Memory.writeRuns s.planeA (regionRuns s.cfg p.pw p.ph fun u v =>
        s.cfg.num.fftInv p.pw p.ph (s.region .a p.pw p.ph) (v * p.pw + u))
      draws := s.draws + 1 } := rfl

theorem wbackEffect_eq (ch : Nat) (p : Params) (s : State) : wbackEffect ch p s =
    { s with
      pix := Memory.writeRuns s.pix (rowRuns ch p.c ((realParts p s).map fun a => [writeBack a]))
      draws := s.draws + 1 } := rfl

theorem gradEffect_eq (p : Params) (s : State) : gradEffect p s =
    { s with
      mag := Memory.writeRuns s.mag (rowRuns 0 (4 * s.cfg.maxW)
        (byteRows p.w p.h fun x y => leBytes 4 (gradMag p.w p.h (grayAt p s) x y)))
      dir := Memory.writeRuns s.dir (rowRuns 0 s.cfg.maxW
        (byteRows p.w p.h fun x y => [BitVec.ofNat 8 (gradDir p.w p.h (grayAt p s) x y)]))
      draws := s.draws + 1 } := rfl

theorem nmsEffect_eq (p : Params) (s : State) : nmsEffect p s =
    { s with
      mag := Memory.writeRuns s.mag ((suppressedPixels p.w p.h (magAt s) (dirAt s)).map fun q =>
        (4 * planeIndex s.cfg q.1 q.2, leBytes 4 0))
      draws := s.draws + 1 } := rfl

theorem threshEffect_eq (p : Params) (s : State) : threshEffect p s =
    { s with
      cls := Memory.writeRuns s.cls (rowRuns 0 s.cfg.maxW
        (byteRows p.w p.h fun x y => [BitVec.ofNat 8 (classOf (magAt s x y) p.hi p.lo)]))
      draws := s.draws + 1 } := rfl

theorem hystEffect_eq (p : Params) (s : State) : hystEffect p s =
    { s with
      pix := Memory.writeRun s.pix 0 (edgeMap p.w p.h (clsAt s))
      draws := s.draws + 1
      color := 2 } := rfl

theorem convertColor_eq (f : Pixel → Pixel) (target : BitVec 2) (p : Params) (s : State) :
    convertColor f target p s =
      { s with
        pix := Memory.writeRun s.pix 0
          ((List.range (p.w * p.h)).flatMap fun i => Pixel.bytes (f (pixelOf (snapshot p s) i)))
        draws := s.draws + 1
        color := target } := rfl

theorem convertGray_eq (f : Pixel → Byte) (p : Params) (s : State) :
    convertGray f p s =
      { s with
        pix := Memory.writeRun s.pix 0 ((List.range (p.w * p.h)).map fun i => f (pixelOf (snapshot p s) i))
        draws := s.draws + 1
        color := 2 } := rfl

end Sys2Proof.Machine
end

