-- ==== Sys2Proof/Laws/Effects.lean ====
section
/-!
SUPPORT. When each command completes, and what its effect does: the frame of every effect, and what the
memories hold after it.
-/

namespace Sys2Proof.Machine

open Sys2Proof

/-! ## Operands that pass a command's checks -/

theorem geometryChecks_ok {s : State} (g : GeometryValid s.cfg s.latch.params) :
    firstFailure s.latch.params s geometryChecks = none :=
  (firstFailure_none_iff _ _ _).2 (geometryChecks_pass g)

theorem convolutionChecks_ok {s : State} (g : GeometryValid s.cfg s.latch.params) (v : SizeValid s.cfg s.latch.params) :
    firstFailure s.latch.params s convolutionChecks = none := by
  rw [convolutionChecks, firstFailure_append_of_pass (geometryChecks_pass g)]
  exact (firstFailure_none_iff _ _ _).2 (sizeChecks_pass v)

theorem channelChecks_ok {s : State} {ch : Nat} (g : GeometryValid s.cfg s.latch.params) (v : SizeValid s.cfg s.latch.params)
    (h : ch < s.latch.params.c) : firstFailure s.latch.params s (channelChecks ch) = none := by
  rw [channelChecks, convolutionChecks, List.append_assoc, firstFailure_append_of_pass (geometryChecks_pass g),
    firstFailure_append_of_pass (sizeChecks_pass v), firstFailure_cons,
    if_neg (by rw [Check.fails_channel]; omega)]
  rfl

theorem fftfKerChecks_ok {s : State} (g : GeometryValid s.cfg s.latch.params) (v : SizeValid s.cfg s.latch.params)
    (h : (s.kerLen.toNat : Int) = 2 * s.latch.params.s + 1) : firstFailure s.latch.params s fftfKerChecks = none := by
  rw [fftfKerChecks, convolutionChecks, List.append_assoc, firstFailure_append_of_pass (geometryChecks_pass g),
    firstFailure_append_of_pass (sizeChecks_pass v), firstFailure_cons,
    if_neg (by rw [Check.fails_kernelLength]; omega)]
  rfl

theorem kbuildChecks_ok {s : State} (h : 0 < s.latch.params.std) (v : SizeValid s.cfg s.latch.params) :
    firstFailure s.latch.params s kbuildChecks = none := by
  rw [kbuildChecks, firstFailure_cons, if_neg (by rw [Check.fails_std]; omega)]
  exact (firstFailure_none_iff _ _ _).2 (sizeChecks_pass v)

theorem blurChecks_ok {s : State} (g : GeometryValid s.cfg s.latch.params) (h : 0 < s.latch.params.std)
    (v : SizeValid s.cfg s.latch.params) : firstFailure s.latch.params s blurChecks = none := by
  rw [blurChecks, firstFailure_append_of_pass (geometryChecks_pass g)]
  exact kbuildChecks_ok h v

theorem gradChecks_ok {s : State} (g : GeometryValid s.cfg s.latch.params) (h : s.latch.params.color = 2) :
    firstFailure s.latch.params s gradChecks = none := by
  rw [gradChecks, firstFailure_append_of_pass (geometryChecks_pass g), firstFailure_cons,
    if_neg (by rw [Check.fails_grayscale]; exact fun n => n h)]
  rfl

theorem threshChecks_ok {s : State} (g : GeometryValid s.cfg s.latch.params) (h : s.latch.params.lo ≤ s.latch.params.hi) :
    firstFailure s.latch.params s threshChecks = none := by
  rw [threshChecks, firstFailure_append_of_pass (geometryChecks_pass g), firstFailure_cons,
    if_neg (by rw [Check.fails_thresholds]; omega)]
  rfl

theorem cannyChecks_ok {s : State} (g : GeometryValid s.cfg s.latch.params) (h : 0 < s.latch.params.std)
    (v : SizeValid s.cfg s.latch.params) (o : s.latch.params.lo ≤ s.latch.params.hi) :
    firstFailure s.latch.params s cannyChecks = none := by
  rw [cannyChecks, firstFailure_append_of_pass (geometryChecks_pass g), firstFailure_cons,
    if_neg (by rw [Check.fails_std]; omega)]
  refine (firstFailure_append_of_pass (cs := [Check.sizeNonneg, .sizeMax]) (ds := [.thresholds])
    (sizeChecks_pass v)).trans ?_
  rw [firstFailure_cons, if_neg (by rw [Check.fails_thresholds]; omega)]
  rfl

theorem cvtChecks_ok {s : State} {target : BitVec 2} (g : GeometryValid s.cfg s.latch.params)
    (h : s.latch.params.color ≠ 2 ∨ target = 2) : firstFailure s.latch.params s (cvtChecks target) = none := by
  rw [cvtChecks, firstFailure_append_of_pass (geometryChecks_pass g), firstFailure_cons,
    if_neg (by rw [Check.fails_pair]; tauto)]
  rfl

/-! ## What an effect leaves, field by field -/

theorem kbuildEffect_ker (p : Params) (s : State) :
    (kbuildEffect p s).ker = Memory.writeRun s.ker 0 (kernelBytes s.cfg p.std p.half) := by rw [kbuildEffect_eq]
@[simp] theorem kbuildEffect_color (p : Params) (s : State) :
    (kbuildEffect p s).color = s.color := by rw [kbuildEffect_eq]
@[simp] theorem kbuildEffect_kerLen (p : Params) (s : State) :
    (kbuildEffect p s).kerLen = BitVec.ofNat 32 (2 * p.half + 1) := by rw [kbuildEffect_eq]
@[simp] theorem kbuildEffect_draws (p : Params) (s : State) :
    (kbuildEffect p s).draws = s.draws := by rw [kbuildEffect_eq]
@[simp] theorem kbuildEffect_cfg (p : Params) (s : State) :
    (kbuildEffect p s).cfg = s.cfg := by rw [kbuildEffect_eq]
theorem fftfImgEffect_planeA (ch : Nat) (p : Params) (s : State) :
    (fftfImgEffect ch p s).planeA = Memory.writeRuns s.planeA (regionRuns s.cfg p.pw p.ph fun u v => s.cfg.num.fftFwd
      p.pw p.ph (paddedImage p.geom (channelSamples p ch s)) (v * p.pw + u)) := by rw [fftfImgEffect_eq]
@[simp] theorem fftfImgEffect_color (ch : Nat) (p : Params) (s : State) :
    (fftfImgEffect ch p s).color = s.color := by rw [fftfImgEffect_eq]
@[simp] theorem fftfImgEffect_kerLen (ch : Nat) (p : Params) (s : State) :
    (fftfImgEffect ch p s).kerLen = s.kerLen := by rw [fftfImgEffect_eq]
@[simp] theorem fftfImgEffect_draws (ch : Nat) (p : Params) (s : State) :
    (fftfImgEffect ch p s).draws = s.draws + 1 := by rw [fftfImgEffect_eq]
@[simp] theorem fftfImgEffect_cfg (ch : Nat) (p : Params) (s : State) :
    (fftfImgEffect ch p s).cfg = s.cfg := by rw [fftfImgEffect_eq]
theorem fftfKerEffect_planeK (p : Params) (s : State) :
    (fftfKerEffect p s).planeK = Memory.writeRuns s.planeK (regionRuns s.cfg p.pw p.ph fun u v => s.cfg.num.fftFwd p.pw
      p.ph (wrappedKernel p.geom fun i => ((List.range (2 * p.half + 1)).map s.tapAt).getD i f64Zero) (v * p.pw +
      u)) := by rw [fftfKerEffect_eq]
@[simp] theorem fftfKerEffect_color (p : Params) (s : State) :
    (fftfKerEffect p s).color = s.color := by rw [fftfKerEffect_eq]
@[simp] theorem fftfKerEffect_kerLen (p : Params) (s : State) :
    (fftfKerEffect p s).kerLen = s.kerLen := by rw [fftfKerEffect_eq]
@[simp] theorem fftfKerEffect_draws (p : Params) (s : State) :
    (fftfKerEffect p s).draws = s.draws + 1 := by rw [fftfKerEffect_eq]
@[simp] theorem fftfKerEffect_cfg (p : Params) (s : State) :
    (fftfKerEffect p s).cfg = s.cfg := by rw [fftfKerEffect_eq]
theorem pmulEffect_planeA (p : Params) (s : State) :
    (pmulEffect p s).planeA = Memory.writeRuns s.planeA (regionRuns s.cfg p.pw p.ph fun u v => s.cfg.num.pmul p.pw p.ph
      (s.region .a p.pw p.ph) (s.region .k p.pw p.ph) (v * p.pw + u)) := by rw [pmulEffect_eq]
@[simp] theorem pmulEffect_color (p : Params) (s : State) :
    (pmulEffect p s).color = s.color := by rw [pmulEffect_eq]
@[simp] theorem pmulEffect_kerLen (p : Params) (s : State) :
    (pmulEffect p s).kerLen = s.kerLen := by rw [pmulEffect_eq]
@[simp] theorem pmulEffect_draws (p : Params) (s : State) :
    (pmulEffect p s).draws = s.draws + 1 := by rw [pmulEffect_eq]
@[simp] theorem pmulEffect_cfg (p : Params) (s : State) :
    (pmulEffect p s).cfg = s.cfg := by rw [pmulEffect_eq]
theorem fftiEffect_planeA (p : Params) (s : State) :
    (fftiEffect p s).planeA = Memory.writeRuns s.planeA (regionRuns s.cfg p.pw p.ph fun u v => s.cfg.num.fftInv p.pw
      p.ph (s.region .a p.pw p.ph) (v * p.pw + u)) := by rw [fftiEffect_eq]
@[simp] theorem fftiEffect_color (p : Params) (s : State) :
    (fftiEffect p s).color = s.color := by rw [fftiEffect_eq]
@[simp] theorem fftiEffect_kerLen (p : Params) (s : State) :
    (fftiEffect p s).kerLen = s.kerLen := by rw [fftiEffect_eq]
@[simp] theorem fftiEffect_draws (p : Params) (s : State) :
    (fftiEffect p s).draws = s.draws + 1 := by rw [fftiEffect_eq]
@[simp] theorem fftiEffect_cfg (p : Params) (s : State) :
    (fftiEffect p s).cfg = s.cfg := by rw [fftiEffect_eq]
theorem wbackEffect_pix (ch : Nat) (p : Params) (s : State) :
    (wbackEffect ch p s).pix = Memory.writeRuns s.pix (rowRuns ch p.c ((realParts p s).map fun a => [writeBack
      a])) := by rw [wbackEffect_eq]
@[simp] theorem wbackEffect_color (ch : Nat) (p : Params) (s : State) :
    (wbackEffect ch p s).color = s.color := by rw [wbackEffect_eq]
@[simp] theorem wbackEffect_kerLen (ch : Nat) (p : Params) (s : State) :
    (wbackEffect ch p s).kerLen = s.kerLen := by rw [wbackEffect_eq]
@[simp] theorem wbackEffect_draws (ch : Nat) (p : Params) (s : State) :
    (wbackEffect ch p s).draws = s.draws + 1 := by rw [wbackEffect_eq]
@[simp] theorem wbackEffect_cfg (ch : Nat) (p : Params) (s : State) :
    (wbackEffect ch p s).cfg = s.cfg := by rw [wbackEffect_eq]
theorem gradEffect_mag (p : Params) (s : State) :
    (gradEffect p s).mag = Memory.writeRuns s.mag (rowRuns 0 (4 * s.cfg.maxW) (byteRows p.w p.h fun x y =>
      leBytes 4 (gradMag p.w p.h (grayAt p s) x y))) := by rw [gradEffect_eq]
theorem gradEffect_dir (p : Params) (s : State) :
    (gradEffect p s).dir = Memory.writeRuns s.dir (rowRuns 0 s.cfg.maxW (byteRows p.w p.h fun x y =>
      [BitVec.ofNat 8 (gradDir p.w p.h (grayAt p s) x y)])) := by rw [gradEffect_eq]
@[simp] theorem gradEffect_color (p : Params) (s : State) :
    (gradEffect p s).color = s.color := by rw [gradEffect_eq]
@[simp] theorem gradEffect_kerLen (p : Params) (s : State) :
    (gradEffect p s).kerLen = s.kerLen := by rw [gradEffect_eq]
@[simp] theorem gradEffect_draws (p : Params) (s : State) :
    (gradEffect p s).draws = s.draws + 1 := by rw [gradEffect_eq]
@[simp] theorem gradEffect_cfg (p : Params) (s : State) :
    (gradEffect p s).cfg = s.cfg := by rw [gradEffect_eq]
theorem nmsEffect_mag (p : Params) (s : State) :
    (nmsEffect p s).mag = Memory.writeRuns s.mag ((suppressedPixels p.w p.h (magAt s) (dirAt s)).map fun q =>
      (4 * planeIndex s.cfg q.1 q.2, leBytes 4 0)) := by rw [nmsEffect_eq]
@[simp] theorem nmsEffect_color (p : Params) (s : State) :
    (nmsEffect p s).color = s.color := by rw [nmsEffect_eq]
@[simp] theorem nmsEffect_kerLen (p : Params) (s : State) :
    (nmsEffect p s).kerLen = s.kerLen := by rw [nmsEffect_eq]
@[simp] theorem nmsEffect_draws (p : Params) (s : State) :
    (nmsEffect p s).draws = s.draws + 1 := by rw [nmsEffect_eq]
@[simp] theorem nmsEffect_cfg (p : Params) (s : State) :
    (nmsEffect p s).cfg = s.cfg := by rw [nmsEffect_eq]
theorem threshEffect_cls (p : Params) (s : State) :
    (threshEffect p s).cls = Memory.writeRuns s.cls (rowRuns 0 s.cfg.maxW (byteRows p.w p.h fun x y =>
      [BitVec.ofNat 8 (classOf (magAt s x y) p.hi p.lo)])) := by rw [threshEffect_eq]
@[simp] theorem threshEffect_color (p : Params) (s : State) :
    (threshEffect p s).color = s.color := by rw [threshEffect_eq]
@[simp] theorem threshEffect_kerLen (p : Params) (s : State) :
    (threshEffect p s).kerLen = s.kerLen := by rw [threshEffect_eq]
@[simp] theorem threshEffect_draws (p : Params) (s : State) :
    (threshEffect p s).draws = s.draws + 1 := by rw [threshEffect_eq]
@[simp] theorem threshEffect_cfg (p : Params) (s : State) :
    (threshEffect p s).cfg = s.cfg := by rw [threshEffect_eq]
theorem hystEffect_pix (p : Params) (s : State) :
    (hystEffect p s).pix = Memory.writeRun s.pix 0 (edgeMap p.w p.h (clsAt s)) := by rw [hystEffect_eq]
@[simp] theorem hystEffect_color (p : Params) (s : State) :
    (hystEffect p s).color = 2 := by rw [hystEffect_eq]
@[simp] theorem hystEffect_kerLen (p : Params) (s : State) :
    (hystEffect p s).kerLen = s.kerLen := by rw [hystEffect_eq]
@[simp] theorem hystEffect_draws (p : Params) (s : State) :
    (hystEffect p s).draws = s.draws + 1 := by rw [hystEffect_eq]
@[simp] theorem hystEffect_cfg (p : Params) (s : State) :
    (hystEffect p s).cfg = s.cfg := by rw [hystEffect_eq]
theorem convertColor_pix (f : Pixel → Pixel) (target : BitVec 2) (p : Params) (s : State) :
    (convertColor f target p s).pix = Memory.writeRun s.pix 0 ((List.range (p.w * p.h)).flatMap fun i =>
      Pixel.bytes (f (pixelOf (snapshot p s) i))) := by rw [convertColor_eq]
@[simp] theorem convertColor_color (f : Pixel → Pixel) (target : BitVec 2) (p : Params) (s : State) :
    (convertColor f target p s).color = target := by rw [convertColor_eq]
@[simp] theorem convertColor_kerLen (f : Pixel → Pixel) (target : BitVec 2) (p : Params) (s : State) :
    (convertColor f target p s).kerLen = s.kerLen := by rw [convertColor_eq]
@[simp] theorem convertColor_draws (f : Pixel → Pixel) (target : BitVec 2) (p : Params) (s : State) :
    (convertColor f target p s).draws = s.draws + 1 := by rw [convertColor_eq]
@[simp] theorem convertColor_cfg (f : Pixel → Pixel) (target : BitVec 2) (p : Params) (s : State) :
    (convertColor f target p s).cfg = s.cfg := by rw [convertColor_eq]
theorem convertGray_pix (f : Pixel → Byte) (p : Params) (s : State) :
    (convertGray f p s).pix = Memory.writeRun s.pix 0 ((List.range (p.w * p.h)).map fun i => f (pixelOf
      (snapshot p s) i)) := by rw [convertGray_eq]
@[simp] theorem convertGray_color (f : Pixel → Byte) (p : Params) (s : State) :
    (convertGray f p s).color = 2 := by rw [convertGray_eq]
@[simp] theorem convertGray_kerLen (f : Pixel → Byte) (p : Params) (s : State) :
    (convertGray f p s).kerLen = s.kerLen := by rw [convertGray_eq]
@[simp] theorem convertGray_draws (f : Pixel → Byte) (p : Params) (s : State) :
    (convertGray f p s).draws = s.draws + 1 := by rw [convertGray_eq]
@[simp] theorem convertGray_cfg (f : Pixel → Byte) (p : Params) (s : State) :
    (convertGray f p s).cfg = s.cfg := by rw [convertGray_eq]

/-! ## The frame of an effect -/

/-- What no effect touches: all of the state but the memories `writes` names, COLOR, KER_LEN and the model's
own draw counter. -/
def EffectFrame (writes : Plane → Bool) (s t : State) : Prop :=
  (∀ p, writes p = false → t.mem p = s.mem p)
    ∧ t.cfg = s.cfg ∧ t.latch = s.latch ∧ t.irqEn = s.irqEn ∧ t.err = s.err ∧ t.ovf = s.ovf ∧ t.haz = s.haz
    ∧ t.errCode = s.errCode ∧ t.errInfo = s.errInfo ∧ t.cmd = s.cmd ∧ t.imgW = s.imgW ∧ t.imgH = s.imgH
    ∧ t.stdDev = s.stdDev ∧ t.sizeF = s.sizeF ∧ t.thrHi = s.thrHi ∧ t.thrLo = s.thrLo
    ∧ t.events = s.events ∧ t.resp = s.resp ∧ t.done = s.done ∧ t.phase = s.phase

theorem EffectFrame.refl (w : Plane → Bool) (s : State) : EffectFrame w s s :=
  ⟨fun _ _ => rfl, rfl, rfl, rfl, rfl, rfl, rfl, rfl, rfl, rfl, rfl, rfl, rfl, rfl, rfl, rfl, rfl, rfl, rfl, rfl⟩

theorem EffectFrame.trans {w : Plane → Bool} {s t u : State} (h : EffectFrame w s t) (k : EffectFrame w t u) :
    EffectFrame w s u := by
  obtain ⟨h0, h1, h2, h3, h4, h5, h6, h7, h8, h9, h10, h11, h12, h13, h14, h15, h16, h17, h18, h19⟩ := h
  obtain ⟨k0, k1, k2, k3, k4, k5, k6, k7, k8, k9, k10, k11, k12, k13, k14, k15, k16, k17, k18, k19⟩ := k
  exact ⟨fun p hp => (k0 p hp).trans (h0 p hp), k1.trans h1, k2.trans h2, k3.trans h3, k4.trans h4, k5.trans h5,
    k6.trans h6, k7.trans h7, k8.trans h8, k9.trans h9, k10.trans h10, k11.trans h11, k12.trans h12, k13.trans h13,
    k14.trans h14, k15.trans h15, k16.trans h16, k17.trans h17,
    k18.trans h18, k19.trans h19⟩

theorem EffectFrame.mono {w w' : Plane → Bool} {s t : State} (h : EffectFrame w s t)
    (hw : ∀ p, w' p = false → w p = false) : EffectFrame w' s t := ⟨fun p hp => h.1 p (hw p hp), h.2⟩

/-- A completed command has the frame of its effect. -/
theorem EffectFrame.command {w : Plane → Bool} {s t : State} (h : EffectFrame w s t) :
    CommandFrame w s (completeDone t) := by
  obtain ⟨h0, h1, h2, h3, h4, h5, h6, h7, h8, h9, h10, h11, h12, h13, h14, h15, h16, h17, -, -⟩ := h
  exact ⟨fun p hp => (by cases p <;> exact h0 _ hp), h1, h2, h3, h4, h5, h6, h7, h8, h9, h10, h11, h12, h13, h14, h15,
    h16, h17, rfl, rfl⟩

/-- The one shape of every effect. -/
theorem EffectFrame.of_update {w : Plane → Bool} {s : State} {pix ker mag dir cls a k : Memory} {color : BitVec 2}
    {kerLen : Word} {draws : Nat} (h1 : w .pix = false → pix = s.pix) (h2 : w .ker = false → ker = s.ker)
    (h3 : w .mag = false → mag = s.mag) (h4 : w .dir = false → dir = s.dir) (h5 : w .cls = false → cls = s.cls)
    (h6 : w .a = false → a = s.planeA) (h7 : w .k = false → k = s.planeK) :
    EffectFrame w s { s with
      pix := pix, ker := ker, mag := mag, dir := dir, cls := cls, planeA := a, planeK := k
      color := color, kerLen := kerLen, draws := draws } := by
  refine ⟨fun p hp => ?_, rfl, rfl, rfl, rfl, rfl, rfl, rfl, rfl, rfl, rfl, rfl, rfl, rfl, rfl, rfl, rfl, rfl, rfl, rfl⟩
  cases p
  · exact h1 hp
  · exact h2 hp
  · exact h3 hp
  · exact h4 hp
  · exact h5 hp
  · exact h6 hp
  · exact h7 hp

theorem kbuildEffect_frame (p : Params) (s : State) : EffectFrame (· == .ker) s (kbuildEffect p s) := by
  rw [kbuildEffect_eq]
  exact .of_update (fun _ => rfl) (nofun) (fun _ => rfl) (fun _ => rfl) (fun _ => rfl) (fun _ => rfl) (fun _ => rfl)

theorem fftfImgEffect_frame (ch : Nat) (p : Params) (s : State) :
    EffectFrame (· == .a) s (fftfImgEffect ch p s) := by
  rw [fftfImgEffect_eq]
  exact .of_update (fun _ => rfl) (fun _ => rfl) (fun _ => rfl) (fun _ => rfl) (fun _ => rfl) (nofun) (fun _ => rfl)

theorem fftfKerEffect_frame (p : Params) (s : State) : EffectFrame (· == .k) s (fftfKerEffect p s) := by
  rw [fftfKerEffect_eq]
  exact .of_update (fun _ => rfl) (fun _ => rfl) (fun _ => rfl) (fun _ => rfl) (fun _ => rfl) (fun _ => rfl) (nofun)

theorem pmulEffect_frame (p : Params) (s : State) : EffectFrame (· == .a) s (pmulEffect p s) := by
  rw [pmulEffect_eq]
  exact .of_update (fun _ => rfl) (fun _ => rfl) (fun _ => rfl) (fun _ => rfl) (fun _ => rfl) (nofun) (fun _ => rfl)

theorem fftiEffect_frame (p : Params) (s : State) : EffectFrame (· == .a) s (fftiEffect p s) := by
  rw [fftiEffect_eq]
  exact .of_update (fun _ => rfl) (fun _ => rfl) (fun _ => rfl) (fun _ => rfl) (fun _ => rfl) (nofun) (fun _ => rfl)

theorem wbackEffect_frame (ch : Nat) (p : Params) (s : State) : EffectFrame (· == .pix) s (wbackEffect ch p s) := by
  rw [wbackEffect_eq]
  exact .of_update (nofun) (fun _ => rfl) (fun _ => rfl) (fun _ => rfl) (fun _ => rfl) (fun _ => rfl) (fun _ => rfl)

theorem gradEffect_frame (p : Params) (s : State) :
    EffectFrame (fun q => q == .mag || q == .dir) s (gradEffect p s) := by
  rw [gradEffect_eq]
  exact .of_update (fun _ => rfl) (fun _ => rfl) (nofun) (nofun) (fun _ => rfl) (fun _ => rfl) (fun _ => rfl)

theorem nmsEffect_frame (p : Params) (s : State) : EffectFrame (· == .mag) s (nmsEffect p s) := by
  rw [nmsEffect_eq]
  exact .of_update (fun _ => rfl) (fun _ => rfl) (nofun) (fun _ => rfl) (fun _ => rfl) (fun _ => rfl) (fun _ => rfl)

theorem threshEffect_frame (p : Params) (s : State) : EffectFrame (· == .cls) s (threshEffect p s) := by
  rw [threshEffect_eq]
  exact .of_update (fun _ => rfl) (fun _ => rfl) (fun _ => rfl) (fun _ => rfl) (nofun) (fun _ => rfl) (fun _ => rfl)

theorem hystEffect_frame (p : Params) (s : State) : EffectFrame (· == .pix) s (hystEffect p s) := by
  rw [hystEffect_eq]
  exact .of_update (nofun) (fun _ => rfl) (fun _ => rfl) (fun _ => rfl) (fun _ => rfl) (fun _ => rfl) (fun _ => rfl)

theorem convertColor_frame (f : Pixel → Pixel) (target : BitVec 2) (p : Params) (s : State) :
    EffectFrame (· == .pix) s (convertColor f target p s) := by
  rw [convertColor_eq]
  exact .of_update (nofun) (fun _ => rfl) (fun _ => rfl) (fun _ => rfl) (fun _ => rfl) (fun _ => rfl) (fun _ => rfl)

theorem convertGray_frame (f : Pixel → Byte) (p : Params) (s : State) :
    EffectFrame (· == .pix) s (convertGray f p s) := by
  rw [convertGray_eq]
  exact .of_update (nofun) (fun _ => rfl) (fun _ => rfl) (fun _ => rfl) (fun _ => rfl) (fun _ => rfl) (fun _ => rfl)

theorem cvtGrayEffect_frame (p : Params) (s : State) : EffectFrame (· == .pix) s (cvtGrayEffect p s) := by
  unfold cvtGrayEffect
  split
  · exact convertGray_frame _ p s
  · exact convertGray_frame _ p s
  · exact .refl _ s

/-- The memories a channel pass of BLUR, or a whole BLUR, writes. -/
def blurPlanes (q : Plane) : Bool := q == .pix || q == .ker || q == .a || q == .k

theorem blurChannel_frame (p : Params) (s : State) (ch : Nat) : EffectFrame blurPlanes s (blurChannel p s ch) := by
  have a : ∀ q, blurPlanes q = false → (q == Plane.a) = false := by intro q; cases q <;> decide
  have x : ∀ q, blurPlanes q = false → (q == Plane.pix) = false := by intro q; cases q <;> decide
  exact ((((fftfImgEffect_frame ch p s).mono a).trans ((pmulEffect_frame p _).mono a)).trans
    ((fftiEffect_frame p _).mono a)).trans ((wbackEffect_frame ch p _).mono x)

theorem blurChannels_frame (p : Params) (chs : List Nat) (s : State) :
    EffectFrame blurPlanes s (chs.foldl (blurChannel p) s) := by
  induction chs generalizing s with
  | nil => exact .refl _ s
  | cons ch chs ih =>
    rw [List.foldl_cons]
    exact (blurChannel_frame p s ch).trans (ih (blurChannel p s ch))

theorem blurEffect_frame (p : Params) (s : State) : EffectFrame blurPlanes s (blurEffect p s) := by
  have r : ∀ q, blurPlanes q = false → (q == Plane.ker) = false := by intro q; cases q <;> decide
  have k : ∀ q, blurPlanes q = false → (q == Plane.k) = false := by intro q; cases q <;> decide
  unfold blurEffect
  split
  · exact (kbuildEffect_frame p s).mono r
  · exact (((kbuildEffect_frame p s).mono r).trans ((fftfKerEffect_frame p _).mono k)).trans (blurChannels_frame p _ _)

theorem cannyEffect_frame (p : Params) (s : State) : EffectFrame (fun _ => true) s (cannyEffect p s) := by
  unfold cannyEffect
  have h1 : EffectFrame (fun _ => true) s (if p.color ≠ 2 then cvtGrayEffect p s else s) := by
    split
    · exact (cvtGrayEffect_frame p s).mono fun _ h => by cases h
    · exact .refl _ s
  exact ((((h1.trans ((blurEffect_frame _ _).mono fun _ h => by cases h)).trans
    ((gradEffect_frame _ _).mono fun _ h => by cases h)).trans
    ((nmsEffect_frame _ _).mono fun _ h => by cases h)).trans
    ((threshEffect_frame _ _).mono fun _ h => by cases h)).trans
    ((hystEffect_frame _ _).mono fun _ h => by cases h)

end Sys2Proof.Machine
end

