-- ==== Sys2Proof/Machine/Instance.lean ====
section
/-!
DEFINITION. The exact transforms (43_convolution.md R163) and the reference instance of NUM (R162), as real
mathematics. The instance is one NUM among those that meet the contract: no step uses it, and no claim may rest on
it (R162; log 22). It is what the plane values of 95_test_vectors.md are computed with.
-/

namespace Sys2Proof.Machine

open Sys2Proof

/-! ## The exact transforms -/

/-- The complex number an element with finite parts stands for. -/
noncomputable def complexOf (z : Cplx) : ℂ := { re := (f64Rat z.re : ℝ), im := (f64Rat z.im : ℝ) }

/-- f[u, v] of an array of width PW, row-major. -/
noncomputable def entryAt (pw : Nat) (x : List Cplx) (u v : Nat) : ℂ :=
  complexOf (x.getD (v * pw + u) { re := f64Zero, im := f64Zero })

/-- u·x/PW + v·y/PH (R163). -/
noncomputable def cycles (pw ph u v x y : Nat) : ℂ := (u * x : ℂ) / pw + (v * y : ℂ) / ph

/-- DFT_fwd(f)[u, v] (R163). -/
noncomputable def dftFwd (pw ph : Nat) (f : Nat → Nat → ℂ) (u v : Nat) : ℂ :=
  ∑ x ∈ Finset.range pw, ∑ y ∈ Finset.range ph,
    f x y * Complex.exp (-2 * Real.pi * Complex.I * cycles pw ph u v x y)

/-- DFT_inv(F)[x, y], unnormalized (R163). -/
noncomputable def dftInv (pw ph : Nat) (F : Nat → Nat → ℂ) (x y : Nat) : ℂ :=
  ∑ u ∈ Finset.range pw, ∑ v ∈ Finset.range ph,
    F u v * Complex.exp (2 * Real.pi * Complex.I * cycles pw ph u v x y)

/-! ## Rounding a real number to binary64 -/

/-- r ≥ 0 rounded to the nearest integer, ties to even. -/
noncomputable def roundEvenReal (r : ℝ) : Nat :=
  open Classical in
  if 1 / 2 < r - ⌊r⌋₊ ∨ (r - ⌊r⌋₊ = 1 / 2 ∧ ⌊r⌋₊ % 2 = 1) then ⌊r⌋₊ + 1 else ⌊r⌋₊

/-- r rounded to the nearest binary64, ties to even: `f64Round` on a real number (`f64OfReal_eq` in
Laws/Instance.lean says that the two agree). -/
noncomputable def f64OfReal (r : ℝ) : F64 :=
  open Classical in
  let units := |r| * 2 ^ 1074
  let d := f64Drop ⌊units⌋₊ 0
  f64Pack (decide (r < 0)) (min f64InfBits (d * 2 ^ 52 + roundEvenReal (units / 2 ^ d)))

/-- `q` is r rounded to the nearest binary64, ties to even. Which zero stands for a 0 the rule does not say. -/
def RoundsTo (r : ℝ) (q : F64) : Prop :=
  q = f64OfReal r ∨ (q.toNat % 2 ^ 63 = 0 ∧ (f64OfReal r).toNat % 2 ^ 63 = 0)

/-- Each component is rounded (R162). -/
def RoundsToComplex (z : ℂ) (q : Cplx) : Prop := RoundsTo z.re q.re ∧ RoundsTo z.im q.im

/-! ## The reference instance -/

/-- An array R162 speaks of: PW×PH elements with finite parts. -/
def FiniteArray (pw ph : Nat) (x : List Cplx) : Prop :=
  x.length = pw * ph ∧ ∀ z ∈ x, f64IsFinite z.re = true ∧ f64IsFinite z.im = true

/-- The reference instance of NUM (R162). Its fourth part, that FFTF.KER multiplies taps by `*f64`, holds "as in
every instance": `kernelEntry` uses `f64Mul` whatever NUM is. What it gives for an element that is not finite the
rule does not say. -/
structure ReferenceInstance (n : Numerics) : Prop where
  /-- kerImpl takes q[S+k] as w_k rounded to the nearest binary64 (42_kernel.md R153). -/
  ker : ∀ (std : Int) (s i : Nat), 0 < std → i ≤ 2 * s → RoundsTo (exactWeight std s ((i : ℤ) - s)) (n.ker std s i)
  /-- fftFwd is the exact transform of R163, each component rounded. -/
  fftFwd : ∀ (pw ph : Nat) (x : List Cplx), FiniteArray pw ph x → ∀ u v, u < pw → v < ph →
    RoundsToComplex (dftFwd pw ph (entryAt pw x) u v) (n.fftFwd pw ph x (v * pw + u))
  /-- fftInv is the exact transform of R163, each component rounded. -/
  fftInv : ∀ (pw ph : Nat) (x : List Cplx), FiniteArray pw ph x → ∀ u v, u < pw → v < ph →
    RoundsToComplex (dftInv pw ph (entryAt pw x) u v) (n.fftInv pw ph x (v * pw + u))
  /-- pmul is the exact a[u, v]·k[u, v]/(PW·PH), rounded the same way. -/
  pmul : ∀ (pw ph : Nat) (a k : List Cplx), FiniteArray pw ph a → FiniteArray pw ph k → ∀ u v, u < pw → v < ph →
    RoundsToComplex (entryAt pw a u v * entryAt pw k u v / ((pw : ℂ) * ph)) (n.pmul pw ph a k (v * pw + u))

end Sys2Proof.Machine
end

