-- ==== Sys2Proof/Laws/Instance.lean ====
section
/-!
SUPPORT. The rounding of real numbers agrees with that of the binary64 product; the exact transforms invert each
other (43_convolution.md R163); some record is the reference instance (R162).
-/

namespace Sys2Proof.Machine

open Sys2Proof

/-! ## Rounding -/

theorem floor_div_pow (n d : Nat) : ⌊(n : ℝ) / 2 ^ d⌋₊ = n / 2 ^ d := by
  have := Nat.floor_div_eq_div (K := ℝ) n (2 ^ d)
  push_cast at this
  exact this

theorem roundEvenReal_div (n d : Nat) : roundEvenReal ((n : ℝ) / 2 ^ d) = roundEven n d := by
  have hp : (0 : ℝ) < 2 ^ d := by positivity
  have hr : (n : ℝ) / 2 ^ d - (n / 2 ^ d : Nat) = (n % 2 ^ d : Nat) / 2 ^ d := by
    rw [eq_div_iff hp.ne', sub_mul, div_mul_cancel₀ _ hp.ne']
    have := Nat.div_add_mod' n (2 ^ d)
    have : ((n / 2 ^ d : Nat) : ℝ) * 2 ^ d + (n % 2 ^ d : Nat) = n := by exact_mod_cast this
    linarith
  have h1 : (1 : ℝ) / 2 < (n % 2 ^ d : Nat) / 2 ^ d ↔ 2 ^ d < 2 * (n % 2 ^ d) := by
    rw [div_lt_div_iff₀ (by norm_num) hp, one_mul, mul_comm _ (2 : ℝ)]
    exact_mod_cast Iff.rfl
  have h2 : ((n % 2 ^ d : Nat) : ℝ) / 2 ^ d = 1 / 2 ↔ 2 * (n % 2 ^ d) = 2 ^ d := by
    rw [div_eq_div_iff hp.ne' (by norm_num), one_mul, mul_comm _ (2 : ℝ)]
    exact_mod_cast Iff.rfl
  simp only [roundEvenReal, roundEven, floor_div_pow, hr, h1, h2]

theorem f64Drop_div (n sh : Nat) : f64Drop n sh = sh + f64Drop (n / 2 ^ sh) 0 := by
  have h : (n / 2 ^ sh).log2 = n.log2 - sh := by
    rw [Nat.log2_eq_log_two, Nat.log2_eq_log_two, Nat.log_div_base_pow]
  simp only [f64Drop, h]
  omega

/-- On a number of units of 2^-(1074+sh), the rounding of reals is the rounding of the product `*f64`. -/
theorem f64OfReal_eq (neg : Bool) {n sh : Nat} (h : 0 < n) :
    f64OfReal ((if neg then -1 else 1) * ((n : ℝ) / 2 ^ (1074 + sh))) = f64Round neg n sh := by
  have hpos : (0 : ℝ) < (n : ℝ) / 2 ^ (1074 + sh) := by positivity
  have hn : |(if neg then (-1 : ℝ) else 1) * ((n : ℝ) / 2 ^ (1074 + sh))| * 2 ^ 1074 = (n : ℝ) / 2 ^ sh := by
    have : |(if neg then (-1 : ℝ) else 1)| = 1 := by cases neg <;> simp
    rw [abs_mul, this, one_mul, abs_of_pos hpos, pow_add, div_mul_eq_mul_div, mul_comm _ ((2 : ℝ) ^ 1074),
      mul_div_mul_left _ _ (by positivity)]
  have hs : decide ((if neg then (-1 : ℝ) else 1) * ((n : ℝ) / 2 ^ (1074 + sh)) < 0) = neg := by
    cases neg
    · simpa using hpos.le
    · simpa using hpos
  simp only [f64OfReal, hn, floor_div_pow, f64Round, f64Magnitude, f64Drop_div n sh, Nat.add_sub_cancel_left, div_div, ← pow_add,
    roundEvenReal_div]
  congr 1

/-! ## The exact transforms -/

/-- The factor of one dimension of an exact transform. -/
noncomputable def root (n : Nat) (m : ℤ) : ℂ := Complex.exp (2 * Real.pi * Complex.I * ((m : ℂ) / n))

theorem root_add (n : Nat) (a b : ℤ) : root n a * root n b = root n (a + b) := by
  rw [root, root, root, ← Complex.exp_add]
  push_cast
  ring_nf

theorem root_mul (n u : Nat) (m : ℤ) : root n (u * m) = root n m ^ u := by
  rw [root, root, ← Complex.exp_nat_mul]
  push_cast
  ring_nf

theorem root_eq_one_iff {n : Nat} (hn : 0 < n) (m : ℤ) : root n m = 1 ↔ (n : ℤ) ∣ m := by
  have h0 : (n : ℂ) ≠ 0 := by exact_mod_cast hn.ne'
  rw [root, Complex.exp_eq_one_iff]
  constructor
  · rintro ⟨k, hk⟩
    refine ⟨k, ?_⟩
    rw [mul_comm ((k : ℂ)) _] at hk
    have := mul_left_cancel₀ Complex.two_pi_I_ne_zero hk
    rw [div_eq_iff h0] at this
    have : m = k * n := by exact_mod_cast this
    rw [this, mul_comm]
  · rintro ⟨k, rfl⟩
    refine ⟨k, ?_⟩
    push_cast
    rw [mul_div_cancel_left₀ _ h0]
    ring

/-- The sum over one dimension: n where n divides m, and 0 elsewhere. -/
theorem sum_root {n : Nat} (hn : 0 < n) (m : ℤ) :
    ∑ u ∈ Finset.range n, root n (u * m) = if (n : ℤ) ∣ m then (n : ℂ) else 0 := by
  simp only [root_mul]
  split
  · rename_i h
    rw [(root_eq_one_iff hn m).2 h]
    simp
  · rename_i h
    have h1 : root n m - 1 ≠ 0 := sub_ne_zero.2 fun e => h ((root_eq_one_iff hn m).1 e)
    have h2 := mul_geom_sum (root n m) n
    rw [← root_mul, (root_eq_one_iff hn _).2 ⟨m, rfl⟩, sub_self] at h2
    exact (mul_eq_zero.1 h2).resolve_left h1

theorem dftFwd_eq (pw ph : Nat) (f : Nat → Nat → ℂ) (u v : Nat) :
    dftFwd pw ph f u v = ∑ x ∈ Finset.range pw, ∑ y ∈ Finset.range ph,
      f x y * (root pw (u * -(x : ℤ)) * root ph (v * -(y : ℤ))) := by
  refine Finset.sum_congr rfl fun x _ => Finset.sum_congr rfl fun y _ => ?_
  rw [root, root, ← Complex.exp_add, cycles]
  congr 2
  push_cast
  ring

theorem dftInv_eq (pw ph : Nat) (F : Nat → Nat → ℂ) (x y : Nat) :
    dftInv pw ph F x y = ∑ u ∈ Finset.range pw, ∑ v ∈ Finset.range ph,
      F u v * (root pw (u * (x : ℤ)) * root ph (v * (y : ℤ))) := by
  refine Finset.sum_congr rfl fun u _ => Finset.sum_congr rfl fun v _ => ?_
  rw [root, root, ← Complex.exp_add, cycles]
  congr 2
  push_cast
  ring

theorem sum_swap (m n : Nat) (g : Nat → Nat → Nat → Nat → ℂ) :
    ∑ u ∈ Finset.range m, ∑ v ∈ Finset.range n, ∑ i ∈ Finset.range m, ∑ j ∈ Finset.range n, g u v i j
      = ∑ i ∈ Finset.range m, ∑ j ∈ Finset.range n, ∑ u ∈ Finset.range m, ∑ v ∈ Finset.range n, g u v i j := by
  rw [Finset.sum_congr rfl fun u _ => Finset.sum_comm, Finset.sum_comm]
  refine Finset.sum_congr rfl fun i _ => ?_
  rw [Finset.sum_congr rfl fun u _ => Finset.sum_comm, Finset.sum_comm]

/-- The inverse transform of a transform delayed by [a, b] picks out one element. -/
theorem dftInv_shifted {pw ph : Nat} (hw : 0 < pw) (hh : 0 < ph) (f : Nat → Nat → ℂ) (a b x y : Nat) :
    dftInv pw ph (fun u v => dftFwd pw ph f u v * (root pw (u * -(a : ℤ)) * root ph (v * -(b : ℤ)))) x y
      = pw * ph * f (((x : ℤ) - a) % pw).toNat (((y : ℤ) - b) % ph).toNat := by
  have hone (n : Nat) (hn : 0 < n) (z : ℤ) (g : Nat → ℂ) :
      ∑ i ∈ Finset.range n, g i * (∑ u ∈ Finset.range n, root n (u * (z - i))) = n * g (z % n).toNat := by
    have hz := Int.emod_nonneg z (show (n : ℤ) ≠ 0 by omega)
    have hz' := Int.emod_lt_of_pos z (show (0 : ℤ) < n by omega)
    rw [Finset.sum_eq_single (z % n).toNat]
    · rw [sum_root hn, if_pos, mul_comm]
      rw [Int.toNat_of_nonneg hz]
      exact Int.dvd_self_sub_emod
    · intro i hi hne
      rw [Finset.mem_range] at hi
      rw [sum_root hn, if_neg, mul_zero]
      intro hd
      refine hne ?_
      have : z % n = (i : ℤ) % n := Int.emod_eq_emod_iff_emod_sub_eq_zero.2 (Int.emod_eq_zero_of_dvd hd)
      rw [this, Int.emod_eq_of_lt (by omega) (by omega), Int.toNat_natCast]
    · intro h
      exact absurd (Finset.mem_range.2 (by omega)) h
  have hrow (i : Nat) := hone ph hh (y - b) (f i)
  have hcol := hone pw hw (x - a) fun i => f i (((y : ℤ) - b) % ph).toNat
  rw [mul_comm (pw : ℂ), mul_assoc, ← hcol, Finset.mul_sum, dftInv_eq]
  simp only [dftFwd_eq, Finset.sum_mul]
  rw [sum_swap]
  refine Finset.sum_congr rfl fun i _ => ?_
  rw [← mul_assoc, ← hrow, Finset.sum_mul]
  refine Finset.sum_congr rfl fun j _ => ?_
  rw [mul_assoc (f i j), Finset.sum_mul_sum, Finset.sum_comm, Finset.mul_sum]
  refine Finset.sum_congr rfl fun v _ => ?_
  rw [Finset.mul_sum]
  refine Finset.sum_congr rfl fun u _ => ?_
  rw [mul_assoc, mul_assoc, show (u : ℤ) * (x - a - i) = u * -i + (u * -a + u * x) by ring,
    show (v : ℤ) * (y - b - j) = v * -j + (v * -b + v * y) by ring, ← root_add, ← root_add, ← root_add, ← root_add]
  ring

/-- The exact transforms invert each other up to the factor PW·PH (R163). -/
theorem dftInv_dftFwd {pw ph : Nat} (f : Nat → Nat → ℂ) {x y : Nat} (hx : x < pw) (hy : y < ph) :
    dftInv pw ph (dftFwd pw ph f) x y = pw * ph * f x y := by
  have h := dftInv_shifted (by omega : 0 < pw) (by omega : 0 < ph) f 0 0 x y
  simp only [Nat.cast_zero, neg_zero, mul_zero, sub_zero] at h
  have h0 (n : Nat) : root n 0 = 1 := by simp [root]
  rw [Int.emod_eq_of_lt (by omega) (by omega), Int.emod_eq_of_lt (by omega) (by omega)] at h
  simpa only [h0, mul_one, Int.toNat_natCast] using h

/-- With exact arithmetic the canonical sequence is the circular convolution (R174). -/
theorem dftInv_product {pw ph : Nat} (hw : 0 < pw) (hh : 0 < ph) (f k : Nat → Nat → ℂ) (x y : Nat) :
    dftInv pw ph (fun u v => dftFwd pw ph f u v * dftFwd pw ph k u v / (pw * ph)) x y
      = ∑ a ∈ Finset.range pw, ∑ b ∈ Finset.range ph,
          k a b * f (((x : ℤ) - a) % pw).toNat (((y : ℤ) - b) % ph).toNat := by
  have hne : (pw : ℂ) * ph ≠ 0 := mul_ne_zero (by exact_mod_cast hw.ne') (by exact_mod_cast hh.ne')
  have hterm (a b : Nat) : k a b * f (((x : ℤ) - a) % pw).toNat (((y : ℤ) - b) % ph).toNat
      = k a b / (pw * ph) * dftInv pw ph
          (fun u v => dftFwd pw ph f u v * (root pw (u * -(a : ℤ)) * root ph (v * -(b : ℤ)))) x y := by
    rw [dftInv_shifted hw hh, ← mul_assoc, div_mul_cancel₀ _ hne]
  simp only [hterm, dftInv_eq, dftFwd_eq pw ph k]
  generalize dftFwd pw ph f = F
  simp only [Finset.mul_sum, Finset.sum_mul, Finset.sum_div]
  rw [sum_swap]
  refine Finset.sum_congr rfl fun a _ => Finset.sum_congr rfl fun b _ => Finset.sum_congr rfl fun u _ =>
    Finset.sum_congr rfl fun v _ => ?_
  ring

/-! ## The reference instance -/

/-- Some record is the reference instance: its four parts do not exclude each other. -/
theorem exists_referenceInstance : ∃ n, ReferenceInstance n := by
  let round (z : ℂ) : Cplx := { re := f64OfReal z.re, im := f64OfReal z.im }
  have hround (z : ℂ) : RoundsToComplex z (round z) := ⟨.inl rfl, .inl rfl⟩
  have hindex {pw u v : Nat} (hu : u < pw) : (v * pw + u) % pw = u ∧ (v * pw + u) / pw = v := by
    rw [Nat.mul_add_mod', Nat.mod_eq_of_lt hu, Nat.mul_comm, Nat.mul_add_div (by omega), Nat.div_eq_of_lt hu]
    exact ⟨rfl, rfl⟩
  refine ⟨{ ker := fun std s i => f64OfReal (exactWeight std s ((i : ℤ) - s))
            fftFwd := fun pw ph x i => round (dftFwd pw ph (entryAt pw x) (i % pw) (i / pw))
            fftInv := fun pw ph x i => round (dftInv pw ph (entryAt pw x) (i % pw) (i / pw))
            pmul := fun pw ph a k i =>
              round (entryAt pw a (i % pw) (i / pw) * entryAt pw k (i % pw) (i / pw) / ((pw : ℂ) * ph)) },
    fun _ _ _ _ _ => .inl rfl, ?_, ?_, ?_⟩
  · intro pw ph x _ u v hu _
    simpa only [hindex hu] using hround _
  · intro pw ph x _ u v hu _
    simpa only [hindex hu] using hround _
  · intro pw ph a k _ _ u v hu _
    simpa only [hindex hu] using hround _

end Sys2Proof.Machine
end

