-- ==== Sys2Proof/Laws/PerInstr.lean ====
section
/-!
SUPPORT. One family over all instructions, a lemma per constructor: the reserved bits of every encoding
are zero (30_encoding.md R94; 10_state.md R34).
-/

open Sys2Proof

/-- A command word has zeros in RES0 = [11:10] and RES1 = [31:14] (R94); a CTRL value has zeros in [31:3]
(R100, R34). -/
def Sys2Proof.Laws.EncodeReserved.Statement (i : Instr) : Prop :=
  i.wf = true →
    (i.isControl = false → encode i &&& 0xFFFFCC00 = 0) ∧ (i.isControl = true → encode i &&& 0xFFFFFFF8 = 0)

/-- Every word built from the three fields of R90 has the reserved fields zero. -/
theorem Sys2Proof.commandWord_reserved (op ch tgt : Nat) : commandWord op ch tgt &&& 0xFFFFCC00 = 0 := by
  unfold commandWord
  generalize BitVec.ofNat 2 tgt = t
  generalize BitVec.ofNat 2 ch = c
  generalize BitVec.ofNat 8 op = o
  apply BitVec.eq_of_getLsbD_eq
  intro k hk
  rw [BitVec.getLsbD_and]
  simp only [BitVec.getLsbD_append]
  interval_cases k <;> simp

/-- Every value built from the three bits of R34 has the other bits zero. -/
theorem Sys2Proof.controlValue_reserved (a b c : Bool) : controlValue a b c &&& 0xFFFFFFF8 = 0 := by
  revert a b c
  decide

theorem Sys2Proof.Laws.EncodeReserved.nop : Sys2Proof.Laws.EncodeReserved.Statement .nop := by
  exact fun _ => ⟨fun _ => commandWord_reserved _ _ _, fun h => by cases h⟩

theorem Sys2Proof.Laws.EncodeReserved.cvtRgb : Sys2Proof.Laws.EncodeReserved.Statement .cvtRgb := by
  exact fun _ => ⟨fun _ => commandWord_reserved _ _ _, fun h => by cases h⟩

theorem Sys2Proof.Laws.EncodeReserved.cvtYcbcr : Sys2Proof.Laws.EncodeReserved.Statement .cvtYcbcr := by
  exact fun _ => ⟨fun _ => commandWord_reserved _ _ _, fun h => by cases h⟩

theorem Sys2Proof.Laws.EncodeReserved.cvtGray : Sys2Proof.Laws.EncodeReserved.Statement .cvtGray := by
  exact fun _ => ⟨fun _ => commandWord_reserved _ _ _, fun h => by cases h⟩

theorem Sys2Proof.Laws.EncodeReserved.kbuild : Sys2Proof.Laws.EncodeReserved.Statement .kbuild := by
  exact fun _ => ⟨fun _ => commandWord_reserved _ _ _, fun h => by cases h⟩

theorem Sys2Proof.Laws.EncodeReserved.fftfKer : Sys2Proof.Laws.EncodeReserved.Statement .fftfKer := by
  exact fun _ => ⟨fun _ => commandWord_reserved _ _ _, fun h => by cases h⟩

theorem Sys2Proof.Laws.EncodeReserved.pmul : Sys2Proof.Laws.EncodeReserved.Statement .pmul := by
  exact fun _ => ⟨fun _ => commandWord_reserved _ _ _, fun h => by cases h⟩

theorem Sys2Proof.Laws.EncodeReserved.ffti : Sys2Proof.Laws.EncodeReserved.Statement .ffti := by
  exact fun _ => ⟨fun _ => commandWord_reserved _ _ _, fun h => by cases h⟩

theorem Sys2Proof.Laws.EncodeReserved.blur : Sys2Proof.Laws.EncodeReserved.Statement .blur := by
  exact fun _ => ⟨fun _ => commandWord_reserved _ _ _, fun h => by cases h⟩

theorem Sys2Proof.Laws.EncodeReserved.grad : Sys2Proof.Laws.EncodeReserved.Statement .grad := by
  exact fun _ => ⟨fun _ => commandWord_reserved _ _ _, fun h => by cases h⟩

theorem Sys2Proof.Laws.EncodeReserved.nms : Sys2Proof.Laws.EncodeReserved.Statement .nms := by
  exact fun _ => ⟨fun _ => commandWord_reserved _ _ _, fun h => by cases h⟩

theorem Sys2Proof.Laws.EncodeReserved.thresh : Sys2Proof.Laws.EncodeReserved.Statement .thresh := by
  exact fun _ => ⟨fun _ => commandWord_reserved _ _ _, fun h => by cases h⟩

theorem Sys2Proof.Laws.EncodeReserved.hyst : Sys2Proof.Laws.EncodeReserved.Statement .hyst := by
  exact fun _ => ⟨fun _ => commandWord_reserved _ _ _, fun h => by cases h⟩

theorem Sys2Proof.Laws.EncodeReserved.canny : Sys2Proof.Laws.EncodeReserved.Statement .canny := by
  exact fun _ => ⟨fun _ => commandWord_reserved _ _ _, fun h => by cases h⟩

theorem Sys2Proof.Laws.EncodeReserved.fftfImg (ch : Nat) : Sys2Proof.Laws.EncodeReserved.Statement (.fftfImg ch) := by
  exact fun _ => ⟨fun _ => commandWord_reserved _ _ _, fun h => by cases h⟩

theorem Sys2Proof.Laws.EncodeReserved.wback (ch : Nat) : Sys2Proof.Laws.EncodeReserved.Statement (.wback ch) := by
  exact fun _ => ⟨fun _ => commandWord_reserved _ _ _, fun h => by cases h⟩

theorem Sys2Proof.Laws.EncodeReserved.start (irqEn : Bool) : Sys2Proof.Laws.EncodeReserved.Statement (.start irqEn) := by
  exact fun _ => ⟨fun h => (by cases h), fun _ => controlValue_reserved _ _ _⟩

theorem Sys2Proof.Laws.EncodeReserved.srst (irqEn : Bool) : Sys2Proof.Laws.EncodeReserved.Statement (.srst irqEn) := by
  exact fun _ => ⟨fun h => (by cases h), fun _ => controlValue_reserved _ _ _⟩
end

