-- ==== Sys2Proof/Laws/Planes.lean ====
section
/-!
SUPPORT. What the memories hold after the writes of the commands: regions of A and K, rows of MAG, DIR and
CLS, channels of PIX; and what the commands' input arrays hold.
-/

namespace Sys2Proof.Machine

open Sys2Proof

/-! ## Regions of A and K -/

theorem holdsElement_region {c : Config} {m : Memory} {pw ph : Nat} {f : Nat → Nat → Cplx} (hp : pw ≤ c.maxPW) {u v : Nat}
    (hu : u < pw) (hv : v < ph) : HoldsElement c (Memory.writeRuns m (regionRuns c pw ph f)) u v (f u v) := by
  intro i hi
  rw [Memory.read_region_inside m f hp hu hv (by simpa using hi), List.getElem?_eq_getElem hi]

theorem sameOutside_region {c : Config} (m : Memory) (p : Params) (f : Nat → Nat → Cplx) :
    SameOutside (InRegion c p) m (Memory.writeRuns m (regionRuns c p.pw p.ph f)) := by
  intro a ha
  apply Memory.read_region_outside
  intro u v hu hv
  by_contra hc
  exact ha ⟨u, v, hu, hv, by omega, by omega⟩

/-- An element stored whole is read back. -/
theorem cplxIn_of_holds {c : Config} {m : Memory} {draw : Nat} {q : Plane} {u v : Nat} {z : Cplx} (h : HoldsElement c m u v z) :
    cplxIn m draw q (cplxAddr c u v) = z := by
  exact cplxIn_of_read fun i hi => h i hi

/-- A region just written is the array that was written. -/
theorem State.region_of_write {s : State} {q : Plane} {m : Memory} {pw ph : Nat} {f : Nat → Cplx}
    (hm : s.mem q = Memory.writeRuns m (regionRuns s.cfg pw ph fun u v => f (v * pw + u))) (hp : pw ≤ s.cfg.maxPW) :
    s.region q pw ph = arrayOf (pw * ph) f := by
  refine eq_arrayOf (s.region_length q pw ph) fun i hi => ?_
  have hpw : 0 < pw := by
    rcases Nat.eq_zero_or_pos pw with h | h
    · simp [h] at hi
    · exact h
  have hu := Nat.mod_lt i hpw
  have hv : i / pw < ph := (Nat.div_lt_iff_lt_mul hpw).2 (by rw [Nat.mul_comm]; exact hi)
  have e : i / pw * pw + i % pw = i := by rw [Nat.mul_comm]; exact Nat.div_add_mod i pw
  have h1 := s.region_get q pw ph hu hv
  rw [e] at h1
  rw [h1, State.cplxAt, hm, cplxIn_of_holds (holdsElement_region (f := fun u v => f (v * pw + u)) hp hu hv), e]

/-! ## The taps of KER -/

theorem kernelBytes_length (c : Config) (std : Int) (s : Nat) : (kernelBytes c std s).length = (2 * s + 1) * 8 :=
  length_flatMap_blocks _ 8 _ fun _ _ => by simp

/-- Byte j of tap i. -/
theorem kernelBytes_get (c : Config) (std : Int) {s i j : Nat} (hi : i ≤ 2 * s) (hj : j < 8) :
    (kernelBytes c std s)[i * 8 + j]? = (leBytes 8 (kerImpl c std s i).toNat)[j]? :=
  getElem?_flatMap_blocks _ 8 (fun i => leBytes 8 (kerImpl c std s i).toNat) (fun _ _ => by simp) (by omega) hj

/-- A written tap reads the same at every draw. -/
theorem State.tapAt_congr {s t : State} {i : Nat}
    (hw : ∀ a, 8 * i ≤ a → a < 8 * i + 8 → (Memory.read s.ker a).isSome) (h : t.ker = s.ker) : t.tapAt i = s.tapAt i := by
  unfold State.tapAt
  rw [h]
  refine congrArg (BitVec.ofNat 64) (congrArg fromLE (List.map_congr_left fun j hj => ?_))
  have hj := List.mem_range.1 hj
  obtain ⟨x, hx⟩ := Option.isSome_iff_exists.1 (hw (8 * i + j) (by omega) (by omega))
  rw [byteIn, byteIn, hx]
  rfl

/-- Where the parameters are an engine's, the stored taps are NUM's (42_kernel.md R153). -/
theorem kerImpl_eq {c : Config} (hc : c.Valid) {std : Int} {s i : Nat} (h0 : 0 < std) (hs : s ≤ c.maxSizeF)
    (hi : i ≤ 2 * s) : kerImpl c std s i = c.num.ker std s i := by
  unfold kerImpl
  split
  · rename_i h
    exact (((Config.num_contract hc).1 std s i h0 hs hi).2.1 h).symm
  · rfl

/-! ## The arrays the commands compute on -/

/-- FFTF.IMG's samples: entry y*W + x is PIX's byte of channel `ch` of [x, y]. -/
theorem channelSamples_get {p : Params} {ch : Nat} (hc : ch < p.c) (s : State) {x y : Nat} (hx : x < p.w)
    (hy : y < p.h) :
    (channelSamples p ch s)[y * p.w + x]? = some (s.byteAt .pix ((y * p.w + x) * p.c + ch)) := by
  unfold channelSamples
  rw [getElem?_flatMap_blocks p.h p.w _ (fun _ _ => by simp) hy hx]
  simp only [List.getElem?_map, List.getElem?_range hx, Option.map_some, State.bytesAt_eq]
  congr 1
  have : x * p.c + ch < p.w * p.c := by nlinarith [Nat.mul_le_mul_right p.c (show x + 1 ≤ p.w from hx)]
  rw [List.getD_eq_getElem?_getD, List.getElem?_map, List.getElem?_range this]
  simp only [Option.map_some, Option.getD_some]
  congr 1
  ring

theorem channelSamples_length (p : Params) (ch : Nat) (s : State) :
    (channelSamples p ch s).length = p.h * p.w :=
  length_flatMap_blocks p.h p.w _ fun _ _ => by simp

/-- WBACK's input: entry y*W + x is the real part of A[x, y]. -/
theorem realParts_get (p : Params) (s : State) {x y : Nat} (hx : x < p.w) (hy : y < p.h) :
    (realParts p s)[y * p.w + x]? = some (s.cplxAt .a x y).re := by
  unfold realParts
  rw [getElem?_flatMap_blocks p.h p.w _ (fun _ _ => by simp) hy hx]
  simp only [List.getElem?_map, List.getElem?_range hx, Option.map_some]
  rw [cplxIn_row hx]
  rfl

theorem realParts_length (p : Params) (s : State) : (realParts p s).length = p.h * p.w :=
  length_flatMap_blocks p.h p.w _ fun _ _ => by simp

/-! ## A channel of PIX -/

/-- The bytes of one channel written, entry j at j*C + ch. -/
theorem read_channel_inside (m : Memory) {ch c : Nat} (hc : 0 < c) (l : List Byte) {j : Nat} (hj : j < l.length) :
    Memory.read (Memory.writeRuns m (rowRuns ch c (l.map fun b => [b]))) (j * c + ch) = some l[j] := by
  have := Memory.read_rowRuns_inside m ch c (l.map fun b => [b]) (by
    intro r hr
    simp only [List.mem_map] at hr
    obtain ⟨_, _, rfl⟩ := hr
    simpa using Nat.succ_le_of_lt hc) (y := j) (i := 0) (by simpa using hj) (by simp)
  simp only [List.getElem_map, List.getElem_cons_zero] at this
  rw [← this]
  congr 1
  ring

theorem read_channel_outside (m : Memory) {ch c : Nat} (l : List Byte) {b : Nat}
    (hb : ∀ j, j < l.length → b ≠ j * c + ch) :
    Memory.read (Memory.writeRuns m (rowRuns ch c (l.map fun b => [b]))) b = Memory.read m b := by
  apply Memory.read_rowRuns_outside
  intro y hy
  have h := hb y (by simpa using hy)
  simp only [List.getElem_map, List.length_cons, List.length_nil]
  omega

/-! ## Rows of MAG, DIR and CLS -/

section Rows

variable {c : Config} {m : Memory} {w h : Nat}

/-- A u32 plane written over [0, W) × [0, H): element [x, y]. -/
theorem holdsRun_magRows {f : Nat → Nat → Nat} (hw : w ≤ c.maxW) {x y : Nat} (hx : x < w) (hy : y < h) :
    HoldsRun (Memory.writeRuns m (rowRuns 0 (4 * c.maxW) (byteRows w h fun x y => leBytes 4 (f x y))))
      (4 * planeIndex c x y) (leBytes 4 (f x y)) := by
  intro i hi
  have hi4 : i < 4 := by simpa using hi
  have := Memory.read_blocks_inside (m := m) (base := 0) (stride := 4 * c.maxW) (w := w) (h := h) (k := 4)
    (g := fun x y => leBytes 4 (f x y)) (fun _ _ _ _ => by simp) (by omega) hx hy hi4
  rw [List.getElem?_eq_getElem hi] at this
  rw [← this]
  congr 1
  simp only [planeIndex]
  ring

theorem sameOutside_magRows {f : Nat → Nat → Nat} :
    SameOutside (InMag c w h) m
      (Memory.writeRuns m (rowRuns 0 (4 * c.maxW) (byteRows w h fun x y => leBytes 4 (f x y)))) := by
  intro a ha
  apply Memory.read_blocks_outside (k := 4) (fun _ _ _ _ => by simp)
  intro x y hx hy
  by_contra hc
  have e : 0 + y * (4 * c.maxW) + x * 4 = 4 * planeIndex c x y := by
    simp only [planeIndex]
    ring
  exact ha ⟨x, y, hx, hy, by omega, by omega⟩

/-- A code plane written over [0, W) × [0, H): element [x, y]. -/
theorem read_codeRows {f : Nat → Nat → Byte} (hw : w ≤ c.maxW) {x y : Nat} (hx : x < w) (hy : y < h) :
    Memory.read (Memory.writeRuns m (rowRuns 0 c.maxW (byteRows w h fun x y => [f x y]))) (planeIndex c x y)
      = some (f x y) := by
  have := Memory.read_blocks_inside (m := m) (base := 0) (stride := c.maxW) (w := w) (h := h) (k := 1)
    (g := fun x y => [f x y]) (fun _ _ _ _ => by simp) (by omega) hx hy (i := 0) (by omega)
  rw [show 0 + y * c.maxW + (x * 1 + 0) = planeIndex c x y by simp only [planeIndex]; ring] at this
  simpa using this

theorem sameOutside_codeRows {f : Nat → Nat → Byte} :
    SameOutside (InCode c w h) m (Memory.writeRuns m (rowRuns 0 c.maxW (byteRows w h fun x y => [f x y]))) := by
  intro a ha
  apply Memory.read_blocks_outside (k := 1) (fun _ _ _ _ => by simp)
  intro x y hx hy
  by_contra hc
  have e : 0 + y * c.maxW + x * 1 = planeIndex c x y := by
    simp only [planeIndex]
    ring
  exact ha ⟨x, y, hx, hy, by omega⟩

/-- The column and row of an index. -/
theorem planeIndex_mod {x : Nat} (y : Nat) (hx : x < c.maxW) : planeIndex c x y % c.maxW = x := by
  rw [planeIndex, Nat.mul_comm, Nat.mul_add_mod, Nat.mod_eq_of_lt hx]

theorem planeIndex_div {x : Nat} (y : Nat) (hx : x < c.maxW) : planeIndex c x y / c.maxW = y := by
  rw [planeIndex, Nat.mul_comm, Nat.mul_add_div (by omega), Nat.div_eq_of_lt hx, Nat.add_zero]

/-- Distinct pixels have distinct indices. -/
theorem planeIndex_inj {x y x' y' : Nat} (hx : x < c.maxW) (hx' : x' < c.maxW)
    (e : planeIndex c x y = planeIndex c x' y') : x = x' ∧ y = y' :=
  ⟨by rw [← planeIndex_mod y hx, e, planeIndex_mod y' hx'], by rw [← planeIndex_div y hx, e, planeIndex_div y' hx']⟩

/-- A stored u32 is read back. -/
theorem leIn_of_holds {draw : Nat} {q : Plane} {a v : Nat} (h : HoldsRun m a (leBytes 4 v)) (hv : v < 2 ^ 32) :
    leIn m draw q a 4 = v := by
  rw [leIn_of_read (bs := leBytes 4 v) (by simp) ?_, fromLE_leBytes_of_lt (by omega)]
  exact fun i hi => h i hi

end Rows

/-! ## NMS's writes -/

theorem isInterior_iff {w h x y : Nat} :
    isInterior w h x y = true ↔ 1 ≤ x ∧ x + 2 ≤ w ∧ 1 ≤ y ∧ y + 2 ≤ h := by
  simp only [isInterior, Bool.and_eq_true, decide_eq_true_eq]
  tauto

/-- NMS zeroes exactly the suppressed interior pixels of the image. -/
theorem mem_suppressedPixels {w h : Nat} {M D : Nat → Nat → Nat} {q : Nat × Nat} :
    q ∈ suppressedPixels w h M D ↔
      q.1 < w ∧ q.2 < h ∧ isInterior w h q.1 q.2 = true ∧ suppressed M D q.1 q.2 = true := by
  obtain ⟨x, y⟩ := q
  simp only [suppressedPixels, List.mem_flatMap, List.mem_range, List.mem_map, List.mem_filter, Bool.and_eq_true,
    Prod.mk.injEq]
  constructor
  · rintro ⟨y', hy', x', ⟨hx', hi, hs⟩, rfl, rfl⟩
    exact ⟨hx', hy', hi, hs⟩
  · rintro ⟨hx, hy, hi, hs⟩
    exact ⟨y, hy, x, ⟨hx, hi, hs⟩, rfl, rfl⟩

/-- One zero element written: its bytes read 0, every other byte as before. -/
theorem read_zeroRun (m : Memory) (b a : Nat) :
    (InRun b 4 a ∧ Memory.read (Memory.writeRun m b (leBytes 4 0)) a = some 0)
      ∨ (¬ InRun b 4 a ∧ Memory.read (Memory.writeRun m b (leBytes 4 0)) a = Memory.read m a) := by
  by_cases hq : InRun b 4 a
  · refine .inl ⟨hq, ?_⟩
    obtain ⟨h1, h2⟩ := hq
    have := Memory.read_writeRun_inside (m := m) (a := b) (bs := leBytes 4 0) (i := a - b)
      (by rw [length_leBytes]; omega)
    rw [show b + (a - b) = a by omega] at this
    have hz : ∀ c ∈ leBytes 4 0, c = 0 := by decide
    rw [this, hz _ (List.getElem_mem _)]
  · refine .inr ⟨hq, Memory.read_writeRun_outside ?_⟩
    simp only [InRun] at hq
    rw [length_leBytes]
    omega

/-- Zero elements written at pixels: a byte that reads 0 goes on reading 0. -/
theorem read_zeroRuns_keep {c : Config} (m : Memory) (l : List (Nat × Nat)) {a : Nat} (h : Memory.read m a = some 0) :
    Memory.read (Memory.writeRuns m (l.map fun q => (4 * planeIndex c q.1 q.2, leBytes 4 0))) a = some 0 := by
  induction l generalizing m with
  | nil => exact h
  | cons r l ih =>
    rw [List.map_cons, Memory.writeRuns_cons]
    rcases read_zeroRun m (4 * planeIndex c r.1 r.2) a with h' | h'
    · exact ih _ h'.2
    · exact ih _ (h'.2.trans h)

/-- A byte of a zero element written at a pixel reads 0. -/
theorem read_zeroRuns_inside {c : Config} (m : Memory) (l : List (Nat × Nat)) {q : Nat × Nat} (hq : q ∈ l) {a : Nat}
    (ha : InRun (4 * planeIndex c q.1 q.2) 4 a) :
    Memory.read (Memory.writeRuns m (l.map fun q => (4 * planeIndex c q.1 q.2, leBytes 4 0))) a = some 0 := by
  induction l generalizing m with
  | nil => cases hq
  | cons r l ih =>
    rw [List.map_cons, Memory.writeRuns_cons]
    rcases List.mem_cons.1 hq with rfl | hl
    · rcases read_zeroRun m (4 * planeIndex c q.1 q.2) a with h | h
      · exact read_zeroRuns_keep _ l h.2
      · exact absurd ha h.1
    · exact ih _ hl

/-- A byte of no zero element reads as before. -/
theorem read_zeroRuns_outside {c : Config} (m : Memory) (l : List (Nat × Nat)) {a : Nat}
    (ha : ∀ q ∈ l, ¬ InRun (4 * planeIndex c q.1 q.2) 4 a) :
    Memory.read (Memory.writeRuns m (l.map fun q => (4 * planeIndex c q.1 q.2, leBytes 4 0))) a = Memory.read m a := by
  apply Memory.read_writeRuns_outside
  intro r hr
  obtain ⟨q, hq, rfl⟩ := List.mem_map.1 hr
  have := ha q hq
  simp only [InRun] at this
  simp only [length_leBytes]
  omega

/-! ## The bytes a rule names (70_reset_and_hazards.md R261) -/

/-- The blocks of a grid of rows of `m`: quotient and remainder find the column and the row. -/
theorem grid_iff {k m w h a : Nat} (hk : 0 < k) (hw : w ≤ m) :
    (a / k % m < w ∧ a / k / m < h) ↔ ∃ x y, x < w ∧ y < h ∧ InRun (k * (y * m + x)) k a := by
  constructor
  · rintro ⟨h1, h2⟩
    refine ⟨_, _, h1, h2, ?_⟩
    have := Nat.div_add_mod (a / k) m
    have e : a / k / m * m + a / k % m = a / k := by rw [Nat.mul_comm]; exact this
    rw [e]
    have := Nat.div_add_mod a k
    have := Nat.mod_lt a hk
    constructor <;> omega
  · rintro ⟨x, y, hx, hy, h1, h2⟩
    have e : a / k = y * m + x := by
      rw [Nat.div_eq_of_lt_le]
      · rw [Nat.mul_comm]; exact h1
      · rw [Nat.succ_mul, Nat.mul_comm]; exact h2
    have hm : 0 < m := by omega
    rw [e, Nat.mul_comm y, Nat.mul_add_mod, Nat.mod_eq_of_lt (by omega), Nat.mul_add_div hm, Nat.div_eq_of_lt (by omega)]
    omega

theorem regionNamed_iff {c : Config} {p : Params} (h : p.pw ≤ c.maxPW) (a : Nat) :
    regionNamed c p a = true ↔ InRegion c p a := by
  simp only [regionNamed, Bool.and_eq_true, decide_eq_true_eq]
  exact grid_iff (by norm_num) h

theorem codeNamed_iff {c : Config} {w h : Nat} (hw : w ≤ c.maxW) (a : Nat) :
    codeNamed c w h a = true ↔ InCode c w h a := by
  have := grid_iff (k := 1) (h := h) (a := a) one_pos hw
  simp only [Nat.div_one, InRun] at this
  simp only [codeNamed, Bool.and_eq_true, decide_eq_true_eq, this, InCode, planeIndex]
  constructor <;> (rintro ⟨x, y, h1, h2, h3⟩; exact ⟨x, y, h1, h2, by omega⟩)

theorem magNamed_iff {c : Config} {w h : Nat} (hw : w ≤ c.maxW) (q : Nat → Nat → Bool) (a : Nat) :
    magNamed c w h q a = true ↔ ∃ x y, x < w ∧ y < h ∧ q x y = true ∧ InRun (4 * planeIndex c x y) 4 a := by
  simp only [magNamed, Bool.and_eq_true, decide_eq_true_eq]
  constructor
  · rintro ⟨⟨h1, h2⟩, h3⟩
    refine ⟨_, _, h1, h2, h3, ?_⟩
    have := Nat.div_add_mod (a / 4) c.maxW
    have e : a / 4 / c.maxW * c.maxW + a / 4 % c.maxW = a / 4 := by rw [Nat.mul_comm]; exact this
    rw [planeIndex, e]
    constructor <;> omega
  · rintro ⟨x, y, hx, hy, hq, h1, h2⟩
    have e : a / 4 = planeIndex c x y := by omega
    rw [e, planeIndex_mod y (by omega), planeIndex_div y (by omega)]
    exact ⟨⟨hx, hy⟩, hq⟩

end Sys2Proof.Machine
end

