-- ==== Sys2Proof/Laws/Port.lean ====
section
/-!
SUPPORT. The slave port: which region an offset lies in, which accesses are let through (20_memory.md R60,
R70), and what a step does with an access.
-/

namespace Sys2Proof.Machine

open Sys2Proof

theorem inRegion_iff {g : Region} {o : Nat} : inRegion g o = true ↔ regionBase g ≤ o ∧ o < regionEnd g := by
  simp [inRegion]

/-- The regions do not overlap. -/
theorem inRegion_unique {g h : Region} {o : Nat} (hg : inRegion g o = true) (hh : inRegion h o = true) : g = h := by
  rw [inRegion_iff] at hg hh
  cases g <;> cases h <;> first | rfl | (simp only [regionBase, regionEnd] at hg hh; omega)

theorem regionOf_eq_some {o : Nat} {g : Region} : regionOf o = some g ↔ inRegion g o = true := by
  constructor
  · intro h
    exact List.find?_some (p := fun r => inRegion r o) h
  · intro h
    cases hr : regionOf o with
    | some k => rw [inRegion_unique (List.find?_some (p := fun r => inRegion r o) hr) h]
    | none =>
      have := List.find?_eq_none.1 hr g (by cases g <;> decide)
      exact absurd h this

theorem regionOf_eq_none {o : Nat} : regionOf o = none ↔ ∀ g, inRegion g o = false := by
  constructor
  · intro h g
    have := List.find?_eq_none.1 h g (by cases g <;> decide)
    simpa using this
  · intro h
    cases hr : regionOf o with
    | none => rfl
    | some k =>
      rw [regionOf_eq_some, h k] at hr
      cases hr

theorem sizeBytes_cases (z : Size) : sizeBytes z = 1 ∨ sizeBytes z = 2 ∨ sizeBytes z = 4 := by
  cases z <;> simp [sizeBytes]

/-- Exactly the accesses of `BadAccess` are turned away; any other reaches the region its offset is in. -/
theorem accessRegion_eq (r : BusReq) :
    (BadAccess r ∧ accessRegion r = none)
      ∨ ∃ g, ¬ BadAccess r ∧ accessRegion r = some g ∧ inRegion g r.off.toNat = true
          ∧ r.off.toNat + sizeBytes r.size ≤ regionEnd g ∧ (r.kind = .write → g = .csr ∨ g = .pix) := by
  have hn := sizeBytes_cases r.size
  unfold accessRegion
  dsimp only
  cases hr : regionOf r.off.toNat with
  | none =>
    refine .inl ⟨.inl fun g h => ?_, rfl⟩
    have := regionOf_eq_none.1 hr g
    rw [← Bool.not_eq_true, inRegion_iff] at this
    omega
  | some g =>
    have hg := regionOf_eq_some.1 hr
    have hg' := inRegion_iff.1 hg
    dsimp only
    by_cases he : r.off.toNat + sizeBytes r.size ≤ regionEnd g
    · have hi : inRegion g (r.off.toNat + sizeBytes r.size - 1) = true := inRegion_iff.2 (by omega)
      have h1 : ¬ ∀ reg, ¬ (regionBase reg ≤ r.off.toNat ∧ r.off.toNat + sizeBytes r.size ≤ regionEnd reg) :=
        fun h => h g ⟨hg'.1, he⟩
      simp only [hi, Bool.not_true, Bool.false_eq_true, if_false]
      unfold BadAccess
      cases g <;> simp only [regionBase, regionEnd] at hg' he
      · by_cases h : sizeBytes r.size ≠ 4 ∨ r.off.toNat % 4 ≠ 0
        · exact .inl ⟨.inr (.inl ⟨hg'.2, h⟩), if_pos h⟩
        · refine .inr ⟨_, ?_, if_neg h, hg, he, fun _ => .inl rfl⟩
          rintro (h' | h' | h' | h')
          · exact h1 h'
          · exact h h'.2
          all_goals omega
      all_goals
        by_cases h : r.off.toNat % sizeBytes r.size ≠ 0
        · refine .inl ⟨.inr (.inr (.inl ⟨by omega, h⟩)), if_pos h⟩
        · first
          | refine .inr ⟨Region.pix, ?_, if_neg h, hg, he, fun _ => .inr rfl⟩
            rintro (h' | h' | h' | h')
            · exact h1 h'
            all_goals omega
          | by_cases hk : r.kind = .write
            · exact .inl ⟨.inr (.inr (.inr ⟨hk, by omega, by omega⟩)), (if_neg h).trans (if_pos hk)⟩
            · refine .inr ⟨_, ?_, (if_neg h).trans (if_neg hk), hg, he, fun h => absurd h hk⟩
              rintro (h' | h' | h' | h')
              · exact h1 h'
              · omega
              · omega
              · exact hk h'.1
    · have hi : inRegion g (r.off.toNat + sizeBytes r.size - 1) = false := by
        rw [← Bool.not_eq_true, inRegion_iff]
        omega
      simp only [hi, Bool.not_false, if_true]
      refine .inl ⟨.inl fun k h => ?_, trivial⟩
      have : k = g := inRegion_unique (inRegion_iff.2 (by omega)) hg
      subst this
      omega

/-- A step whose next input is an access: SLVERR and nothing else, or what the access does. -/
theorem step_bus {s : State} {r : BusReq} {rest : List Event} (h : s.events = .bus r :: rest) :
    step s = match busTurn r { s with events := rest } with
      | .run i t => exec i t
      | .done t => .next t := by
  rw [step, nextTurn, h]
  try rfl

/-- An access that is no write to CTRL is `access`. -/
theorem busTurn_of_not_ctrl {r : BusReq} (h : ctrlWriteOf r = none) (s : State) : busTurn r s = .done (access r s) := by
  rw [busTurn, h]

end Sys2Proof.Machine
end

