-- ==== Sys2Proof/Laws/Sequences.lean ====
section
/-!
SUPPORT. Sequences of commands (43_convolution.md R171, 44_canny.md R205): running them one after another,
and effects that neither read nor write the completion flags or LATCH, so that both pass through them.
-/

namespace Sys2Proof.Machine

open Sys2Proof

/-- What a command leaves in LATCH is what it found there. -/
theorem EffectFrame.completed_latch {w : Plane → Bool} {s t : State} (h : EffectFrame w s t) :
    (completeDone t).latch = s.latch := h.2.2.1

/-- Nor the parameters. -/
theorem EffectFrame.completed_cfg {w : Plane → Bool} {s t : State} (h : EffectFrame w s t) :
    (completeDone t).cfg = s.cfg := h.2.1

theorem runSeq_cons {i : Instr} {is : List Instr} {s t : State} (h : exec i s = .next t) :
    runSeq (i :: is) s = runSeq is t := by
  rw [runSeq, h]

theorem runSeq_append {is js : List Instr} {s t : State} (h : runSeq is s = .next t) :
    runSeq (is ++ js) s = runSeq js t := by
  induction is generalizing s with
  | nil =>
    simp only [runSeq] at h
    injection h with h
    subst h
    rfl
  | cons i is ih =>
    simp only [runSeq, List.cons_append] at h ⊢
    cases hh : exec i s with
    | next u => rw [hh] at h; exact ih h
    | fault r => exact r.rec
    | refused r => rw [hh] at h; cases h

/-! ## The completion flags pass through every effect -/

theorem completeDone_completeDone (s : State) : completeDone (completeDone s) = completeDone s := rfl

theorem kbuildEffect_completeDone (p : Params) (s : State) :
    kbuildEffect p (completeDone s) = completeDone (kbuildEffect p s) := by
  rw [kbuildEffect_eq, kbuildEffect_eq]
  rfl

theorem fftfKerEffect_completeDone (p : Params) (s : State) :
    fftfKerEffect p (completeDone s) = completeDone (fftfKerEffect p s) := by
  have : (completeDone s).tapAt = s.tapAt := rfl
  rw [fftfKerEffect_eq, fftfKerEffect_eq, this]
  rfl

theorem fftfImgEffect_completeDone (ch : Nat) (p : Params) (s : State) :
    fftfImgEffect ch p (completeDone s) = completeDone (fftfImgEffect ch p s) := by
  have : channelSamples p ch (completeDone s) = channelSamples p ch s := rfl
  rw [fftfImgEffect_eq, fftfImgEffect_eq, this]
  rfl

theorem pmulEffect_completeDone (p : Params) (s : State) :
    pmulEffect p (completeDone s) = completeDone (pmulEffect p s) := by
  have : ∀ q a b, (completeDone s).region q a b = s.region q a b := fun _ _ _ => rfl
  rw [pmulEffect_eq, pmulEffect_eq, this, this]
  rfl

theorem fftiEffect_completeDone (p : Params) (s : State) :
    fftiEffect p (completeDone s) = completeDone (fftiEffect p s) := by
  have : ∀ q a b, (completeDone s).region q a b = s.region q a b := fun _ _ _ => rfl
  rw [fftiEffect_eq, fftiEffect_eq, this]
  rfl

theorem wbackEffect_completeDone (ch : Nat) (p : Params) (s : State) :
    wbackEffect ch p (completeDone s) = completeDone (wbackEffect ch p s) := by
  have : realParts p (completeDone s) = realParts p s := rfl
  rw [wbackEffect_eq, wbackEffect_eq, this]
  rfl

theorem gradEffect_completeDone (p : Params) (s : State) :
    gradEffect p (completeDone s) = completeDone (gradEffect p s) := by
  have : grayAt p (completeDone s) = grayAt p s := rfl
  rw [gradEffect_eq, gradEffect_eq, this]
  rfl

theorem nmsEffect_completeDone (p : Params) (s : State) :
    nmsEffect p (completeDone s) = completeDone (nmsEffect p s) := by
  have : magAt (completeDone s) = magAt s := rfl
  have : dirAt (completeDone s) = dirAt s := rfl
  rw [nmsEffect_eq, nmsEffect_eq]
  simp only [*]
  rfl

theorem threshEffect_completeDone (p : Params) (s : State) :
    threshEffect p (completeDone s) = completeDone (threshEffect p s) := by
  have : magAt (completeDone s) = magAt s := rfl
  rw [threshEffect_eq, threshEffect_eq, this]
  rfl

theorem hystEffect_completeDone (p : Params) (s : State) :
    hystEffect p (completeDone s) = completeDone (hystEffect p s) := by
  have : clsAt (completeDone s) = clsAt s := rfl
  rw [hystEffect_eq, hystEffect_eq, this]
  rfl

theorem blurChannel_completeDone (p : Params) (s : State) (ch : Nat) :
    blurChannel p (completeDone s) ch = completeDone (blurChannel p s ch) := by
  simp only [blurChannel, fftfImgEffect_completeDone, pmulEffect_completeDone, fftiEffect_completeDone,
    wbackEffect_completeDone]

theorem blurChannels_completeDone (p : Params) (chs : List Nat) (s : State) :
    chs.foldl (blurChannel p) (completeDone s) = completeDone (chs.foldl (blurChannel p) s) := by
  induction chs generalizing s with
  | nil => rfl
  | cons ch chs ih => rw [List.foldl_cons, List.foldl_cons, blurChannel_completeDone, ih]

theorem blurEffect_completeDone (p : Params) (s : State) :
    blurEffect p (completeDone s) = completeDone (blurEffect p s) := by
  unfold blurEffect
  split
  · exact kbuildEffect_completeDone p s
  · rw [kbuildEffect_completeDone, fftfKerEffect_completeDone, blurChannels_completeDone]

/-! ## LATCH passes through every effect -/

/-- `s` with another LATCH. -/
def withLatch (L : Latch) (s : State) : State := { s with latch := L }

theorem kbuildEffect_withLatch (p : Params) (L : Latch) (s : State) :
    kbuildEffect p (withLatch L s) = withLatch L (kbuildEffect p s) := by
  rw [kbuildEffect_eq, kbuildEffect_eq]
  rfl

theorem fftfKerEffect_withLatch (p : Params) (L : Latch) (s : State) :
    fftfKerEffect p (withLatch L s) = withLatch L (fftfKerEffect p s) := by
  have : (withLatch L s).tapAt = s.tapAt := rfl
  rw [fftfKerEffect_eq, fftfKerEffect_eq, this]
  rfl

theorem fftfImgEffect_withLatch (ch : Nat) (p : Params) (L : Latch) (s : State) :
    fftfImgEffect ch p (withLatch L s) = withLatch L (fftfImgEffect ch p s) := by
  have : channelSamples p ch (withLatch L s) = channelSamples p ch s := rfl
  rw [fftfImgEffect_eq, fftfImgEffect_eq, this]
  rfl

theorem pmulEffect_withLatch (p : Params) (L : Latch) (s : State) :
    pmulEffect p (withLatch L s) = withLatch L (pmulEffect p s) := by
  have : ∀ q a b, (withLatch L s).region q a b = s.region q a b := fun _ _ _ => rfl
  rw [pmulEffect_eq, pmulEffect_eq, this, this]
  rfl

theorem fftiEffect_withLatch (p : Params) (L : Latch) (s : State) :
    fftiEffect p (withLatch L s) = withLatch L (fftiEffect p s) := by
  have : ∀ q a b, (withLatch L s).region q a b = s.region q a b := fun _ _ _ => rfl
  rw [fftiEffect_eq, fftiEffect_eq, this]
  rfl

theorem wbackEffect_withLatch (ch : Nat) (p : Params) (L : Latch) (s : State) :
    wbackEffect ch p (withLatch L s) = withLatch L (wbackEffect ch p s) := by
  have : realParts p (withLatch L s) = realParts p s := rfl
  rw [wbackEffect_eq, wbackEffect_eq, this]
  rfl

theorem gradEffect_withLatch (p : Params) (L : Latch) (s : State) :
    gradEffect p (withLatch L s) = withLatch L (gradEffect p s) := by
  have : grayAt p (withLatch L s) = grayAt p s := rfl
  rw [gradEffect_eq, gradEffect_eq, this]
  rfl

theorem nmsEffect_withLatch (p : Params) (L : Latch) (s : State) :
    nmsEffect p (withLatch L s) = withLatch L (nmsEffect p s) := by
  have : magAt (withLatch L s) = magAt s := rfl
  have : dirAt (withLatch L s) = dirAt s := rfl
  rw [nmsEffect_eq, nmsEffect_eq]
  simp only [*]
  rfl

theorem threshEffect_withLatch (p : Params) (L : Latch) (s : State) :
    threshEffect p (withLatch L s) = withLatch L (threshEffect p s) := by
  have : magAt (withLatch L s) = magAt s := rfl
  rw [threshEffect_eq, threshEffect_eq, this]
  rfl

theorem hystEffect_withLatch (p : Params) (L : Latch) (s : State) :
    hystEffect p (withLatch L s) = withLatch L (hystEffect p s) := by
  have : clsAt (withLatch L s) = clsAt s := rfl
  rw [hystEffect_eq, hystEffect_eq, this]
  rfl

theorem blurChannel_withLatch (p : Params) (L : Latch) (s : State) (ch : Nat) :
    blurChannel p (withLatch L s) ch = withLatch L (blurChannel p s ch) := by
  simp only [blurChannel, fftfImgEffect_withLatch, pmulEffect_withLatch, fftiEffect_withLatch,
    wbackEffect_withLatch]

theorem blurChannels_withLatch (p : Params) (chs : List Nat) (L : Latch) (s : State) :
    chs.foldl (blurChannel p) (withLatch L s) = withLatch L (chs.foldl (blurChannel p) s) := by
  induction chs generalizing s with
  | nil => rfl
  | cons ch chs ih => rw [List.foldl_cons, List.foldl_cons, blurChannel_withLatch, ih]

theorem blurEffect_withLatch (p : Params) (L : Latch) (s : State) :
    blurEffect p (withLatch L s) = withLatch L (blurEffect p s) := by
  unfold blurEffect
  split
  · exact kbuildEffect_withLatch p L s
  · rw [kbuildEffect_withLatch, fftfKerEffect_withLatch, blurChannels_withLatch]

/-- After KBUILD, KER_LEN is 2S+1 (42_kernel.md R151): FFTF.KER's state check passes. -/
theorem kbuildEffect_kerLen_int {p : Params} (h0 : 0 ≤ p.s) (h1 : p.s < 2 ^ 31) (s : State) :
    ((kbuildEffect p s).kerLen.toNat : Int) = 2 * p.s + 1 := by
  rw [kbuildEffect_kerLen]
  simp only [Params.half, BitVec.toNat_ofNat]
  omega

end Sys2Proof.Machine
end

