-- ==== Sys2Proof/Tests/Slice0.lean ====
section
/-!
SUPPORT. Tests: the WellFormed smoke tests, one word of the spec per decoding, one small step per
instruction with the expected value from 95_test_vectors.md, and a witness for the hypotheses of every
statement of Certificates/Slice0/Obligations.lean that has some.
-/

namespace Sys2Proof.Tests

open Sys2Proof Sys2Proof.Machine

/-! ## Well-formed instructions -/

theorem test_wf_refuses_fftf_img_channel_4 : (Instr.fftfImg 4).wf = false := by decide
theorem test_wf_refuses_wback_channel_4 : (Instr.wback 4).wf = false := by decide
theorem test_wf_accepts_channel_3 : (Instr.fftfImg 3).wf = true ∧ (Instr.wback 3).wf = true := by decide

/-! ## Decoding: the words of 95_test_vectors.md section 2.1, bit fields written out per R90

`bits op ch res0 tgt res1` lays the fields of R90 out by their bit places, apart from the encoder. -/

/-- OP + CH*2^8 + RES0*2^10 + TGT*2^12 + RES1*2^14. -/
def bits (op ch res0 tgt res1 : Nat) : Nat := op + ch * 256 + res0 * 1024 + tgt * 4096 + res1 * 16384

theorem test_decode_nop : decodeTableWord 32 0x00000000 = some .nop := by decide
theorem test_decode_cvt_rgb : decodeTableWord 32 0x00000001 = some .cvtRgb := by decide
theorem test_decode_cvt_ycbcr : decodeTableWord 32 0x00001001 = some .cvtYcbcr := by decide
theorem test_decode_cvt_gray : decodeTableWord 32 0x00002001 = some .cvtGray := by decide
theorem test_decode_kbuild : decodeTableWord 32 0x00000002 = some .kbuild := by decide
theorem test_decode_fftf_img : decodeTableWord 32 0x00000310 = some (.fftfImg 3) := by decide
theorem test_decode_fftf_ker : decodeTableWord 32 0x00000011 = some .fftfKer := by decide
theorem test_decode_pmul : decodeTableWord 32 0x00000012 = some .pmul := by decide
theorem test_decode_ffti : decodeTableWord 32 0x00000013 = some .ffti := by decide
theorem test_decode_wback : decodeTableWord 32 0x00000214 = some (.wback 2) := by decide
theorem test_decode_blur : decodeTableWord 32 0x0000001F = some .blur := by decide
theorem test_decode_grad : decodeTableWord 32 0x00000020 = some .grad := by decide
theorem test_decode_nms : decodeTableWord 32 0x00000021 = some .nms := by decide
theorem test_decode_thresh : decodeTableWord 32 0x00000022 = some .thresh := by decide
theorem test_decode_hyst : decodeTableWord 32 0x00000023 = some .hyst := by decide
theorem test_decode_canny : decodeTableWord 32 0x0000002F = some .canny := by decide
/-- R100: bit 0 START, bit 1 SRST (bit 0 ignored), bit 2 IRQ_EN. -/
theorem test_decode_start : decodeTableWord 8 0b001 = some (.start false) ∧ decodeTableWord 8 0b101 = some (.start true) := by
  decide
theorem test_decode_srst : decodeTableWord 8 0b010 = some (.srst false) ∧ decodeTableWord 8 0b111 = some (.srst true) := by
  decide
theorem test_decode_fields : decodeTableWord 32 (bits 0x14 2 0 0 0) = some (.wback 2)
    ∧ decodeTableWord 32 (bits 0x01 0 0 2 0) = some .cvtGray := by decide
/-- The ILLEGAL words of section 2.1. -/
theorem test_decode_illegal : ∀ w ∈ [0x3001, 0x0101, 0x2002, 0x0003, 0x000F, 0x0111, 0x0015, 0x001E, 0x0120, 0x0420,
    0x0820, 0x4020, 0x0024, 0x0030, 0x00FF, 0x80000000, 0x1000], decodeTableWord 32 w = none := by decide
theorem test_assemble : assembleTokens ["wback", "2"] = some (.wback 2) ∧ encode (.wback 2) = 0x0214 := by decide

/-! ## Small states -/

/-- A busy machine with these latched operands and nothing in its memories. -/
def busyWith (cmd : Word) (w h : BitVec 16) (color : BitVec 2) (std s hi lo : Word) : State :=
  { State.reset with
    phase := .busy
    latch := { cmd := cmd, w := w, h := h, color := color, std := std, sizeF := s, hi := hi, lo := lo }
    imgW := w, imgH := h, color := color }

/-- The same with the default parameters (R38). -/
def busyDefault (w h : BitVec 16) (color : BitVec 2) : State := busyWith 0 w h color 1400 2 76800 25600

/-- The cells of a list of bytes from index `a`. -/
def cells (a : Nat) (l : List Nat) : Memory := Memory.cells a (l.map fun n => BitVec.ofNat 8 n)

/-- The state a step leaves, or the state before where it stops. -/
def after (o : Host.Outcome State Fault Refusal) (s : State) : State :=
  match o with
  | .next t => t
  | .fault _ => s
  | .refused _ => s

/-- `exec i s`, then the first `n` bytes of a memory. -/
def bytesAfter (i : Instr) (s : State) (p : Plane) (a n : Nat) : List (Option Nat) :=
  (List.range n).map fun j => (Memory.read ((after (exec i s) s).mem p) (a + j)).map BitVec.toNat

/-- `exec i s`, then ERR_CODE and ERR_INFO. -/
def errorAfter (i : Instr) (s : State) : Nat × Nat :=
  ((after (exec i s) s).errCode.toNat, (after (exec i s) s).errInfo.toNat)

/-! ## Arithmetic of the rules -/

/-- R10 and section 2.3: rhu at the halves. -/
theorem test_rhu : rhu 25 10 = 3 ∧ rhu (-5) 10 = 0 ∧ rhu (-15) 10 = -1 ∧ rhu 2555 10 = 256 := by decide
/-- V-CVT-1, V-CVT-2, V-CVT-3. -/
theorem test_rgb_to_ycbcr : rgbToYcbcr ⟨255, 0, 0⟩ = ⟨76, 85, 255⟩ ∧ rgbToYcbcr ⟨255, 255, 0⟩ = ⟨226, 1, 149⟩ := by
  decide +kernel
theorem test_ycbcr_to_rgb : ycbcrToRgb ⟨0, 0, 0⟩ = ⟨0, 135, 0⟩ ∧ ycbcrToRgb ⟨100, 0, 255⟩ = ⟨255, 53, 0⟩ := by
  decide +kernel
theorem test_luma_tie : luma ⟨1, 123, 0⟩ = 73 := by decide +kernel
/-- V-GRAD-2. -/
theorem test_quant : [quant 5 2, quant 5 3, quant 5 12, quant 5 13, quant (-5) 3, quant 0 (-7), quant 13 5, quant 12 5]
    = [0, 1, 1, 2, 3, 2, 0, 1] := by decide
/-- V-THR-1. -/
theorem test_classes : [classOf 5899 76800 25600, classOf 5898 76800 25600, classOf 656 76800 25600,
    classOf 655 76800 25600, classOf 0 0 0, classOf 1 0 0, classOf 1 1001 (-5)] = [2, 1, 1, 0, 0, 2, 1] := by decide
/-- V-CSR-3: 1086 pads to 2048, 9 to 16, 1 to 1. -/
theorem test_pow2ceil : [pow2ceil 1086, pow2ceil 9, pow2ceil 16, pow2ceil 2, pow2ceil 1] = [2048, 16, 16, 2, 1] := by
  decide +kernel
/-- V-CONV-4: 2.5, -0.5, 300.0, NaN, -∞, +∞, -0.0. -/
theorem test_write_back_finite : writeBack 0x4004000000000000#64 = 3 ∧ writeBack 0xBFE0000000000000#64 = 0
    ∧ writeBack 0x4072C00000000000#64 = 255 ∧ writeBack 0x8000000000000000#64 = 0 := by decide +kernel
theorem test_write_back_special : writeBack 0x7FF8000000000001#64 = 0 ∧ writeBack 0xFFF0000000000000#64 = 0
    ∧ writeBack 0x7FF0000000000000#64 = 255 := by decide +kernel
/-- 0.5 * 0.5 = 0.25, and 200 as binary64 (IEEE 754). -/
theorem test_f64_mul : f64Mul 0x3FE0000000000000#64 0x3FE0000000000000#64 = 0x3FD0000000000000#64
    ∧ f64OfByte 200 = 0x4069000000000000#64 := by decide +kernel
/-- V-KER-1: the enclosure of each default tap contains the exact value 0.11020945604615712491,
0.23691201406344842654, 0.30575705978078889709, to the 20 digits given. -/
theorem test_kernel_enclosure : ∀ e ∈ [(2, 11020945604615712491), (1, 23691201406344842654), (0, 30575705978078889709)],
    weightLo 1400 2 e.1 * 10 ^ 20 ≤ (e.2 + 1) * kerOne ∧ (e.2 - 1) * kerOne ≤ weightHi 1400 2 e.1 * 10 ^ 20
      ∧ (weightHi 1400 2 e.1 - weightLo 1400 2 e.1) * 2 ^ 100 ≤ kerOne := by decide +kernel

/-! ## One step per instruction -/

theorem test_nop_done : (after (exec .nop (busyDefault 0 0 0)) State.reset).done = true := by decide
/-- P1: the 2x1 image (255, 0, 0), (10, 200, 30). -/
theorem test_cvt_ycbcr : bytesAfter .cvtYcbcr { busyDefault 2 1 0 with pix := cells 0 [255, 0, 0, 10, 200, 30] } .pix 0 6
    = [some 76, some 85, some 255, some 124, some 75, some 47] := by decide +kernel
theorem test_cvt_rgb : bytesAfter .cvtRgb { busyDefault 2 1 1 with pix := cells 0 [76, 85, 255, 124, 75, 47] } .pix 0 6
    = [some 254, some 0, some 0, some 10, some 200, some 30] := by decide +kernel
/-- V-CVT-5: the bytes past W*H stay. -/
theorem test_cvt_gray : bytesAfter .cvtGray { busyDefault 2 1 0 with pix := cells 0 [254, 0, 0, 10, 200, 30] } .pix 0 6
    = [some 76, some 124, some 0, some 10, some 200, some 30] := by decide +kernel
/-- V-CVT-7. -/
theorem test_cvt_errors : errorAfter .cvtRgb (busyDefault 2 1 2) = (2, 0x20)
    ∧ errorAfter .cvtYcbcr (busyDefault 2 1 2) = (2, 0x21) ∧ errorAfter .cvtRgb (busyDefault 2 1 3) = (1, 7) := by decide
/-- V-KER-7. -/
theorem test_kbuild_errors : errorAfter .kbuild (busyWith 2 0 0 0 0 (-1) 0 0) = (1, 1)
    ∧ errorAfter .kbuild (busyWith 2 0 0 0 1400 (-1) 0 0) = (1, 2)
    ∧ errorAfter .kbuild (busyWith 2 0 0 0 1400 32 0 0) = (1, 3) := by decide
/-- V-KER-5: the tap is 1.0. -/
theorem test_kbuild_size_zero : bytesAfter .kbuild (busyWith 2 0 0 0 7 0 0 0) .ker 0 8
    = [some 0, some 0, some 0, some 0, some 0, some 0, some 0xF0, some 0x3F] := by decide +kernel
/-- V-CONV-5. -/
theorem test_fftf_img_channel : errorAfter (.fftfImg 1) (busyDefault 2 1 2) = (1, 8) := by decide
theorem test_fftf_ker_length : errorAfter .fftfKer { busyWith 0x11 2 1 2 1400 1 0 0 with kerLen := 5 } = (4, 2) := by decide
theorem test_pmul_geometry_first : errorAfter .pmul (busyWith 0x12 0 1 2 0 (-1) 0 0) = (1, 5) := by decide
theorem test_ffti_size : errorAfter .ffti (busyWith 0x13 2 1 2 0 40 0 0) = (1, 3) := by decide
theorem test_wback_size_first : errorAfter (.wback 3) (busyWith 0x314 2 1 0 0 (-1) 0 0) = (1, 2) := by decide
/-- V-CONV-1 step 6: A = (10, 20). -/
theorem test_wback : bytesAfter (.wback 0)
    { busyWith 0x14 2 1 2 1400 0 0 0 with
      planeA := cells 0 [0, 0, 0, 0, 0, 0, 0x24, 0x40, 0, 0, 0, 0, 0, 0, 0, 0, 0, 0, 0, 0, 0, 0, 0x34, 0x40] } .pix 0 2
    = [some 10, some 20] := by decide +kernel
/-- V-BLUR-6. -/
theorem test_blur_errors : errorAfter .blur (busyWith 0x1F 5 5 0 0 0 0 0) = (1, 1)
    ∧ errorAfter .blur (busyWith 0x1F 0 5 0 0 0 0 0) = (1, 5) := by decide
/-- V-GRAD-1: MAG[1,1] = 1600, DIR[1,1] = 0. -/
theorem test_grad : bytesAfter .grad { busyDefault 3 3 2 with pix := cells 0 [0, 0, 10, 0, 0, 10, 0, 0, 10] } .mag (4 * 1025) 4
    = [some 0x40, some 6, some 0, some 0] := by decide +kernel
theorem test_grad_color : errorAfter .grad (busyDefault 3 3 0) = (4, 1) := by decide

/-- MAG row 1 of V-NMS-1 as bytes, rows 0 and 2 zero, width 5. -/
def nmsMemory (row : List Nat) : Memory :=
  cells 0 (List.replicate 20 0) ++ cells 4096 (row.flatMap fun m => [m, 0, 0, 0]) ++ cells 8192 (List.replicate 20 0)
def nmsState (row : List Nat) : State :=
  { busyDefault 5 3 2 with
    mag := nmsMemory row
    dir := cells 0 (List.replicate 5 0) ++ cells 1024 (List.replicate 5 0) ++ cells 2048 (List.replicate 5 0) }
/-- V-NMS-1: 100s next to 200 fall, a plateau stays. -/
theorem test_nms : (bytesAfter .nms (nmsState [0, 100, 200, 100, 0]) .mag 4096 20)[4]? = some (some 0)
    ∧ (bytesAfter .nms (nmsState [0, 100, 200, 100, 0]) .mag 4096 20)[8]? = some (some 200) := by decide +kernel
theorem test_nms_plateau : (bytesAfter .nms (nmsState [0, 50, 50, 50, 0]) .mag 4096 20)[4]? = some (some 50) := by
  decide +kernel

/-- R197's example: m = 9216 is strong, 3600 weak, 625 neither. -/
theorem test_thresh : bytesAfter .thresh
    { busyDefault 3 1 2 with mag := cells 0 [0, 36, 0, 0, 0x10, 0x0E, 0, 0, 0x71, 2, 0, 0] } .cls 0 3
    = [some 2, some 1, some 0] := by decide +kernel
/-- V-THR-2. -/
theorem test_thresh_order : errorAfter .thresh (busyWith 0x22 1 1 2 0 0 25600 76800) = (1, 4) := by decide
/-- R200: a weak pixel reached through a weak pixel is an edge, one apart is not. -/
theorem test_hyst : bytesAfter .hyst { busyDefault 6 1 2 with cls := cells 0 [2, 1, 1, 0, 1, 0] } .pix 0 6
    = [some 255, some 255, some 255, some 0, some 0, some 0] := by decide +kernel
/-- V-EDGE-6. -/
theorem test_canny_errors : errorAfter .canny (busyWith 0x2F 5 5 3 1400 2 1 2) = (1, 7)
    ∧ errorAfter .canny (busyWith 0x2F 5 5 0 1400 (-1) 1 2) = (1, 2)
    ∧ errorAfter .canny (busyWith 0x2F 5 5 0 1400 2 1 2) = (1, 4) := by decide
/-- V-EDGE-4, last row: S = 0 on a uniform image. -/
theorem test_canny_uniform : bytesAfter .canny
    { busyWith 0x2F 3 3 2 1400 0 76800 25600 with pix := cells 0 (List.replicate 9 200) } .pix 0 9
    = List.replicate 9 (some 0) := by decide +kernel
/-- V-LIFE-4: STATUS 0x1A becomes 0x19. -/
theorem test_start : statusWord (after (exec (.start false)
    { State.reset with done := true, ovf := true, haz := true }) State.reset) = 0x19 := by decide
/-- V-LIFE-5. -/
theorem test_srst : csrRead 0x030 (after (exec (.srst false) { State.reset with stdDev := 1000, imgW := 5 }) State.reset)
    = 1400 := by decide

/-! ## Steps -/

/-- The host's calls of R100 and R113 on words placed where the next step runs them. -/
theorem test_fetch_word_runs : (after (step (State.reset.withFetchWord 32 0x00003001)) State.reset).errInfo = 0x3001
    ∧ (after (step (State.reset.withFetchWord 8 0x1)) State.reset).phase = .busy := by decide

/-- V-BUS-1. -/
theorem test_slverr : ∀ r ∈ [(AccessKind.read, 0x014, Size.one), (.read, 0x016, .four), (.read, 0x100002, .four),
      (.write, 0x1000, .one), (.write, 0x400000, .four), (.read, 0x2000, .four), (.read, 0xC000000, .four),
      (.read, 0x1200, .one), (.read, 0x3FFFFE, .four)],
    (after (step { State.reset with events := [.bus { kind := r.1, off := r.2.1, size := r.2.2, wdata := 0 }] })
      State.reset).resp = some { code := .slverr, rdata := 0 } := by decide +kernel

/-- V-BUS-2: `RD32 PIX+0` over (76, 85, 255, 124). -/
theorem test_pix_read : (after (step { State.reset with pix := cells 0 [76, 85, 255, 124], events := [rd32 0x100000] })
    State.reset).resp = some { code := .okay, rdata := 0x7CFF554C } := by decide +kernel

/-! ## The exact transforms, which the reference instance rounds (R162, R163) -/

/-- The example of R166: the exact transform of the 2x1 image (10, 20) is (30, -10). -/
theorem test_exact_transform :
    dftFwd 2 1 (fun x _ => if x = 0 then 10 else 20) 0 0 = 30 ∧ dftFwd 2 1 (fun x _ => if x = 0 then 10 else 20) 1 0 = -10 := by
  have h : Complex.exp (-(2 * Real.pi * Complex.I * 2⁻¹)) = -1 := by
    rw [Complex.exp_neg, show (2 * Real.pi * Complex.I * 2⁻¹ : ℂ) = Real.pi * Complex.I by ring, Complex.exp_pi_mul_I]
    norm_num
  constructor <;> simp [dftFwd, Finset.sum_range_succ, cycles, h] <;> norm_num

/-- The example of R169: the exact inverse transform of (15, -5) is (10, 20). -/
theorem test_exact_inverse :
    dftInv 2 1 (fun u _ => if u = 0 then 15 else -5) 0 0 = 10 ∧ dftInv 2 1 (fun u _ => if u = 0 then 15 else -5) 1 0 = 20 := by
  have h : Complex.exp (2 * Real.pi * Complex.I * 2⁻¹) = -1 := by
    rw [show (2 * Real.pi * Complex.I * 2⁻¹ : ℂ) = Real.pi * Complex.I by ring, Complex.exp_pi_mul_I]
  constructor <;> simp [dftInv, Finset.sum_range_succ, cycles, h] <;> norm_num
/-! ## Witnesses: for each statement with hypotheses, a state and operands that meet them together -/

/-- A valid 5x5 image of each space, with the default parameters. -/
def img (color : BitVec 2) : State := busyDefault 5 5 color

/-- The reference configuration is one the spec describes; so is a smaller one. -/
theorem witness_config : Config.reference.Valid ∧ ({ Config.reference with maxW := 1, maxH := 1, maxSizeF := 0 } : Config).Valid := by
  have range : Config.reference.InRange
      ∧ ({ Config.reference with maxW := 1, maxH := 1, maxSizeF := 0 } : Config).InRange := by
    unfold Config.InRange; decide +kernel
  have bounds : Config.reference.ReferenceBounds := by unfold Config.ReferenceBounds; decide +kernel
  exact ⟨⟨range.1, .inl bounds⟩, range.2, .inl bounds⟩
theorem witness_geometry : GeometryValid Config.reference (img 0).latch.params ∧ GeometryValid Config.reference (img 1).latch.params
    ∧ GeometryValid Config.reference (img 2).latch.params := by
  unfold GeometryValid; decide
theorem witness_geometry_bounds : GeometryValid Config.reference (busyDefault 1 1024 2).latch.params
    ∧ GeometryValid Config.reference (busyDefault 1024 1 0).latch.params := by
  unfold GeometryValid; decide
theorem witness_size : SizeValid Config.reference (img 2).latch.params ∧ SizeValid Config.reference (busyWith 0 1 1 2 1 0 0 0).latch.params
    ∧ SizeValid Config.reference (busyWith 0 1 1 2 1 31 0 0).latch.params := by
  unfold SizeValid; decide

theorem witness_decode_encode : ((Instr.fftfImg 3).wf = true ∧ (Instr.fftfImg 3).isControl = false)
    ∧ ((Instr.srst true).wf = true ∧ (Instr.srst true).isControl = true) := by decide
/-- One value for each of the three clauses; no value meets two. -/
theorem witness_control_values : (0x7 : Word).getLsbD 1 = true
    ∧ ((0x5 : Word).getLsbD 0 = true ∧ (0x5 : Word).getLsbD 1 = false)
    ∧ ((0x4 : Word).getLsbD 0 = false ∧ (0x4 : Word).getLsbD 1 = false) := by decide
theorem witness_step_runs_decoded :
    ((busyWith 0x2F 5 5 2 1 0 0 0).phase = .busy ∧ decodeCommand (busyWith 0x2F 5 5 2 1 0 0 0).latch.cmd = .ok .canny
      ∧ (busyWith 0x2F 5 5 2 1 0 0 0).events = []
      ∧ { busyWith 0x2F 5 5 2 1 0 0 0 with events := [.engine] }.events = .engine :: [])
    ∧ ({ State.reset with events := [.bus (ctrlWrite 5)] }.events = .bus (ctrlWrite 5) :: []
      ∧ decodeControl 5 = some (.start true) ∧ decodeControl 4 = none)
    ∧ State.reset.phase = .idle := by
  refine ⟨⟨rfl, by decide, rfl, rfl⟩, ⟨rfl, by decide, by decide⟩, rfl⟩
theorem witness_illegal_command : { busyWith 0x3001 5 5 2 1 0 0 0 with events := [.engine] }.events = .engine :: []
    ∧ (busyWith 0x3001 5 5 2 1 0 0 0).phase = .busy ∧ ∀ i, decodeCommand 0x3001 ≠ .ok i := by
  refine ⟨rfl, rfl, fun i h => ?_⟩
  have : decodeCommand 0x3001 = .error .reservedTarget := by rfl
  rw [this] at h
  cases h
theorem witness_phases : State.reset.phase = .idle ∧ (img 2).phase = .busy := by decide
theorem witness_errors_are_precise : (Instr.kbuild).isControl = false
    ∧ firstFailure (busyWith 2 0 0 0 0 2 0 0).latch.params (busyWith 2 0 0 0 0 2 0 0) (checksOf .kbuild)
      = some { code := 1, info := 1 } := by decide
theorem witness_check_order : (∀ n, .channel n ∈ checksOf (.wback 3) → n = 3)
    ∧ (∀ g, .pair g ∈ checksOf (.wback 3) → g = 0) ∧ (∀ n, .channel n ∈ checksOf .cvtGray → n = 0)
    ∧ (∀ g, .pair g ∈ checksOf .cvtGray → g = 2) := by
  simp [checksOf, channelChecks, cvtChecks, convolutionChecks, geometryChecks]
/-- The ends of each range: W = 0 and 1025, H = 0 and 1025, COLOR = 3. -/
theorem witness_geometry_errors : (busyDefault 0 1 0).latch.w.toNat = 0 ∧ Config.reference.maxW < (busyDefault 1025 1 0).latch.w.toNat
    ∧ (busyDefault 1024 0 0).latch.w.toNat ≤ Config.reference.maxW ∧ (busyDefault 1024 0 0).latch.h.toNat = 0
    ∧ Config.reference.maxH < (busyDefault 1 1025 0).latch.h.toNat ∧ (busyDefault 1 1024 3).latch.h.toNat ≤ Config.reference.maxH
    ∧ (busyDefault 1 1024 3).latch.color = 3 ∧ Instr.canny.isControl = false ∧ Instr.canny ≠ .nop
    ∧ Instr.canny ≠ .kbuild := by decide
theorem witness_kbuild_errors : (busyWith 2 0 0 0 0 2 0 0).latch.std.toInt ≤ 0
    ∧ (0 < (busyWith 2 0 0 0 1 (-1) 0 0).latch.std.toInt ∧ (busyWith 2 0 0 0 1 (-1) 0 0).latch.sizeF.toInt < 0)
    ∧ (0 < (busyWith 2 0 0 0 1 32 0 0).latch.std.toInt ∧ (Config.reference.maxSizeF : Int) < (busyWith 2 0 0 0 1 32 0 0).latch.sizeF.toInt) := by decide
/-- The ends of each range: S = -1, S = 32, STD = 0. -/
theorem witness_size_errors : (busyWith 0x13 5 5 2 1 (-1) 0 0).latch.sizeF.toInt < 0
    ∧ (Config.reference.maxSizeF : Int) < (busyWith 0x13 5 5 2 1 32 0 0).latch.sizeF.toInt
    ∧ (busyWith 0x1F 5 5 2 0 1 0 0).latch.std.toInt ≤ 0 ∧ 0 < (busyWith 0x2F 5 5 2 1 32 0 0).latch.std.toInt
    ∧ Instr.pmul ∈ [.fftfKer, .pmul, .ffti] ∧ Instr.canny ∈ [Instr.blur, .canny] := by decide
theorem witness_operand_errors : (channels (img 2).latch.color ≤ 1)
    ∧ ((img 2).kerLen.toNat : Int) ≠ 2 * (img 2).latch.sizeF.toInt + 1
    ∧ (img 1).latch.color ≠ 2
    ∧ (busyWith 0x22 5 5 2 1 0 25600 76800).latch.hi.toInt < (busyWith 0x22 5 5 2 1 0 25600 76800).latch.lo.toInt := by
  decide
/-- GRAD and NMS complete on operands that pass their checks. -/
theorem grad_completes {s : State} (h : firstFailure s.latch.params s gradChecks = none) :
    exec .grad s = .next (completeDone (gradEffect s.latch.params s)) :=
  runCommand_ok (checks := gradChecks) (effect := gradEffect) h
theorem nms_completes {s : State} (h : firstFailure s.latch.params s geometryChecks = none) :
    exec .nms s = .next (completeDone (nmsEffect s.latch.params s)) :=
  runCommand_ok (checks := geometryChecks) (effect := nmsEffect) h
theorem witness_commands_read_only_the_latch : Instr.grad.isControl = false ∧ ∃ t, exec .grad (img 2) = .next t := by
  exact ⟨rfl, _, grad_completes (by decide)⟩

theorem witness_cvt : (img 0).latch.params.color = 0 ∧ (img 1).latch.params.color = 1 ∧ (img 0).latch.params.color ≠ 2
    ∧ (img 2).latch.color = 2 := by decide
theorem witness_kbuild : 0 < (busyWith 2 0 0 0 1 31 0 0).latch.params.std := by decide
theorem witness_kernel : (0 : Int) < 1400 ∧ 2 ≤ Config.reference.maxSizeF ∧ 4 ≤ 2 * 2 ∧ 31 ≤ Config.reference.maxSizeF ∧ 62 ≤ 2 * 31 := by
  decide
theorem witness_product : f64IsFinite 0x3FE0000000000000#64 = true
    ∧ f64IsFinite (f64Mul 0x3FE0000000000000#64 0x3FE0000000000000#64) = true := by decide +kernel
/-- (1 + 2^-52) * 1.5 is a tie: 1.5 + 1.5 * 2^-52 lies between two values; the largest value times 2 overflows; a NaN,
an infinity and a zero. -/
theorem witness_product_corners : f64Mul 0x3FF0000000000001#64 0x3FF8000000000000#64 = 0x3FF8000000000002#64
    ∧ f64Mul 0x7FEFFFFFFFFFFFFF#64 0xC000000000000000#64 = 0xFFF0000000000000#64
    ∧ f64IsNaN 0x7FF8000000000000#64 = true ∧ f64IsInf 0x7FF0000000000000#64 = true
    ∧ f64Int 0x8000000000000000#64 = 0 := by decide +kernel
/-- Channel 2 of an RGB image, the last one. -/
theorem witness_channel : 2 < (img 0).latch.params.c ∧ 0 < (img 2).latch.params.c := by decide
theorem witness_fftf_ker : (({ img 2 with kerLen := 5 } : State).kerLen.toNat : Int) = 2 * (img 2).latch.params.s + 1
    ∧ -(img 2).latch.params.s ≤ -2 ∧ 2 ≤ (img 2).latch.params.s := by decide
/-- An element of K's input that no tap lands on: [8, 8] of 16x16 with S = 2. -/
theorem witness_fftf_ker_zero : (img 2).latch.params.pw = 16 ∧ (img 2).latch.params.ph = 16
    ∧ ∀ i ∈ [-2, -1, 0, 1, 2], ∀ j ∈ [-2, -1, 0, 1, 2], ¬ ((i : Int) % 16 = 8 ∧ (j : Int) % 16 = 8) := by decide +kernel
theorem witness_ffti : GeometryValid Config.reference (busyWith 0x13 5 5 2 1 31 0 0).latch.params
    ∧ SizeValid Config.reference (busyWith 0x13 5 5 2 1 31 0 0).latch.params
    ∧ (busyWith 0x13 5 5 2 1 31 0 0).cfg = Config.reference ∧ (busyWith 0x13 5 5 2 1 31 0 0).latch.params.pw = 128 := by
  unfold GeometryValid SizeValid; decide +kernel
theorem witness_write_back : f64IsFinite 0x4004000000000000#64 = true ∧ f64IsNaN 0x7FF8000000000001#64 = true := by decide
theorem witness_blur_size_zero : 0 < (busyWith 0x1F 5 5 2 1 0 0 0).latch.params.std
    ∧ (busyWith 0x1F 5 5 2 1 0 0 0).latch.params.s = 0 ∧ GeometryValid Config.reference (busyWith 0x1F 5 5 2 1 0 0 0).latch.params := by
  unfold GeometryValid; decide
theorem witness_blur_sequence : 0 < (img 0).latch.params.std ∧ 1 ≤ (img 0).latch.params.s
    ∧ GeometryValid Config.reference (img 0).latch.params ∧ SizeValid Config.reference (img 0).latch.params := by
  unfold GeometryValid SizeValid; decide
theorem witness_convolution_enclosure : (0 : Int) < 1400 := by decide

/-- A 1x1 Grayscale image (200), STD = 1000, S = 1 (V-BLUR-1). -/
def onePixel : State := { busyWith 0x1F 1 1 2 1000 1 76800 25600 with pix := cells 0 [200] }

theorem witness_canonical_accuracy : GeometryValid Config.reference onePixel.latch.params ∧ SizeValid Config.reference onePixel.latch.params
    ∧ 0 < onePixel.latch.params.std ∧ 1 ≤ onePixel.latch.params.s ∧ 0 < onePixel.latch.params.c
    ∧ WrittenTo onePixel.pix (onePixel.latch.params.w * onePixel.latch.params.h * onePixel.latch.params.c) := by
  unfold GeometryValid SizeValid WrittenTo; decide
theorem witness_blur_samples : [(200 : Byte)].length = onePixel.latch.params.w * onePixel.latch.params.h
    ∧ [(200 : Byte)][0]? = Memory.read onePixel.pix ((0 * onePixel.latch.params.w + 0) * onePixel.latch.params.c + 0) := by
  decide

theorem witness_grad : ∃ P : Nat → Nat → Int, (∀ x y, P x y =
    (((img 2).byteAt .pix (y * (img 2).latch.params.w + x)).toNat : Int)) ∧ (img 2).latch.params.color = 2
    ∧ 2 + 2 < (img 2).latch.params.w ∧ 2 + 2 < (img 2).latch.params.h :=
  ⟨_, fun _ _ => rfl, by decide, by decide, by decide⟩
theorem witness_magnitudes : ∃ M : Nat → Nat → Nat, ∀ x y,
    M x y = leIn (img 2).mag (img 2).draws .mag (4 * planeIndex Config.reference x y) 4 := ⟨_, fun _ _ => rfl⟩
/-- A pixel with each direction, one NMS keeps and one it suppresses, as the hypotheses of `nms_result` say. -/
theorem witness_nms : (∀ d ∈ [0, 1, 2, 3],
      (({ img 2 with dir := cells 1025 [d] } : State).byteAt .dir (planeIndex Config.reference 1 1)).toNat = d)
    ∧ (magAt (nmsState [0, 100, 200, 100, 0]) 3 1 ≤ magAt (nmsState [0, 100, 200, 100, 0]) 2 1
      ∧ magAt (nmsState [0, 100, 200, 100, 0]) 1 1 ≤ magAt (nmsState [0, 100, 200, 100, 0]) 2 1)
    ∧ ¬ (magAt (nmsState [0, 100, 200, 100, 0]) 2 1 ≤ magAt (nmsState [0, 100, 200, 100, 0]) 1 1) := by decide +kernel
theorem witness_nms_idempotent :
    (∀ x, x < 5 → ∀ y, y < 3 → (Memory.read (nmsState [0, 100, 200, 100, 0]).dir (planeIndex Config.reference x y)).isSome
      ∧ ∀ k, k < 4 → (Memory.read (nmsState [0, 100, 200, 100, 0]).mag (4 * planeIndex Config.reference x y + k)).isSome)
    ∧ ∃ t u, exec .nms (nmsState [0, 100, 200, 100, 0]) = .next t ∧ exec .nms t = .next u := by
  exact ⟨by decide +kernel, _, _, nms_completes (s := nmsState [0, 100, 200, 100, 0]) (by decide),
    nms_completes (by rw [nmsEffect_eq]; decide)⟩
theorem witness_threshold : (0 : Int) ≤ 0 ∧ (0 : Int) < 1 := by decide
/-- A magnitude in each class of `thresh_result`. -/
theorem witness_thresh : (img 2).latch.params.lo ≤ (img 2).latch.params.hi
    ∧ thresholdGe 5899 (img 2).latch.params.hi = true
    ∧ (thresholdGe 5898 (img 2).latch.params.hi = false ∧ thresholdGe 5898 (img 2).latch.params.lo = true)
    ∧ thresholdGe 655 (img 2).latch.params.lo = false := by decide
theorem witness_hyst : ∃ cls : Nat → Nat → Nat,
    (∀ x y, cls x y = (({ img 2 with cls := cells 0 [2, 0] } : State).byteAt .cls (planeIndex Config.reference x y)).toNat)
      ∧ InEdgeSet 5 5 cls (0, 0) ∧ ¬ InEdgeSet 5 5 cls (1, 0) := by
  refine ⟨_, fun _ _ => rfl, .strong _ ⟨by decide, by decide, .inr (by decide +kernel)⟩ (by decide +kernel), fun h => ?_⟩
  have hc : ∀ q, InEdgeSet 5 5 (fun x y => (({ img 2 with cls := cells 0 [2, 0] } : State).byteAt .cls
      (planeIndex Config.reference x y)).toNat) q → q ≠ (1, 0) := by
    intro q hq e
    subst e
    cases hq with
    | strong _ hq => exact absurd hq.2.2 (by decide +kernel)
    | joined _ _ hq => exact absurd hq.2.2 (by decide +kernel)
  exact hc _ h rfl
theorem witness_canny : GeometryValid Config.reference (img 2).latch.params ∧ SizeValid Config.reference (img 2).latch.params ∧ 0 < (img 2).latch.params.std
    ∧ (img 2).latch.params.lo ≤ (img 2).latch.params.hi ∧ (img 2).latch.params.color = 2
    ∧ (img 0).latch.params.color ≠ 2 := by
  unfold GeometryValid SizeValid; decide
theorem witness_canny_uniform : GeometryValid Config.reference (busyWith 0x2F 3 3 2 1400 0 76800 25600).latch.params
    ∧ (busyWith 0x2F 3 3 2 1400 0 76800 25600).latch.params.s = 0
    ∧ ∀ j, j < 9 → Memory.read (cells 0 (List.replicate 9 200)) j = some 200 := by
  unfold GeometryValid; decide
/-- A uniform RGB image; one of zeros; one with a pixel at distance S + 1. -/
theorem witness_canny_uniform_color : (∀ j, j < 9 → ∀ ch, ch < 3 →
      Memory.read (cells 0 (List.replicate 27 200)) (j * 3 + ch) = some 200)
    ∧ (busyDefault 7 7 2).latch.params.half + 1 ≤ 3 ∧ 3 + (busyDefault 7 7 2).latch.params.half + 2 ≤ 7
    ∧ 1 ≤ (busyDefault 7 7 2).latch.params.s := by decide +kernel

/-- The state whose next input is this access. -/
def withAccess (s : State) (kind : AccessKind) (off : BitVec 28) (size : Size) (v : Word) : State :=
  { s with events := [.bus { kind := kind, off := off, size := size, wdata := v }] }

theorem witness_bad_accesses : BadAccess { kind := .read, off := 0x001200, size := .one, wdata := 0 }
    ∧ BadAccess { kind := .read, off := 0x000FFE, size := .two, wdata := 0 }
    ∧ BadAccess { kind := .read, off := 0x100002, size := .four, wdata := 0 }
    ∧ BadAccess { kind := .write, off := 0x0FFFFFF, size := .one, wdata := 0 }
    ∧ ¬ BadAccess { kind := .write, off := 0x3FFFFF, size := .one, wdata := 0 }
    ∧ ¬ BadAccess { kind := .read, off := 0xBFFFFFC, size := .four, wdata := 0 } := by
  refine ⟨.inl fun reg => ?_, .inr (.inl (by decide)), .inr (.inr (.inl (by decide))), .inr (.inr (.inr (by decide))),
    fun h => ?_, fun h => ?_⟩
  · cases reg <;> decide
  · rcases h with h | h | h | h
    · exact h .pix (by decide)
    all_goals revert h; decide
  · rcases h with h | h | h | h
    · exact h .planeK (by decide)
    all_goals revert h; decide
theorem witness_busy_window : (withAccess (img 2) .read 0x100000 .one 0).phase = .busy
    ∧ ¬ BadAccess { kind := .read, off := 0x100000, size := .one, wdata := 0 } ∧ 0x1000 ≤ (0x100000 : BitVec 28).toNat := by
  refine ⟨rfl, fun h => ?_, by decide⟩
  rcases h with h | h | h | h
  · exact h .pix (by decide)
  all_goals revert h; decide
/-- The first word and the last byte of PIX. -/
theorem witness_pix_write : ((0x100000 : BitVec 28).toNat = 0x100000 + 0 ∧ sizeBytes .four = 4
      ∧ 0 + 4 ≤ 3 * Config.reference.maxW * Config.reference.maxH ∧ 0 % 4 = 0)
    ∧ ((0x3FFFFF : BitVec 28).toNat = 0x100000 + (3 * 2 ^ 20 - 1) ∧ sizeBytes .one = 1
      ∧ (3 * 2 ^ 20 - 1) + 1 ≤ 3 * Config.reference.maxW * Config.reference.maxH ∧ (3 * 2 ^ 20 - 1) % 1 = 0)
    ∧ State.reset.phase = .idle := by decide
/-- The last word of each window is in the aperture, and the memories of a machine after reset are in order. -/
theorem witness_window_read : (windows State.reset).map (fun w => w.base + (w.size - 4))
      = [0x11FC, 0x3FFFFC, 0x7FFFFC, 0x8FFFFC, 0x7FFFFFC, 0xBFFFFFC]
    ∧ (∀ w ∈ windows State.reset, w.size - 4 + 4 ≤ w.size ∧ (w.size - 4) % 4 = 0) ∧ MemoriesOk State.reset := by
  refine ⟨by decide +kernel, by decide +kernel, fun p => ?_, fun p => ?_, by decide, by decide⟩ <;> cases p <;> decide
theorem witness_status_write : (withAccess (img 2) .write 0x014 .four 0x1E).events
    = .bus { kind := .write, off := 0x014, size := .four, wdata := 0x1E } :: [] := rfl
theorem witness_register_writes : (withAccess (img 2) .write 0x034 .four 1).events
    = .bus { kind := .write, off := 0x034, size := .four, wdata := 1 } :: []
    ∧ (withAccess State.reset .write 0x02C .four 0xFF).phase = .idle ∧ (withAccess (img 2) .write 0x024 .four 9).phase = .busy
    ∧ (0x03C : BitVec 28) ∈ [0x020, 0x030, 0x034, 0x038, 0x03C] ∧ (0x02C : BitVec 28) ∈ [0x024, 0x028, 0x02C]
    ∧ (0xFFC : BitVec 28) ∉ [0x010, 0x014, 0x020, 0x024, 0x028, 0x02C, 0x030, 0x034, 0x038, 0x03C]
    ∧ (0x000 : BitVec 28) ∉ [0x010, 0x014, 0x020, 0x024, 0x028, 0x02C, 0x030, 0x034, 0x038, 0x03C]
    ∧ (0xFFC : BitVec 28).toNat < 0x1000 ∧ (0xFFC : BitVec 28).toNat % 4 = 0 := by
  refine ⟨rfl, rfl, rfl, by decide, by decide, by decide, by decide, by decide, by decide⟩
/-- A valid geometry (5 and 1024 with S = 31) and each way to miss it, for PAD_W and PAD_H. -/
theorem witness_padded_read : (1 ≤ 1024 ∧ 1024 ≤ Config.reference.maxW) ∧ (1 ≤ 5 ∧ 5 ≤ Config.reference.maxH)
    ∧ (31 : Int) = ({ State.reset with sizeF := 31 } : State).sizeF.toInt ∧ 31 ≤ Config.reference.maxSizeF
    ∧ State.reset.imgW = 0 ∧ Config.reference.maxH < (1025 : BitVec 16).toNat
    ∧ ({ State.reset with sizeF := -1 } : State).sizeF.toInt < 0
    ∧ (0x04C ∉ [0x000, 0x004, 0x008, 0x010, 0x014, 0x018, 0x01C, 0x020, 0x024, 0x028, 0x02C, 0x030, 0x034, 0x038,
        0x03C, 0x040, 0x044, 0x048]) := by decide
theorem witness_power_on_reset : ({ img 2 with events := [.powerOn] } : State).events = .powerOn :: []
    ∧ decodeCommand (busyWith 0x20 5 5 2 1 0 0 0).latch.cmd = .ok .grad
    ∧ firstFailure (busyWith 0x20 5 5 2 1 0 0 0).latch.params (busyWith 0x20 5 5 2 1 0 0 0) (checksOf .grad) = none
    ∧ firstFailure (busyWith 0x20 0 5 2 1 0 0 0).latch.params (busyWith 0x20 0 5 2 1 0 0 0) (checksOf .grad) ≠ none := by
  refine ⟨rfl, by decide, by decide, by decide⟩
theorem witness_named_bytes : Instr.grad.isControl = false
    ∧ firstFailure (img 2).latch.params (img 2) (checksOf .grad) = none ∧ (∃ t, exec .grad (img 2) = .next t)
    ∧ namesWritten Config.reference .grad (img 2).latch.params .dir 5 = false := by
  refine ⟨rfl, by decide, ⟨_, grad_completes (by decide)⟩, by decide⟩

/-- Memories with something in them, and a step. -/
theorem witness_memories : MemoriesOk { img 2 with pix := cells 0 [1, 2], dir := cells 0 [3], cls := cells 0 [2] }
    ∧ ∃ t, step { img 2 with pix := cells 0 [1, 2], dir := cells 0 [3], cls := cells 0 [2] } = .next t := by
  refine ⟨⟨fun p => ?_, fun p => ?_, by decide, by decide⟩, _, rfl⟩
  · cases p <;> decide
  · cases p <;> decide
theorem witness_flags : FlagsOk (img 2) ∧ FlagsOk { State.reset with err := true, errCode := 1, errInfo := 5 } := by
  refine ⟨⟨by decide, by decide, by decide, by decide, by decide⟩, ⟨by decide, by decide, by decide, by decide, by decide⟩⟩
theorem witness_latched_geometry : LatchOk (img 2) := by unfold LatchOk; decide
/-- The kernel of S = 0 is the one tap 1.0. -/
theorem witness_kernel_invariant : KernelOk { State.reset with
    kerLen := 1, ker := cells 0 [0, 0, 0, 0, 0, 0, 0xF0, 0x3F] } := by
  refine fun _ => ⟨7, 0, by decide, by decide, by decide, ?_⟩
  have hb : kernelBytes Config.reference 7 0 = [0, 0, 0, 0, 0, 0, 0xF0, 0x3F] := by decide +kernel
  rw [show ({ State.reset with kerLen := 1, ker := cells 0 [0, 0, 0, 0, 0, 0, 0xF0, 0x3F] } : State).cfg
    = Config.reference from rfl, hb]
  unfold HoldsRun
  decide

end Sys2Proof.Tests
end

section
/-!
What one step can do: the effect of each command named once, what an access leaves behind, and the moves that a step
consists of. The invariants of every step (10_state.md R40 to R50) are proved from `step_move`, with no second look
into the step function.
-/

namespace Sys2Proof.Machine

open Sys2Proof

/-! ## The effect of a command -/

/-- The effect of a command word on its operands, once its validation has passed (40_command.md R113). -/
def effectOf : Instr → Params → State → State
  | .nop => fun _ s => s
  | .cvtRgb => cvtRgbEffect
  | .cvtYcbcr => cvtYcbcrEffect
  | .cvtGray => cvtGrayEffect
  | .kbuild => kbuildEffect
  | .fftfImg ch => fftfImgEffect ch
  | .fftfKer => fftfKerEffect
  | .pmul => pmulEffect
  | .ffti => fftiEffect
  | .wback ch => wbackEffect ch
  | .blur => blurEffect
  | .grad => gradEffect
  | .nms => nmsEffect
  | .thresh => threshEffect
  | .hyst => hystEffect
  | .canny => cannyEffect
  | .start _ => fun _ s => s
  | .srst _ => fun _ s => s

theorem exec_command {i : Instr} (h : i.isControl = false) (s : State) :
    exec i s = runCommand (checksOf i) (effectOf i) s := by
  cases i with
  | start e => cases h
  | srst e => cases h
  | _ => rfl

theorem plainCommand_isControl {i j : Instr} {ch tgt : Nat} (hj : j.isControl = false)
    (h : plainCommand j ch tgt = .ok i) : i.isControl = false := by
  unfold plainCommand at h
  split at h
  · cases h
  · split at h
    · cases h
    · cases h; exact hj

theorem channelCommand_isControl {i : Instr} {f : Nat → Instr} {ch tgt : Nat} (hf : ∀ n, (f n).isControl = false)
    (h : channelCommand f ch tgt = .ok i) : i.isControl = false := by
  unfold channelCommand at h
  split at h
  · cases h
  · cases h; exact hf ch

theorem cvtCommand_isControl {i : Instr} {ch tgt : Nat} (h : cvtCommand ch tgt = .ok i) : i.isControl = false := by
  unfold cvtCommand at h
  split at h
  · cases h
  · split at h <;> cases h <;> rfl

/-- The decoder of command words never yields a control operation (30_encoding.md R95). -/
theorem isControl_of_decodeCommand {w : Word} {i : Instr} (h : decodeCommand w = .ok i) : i.isControl = false := by
  unfold decodeCommand decodeFields at h
  split at h
  · cases h
  · split at h
    case h_2 => exact cvtCommand_isControl h
    case h_4 | h_8 => exact channelCommand_isControl (fun _ => rfl) h
    case h_15 => cases h
    all_goals exact plainCommand_isControl rfl h

/-! ## What an access leaves behind -/

/-- What an access other than a CTRL write leaves: it only answers, draws a free value, writes a register, is blocked
while BUSY, or writes PIX in IDLE (20_memory.md R70 to R76). -/
inductive AccessResult (r : BusReq) (s : State) : State → Prop where
  | answered (c : RespCode) (v : Word) : AccessResult r s (respond c v s)
  | drew (v : Word) : AccessResult r s (respond .okay v s).nextDraw
  | registerWritten : AccessResult r s (respond .okay 0 (csrWrite r.off.toNat r.wdata s))
  | blocked : s.phase = .busy → AccessResult r s (respond .okay 0 (flagHazard s))
  | pixWritten (i n : Nat) : s.phase = .idle → AccessResult r s (respond .okay 0 (memWrite s i n r.wdata))

theorem windowAccess_result (g : Region) (r : BusReq) (s : State) : AccessResult r s (windowAccess g r s) := by
  unfold windowAccess
  split
  · next hp => exact .blocked hp
  · unfold windowRead
    dsimp only
    split
    · exact .answered _ _
    · exact .drew _
  · next hp _ => exact .pixWritten _ _ hp

theorem csrAccess_result (r : BusReq) (s : State) : AccessResult r s (csrAccess r s) := by
  unfold csrAccess
  split
  · exact .answered _ _
  · exact .registerWritten

theorem access_result (r : BusReq) (s : State) : AccessResult r s (access r s) := by
  unfold access
  split
  · exact .answered _ _
  · exact csrAccess_result r s
  · exact windowAccess_result _ r s

/-! ## The moves of the machine -/

/-- What one step does to a state whose input has been taken off the list. -/
inductive Move : State → State → Prop where
  /-- An engine turn in IDLE: nothing is enabled (40_command.md R113). -/
  | wait (s : State) : Move s s
  /-- The completion step reports an error: the word is ILLEGAL or its validation fails (R114; 30_encoding.md R97). -/
  | failed (s : State) (e : ErrorReport) : Move s (raiseError e s)
  /-- The completion step of a command that passed its validation (R113). -/
  | completed (s : State) (i : Instr) : i.isControl = false →
      firstFailure s.latch.params s (checksOf i) = none → Move s (completeDone (effectOf i s.latch.params s))
  /-- An access that is no CTRL write (20_memory.md R70). -/
  | accessed (s : State) (r : BusReq) : Move s (access r s)
  /-- A CTRL write that only sets IRQ_EN (10_state.md R34). -/
  | irqEnabled (s : State) (e : Bool) : Move s (setIrqEn e (respond .okay 0 s))
  /-- A CTRL write that rings the doorbell (40_command.md R110). -/
  | started (s : State) (e : Bool) : Move s (doorbell (setIrqEn e (respond .okay 0 s)))
  /-- A CTRL write that asks for a soft reset (R115). -/
  | softReset (s : State) (e : Bool) : Move s (softReset (setIrqEn e (respond .okay 0 s)))
  /-- The reset input (70_reset_and_hazards.md R260). -/
  | poweredOn (s : State) : Move s (powerOnReset s)

/-- The answer of a turn. -/
def Turn.outcome : Turn → Host.Outcome State Fault Refusal
  | .run i s => exec i s
  | .done s => .next s

theorem step_eq_outcome (s : State) : step s = (nextTurn s).outcome := by
  rw [step]
  cases nextTurn s <;> rfl

theorem engineTurn_move {s t : State} (h : (engineTurn s).outcome = .next t) : Move s t := by
  unfold engineTurn at h
  split at h
  · cases h; exact .wait s
  · split at h
    · next i hd =>
      have hi := isControl_of_decodeCommand hd
      rw [Turn.outcome, exec_command hi] at h
      rcases runCommand_cases h with ⟨hok, rfl⟩ | ⟨e, -, rfl⟩
      · exact .completed s i hi hok
      · exact .failed s e
    · cases h; exact .failed s _

theorem busTurn_move {r : BusReq} {s t : State} (h : (busTurn r s).outcome = .next t) : Move s t := by
  unfold busTurn at h
  split at h
  · cases h; exact .accessed s r
  · next v _ =>
    unfold decodeControl at h
    by_cases h1 : v.getLsbD 1 = true
    · simp only [h1, if_true] at h
      cases h; exact .softReset s _
    · by_cases h0 : v.getLsbD 0 = true
      · simp only [h1, h0, if_true] at h
        cases h; exact .started s _
      · simp only [h1, h0] at h
        cases h; exact .irqEnabled s _

/-- Every step is a move of the state without the input it took. -/
theorem step_move {s t : State} (h : step s = .next t) : ∃ rest, Move { s with events := rest } t := by
  rw [step_eq_outcome] at h
  cases he : s.events with
  | nil =>
    rw [nextTurn, he] at h
    exact ⟨s.events, engineTurn_move h⟩
  | cons e rest =>
    refine ⟨rest, ?_⟩
    rw [nextTurn, he] at h
    cases e with
    | bus r => exact busTurn_move h
    | engine => exact engineTurn_move h
    | powerOn => cases h; exact .poweredOn _

end Sys2Proof.Machine
end

section
/-!
What the registers, the control operations and the resets leave unchanged: one lemma for each field that an invariant
reads (10_state.md R26, R40 to R50).
-/

namespace Sys2Proof.Machine

open Sys2Proof

/-! ## A register write -/

section CsrWrite

variable (off : Nat) (v : Word) (s : State)

/-- A register write changes registers and flags that the host owns (R35, R38 to R42): neither the parameters, nor
PHASE, LATCH, KER_LEN and the memories. -/
theorem csrWrite_frame : (csrWrite off v s).cfg = s.cfg ∧ (csrWrite off v s).phase = s.phase
    ∧ (csrWrite off v s).latch = s.latch ∧ (csrWrite off v s).kerLen = s.kerLen
    ∧ ∀ p, (csrWrite off v s).mem p = s.mem p := by
  unfold csrWrite geometryWrite
  split
  case h_3 | h_4 | h_5 => split <;> exact ⟨rfl, rfl, rfl, rfl, fun p => by cases p <;> rfl⟩
  all_goals exact ⟨rfl, rfl, rfl, rfl, fun p => by cases p <;> rfl⟩

@[simp] theorem csrWrite_cfg : (csrWrite off v s).cfg = s.cfg := (csrWrite_frame off v s).1
@[simp] theorem csrWrite_phase : (csrWrite off v s).phase = s.phase := (csrWrite_frame off v s).2.1
@[simp] theorem csrWrite_latch : (csrWrite off v s).latch = s.latch := (csrWrite_frame off v s).2.2.1
@[simp] theorem csrWrite_kerLen : (csrWrite off v s).kerLen = s.kerLen := (csrWrite_frame off v s).2.2.2.1
@[simp] theorem csrWrite_mem (p : Plane) : (csrWrite off v s).mem p = s.mem p := (csrWrite_frame off v s).2.2.2.2 p

/-- While BUSY no register write reaches the live geometry (R40 to R42). -/
theorem csrWrite_geometry_of_busy {s : State} (h : s.phase = .busy) :
    (csrWrite off v s).imgW = s.imgW ∧ (csrWrite off v s).imgH = s.imgH ∧ (csrWrite off v s).color = s.color := by
  unfold csrWrite geometryWrite
  split
  case h_3 | h_4 | h_5 => rw [h]; exact ⟨rfl, rfl, rfl⟩
  all_goals exact ⟨rfl, rfl, rfl⟩

end CsrWrite

/-! ## The control operations -/

theorem doorbell_idle {s : State} (h : s.phase = .idle) : doorbell s = acceptDoorbell s := by rw [doorbell, h]
theorem doorbell_busy {s : State} (h : s.phase = .busy) : doorbell s = flagOverflow s := by rw [doorbell, h]
theorem softReset_idle {s : State} (h : s.phase = .idle) : softReset s = resetRegisters s := by rw [softReset, h]
theorem softReset_busy {s : State} (h : s.phase = .busy) : softReset s = flagOverflow s := by rw [softReset, h]

@[simp] theorem doorbell_cfg (s : State) : (doorbell s).cfg = s.cfg := by unfold doorbell; split <;> rfl
@[simp] theorem doorbell_kerLen (s : State) : (doorbell s).kerLen = s.kerLen := by unfold doorbell; split <;> rfl
@[simp] theorem doorbell_mem (s : State) (p : Plane) : (doorbell s).mem p = s.mem p := by
  unfold doorbell
  split
  · exact acceptDoorbell_mem s p
  · exact flagOverflow_mem s p

@[simp] theorem softReset_cfg (s : State) : (softReset s).cfg = s.cfg := by unfold softReset; split <;> rfl
@[simp] theorem softReset_mem (s : State) (p : Plane) : (softReset s).mem p = s.mem p := by
  unfold softReset
  split
  · exact resetRegisters_mem s p
  · exact flagOverflow_mem s p

/-! ## Power-on reset -/

@[simp] theorem eraseMemories_mem (q : Plane → Nat → Bool) (s : State) (p : Plane) :
    (eraseMemories q s).mem p = Memory.erase (s.mem p) (q p) := by cases p <;> rfl

/-- A power-on reset erases some bytes of each memory, whichever (70_reset_and_hazards.md R260, R261). -/
theorem powerOnReset_mem (s : State) : ∃ q : Plane → Nat → Bool, ∀ p,
    (powerOnReset s).mem p = Memory.erase (s.mem p) (q p) := by
  unfold powerOnReset
  split <;> exact ⟨_, fun p => by rw [clearLatch_mem, resetRegisters_mem, eraseMemories_mem]⟩

@[simp] theorem powerOnReset_cfg (s : State) : (powerOnReset s).cfg = s.cfg := by unfold powerOnReset; split <;> rfl
@[simp] theorem powerOnReset_phase (s : State) : (powerOnReset s).phase = .idle := by
  unfold powerOnReset; split <;> rfl
@[simp] theorem powerOnReset_kerLen (s : State) : (powerOnReset s).kerLen = 0 := by
  unfold powerOnReset; split <;> rfl

/-! ## What passing a list of checks says of the operands -/

section Checks

variable {p : Params} {s : State} {cs : List Check} (h : firstFailure p s cs = none)

include h

theorem not_fails_of_ok {c : Check} (hc : c ∈ cs) : ¬ Check.fails p s c = true :=
  Bool.eq_false_iff.1 ((firstFailure_none_iff p s cs).1 h c hc)

theorem geometryValid_of_ok (hg : geometryChecks ⊆ cs) : GeometryValid s.cfg p := by
  have hw := mt (Check.fails_width p s).2 (not_fails_of_ok h (hg (by decide)))
  have hh := mt (Check.fails_height p s).2 (not_fails_of_ok h (hg (by decide)))
  have hc := mt (Check.fails_color p s).2 (not_fails_of_ok h (hg (by decide)))
  exact ⟨by omega, by omega, by omega, by omega, hc⟩

theorem sizeValid_of_ok (hs : [.sizeNonneg, .sizeMax] ⊆ cs) : SizeValid s.cfg p := by
  have h0 := mt (Check.fails_sizeNonneg p s).2 (not_fails_of_ok h (hs (by decide)))
  have h1 := mt (Check.fails_sizeMax p s).2 (not_fails_of_ok h (hs (by decide)))
  exact ⟨by omega, by omega⟩

theorem std_pos_of_ok (hs : .std ∈ cs) : 0 < p.std := by
  have := mt (Check.fails_std p s).2 (not_fails_of_ok h hs)
  omega

theorem channel_lt_of_ok {ch : Nat} (hc : .channel ch ∈ cs) : ch < p.c := by
  have := mt (Check.fails_channel p s ch).2 (not_fails_of_ok h hc)
  omega

end Checks

end Sys2Proof.Machine
end

section
/-!
The memories stay in order (10_state.md R46 to R50): one memory under the runs that are written to it, then every
effect, then every move.
-/

namespace Sys2Proof.Machine

open Sys2Proof

/-! ## One memory -/

/-- The values a cell of a memory can hold: codes in DIR and CLS (R50), any byte elsewhere. -/
def CodeOk : Plane → Byte → Prop
  | .dir, b => b.toNat < 4
  | .cls, b => b.toNat < 3
  | .pix, _ | .ker, _ | .mag, _ | .a, _ | .k, _ => True

/-- One memory in canonical form, of bytes it has and values of its type. -/
def MemoryOk (c : Config) (p : Plane) (m : Memory) : Prop :=
  Memory.wf m ∧ ∀ d ∈ m, d.1 < planeSize c p ∧ CodeOk p d.2

/-- A run that writes only bytes a memory has, with values of its type. -/
def RunFits (c : Config) (p : Plane) (r : Nat × List Byte) : Prop :=
  (r.2 = [] ∨ r.1 + r.2.length ≤ planeSize c p) ∧ ∀ b ∈ r.2, CodeOk p b

theorem MemoryOk.writeRuns {c : Config} {p : Plane} {m : Memory} {runs : List (Nat × List Byte)}
    (hm : MemoryOk c p m) (hr : ∀ r ∈ runs, RunFits c p r) : MemoryOk c p (Memory.writeRuns m runs) := by
  refine ⟨Memory.wf_writeRuns hm.1 runs, fun d hd => ?_⟩
  rcases Memory.mem_writeRuns hd with hd | ⟨r, hr', h1, h2, h3⟩
  · exact hm.2 d hd
  · obtain ⟨hsize, hcode⟩ := hr r hr'
    have hne : r.2 ≠ [] := List.ne_nil_of_mem h3
    exact ⟨by have := hsize.resolve_left hne; omega, hcode _ h3⟩

theorem MemoryOk.writeRun {c : Config} {p : Plane} {m : Memory} {a : Nat} {bs : List Byte}
    (hm : MemoryOk c p m) (hr : RunFits c p (a, bs)) : MemoryOk c p (Memory.writeRun m a bs) :=
  hm.writeRuns (runs := [(a, bs)]) (by simpa using hr)

theorem MemoryOk.erase {c : Config} {p : Plane} {m : Memory} (hm : MemoryOk c p m) (q : Nat → Bool) :
    MemoryOk c p (Memory.erase m q) :=
  ⟨Memory.wf_erase hm.1 q, fun d hd => hm.2 d (Memory.mem_erase hd)⟩

/-- Blocks of `k` bytes written row by row fit where the rows do. -/
theorem byteRows_fit {c : Config} {p : Plane} {w h k stride : Nat} {g : Nat → Nat → List Byte}
    (hk : ∀ x y, x < w → y < h → (g x y).length = k) (hw : w * k ≤ stride) (hs : h * stride ≤ planeSize c p)
    (hc : ∀ x y, ∀ b ∈ g x y, CodeOk p b) : ∀ r ∈ rowRuns 0 stride (byteRows w h g), RunFits c p r := by
  intro r hr
  obtain ⟨y, hy, rfl⟩ := mem_rowRuns hr
  have hyh : y < h := by simpa [byteRows] using hy
  have hrow : (byteRows w h g)[y] = (List.range w).flatMap fun x => g x y := by simp [byteRows]
  simp only [RunFits, hrow]
  constructor
  · right
    have hlast := Nat.mul_le_mul_right stride (show y + 1 ≤ h from hyh)
    rw [Nat.succ_mul] at hlast
    rw [length_row_blocks hk hyh]
    omega
  · intro b hb
    obtain ⟨x, -, hx⟩ := List.mem_flatMap.1 hb
    exact hc x y b hx

/-- An array over the region [0, PW) × [0, PH) fits a plane of complex elements. -/
theorem regionRuns_fit {c : Config} {p : Plane} {pw ph : Nat} {f : Nat → Nat → Cplx} (hp : p = .a ∨ p = .k)
    (hpw : pw ≤ c.maxPW) (hph : ph ≤ c.maxPH) : ∀ r ∈ regionRuns c pw ph f, RunFits c p r := by
  rw [regionRuns_eq]
  have hsize : planeSize c p = c.maxPH * (16 * c.maxPW) := by
    rcases hp with rfl | rfl <;> simp only [planeSize] <;> ring
  refine byteRows_fit (k := 16) (fun _ _ _ _ => length_cplxBytes _) (by omega) ?_ ?_
  · rw [hsize]
    exact Nat.mul_le_mul_right _ hph
  · rcases hp with rfl | rfl <;> exact fun _ _ _ _ => trivial

/-- One channel of an image of `n` pixels fits PIX where the whole image does. -/
theorem channelRuns_fit {c : Config} {ch k : Nat} {l : List Byte} (hch : ch < k)
    (hs : l.length * k ≤ planeSize c .pix) : ∀ r ∈ rowRuns ch k (l.map fun b => [b]), RunFits c .pix r := by
  intro r hr
  obtain ⟨j, hj, rfl⟩ := mem_rowRuns hr
  have hjl : j < l.length := by simpa using hj
  have hlast := Nat.mul_le_mul_right k (show j + 1 ≤ l.length from hjl)
  rw [Nat.succ_mul] at hlast
  refine ⟨.inr ?_, fun _ _ => trivial⟩
  simp only [List.getElem_map, List.length_cons, List.length_nil]
  omega

/-! ## Sizes -/

theorem channels_le (color : BitVec 2) : channels color ≤ 3 := by
  revert color
  decide

/-- The pixels of a valid image are among those the planes have. -/
theorem GeometryValid.pixels_le {c : Config} {p : Params} (g : GeometryValid c p) : p.w * p.h ≤ c.maxW * c.maxH := by
  obtain ⟨-, hw, -, hh, -⟩ := g
  exact Nat.mul_le_mul hw hh

/-- PIX has room for a valid image of up to three channels. -/
theorem GeometryValid.samples_le {c : Config} {p : Params} (g : GeometryValid c p) {k : Nat} (hk : k ≤ 3) :
    p.w * p.h * k ≤ planeSize c .pix := by
  calc p.w * p.h * k ≤ c.maxW * c.maxH * 3 := Nat.mul_le_mul g.pixels_le hk
    _ = planeSize c .pix := by simp only [planeSize]; ring

theorem GeometryValid.pw_le {c : Config} {p : Params} (g : GeometryValid c p) (v : SizeValid c p) :
    p.pw ≤ c.maxPW := Machine.pw_le g.2.1 v.2

theorem GeometryValid.ph_le {c : Config} {p : Params} (g : GeometryValid c p) (v : SizeValid c p) :
    p.ph ≤ c.maxPH := Machine.ph_le g.2.2.2.1 v.2

theorem SizeValid.half_le {c : Config} {p : Params} (v : SizeValid c p) : p.half ≤ c.maxSizeF := by
  obtain ⟨h0, h1⟩ := v
  unfold Params.half
  omega

/-- A valid image stays valid when it becomes Grayscale. -/
theorem GeometryValid.gray {c : Config} {p : Params} (g : GeometryValid c p) :
    GeometryValid c { p with color := 2 } := by
  obtain ⟨h1, h2, h3, h4, -⟩ := g
  exact ⟨h1, h2, h3, h4, show (2 : BitVec 2) ≠ 3 by decide⟩

/-! ## Codes -/

theorem quant_lt (gx gy : Int) : quant gx gy < 4 := by
  unfold quant
  dsimp only
  split_ifs <;> omega

theorem gradDir_lt (w h : Nat) (P : Nat → Nat → Int) (x y : Nat) : gradDir w h P x y < 4 := by
  unfold gradDir
  split
  · exact quant_lt _ _
  · omega

theorem classOf_lt (m : Nat) (hi lo : Int) : classOf m hi lo < 3 := by
  unfold classOf
  split_ifs <;> omega

theorem toNat_ofNat_lt {n k : Nat} (h : n < k) : (BitVec.ofNat 8 n).toNat < k := by
  rw [BitVec.toNat_ofNat]
  exact (Nat.mod_le _ _).trans_lt h

/-! ## The seven memories -/

/-- The memories in order under the parameters `c`, which are the state's: what every move keeps. -/
def MemoriesFit (c : Config) (s : State) : Prop := s.cfg = c ∧ ∀ p, MemoryOk c p (s.mem p)

theorem memoriesFit_iff {c : Config} {s : State} : MemoriesFit c s ↔ s.cfg = c ∧ MemoriesOk s := by
  constructor
  · rintro ⟨rfl, h⟩
    exact ⟨rfl, fun p => (h p).1, fun p d hd => ((h p).2 d hd).1, fun d hd => ((h .dir).2 d hd).2,
      fun d hd => ((h .cls).2 d hd).2⟩
  · rintro ⟨rfl, h⟩
    refine ⟨rfl, fun p => ⟨h.canonical p, fun d hd => ⟨h.bounded p d hd, ?_⟩⟩⟩
    cases p with
    | dir => exact h.dirCodes d hd
    | cls => exact h.clsCodes d hd
    | _ => trivial

section Fit

variable {c : Config} {s t : State}

/-- Only the parameters and the memories matter. -/
theorem MemoriesFit.congr (h : MemoriesFit c s) (hc : t.cfg = s.cfg) (hm : ∀ p, t.mem p = s.mem p) :
    MemoriesFit c t :=
  ⟨hc.trans h.1, fun p => hm p ▸ h.2 p⟩

/-- After an effect only the memories it writes are in question. -/
theorem MemoriesFit.of_frame {w : Plane → Bool} (h : MemoriesFit c s) (f : EffectFrame w s t)
    (hw : ∀ p, w p = true → MemoryOk c p (t.mem p)) : MemoriesFit c t := by
  obtain ⟨hmem, hcfg, -⟩ := f
  refine ⟨hcfg.trans h.1, fun p => ?_⟩
  cases hp : w p with
  | true => exact hw p hp
  | false => exact hmem p hp ▸ h.2 p

/-- An effect that writes one memory. -/
theorem MemoriesFit.of_frame_one {q : Plane} (h : MemoriesFit c s) (f : EffectFrame (· == q) s t)
    (hq : MemoryOk c q (t.mem q)) : MemoriesFit c t :=
  h.of_frame f fun p hp => by rw [beq_iff_eq.1 hp]; exact hq

/-- Runs that fit, written by an effect that writes one memory. -/
theorem MemoriesFit.of_runs {q : Plane} {runs : List (Nat × List Byte)} (h : MemoriesFit c s)
    (f : EffectFrame (· == q) s t) (ht : t.mem q = Memory.writeRuns (s.mem q) runs) (hr : ∀ r ∈ runs, RunFits c q r) :
    MemoriesFit c t :=
  h.of_frame_one f (by rw [ht]; exact (h.2 q).writeRuns hr)

/-! ## The effects -/

variable {p : Params} (h : MemoriesFit c s)

include h

theorem kbuildEffect_fit (v : SizeValid c p) : MemoriesFit c (kbuildEffect p s) := by
  refine h.of_runs (kbuildEffect_frame p s) (runs := [(0, kernelBytes s.cfg p.std p.half)]) (kbuildEffect_ker p s) ?_
  have := v.half_le
  simp only [List.mem_singleton, forall_eq, RunFits, kernelBytes_length, planeSize]
  exact ⟨.inr (by omega), fun _ _ => trivial⟩

/-- The four transform commands write one region of A or K. -/
theorem regionEffect_fit {q : Plane} {f : Nat → Nat → Cplx} (g : GeometryValid c p) (v : SizeValid c p)
    (hq : q = .a ∨ q = .k) (hf : EffectFrame (· == q) s t)
    (ht : t.mem q = Memory.writeRuns (s.mem q) (regionRuns s.cfg p.pw p.ph f)) : MemoriesFit c t := by
  rw [h.1] at ht
  exact h.of_runs hf ht (regionRuns_fit hq (g.pw_le v) (g.ph_le v))

theorem fftfImgEffect_fit (ch : Nat) (g : GeometryValid c p) (v : SizeValid c p) :
    MemoriesFit c (fftfImgEffect ch p s) :=
  regionEffect_fit h g v (.inl rfl) (fftfImgEffect_frame ch p s) (fftfImgEffect_planeA ch p s)

theorem fftfKerEffect_fit (g : GeometryValid c p) (v : SizeValid c p) : MemoriesFit c (fftfKerEffect p s) :=
  regionEffect_fit h g v (.inr rfl) (fftfKerEffect_frame p s) (fftfKerEffect_planeK p s)

theorem pmulEffect_fit (g : GeometryValid c p) (v : SizeValid c p) : MemoriesFit c (pmulEffect p s) :=
  regionEffect_fit h g v (.inl rfl) (pmulEffect_frame p s) (pmulEffect_planeA p s)

theorem fftiEffect_fit (g : GeometryValid c p) (v : SizeValid c p) : MemoriesFit c (fftiEffect p s) :=
  regionEffect_fit h g v (.inl rfl) (fftiEffect_frame p s) (fftiEffect_planeA p s)

theorem wbackEffect_fit {ch : Nat} (g : GeometryValid c p) (hch : ch < p.c) :
    MemoriesFit c (wbackEffect ch p s) := by
  have hruns : (realParts p s).map (fun a => [writeBack a])
      = ((realParts p s).map writeBack).map fun b => [b] := by rw [List.map_map]; rfl
  have ht := wbackEffect_pix ch p s
  rw [hruns] at ht
  refine h.of_runs (wbackEffect_frame ch p s) ht (channelRuns_fit hch ?_)
  rw [List.length_map, realParts_length, Nat.mul_comm p.h]
  exact g.samples_le (channels_le p.color)

/-- An image written from PIX's first byte on. -/
theorem imageEffect_fit {bs : List Byte} (hf : EffectFrame (· == .pix) s t) (ht : t.pix = Memory.writeRun s.pix 0 bs)
    (hlen : bs.length ≤ planeSize c .pix) : MemoriesFit c t := by
  refine h.of_runs hf (runs := [(0, bs)]) ht ?_
  simp only [List.mem_singleton, forall_eq, RunFits]
  exact ⟨.inr (by omega), fun _ _ => trivial⟩

theorem convertColor_fit (f : Pixel → Pixel) (target : BitVec 2) (g : GeometryValid c p) :
    MemoriesFit c (convertColor f target p s) := by
  refine imageEffect_fit h (convertColor_frame f target p s) (convertColor_pix f target p s) ?_
  rw [length_flatMap_blocks _ 3 _ fun _ _ => rfl]
  exact g.samples_le le_rfl

theorem convertGray_fit (f : Pixel → Byte) (g : GeometryValid c p) : MemoriesFit c (convertGray f p s) := by
  refine imageEffect_fit h (convertGray_frame f p s) (convertGray_pix f p s) ?_
  simpa using g.samples_le (k := 1) (by norm_num)

theorem hystEffect_fit (g : GeometryValid c p) : MemoriesFit c (hystEffect p s) := by
  refine imageEffect_fit h (hystEffect_frame p s) (hystEffect_pix p s) ?_
  have hlen : (edgeMap p.w p.h (clsAt s)).length = p.w * p.h := by
    simp only [edgeMap, List.length_map, imagePixels]
    rw [length_rows p.w p.h fun u v => (u, v), Nat.mul_comm]
  simpa [hlen] using g.samples_le (k := 1) (by norm_num)

theorem cvtRgbEffect_fit (g : GeometryValid c p) : MemoriesFit c (cvtRgbEffect p s) := by
  unfold cvtRgbEffect
  split
  · exact convertColor_fit h _ _ g
  · exact h

theorem cvtYcbcrEffect_fit (g : GeometryValid c p) : MemoriesFit c (cvtYcbcrEffect p s) := by
  unfold cvtYcbcrEffect
  split
  · exact convertColor_fit h _ _ g
  · exact h

theorem cvtGrayEffect_fit (g : GeometryValid c p) : MemoriesFit c (cvtGrayEffect p s) := by
  unfold cvtGrayEffect
  split
  · exact convertGray_fit h _ g
  · exact convertGray_fit h _ g
  · exact h

theorem gradEffect_fit (g : GeometryValid c p) : MemoriesFit c (gradEffect p s) := by
  obtain ⟨-, hw, -, hh, -⟩ := g
  have hmag : MemoryOk c .mag (gradEffect p s).mag := by
    rw [gradEffect_mag, h.1]
    refine (h.2 .mag).writeRuns (byteRows_fit (k := 4) (fun _ _ _ _ => by simp) (by omega) ?_ fun _ _ _ _ => trivial)
    calc p.h * (4 * c.maxW) ≤ c.maxH * (4 * c.maxW) := Nat.mul_le_mul_right _ hh
      _ = planeSize c .mag := by simp only [planeSize]; ring
  have hdir : MemoryOk c .dir (gradEffect p s).dir := by
    rw [gradEffect_dir, h.1]
    refine (h.2 .dir).writeRuns (byteRows_fit (k := 1) (fun _ _ _ _ => by simp) (by omega) ?_ ?_)
    · rw [planeSize, Nat.mul_comm c.maxW]
      exact Nat.mul_le_mul_right _ hh
    · simp only [List.mem_singleton, forall_eq, CodeOk]
      exact fun x y => toNat_ofNat_lt (gradDir_lt _ _ _ x y)
  refine h.of_frame (gradEffect_frame p s) fun q hq => ?_
  rcases Bool.or_eq_true_iff.1 hq with hq | hq <;> rw [beq_iff_eq.1 hq]
  · exact hmag
  · exact hdir

theorem nmsEffect_fit (g : GeometryValid c p) : MemoriesFit c (nmsEffect p s) := by
  refine h.of_runs (nmsEffect_frame p s) (nmsEffect_mag p s) fun r hr => ?_
  obtain ⟨⟨x, y⟩, hq, rfl⟩ := List.mem_map.1 hr
  obtain ⟨hx, hy, -, -⟩ := mem_suppressedPixels.1 hq
  obtain ⟨-, hw, -, hh, -⟩ := g
  refine ⟨.inr ?_, fun _ _ => trivial⟩
  have hrow := Nat.mul_le_mul_right c.maxW (show y + 1 ≤ c.maxH by simp only at hy; omega)
  rw [Nat.succ_mul] at hrow
  have hsize : planeSize c .mag = 4 * (c.maxH * c.maxW) := by simp only [planeSize]; ring
  simp only [length_leBytes, planeIndex, h.1] at hx ⊢
  omega

theorem threshEffect_fit (g : GeometryValid c p) : MemoriesFit c (threshEffect p s) := by
  obtain ⟨-, hw, -, hh, -⟩ := g
  have ht := threshEffect_cls p s
  rw [h.1] at ht
  refine h.of_runs (threshEffect_frame p s) ht (byteRows_fit (k := 1) (fun _ _ _ _ => by simp) (by omega) ?_ ?_)
  · rw [planeSize, Nat.mul_comm c.maxW]
    exact Nat.mul_le_mul_right _ hh
  · simp only [List.mem_singleton, forall_eq, CodeOk]
    exact fun x y => toNat_ofNat_lt (classOf_lt _ _ _)

theorem blurChannel_fit {ch : Nat} (g : GeometryValid c p) (v : SizeValid c p) (hch : ch < p.c) :
    MemoriesFit c (blurChannel p s ch) :=
  wbackEffect_fit (fftiEffect_fit (pmulEffect_fit (fftfImgEffect_fit h ch g v) g v) g v) g hch

omit h in
theorem blurChannels_fit (g : GeometryValid c p) (v : SizeValid c p) {chs : List Nat} (hchs : ∀ ch ∈ chs, ch < p.c)
    {s : State} (h : MemoriesFit c s) : MemoriesFit c (chs.foldl (blurChannel p) s) := by
  induction chs generalizing s with
  | nil => exact h
  | cons ch chs ih =>
    rw [List.foldl_cons]
    have hch := blurChannel_fit h g v (hchs ch (by simp))
    exact ih (fun n hn => hchs n (by simp [hn])) hch

theorem blurEffect_fit (g : GeometryValid c p) (v : SizeValid c p) : MemoriesFit c (blurEffect p s) := by
  unfold blurEffect
  split
  · exact kbuildEffect_fit h v
  · exact blurChannels_fit g v (fun _ => List.mem_range.1) (fftfKerEffect_fit (kbuildEffect_fit h v) g v)

theorem cannyEffect_fit (g : GeometryValid c p) (v : SizeValid c p) : MemoriesFit c (cannyEffect p s) := by
  have hgray : MemoriesFit c (if p.color ≠ 2 then cvtGrayEffect p s else s) := by
    split
    · exact cvtGrayEffect_fit h g
    · exact h
  exact hystEffect_fit (threshEffect_fit (nmsEffect_fit (gradEffect_fit (blurEffect_fit hgray g.gray v) g.gray)
    g.gray) g.gray) g.gray

end Fit

/-- The effect of a command whose operands passed its checks. -/
theorem effectOf_fit {c : Config} {s : State} {p : Params} {i : Instr} (h : MemoriesFit c s)
    (ok : firstFailure p s (checksOf i) = none) : MemoriesFit c (effectOf i p s) := by
  have geometry : geometryChecks ⊆ checksOf i → GeometryValid c p := fun k => h.1 ▸ geometryValid_of_ok ok k
  have size : [.sizeNonneg, .sizeMax] ⊆ checksOf i → SizeValid c p := fun k => h.1 ▸ sizeValid_of_ok ok k
  cases i with
  | nop | start | srst => exact h
  | cvtRgb => exact cvtRgbEffect_fit h (geometry (by decide))
  | cvtYcbcr => exact cvtYcbcrEffect_fit h (geometry (by decide))
  | cvtGray => exact cvtGrayEffect_fit h (geometry (by decide))
  | kbuild => exact kbuildEffect_fit h (size (by decide))
  | fftfImg ch =>
    exact fftfImgEffect_fit h ch (geometry (by simp [checksOf, channelChecks, convolutionChecks]))
      (size (by simp [checksOf, channelChecks, convolutionChecks]))
  | fftfKer => exact fftfKerEffect_fit h (geometry (by decide)) (size (by decide))
  | pmul => exact pmulEffect_fit h (geometry (by decide)) (size (by decide))
  | ffti => exact fftiEffect_fit h (geometry (by decide)) (size (by decide))
  | wback ch =>
    exact wbackEffect_fit h (geometry (by simp [checksOf, channelChecks, convolutionChecks]))
      (channel_lt_of_ok ok (by simp [checksOf, channelChecks]))
  | blur => exact blurEffect_fit h (geometry (by decide)) (size (by decide))
  | grad => exact gradEffect_fit h (geometry (by decide))
  | nms => exact nmsEffect_fit h (geometry (by decide))
  | thresh => exact threshEffect_fit h (geometry (by decide))
  | hyst => exact hystEffect_fit h (geometry (by decide))
  | canny => exact cannyEffect_fit h (geometry (by decide)) (size (by decide))

/-! ## The moves -/

/-- A host write to PIX stores only the bytes PIX has (20_memory.md R64). -/
theorem memWrite_fit {c : Config} {s : State} (h : MemoriesFit c s) (i n : Nat) (v : Word) :
    MemoriesFit c (memWrite s i n v) := by
  have hrun : RunFits c .pix (i, (leBytes n v.toNat).take (planeSize c .pix - i)) := by
    refine ⟨?_, fun _ _ => trivial⟩
    by_cases hi : i ≤ planeSize c .pix
    · exact .inr (by rw [List.length_take]; omega)
    · exact .inl (by rw [show planeSize c .pix - i = 0 by omega, List.take_zero])
  rw [memWrite, h.1]
  refine ⟨(State.store_cfg _ _ _).trans h.1, fun q => ?_⟩
  by_cases hq : q = .pix
  · rw [hq, State.mem_store_same]
    exact (h.2 .pix).writeRun hrun
  · rw [State.mem_store_ne s _ hq]
    exact h.2 q

theorem AccessResult.fit {c : Config} {s t : State} {r : BusReq} (a : AccessResult r s t) (h : MemoriesFit c s) :
    MemoriesFit c t := by
  cases a with
  | answered | drew => exact h.congr rfl fun p => by simp
  | registerWritten => exact h.congr (by simp) fun p => by simp
  | blocked => exact h.congr rfl fun p => by simp
  | pixWritten i n => exact (memWrite_fit h i n r.wdata).congr rfl fun p => by simp

theorem move_keeps_memories {c : Config} {s t : State} (h : MemoriesFit c s) (m : Move s t) : MemoriesFit c t := by
  cases m with
  | wait => exact h
  | failed e => exact h.congr rfl (raiseError_mem e s)
  | completed i _ ok => exact (effectOf_fit h ok).congr rfl (completeDone_mem _)
  | accessed r => exact (access_result r s).fit h
  | irqEnabled | started | softReset => exact h.congr (by simp) fun p => by simp
  | poweredOn =>
    obtain ⟨q, hq⟩ := powerOnReset_mem s
    exact ⟨(powerOnReset_cfg s).trans h.1, fun p => hq p ▸ (h.2 p).erase (q p)⟩

/-- Settles O57: what a step does is a move, and each move keeps every memory in order. -/
theorem stepKeepsMemories : Obligations.step_keeps_memories := by
  intro s t hs ht
  obtain ⟨rest, hm⟩ := step_move ht
  have h : MemoriesFit s.cfg { s with events := rest } :=
    (memoriesFit_iff.2 ⟨rfl, hs⟩).congr rfl fun p => by cases p <;> rfl
  exact (memoriesFit_iff.1 (move_keeps_memories h hm)).symm

end Sys2Proof.Machine
end

section
/-!
The two invariants of the registers that every step keeps: the live geometry while BUSY (10_state.md R40 to R42) and
KER_LEN (R44; 42_kernel.md R151).
-/

namespace Sys2Proof.Machine

open Sys2Proof

/-! ## The latched geometry -/

/-- Only PHASE, LATCH and the live geometry matter. -/
theorem LatchOk.congr {s t : State} (h : LatchOk s) (hp : t.phase = s.phase) (hl : t.latch = s.latch)
    (hg : s.phase = .busy → t.imgW = s.imgW ∧ t.imgH = s.imgH ∧ t.color = s.color) : LatchOk t := by
  intro hb
  rw [hp] at hb
  obtain ⟨gw, gh, gc⟩ := hg hb
  rw [hl, gw, gh, gc]
  exact h hb

/-- In IDLE nothing is claimed. -/
theorem LatchOk.of_idle {s : State} (h : s.phase = .idle) : LatchOk s := fun hb => by
  rw [h] at hb
  cases hb

theorem AccessResult.latchOk {s t : State} {r : BusReq} (a : AccessResult r s t) (h : LatchOk s) : LatchOk t := by
  cases a with
  | answered | drew | blocked => exact h.congr rfl rfl fun _ => ⟨rfl, rfl, rfl⟩
  | registerWritten => exact h.congr (by simp) (by simp) fun hb => by simpa using csrWrite_geometry_of_busy _ _ hb
  | pixWritten i n => exact h.congr rfl rfl fun _ => ⟨rfl, rfl, rfl⟩

/-- An accepted doorbell latches the live geometry; a dropped one leaves both as they are (40_command.md R111, R112). -/
theorem doorbell_latchOk {s : State} (h : LatchOk s) : LatchOk (doorbell s) := by
  cases hp : s.phase with
  | idle => rw [doorbell_idle hp]; exact fun _ => ⟨rfl, rfl, rfl⟩
  | busy => rw [doorbell_busy hp]; exact h.congr rfl rfl fun _ => ⟨rfl, rfl, rfl⟩

theorem softReset_latchOk {s : State} (h : LatchOk s) : LatchOk (softReset s) := by
  cases hp : s.phase with
  | idle => rw [softReset_idle hp]; exact .of_idle rfl
  | busy => rw [softReset_busy hp]; exact h.congr rfl rfl fun _ => ⟨rfl, rfl, rfl⟩

theorem move_keeps_latchOk {s t : State} (h : LatchOk s) (m : Move s t) : LatchOk t := by
  have answered : ∀ e, LatchOk (setIrqEn e (respond .okay 0 s)) := fun e => h.congr rfl rfl fun _ => ⟨rfl, rfl, rfl⟩
  cases m with
  | wait => exact h
  | failed | completed => exact .of_idle rfl
  | accessed r => exact (access_result r s).latchOk h
  | irqEnabled e => exact answered e
  | started e => exact doorbell_latchOk (answered e)
  | softReset e => exact softReset_latchOk (answered e)
  | poweredOn => exact .of_idle (powerOnReset_phase s)

/-- Settles O59: no move of a busy engine reaches the live geometry, and the doorbell latches it. -/
theorem stepKeepsLatchedGeometry : Obligations.step_keeps_latched_geometry := by
  intro s t hs ht
  obtain ⟨rest, hm⟩ := step_move ht
  have h : LatchOk { s with events := rest } := hs.congr rfl rfl fun _ => ⟨rfl, rfl, rfl⟩
  exact move_keeps_latchOk h hm

/-! ## KER_LEN and the kernel -/

/-- Nothing that KER_LEN speaks of has changed. -/
def SameKernel (s t : State) : Prop := t.cfg = s.cfg ∧ t.kerLen = s.kerLen ∧ t.ker = s.ker

theorem SameKernel.trans {s t u : State} (h : SameKernel s t) (k : SameKernel t u) : SameKernel s u := by
  obtain ⟨h1, h2, h3⟩ := h
  obtain ⟨k1, k2, k3⟩ := k
  exact ⟨k1.trans h1, k2.trans h2, k3.trans h3⟩

theorem SameKernel.of_frame {w : Plane → Bool} {s t : State} (f : EffectFrame w s t) (hw : w .ker = false)
    (hl : t.kerLen = s.kerLen) : SameKernel s t :=
  ⟨f.2.1, hl, f.1 .ker hw⟩

theorem KernelOk.congr {s t : State} (h : KernelOk s) (k : SameKernel s t) : KernelOk t := by
  obtain ⟨hc, hl, hk⟩ := k
  unfold KernelOk
  rw [hc, hl, hk]
  exact h

theorem KernelOk.of_zero {s : State} (h : s.kerLen = 0) : KernelOk s := fun hn => absurd h hn

/-- KBUILD stores the kernel it announces (42_kernel.md R151). -/
theorem kbuildEffect_kernelOk {p : Params} {s : State} (hstd : 0 < p.std) (v : SizeValid s.cfg p)
    (hs : p.s < 2 ^ 31) : KernelOk (kbuildEffect p s) := by
  intro _
  refine ⟨p.std, p.half, hstd, v.half_le, ?_, ?_⟩
  · have := kbuildEffect_kerLen_int v.1 hs s
    have := v.1
    unfold Params.half
    omega
  · rw [kbuildEffect_ker, kbuildEffect_cfg]
    exact fun i hi => Memory.read_writeRun_inside hi

section Effects

variable (p : Params) (s : State)

theorem blurChannel_sameKernel (ch : Nat) : SameKernel s (blurChannel p s ch) :=
  (((SameKernel.of_frame (fftfImgEffect_frame ch p s) rfl (by simp)).trans
    (.of_frame (pmulEffect_frame p _) rfl (by simp))).trans
    (.of_frame (fftiEffect_frame p _) rfl (by simp))).trans
    (.of_frame (wbackEffect_frame ch p _) rfl (wbackEffect_kerLen ch p _))

theorem blurChannels_sameKernel (chs : List Nat) : SameKernel s (chs.foldl (blurChannel p) s) := by
  induction chs generalizing s with
  | nil => exact ⟨rfl, rfl, rfl⟩
  | cons ch chs ih =>
    rw [List.foldl_cons]
    exact (blurChannel_sameKernel p s ch).trans (ih _)

/-- BLUR builds a kernel and does not touch it again (43_convolution.md R171, R172). -/
theorem blurEffect_sameKernel : SameKernel (kbuildEffect p s) (blurEffect p s) := by
  unfold blurEffect
  split
  · exact ⟨rfl, rfl, rfl⟩
  · exact (SameKernel.of_frame (fftfKerEffect_frame p _) rfl (by simp)).trans (blurChannels_sameKernel p _ _)

theorem cvtRgbEffect_sameKernel : SameKernel s (cvtRgbEffect p s) := by
  unfold cvtRgbEffect
  split
  · exact .of_frame (convertColor_frame _ _ p s) rfl (by simp)
  · exact ⟨rfl, rfl, rfl⟩

theorem cvtYcbcrEffect_sameKernel : SameKernel s (cvtYcbcrEffect p s) := by
  unfold cvtYcbcrEffect
  split
  · exact .of_frame (convertColor_frame _ _ p s) rfl (by simp)
  · exact ⟨rfl, rfl, rfl⟩

theorem cvtGrayEffect_sameKernel : SameKernel s (cvtGrayEffect p s) := by
  unfold cvtGrayEffect
  split
  · exact .of_frame (convertGray_frame _ p s) rfl (by simp)
  · exact .of_frame (convertGray_frame _ p s) rfl (by simp)
  · exact ⟨rfl, rfl, rfl⟩

theorem gradEffect_sameKernel : SameKernel s (gradEffect p s) := .of_frame (gradEffect_frame p s) rfl (by simp)
theorem nmsEffect_sameKernel : SameKernel s (nmsEffect p s) := .of_frame (nmsEffect_frame p s) rfl (by simp)
theorem threshEffect_sameKernel : SameKernel s (threshEffect p s) := .of_frame (threshEffect_frame p s) rfl (by simp)
theorem hystEffect_sameKernel : SameKernel s (hystEffect p s) := .of_frame (hystEffect_frame p s) rfl (by simp)

/-- CANNY holds the kernel that its BLUR built (44_canny.md R205). -/
theorem cannyEffect_sameKernel :
    ∃ q u, q = { p with color := 2 } ∧ u.cfg = s.cfg ∧ SameKernel (kbuildEffect q u) (cannyEffect p s) := by
  refine ⟨_, if p.color ≠ 2 then cvtGrayEffect p s else s, rfl, ?_, ?_⟩
  · split
    · exact (cvtGrayEffect_sameKernel p s).1
    · rfl
  · exact ((((blurEffect_sameKernel _ _).trans (gradEffect_sameKernel _ _)).trans (nmsEffect_sameKernel _ _)).trans
      (threshEffect_sameKernel _ _)).trans (hystEffect_sameKernel _ _)

end Effects

/-- The effect of a command whose operands passed its checks; S is an s32 (10_state.md R38). -/
theorem effectOf_kernelOk {s : State} {p : Params} {i : Instr} (h : KernelOk s) (hs : p.s < 2 ^ 31)
    (ok : firstFailure p s (checksOf i) = none) : KernelOk (effectOf i p s) := by
  have built : .std ∈ checksOf i → [.sizeNonneg, .sizeMax] ⊆ checksOf i → 0 < p.std ∧ SizeValid s.cfg p :=
    fun a b => ⟨std_pos_of_ok ok a, sizeValid_of_ok ok b⟩
  cases i with
  | nop | start | srst => exact h
  | kbuild =>
    obtain ⟨hstd, v⟩ := built (by decide) (by decide)
    exact kbuildEffect_kernelOk hstd v hs
  | blur =>
    obtain ⟨hstd, v⟩ := built (by decide) (by decide)
    exact (kbuildEffect_kernelOk hstd v hs).congr (blurEffect_sameKernel p s)
  | canny =>
    obtain ⟨hstd, v⟩ := built (by decide) (by decide)
    obtain ⟨q, u, rfl, hu, hk⟩ := cannyEffect_sameKernel p s
    exact (kbuildEffect_kernelOk hstd (show SizeValid u.cfg _ from hu ▸ v) hs).congr hk
  | cvtRgb => exact h.congr (cvtRgbEffect_sameKernel p s)
  | cvtYcbcr => exact h.congr (cvtYcbcrEffect_sameKernel p s)
  | cvtGray => exact h.congr (cvtGrayEffect_sameKernel p s)
  | fftfImg ch => exact h.congr (.of_frame (fftfImgEffect_frame ch p s) rfl (fftfImgEffect_kerLen ch p s))
  | fftfKer => exact h.congr (.of_frame (fftfKerEffect_frame p s) rfl (fftfKerEffect_kerLen p s))
  | pmul => exact h.congr (.of_frame (pmulEffect_frame p s) rfl (pmulEffect_kerLen p s))
  | ffti => exact h.congr (.of_frame (fftiEffect_frame p s) rfl (fftiEffect_kerLen p s))
  | wback ch => exact h.congr (.of_frame (wbackEffect_frame ch p s) rfl (wbackEffect_kerLen ch p s))
  | grad => exact h.congr (gradEffect_sameKernel p s)
  | nms => exact h.congr (nmsEffect_sameKernel p s)
  | thresh => exact h.congr (threshEffect_sameKernel p s)
  | hyst => exact h.congr (hystEffect_sameKernel p s)

theorem AccessResult.sameKernel {s t : State} {r : BusReq} (a : AccessResult r s t) : SameKernel s t := by
  cases a with
  | registerWritten => exact ⟨by simp, by simp, csrWrite_mem _ _ s .ker⟩
  | answered | drew | blocked | pixWritten => exact ⟨rfl, rfl, rfl⟩

theorem doorbell_sameKernel (s : State) : SameKernel s (doorbell s) :=
  ⟨doorbell_cfg s, doorbell_kerLen s, doorbell_mem s .ker⟩

/-- A soft reset zeroes KER_LEN; a dropped one leaves KER_LEN and KER (40_command.md R115). -/
theorem softReset_kernelOk {s : State} (h : KernelOk s) : KernelOk (softReset s) := by
  cases hp : s.phase with
  | idle => rw [softReset_idle hp]; exact .of_zero rfl
  | busy => rw [softReset_busy hp]; exact h.congr ⟨rfl, rfl, rfl⟩

theorem move_keeps_kernelOk {s t : State} (h : KernelOk s) (m : Move s t) : KernelOk t := by
  have answered : ∀ e, KernelOk (setIrqEn e (respond .okay 0 s)) := fun e => h.congr ⟨rfl, rfl, rfl⟩
  cases m with
  | wait => exact h
  | failed e => exact h.congr ⟨rfl, rfl, rfl⟩
  | completed i _ ok =>
    have hs : s.latch.params.s < 2 ^ 31 := BitVec.toInt_lt
    exact (effectOf_kernelOk h hs ok).congr ⟨rfl, rfl, rfl⟩
  | accessed r => exact h.congr (access_result r s).sameKernel
  | irqEnabled e => exact answered e
  | started e => exact (answered e).congr (doorbell_sameKernel _)
  | softReset e => exact softReset_kernelOk (answered e)
  | poweredOn => exact .of_zero (powerOnReset_kerLen s)

/-- Settles O60: KER and KER_LEN are written by KBUILD's effect alone, in BLUR and CANNY too, or KER_LEN becomes 0. -/
theorem stepKeepsKernel : Obligations.step_keeps_kernel := by
  intro s t hs ht
  obtain ⟨rest, hm⟩ := step_move ht
  have h : KernelOk { s with events := rest } := hs.congr ⟨rfl, rfl, rfl⟩
  exact move_keeps_kernelOk h hm

end Sys2Proof.Machine
end

section
/-!
A command reads LATCH and never the live CMD and parameter registers (10_state.md R26): other values of them pass
through every effect, and so through the completion step.
-/

namespace Sys2Proof.Machine

open Sys2Proof

/-- `s` with other values in CMD, STD_DEV, SIZE_F, THR_HI and THR_LO, the registers a host may write at any time
(10_state.md R38, R39). -/
def withLive (s : State) (cmd stdDev sizeF thrHi thrLo : Word) : State :=
  { s with cmd := cmd, stdDev := stdDev, sizeF := sizeF, thrHi := thrHi, thrLo := thrLo }

section Live

variable (p : Params) (s : State) (c a b h l : Word)

theorem kbuildEffect_withLive : kbuildEffect p (withLive s c a b h l) = withLive (kbuildEffect p s) c a b h l := rfl
theorem fftfImgEffect_withLive (ch : Nat) :
    fftfImgEffect ch p (withLive s c a b h l) = withLive (fftfImgEffect ch p s) c a b h l := rfl
theorem fftfKerEffect_withLive :
    fftfKerEffect p (withLive s c a b h l) = withLive (fftfKerEffect p s) c a b h l := rfl
theorem pmulEffect_withLive : pmulEffect p (withLive s c a b h l) = withLive (pmulEffect p s) c a b h l := rfl
theorem fftiEffect_withLive : fftiEffect p (withLive s c a b h l) = withLive (fftiEffect p s) c a b h l := rfl
theorem wbackEffect_withLive (ch : Nat) :
    wbackEffect ch p (withLive s c a b h l) = withLive (wbackEffect ch p s) c a b h l := rfl
theorem gradEffect_withLive : gradEffect p (withLive s c a b h l) = withLive (gradEffect p s) c a b h l := rfl
theorem nmsEffect_withLive : nmsEffect p (withLive s c a b h l) = withLive (nmsEffect p s) c a b h l := rfl
theorem threshEffect_withLive : threshEffect p (withLive s c a b h l) = withLive (threshEffect p s) c a b h l := rfl
theorem hystEffect_withLive : hystEffect p (withLive s c a b h l) = withLive (hystEffect p s) c a b h l := rfl

theorem cvtRgbEffect_withLive :
    cvtRgbEffect p (withLive s c a b h l) = withLive (cvtRgbEffect p s) c a b h l := by
  unfold cvtRgbEffect
  split <;> rfl

theorem cvtYcbcrEffect_withLive :
    cvtYcbcrEffect p (withLive s c a b h l) = withLive (cvtYcbcrEffect p s) c a b h l := by
  unfold cvtYcbcrEffect
  split <;> rfl

theorem cvtGrayEffect_withLive :
    cvtGrayEffect p (withLive s c a b h l) = withLive (cvtGrayEffect p s) c a b h l := by
  unfold cvtGrayEffect
  split <;> rfl

theorem blurChannel_withLive (ch : Nat) :
    blurChannel p (withLive s c a b h l) ch = withLive (blurChannel p s ch) c a b h l := by
  simp only [blurChannel, fftfImgEffect_withLive, pmulEffect_withLive, fftiEffect_withLive, wbackEffect_withLive]

theorem blurChannels_withLive (chs : List Nat) :
    chs.foldl (blurChannel p) (withLive s c a b h l) = withLive (chs.foldl (blurChannel p) s) c a b h l := by
  induction chs generalizing s with
  | nil => rfl
  | cons ch chs ih => rw [List.foldl_cons, List.foldl_cons, blurChannel_withLive, ih]

theorem blurEffect_withLive : blurEffect p (withLive s c a b h l) = withLive (blurEffect p s) c a b h l := by
  unfold blurEffect
  split
  · exact kbuildEffect_withLive p s c a b h l
  · rw [kbuildEffect_withLive, fftfKerEffect_withLive, blurChannels_withLive]

theorem cannyEffect_withLive : cannyEffect p (withLive s c a b h l) = withLive (cannyEffect p s) c a b h l := by
  unfold cannyEffect
  split <;> simp only [cvtGrayEffect_withLive, blurEffect_withLive, gradEffect_withLive, nmsEffect_withLive,
    threshEffect_withLive, hystEffect_withLive]

theorem effectOf_withLive (i : Instr) :
    effectOf i p (withLive s c a b h l) = withLive (effectOf i p s) c a b h l := by
  cases i with
  | nop | start | srst => rfl
  | cvtRgb => exact cvtRgbEffect_withLive p s c a b h l
  | cvtYcbcr => exact cvtYcbcrEffect_withLive p s c a b h l
  | cvtGray => exact cvtGrayEffect_withLive p s c a b h l
  | kbuild => exact kbuildEffect_withLive p s c a b h l
  | fftfImg ch => exact fftfImgEffect_withLive p s c a b h l ch
  | fftfKer => exact fftfKerEffect_withLive p s c a b h l
  | pmul => exact pmulEffect_withLive p s c a b h l
  | ffti => exact fftiEffect_withLive p s c a b h l
  | wback ch => exact wbackEffect_withLive p s c a b h l ch
  | blur => exact blurEffect_withLive p s c a b h l
  | grad => exact gradEffect_withLive p s c a b h l
  | nms => exact nmsEffect_withLive p s c a b h l
  | thresh => exact threshEffect_withLive p s c a b h l
  | hyst => exact hystEffect_withLive p s c a b h l
  | canny => exact cannyEffect_withLive p s c a b h l

end Live

/-- Settles O16: validation reads LATCH, the parameters and KER_LEN, and the live values pass through the effect. -/
theorem commandsReadOnlyTheLatch : Obligations.commands_read_only_the_latch := by
  intro s t i c a b h l hi ht
  have hcheck : firstFailure (withLive s c a b h l).latch.params (withLive s c a b h l) (checksOf i)
      = firstFailure s.latch.params s (checksOf i) :=
    firstFailure_congr (s := s) (t := withLive s c a b h l) rfl rfl _
  change exec i (withLive s c a b h l) = .next (withLive t c a b h l)
  rw [exec_command hi] at ht ⊢
  rcases runCommand_cases ht with ⟨hok, rfl⟩ | ⟨e, herr, rfl⟩
  · rw [runCommand_ok (hcheck.trans hok)]
    have heffect := effectOf_withLive s.latch.params s c a b h l i
    exact congrArg (fun u => Host.Outcome.next (completeDone u)) heffect
  · rw [runCommand_error (hcheck.trans herr)]
    rfl

end Sys2Proof.Machine
end

section
/-!
The registers at the port (10_state.md R28 to R45; 20_memory.md R70): what a step does with a CSR access, what each
register takes and shows, and the doorbell.
-/

namespace Sys2Proof.Machine

open Sys2Proof

/-! ## A CSR access as a step -/

/-- An aligned word access to the CSR region is let through to it (20_memory.md R70, R72). -/
theorem accessRegion_csr {off : BitVec 28} (hoff : off.toNat < 0x1000) (h4 : off.toNat % 4 = 0) (k : AccessKind)
    (v : Word) : accessRegion { kind := k, off := off, size := .four, wdata := v } = some .csr := by
  have hregion : regionOf off.toNat = some .csr :=
    regionOf_eq_some.2 (inRegion_iff.2 ⟨Nat.zero_le _, hoff⟩)
  have hend : inRegion .csr (off.toNat + 3) = true :=
    inRegion_iff.2 ⟨Nat.zero_le _, by simp only [regionEnd]; omega⟩
  simp [accessRegion, hregion, hend, sizeBytes, h4]

section Csr

variable {s : State} {off : BitVec 28} {v : Word} {rest : List Event} (hoff : off.toNat < 0x1000)
  (h4 : off.toNat % 4 = 0)

include hoff h4

/-- A read of a CSR answers its word and changes nothing (R70, R77). -/
theorem step_csr_read (h : s.events = .bus { kind := .read, off := off, size := .four, wdata := v } :: rest) :
    step s = .next { s with events := rest, resp := some { code := .okay, rdata := csrRead off.toNat s } } := by
  have hr := accessRegion_csr hoff h4 .read v
  rw [step_bus h, busTurn_of_not_ctrl (by rw [ctrlWriteOf, hr])]
  simp only [access, hr]
  rfl

/-- A write to a CSR other than CTRL writes the register and gets OKAY (R70). -/
theorem step_csr_write (h : s.events = .bus { kind := .write, off := off, size := .four, wdata := v } :: rest)
    (hc : off ≠ 0x010) :
    step s = .next (respond .okay 0 (csrWrite off.toNat v { s with events := rest })) := by
  have hr := accessRegion_csr hoff h4 .write v
  have hne : off.toNat ≠ ctrlOffset := fun e => hc (BitVec.eq_of_toNat_eq e)
  rw [step_bus h, busTurn_of_not_ctrl (by simp only [ctrlWriteOf, hr, if_neg hne])]
  simp only [access, hr]
  rfl

end Csr

/-! ## Writes of each register -/

theorem geometryWrite_idle {s : State} (h : s.phase = .idle) (w : State → State) : geometryWrite w s = w s := by
  rw [geometryWrite, h]

theorem geometryWrite_busy {s : State} (h : s.phase = .busy) (w : State → State) :
    geometryWrite w s = flagHazard s := by
  rw [geometryWrite, h]

/-- Read-only and reserved registers ignore writes (10_state.md R31 to R33, R36, R37, R43 to R45). -/
theorem csrWrite_ignored {off : Nat} (h : off ∉ [0x014, 0x020, 0x024, 0x028, 0x02C, 0x030, 0x034, 0x038, 0x03C])
    (v : Word) (s : State) : csrWrite off v s = s := by
  unfold csrWrite
  split
  case h_10 => rfl
  all_goals exact absurd h (by decide)

section Registers

variable {o off : BitVec 28} (v : Word) {s : State}

/-- CMD and the parameter registers read back as written (R38, R39). -/
theorem csrRead_csrWrite_param (h : off ∈ [0x020, 0x030, 0x034, 0x038, 0x03C]) :
    csrRead off.toNat (csrWrite off.toNat v s) = v := by
  simp only [List.mem_cons, List.not_mem_nil, or_false] at h
  rcases h with rfl | rfl | rfl | rfl | rfl <;> simp [csrRead, csrWrite]

/-- A write to one of them leaves the others. -/
theorem csrRead_csrWrite_param_ne (h : off ∈ [0x020, 0x030, 0x034, 0x038, 0x03C])
    (ho : o ∈ [0x020, 0x030, 0x034, 0x038, 0x03C]) (hne : o ≠ off) :
    csrRead o.toNat (csrWrite off.toNat v s) = csrRead o.toNat s := by
  simp only [List.mem_cons, List.not_mem_nil, or_false] at h ho
  rcases h with rfl | rfl | rfl | rfl | rfl
  all_goals rcases ho with rfl | rfl | rfl | rfl | rfl <;> simp [csrRead, csrWrite] at hne ⊢

/-- A write to one of them changes nothing but them. -/
theorem csrWrite_param_frame (h : off ∈ [0x020, 0x030, 0x034, 0x038, 0x03C]) :
    ∃ c a b hi lo, csrWrite off.toNat v s
      = { s with cmd := c, stdDev := a, sizeF := b, thrHi := hi, thrLo := lo } := by
  simp only [List.mem_cons, List.not_mem_nil, or_false] at h
  rcases h with rfl | rfl | rfl | rfl | rfl <;> exact ⟨_, _, _, _, _, rfl⟩

/-- While BUSY a geometry write is dropped with HAZ (R40 to R42). -/
theorem csrWrite_geometry_busy (h : off ∈ [0x024, 0x028, 0x02C]) (hp : s.phase = .busy) :
    csrWrite off.toNat v s = flagHazard s := by
  simp only [List.mem_cons, List.not_mem_nil, or_false] at h
  rcases h with rfl | rfl | rfl <;> simp [csrWrite, geometryWrite_busy hp]

/-- In IDLE a geometry register keeps the low bits of the write (R40 to R42). -/
theorem csrWrite_geometry_idle (h : off ∈ [0x024, 0x028, 0x02C]) (hp : s.phase = .idle) :
    csrWrite off.toNat v s = { s with
      imgW := if off = 0x024 then BitVec.ofNat 16 v.toNat else s.imgW
      imgH := if off = 0x028 then BitVec.ofNat 16 v.toNat else s.imgH
      color := if off = 0x02C then BitVec.ofNat 2 v.toNat else s.color } := by
  simp only [List.mem_cons, List.not_mem_nil, or_false] at h
  rcases h with rfl | rfl | rfl <;> simp [csrWrite, geometryWrite_idle hp, BitVec.extractLsb']

end Registers

/-- Settles O51: a STATUS write is `acknowledge`. -/
theorem statusWriteOneToClear : Obligations.status_write_one_to_clear := by
  intro s v rest he
  have ht : step s = .next (respond .okay 0 (acknowledge v { s with events := rest })) :=
    step_csr_write (by decide) (by decide) he (by decide)
  refine ⟨_, ht, rfl, ?_, ?_, ?_, ?_, ?_⟩ <;> simp [irq]

/-- The registers that a host can write are aligned words of the CSR region. -/
theorem csr_aligned {off : BitVec 28} (h : off ∈ [0x020, 0x024, 0x028, 0x02C, 0x030, 0x034, 0x038, 0x03C]) :
    off.toNat < 0x1000 ∧ off.toNat % 4 = 0 ∧ off ≠ 0x010 := by
  simp only [List.mem_cons, List.not_mem_nil, or_false] at h
  rcases h with rfl | rfl | rfl | rfl | rfl | rfl | rfl | rfl <;> decide

/-- Settles O52: a step with a CSR access is a register write or read, and each kind of register has its lemma. -/
theorem registerWrites : Obligations.register_writes := by
  refine ⟨fun s off v rest he => ⟨fun hm => ?_, fun hm => ?_, fun hoff h4 hm => ?_⟩,
    fun s off v rest he hoff h4 => step_csr_read hoff h4 he⟩
  · obtain ⟨hoff, h4, hc⟩ := csr_aligned (off := off) (by simp at hm ⊢; tauto)
    obtain ⟨c, a, b, hi, lo, hw⟩ := csrWrite_param_frame v (s := { s with events := rest }) hm
    exact ⟨_, step_csr_write hoff h4 he hc, csrRead_csrWrite_param v hm, by rw [hw]; rfl,
      fun o ho hne => csrRead_csrWrite_param_ne v hm ho hne⟩
  · obtain ⟨hoff, h4, hc⟩ := csr_aligned (off := off) (by simp at hm ⊢; tauto)
    rw [step_csr_write hoff h4 he hc]
    refine ⟨fun hp => ?_, fun hp => ?_⟩
    · rw [csrWrite_geometry_busy v (s := { s with events := rest }) hm hp]
      rfl
    · rw [csrWrite_geometry_idle v (s := { s with events := rest }) hm hp]
      rfl
  · have hignored : off.toNat ∉ [0x014, 0x020, 0x024, 0x028, 0x02C, 0x030, 0x034, 0x038, 0x03C] := by
      simp only [List.mem_cons, List.not_mem_nil, or_false, ← BitVec.toNat_inj] at hm ⊢
      exact fun h => hm (.inr h)
    rw [step_csr_write hoff h4 he (by rintro rfl; simp at hm), csrWrite_ignored hignored]
    rfl

/-- Settles O8: START is the doorbell after IRQ_EN. -/
theorem startRings : Obligations.start_rings :=
  fun s e => ⟨fun h => congrArg Host.Outcome.next (doorbell_idle (s := setIrqEn e s) h),
    fun h => congrArg Host.Outcome.next (doorbell_busy (s := setIrqEn e s) h)⟩

end Sys2Proof.Machine
end

section
/-!
What the registers show, in any state and after power-on reset (10_state.md R31 to R45, R55), and the invariants at
reset.
-/

namespace Sys2Proof.Machine

open Sys2Proof

/-! ## Padded sizes -/

/-- pow2ceil(n) is the power of two next to n from above (00_scope.md R10). -/
theorem pow2ceil_eq_pow {n : Nat} (h : 1 ≤ n) : ∃ a, pow2ceil n = 2 ^ a ∧ n ≤ 2 ^ a ∧ 2 ^ a < 2 * n := by
  by_cases h1 : n ≤ 1
  · exact ⟨0, by simp [pow2ceil, h1], by omega, by omega⟩
  · have e : pow2ceil n = 2 ^ (Nat.log2 (n - 1) + 1) := by rw [pow2ceil, if_neg h1]
    have hlog : 2 ^ Nat.log2 (n - 1) ≤ n - 1 := Nat.log2_self_le (by omega)
    refine ⟨_, e, e ▸ le_pow2ceil n, ?_⟩
    rw [Nat.pow_succ]
    omega

/-- A padded dimension of an image in range, as the word that shows it (10_state.md R43). -/
theorem padded_word {n S : Nat} (h1 : 1 ≤ n) (hn : n ≤ 65535) (hS : S ≤ 31) :
    ∃ a, (BitVec.ofNat 32 (padded n (S : Int))).toNat = 2 ^ a ∧ n + 2 * S ≤ 2 ^ a ∧ 2 ^ a < 2 * (n + 2 * S) := by
  obtain ⟨a, e, hle, hlt⟩ := pow2ceil_eq_pow (n := n + 2 * S) (by omega)
  refine ⟨a, ?_, hle, hlt⟩
  rw [padded, Int.toNat_natCast, e, BitVec.toNat_ofNat, Nat.mod_eq_of_lt (by omega)]

/-- MAX_PW and MAX_PH are powers of two whose exponents CAP1 has room for (00_scope.md R6, R7). -/
theorem maxPadded_eq_pow {c : Config} (h : c.InRange) :
    ∃ a b, c.maxPW = 2 ^ a ∧ c.maxPH = 2 ^ b ∧ a + b ≤ 22 := by
  obtain ⟨hw, -, hh, -, -, -, hsize, -⟩ := h
  obtain ⟨a, ha, -⟩ := pow2ceil_eq_pow (n := c.maxW + 2 * c.maxSizeF) (by omega)
  obtain ⟨b, hb, -⟩ := pow2ceil_eq_pow (n := c.maxH + 2 * c.maxSizeF) (by omega)
  refine ⟨a, b, ha, hb, ?_⟩
  rw [Config.maxPW, Config.maxPH, ha, hb, ← pow_add] at hsize
  exact (Nat.pow_le_pow_iff_right (by norm_num)).1 hsize

/-- The condition under which PAD_W and PAD_H show a size (10_state.md R30, R43). -/
theorem padValid_iff {s : State} :
    (geomOK s.cfg s.imgW.toNat s.imgH.toNat s.color && sizeOK s.cfg s.sizeF.toInt) = true ↔
      (1 ≤ s.imgW.toNat ∧ s.imgW.toNat ≤ s.cfg.maxW ∧ 1 ≤ s.imgH.toNat ∧ s.imgH.toNat ≤ s.cfg.maxH ∧ s.color ≠ 3)
        ∧ 0 ≤ s.sizeF.toInt ∧ s.sizeF.toInt ≤ s.cfg.maxSizeF := by
  simp [geomOK, sizeOK, and_assoc]

/-! ## Reads of each register -/

section Reads

variable (s : State)

theorem csrRead_cap0 (h : s.cfg.InRange) : (csrRead 0x004 s).toNat = s.cfg.maxW + 0x10000 * s.cfg.maxH := by
  obtain ⟨-, hw, -, hh, -⟩ := h
  change (BitVec.ofNat 32 (s.cfg.maxW + s.cfg.maxH * 2 ^ 16)).toNat = _
  rw [BitVec.toNat_ofNat]
  omega

theorem csrRead_cap1 (h : s.cfg.InRange) : ∃ a b, s.cfg.maxPW = 2 ^ a ∧ s.cfg.maxPH = 2 ^ b
    ∧ (csrRead 0x008 s).toNat = s.cfg.maxSizeF + 0x100 * a + 0x10000 * b := by
  obtain ⟨a, b, ha, hb, hab⟩ := maxPadded_eq_pow h
  obtain ⟨-, -, -, -, -, hS, -⟩ := h
  refine ⟨a, b, ha, hb, ?_⟩
  change (BitVec.ofNat 32
    (s.cfg.maxSizeF + Nat.log2 s.cfg.maxPW * 2 ^ 8 + Nat.log2 s.cfg.maxPH * 2 ^ 16)).toNat = _
  rw [ha, hb, Nat.log2_two_pow, Nat.log2_two_pow, BitVec.toNat_ofNat]
  omega

theorem busy_eq_decide : s.busy = decide (s.phase = .busy) := by
  unfold State.busy
  split <;> simp [*]

/-- CTRL shows IRQ_EN in bit 2 (10_state.md R34). -/
theorem csrRead_ctrl_bit (i : Nat) : (csrRead 0x010 s).getLsbD i = (decide (i = 2) && s.irqEn) := by
  simp only [csrRead, BitVec.getLsbD_append]
  rcases Nat.lt_or_ge i 3 with hi | hi
  · interval_cases i <;> simp
  · simp [show ¬ i < 2 by omega, show ¬ i - 2 < 1 by omega, show i ≠ 2 by omega]

/-- STATUS shows BUSY, DONE, ERR, OVF and HAZ in bits 0 to 4 (R35). -/
theorem csrRead_status_bit (i : Nat) : (csrRead 0x014 s).getLsbD i =
    ((decide (i = 0) && decide (s.phase = .busy)) || (decide (i = 1) && s.done) || (decide (i = 2) && s.err)
      || (decide (i = 3) && s.ovf) || (decide (i = 4) && s.haz)) := by
  simp only [csrRead, statusWord, BitVec.getLsbD_append, busy_eq_decide]
  rcases Nat.lt_or_ge i 5 with hi | hi
  · interval_cases i <;> simp
  · obtain ⟨j, rfl⟩ := Nat.exists_eq_add_of_le' hi
    simp

/-- IMG_FMT shows COLOR and the channel count of it (R42). -/
theorem csrRead_imgFmt : (csrRead 0x02C s).toNat = s.color.toNat
    + 0x10 * (if s.color = 0 ∨ s.color = 1 then 3 else if s.color = 2 then 1 else 0) := by
  change (BitVec.ofNat 32 (s.color.toNat + channels s.color * 2 ^ 4)).toNat = _
  generalize s.color = color
  revert color
  decide

/-- PAD_W and PAD_H of a live geometry and kernel size in range (R43). -/
theorem csrRead_padded (hc : s.cfg.InRange) {S : Nat} (hS : (S : Int) = s.sizeF.toInt) (hw1 : 1 ≤ s.imgW.toNat)
    (hw : s.imgW.toNat ≤ s.cfg.maxW) (hh1 : 1 ≤ s.imgH.toNat) (hh : s.imgH.toNat ≤ s.cfg.maxH) (hcol : s.color ≠ 3)
    (hSmax : S ≤ s.cfg.maxSizeF) :
    (∃ a, (csrRead 0x040 s).toNat = 2 ^ a ∧ s.imgW.toNat + 2 * S ≤ 2 ^ a ∧ 2 ^ a < 2 * (s.imgW.toNat + 2 * S))
      ∧ ∃ b, (csrRead 0x044 s).toNat = 2 ^ b ∧ s.imgH.toNat + 2 * S ≤ 2 ^ b ∧ 2 ^ b < 2 * (s.imgH.toNat + 2 * S) := by
  have valid := padValid_iff (s := s).2 ⟨⟨hw1, hw, hh1, hh, hcol⟩, by omega, by omega⟩
  obtain ⟨-, hmw, -, hmh, -, hms, -⟩ := hc
  have ew : csrRead 0x040 s = BitVec.ofNat 32 (padded s.imgW.toNat S) := by
    change BitVec.ofNat 32 (padW s) = _
    rw [padW, if_pos valid, hS]
  have eh : csrRead 0x044 s = BitVec.ofNat 32 (padded s.imgH.toNat S) := by
    change BitVec.ofNat 32 (padH s) = _
    rw [padH, if_pos valid, hS]
  rw [ew, eh]
  exact ⟨padded_word hw1 (by omega) (by omega), padded_word hh1 (by omega) (by omega)⟩

/-- PAD_W and PAD_H show 0 where a parameter is out of range (R43). -/
theorem csrRead_padded_zero (h : s.imgW = 0 ∨ s.cfg.maxW < s.imgW.toNat ∨ s.imgH = 0 ∨ s.cfg.maxH < s.imgH.toNat
    ∨ s.color = 3 ∨ s.sizeF.toInt < 0 ∨ (s.cfg.maxSizeF : Int) < s.sizeF.toInt) :
    csrRead 0x040 s = 0 ∧ csrRead 0x044 s = 0 := by
  have invalid : ¬ (geomOK s.cfg s.imgW.toNat s.imgH.toNat s.color && sizeOK s.cfg s.sizeF.toInt) = true := by
    rw [padValid_iff]
    rintro ⟨⟨hw1, hw, hh1, hh, hcol⟩, hS, hSmax⟩
    have hW : s.imgW ≠ 0 := by
      intro e
      simp [e] at hw1
    have hH : s.imgH ≠ 0 := by
      intro e
      simp [e] at hh1
    simp only [hW, hH, hcol, false_or] at h
    omega
  constructor
  · change BitVec.ofNat 32 (padW s) = 0
    rw [padW, if_neg invalid]
    rfl
  · change BitVec.ofNat 32 (padH s) = 0
    rw [padH, if_neg invalid]
    rfl

theorem csrRead_reserved {off : Nat} (h : off ∉ [0x000, 0x004, 0x008, 0x010, 0x014, 0x018, 0x01C, 0x020, 0x024, 0x028,
    0x02C, 0x030, 0x034, 0x038, 0x03C, 0x040, 0x044, 0x048]) : csrRead off s = 0 := by
  unfold csrRead
  split
  case h_19 => rfl
  all_goals exact absurd h (by decide)

end Reads

/-- Settles O53: the table by evaluation, every register in any state by its lemma. -/
theorem resetValues : Obligations.reset_values := by
  refine ⟨by decide, rfl, fun p a => by cases p <;> rfl, fun s hc => ⟨rfl, csrRead_cap0 s hc.1, csrRead_cap1 s hc.1,
    csrRead_ctrl_bit s, csrRead_status_bit s, BitVec.toNat_setWidth_of_le (by decide), rfl, rfl,
    BitVec.toNat_setWidth_of_le (by decide), BitVec.toNat_setWidth_of_le (by decide), csrRead_imgFmt s,
    rfl, rfl, rfl, rfl, ?_, csrRead_padded_zero s, rfl, fun off h => csrRead_reserved s h⟩⟩
  rintro w h S rfl rfl hS hw1 hw hh1 hh hcol hSmax
  exact csrRead_padded s hc.1 hS hw1 hw hh1 hh hcol hSmax

/-! ## The invariants at reset -/

/-- Settles O56: after reset the memories are empty, the flags 0, PHASE IDLE and KER_LEN 0. -/
theorem resetMeetsInvariants : Obligations.reset_meets_invariants := by
  refine ⟨fun c => ⟨⟨fun p => ?_, fun p => ?_, nofun, nofun⟩, ⟨nofun, nofun, Nat.zero_le _, nofun, fun _ => rfl⟩,
    .of_idle rfl, .of_zero rfl⟩, rfl⟩
  · cases p <;> exact .nil
  · cases p <;> exact nofun

end Sys2Proof.Machine
end

section
/-!
The windows at the port (20_memory.md R60 to R76): which accesses are turned away, what a step does with a window
access while BUSY and in IDLE, and what each window shows.
-/

namespace Sys2Proof.Machine

open Sys2Proof

/-! ## Accesses turned away, and accesses that get OKAY -/

theorem accessRegion_of_bad {r : BusReq} (h : BadAccess r) : accessRegion r = none := by
  rcases accessRegion_eq r with ⟨-, hr⟩ | ⟨g, hgood, -⟩
  · exact hr
  · exact absurd h hgood

theorem accessRegion_of_not_bad {r : BusReq} (h : ¬ BadAccess r) :
    ∃ g, accessRegion r = some g ∧ inRegion g r.off.toNat = true := by
  rcases accessRegion_eq r with ⟨hbad, -⟩ | ⟨g, -, hg, hin, -⟩
  · exact absurd hbad h
  · exact ⟨g, hg, hin⟩

/-- Only an access to the CSR region can be a write to CTRL. -/
theorem ctrlWriteOf_of_not_csr {r : BusReq} (h : accessRegion r ≠ some .csr) : ctrlWriteOf r = none := by
  unfold ctrlWriteOf
  split
  · next hr _ => exact absurd hr h
  · rfl

theorem access_of_none {r : BusReq} (h : accessRegion r = none) (s : State) : access r s = respond .slverr 0 s := by
  rw [access, h]

theorem access_of_window {r : BusReq} {g : Region} (h : accessRegion r = some g) (hg : g ≠ .csr) (s : State) :
    access r s = windowAccess g r s := by
  unfold access
  split
  · next hr => rw [hr] at h; cases h
  · next hr => rw [hr] at h; cases h; exact absurd rfl hg
  · next hr => rw [hr] at h; cases h; rfl

/-- An access that is let through gets OKAY. -/
theorem access_okay {r : BusReq} {g : Region} (h : accessRegion r = some g) (s : State) :
    ∃ v, (access r s).resp = some { code := .okay, rdata := v } := by
  by_cases hg : g = .csr
  · subst hg
    rw [access, h]
    change ∃ v, (csrAccess r s).resp = _
    unfold csrAccess
    split <;> exact ⟨_, rfl⟩
  · rw [access_of_window h hg]
    unfold windowAccess
    split
    · exact ⟨_, rfl⟩
    · unfold windowRead
      dsimp only
      split <;> exact ⟨_, rfl⟩
    · exact ⟨_, rfl⟩

theorem isControl_of_decodeControl {v : Word} {i : Instr} (h : decodeControl v = some i) : i.isControl = true := by
  unfold decodeControl at h
  split at h
  · cases h; rfl
  · split at h <;> cases h
    rfl

/-- START and SRST leave the answer of the CTRL write that they are (30_encoding.md R100). -/
theorem exec_control_resp {i : Instr} (h : i.isControl = true) (s : State) :
    ∃ t, exec i s = .next t ∧ t.resp = s.resp := by
  cases i with
  | start e =>
    refine ⟨doorbell (setIrqEn e s), rfl, ?_⟩
    unfold doorbell
    split <;> rfl
  | srst e =>
    refine ⟨softReset (setIrqEn e s), rfl, ?_⟩
    unfold softReset
    split <;> rfl
  | _ => cases h

/-- A write to CTRL gets OKAY, whichever control operation it asks for (10_state.md R34). -/
theorem busTurn_ctrl_okay {r : BusReq} {v : Word} (h : ctrlWriteOf r = some v) (s : State) :
    ∃ t, (busTurn r s).outcome = .next t ∧ t.resp = some { code := .okay, rdata := 0 } := by
  rw [busTurn, h]
  dsimp only
  cases hd : decodeControl v with
  | none => exact ⟨_, rfl, rfl⟩
  | some i => exact exec_control_resp (isControl_of_decodeControl hd) (respond .okay 0 s)

section Step

variable {s : State} {r : BusReq} {rest : List Event} (he : s.events = .bus r :: rest)

include he

/-- A step whose next input is an access that is no CTRL write. -/
theorem step_access (h : ctrlWriteOf r = none) : step s = .next (access r { s with events := rest }) := by
  rw [step_bus he, busTurn_of_not_ctrl h]

/-- A step with an access that the checks of R70 turn away. -/
theorem step_bad_access (h : BadAccess r) : step s = .next (respond .slverr 0 { s with events := rest }) := by
  have hr := accessRegion_of_bad h
  rw [step_access he (ctrlWriteOf_of_not_csr (by rw [hr]; exact nofun)), access_of_none hr]

/-- A step with an access to a window. -/
theorem step_window {g : Region} (hr : accessRegion r = some g) (hg : g ≠ .csr) :
    step s = .next (windowAccess g r { s with events := rest }) := by
  have hcsr : accessRegion r ≠ some .csr := fun h => hg (Option.some.inj (hr.symm.trans h))
  rw [step_access he (ctrlWriteOf_of_not_csr hcsr), access_of_window hr hg]

/-- A step with an access that passes the checks of R70. -/
theorem step_good_access (h : ¬ BadAccess r) :
    ∃ t v, step s = .next t ∧ t.resp = some { code := .okay, rdata := v } := by
  obtain ⟨g, hr, -⟩ := accessRegion_of_not_bad h
  cases hc : ctrlWriteOf r with
  | none =>
    obtain ⟨v, hv⟩ := access_okay hr { s with events := rest }
    exact ⟨_, v, step_access he hc, hv⟩
  | some v =>
    obtain ⟨t, ht, hresp⟩ := busTurn_ctrl_okay hc { s with events := rest }
    refine ⟨t, 0, ?_, hresp⟩
    rw [step_eq_outcome, nextTurn, he]
    exact ht

end Step

/-- Settles O48: the checks of R70 turn away the accesses of `BadAccess` and no other. -/
theorem badAccessesHaveNoEffect : Obligations.bad_accesses_have_no_effect :=
  fun _ _ _ he => ⟨step_bad_access he, step_good_access he⟩

/-! ## A window access by phase -/

theorem windowAccess_busy {s : State} (h : s.phase = .busy) (g : Region) (r : BusReq) :
    windowAccess g r s = respond .okay 0 (flagHazard s) := by
  simp only [windowAccess, h]

theorem windowAccess_read {s : State} {r : BusReq} (h : s.phase = .idle) (hk : r.kind = .read) (g : Region) :
    windowAccess g r s = windowRead g (r.off.toNat - regionBase g) (sizeBytes r.size) s := by
  simp only [windowAccess, h, hk]

theorem windowAccess_write {s : State} {r : BusReq} (h : s.phase = .idle) (hk : r.kind = .write) (g : Region) :
    windowAccess g r s
      = respond .okay 0 (memWrite s (r.off.toNat - regionBase g) (sizeBytes r.size) r.wdata) := by
  simp only [windowAccess, h, hk]

/-- Settles O49: an access past the CSR region that passes the checks is a window access. -/
theorem busyWindowsAreBlocked : Obligations.busy_windows_are_blocked := by
  intro s r rest he hbusy hgood hoff
  obtain ⟨g, hr, hin⟩ := accessRegion_of_not_bad hgood
  have hg : g ≠ .csr := by
    rintro rfl
    have : r.off.toNat < 0x1000 := (inRegion_iff.1 hin).2
    omega
  rw [step_window he hr hg, windowAccess_busy (s := { s with events := rest }) hbusy]
  rfl

/-- The accesses that are let through to a window (R70 to R74). -/
theorem accessRegion_window {r : BusReq} {g : Region} (hg : g ≠ .csr) (hbase : regionBase g ≤ r.off.toNat)
    (hend : r.off.toNat + sizeBytes r.size ≤ regionEnd g) (halign : r.off.toNat % sizeBytes r.size = 0)
    (hk : r.kind = .write → g = .pix) : accessRegion r = some g := by
  have hn := sizeBytes_cases r.size
  have hwindow : 0x1000 ≤ regionBase g := by
    cases g with
    | csr => exact absurd rfl hg
    | _ => decide
  rcases accessRegion_eq r with ⟨hbad, -⟩ | ⟨k, -, hr, hin, -⟩
  · rcases hbad with hout | hcsr | hmis | ⟨hw, -, hpix⟩
    · exact absurd ⟨hbase, hend⟩ (hout g)
    · omega
    · exact absurd halign hmis.2
    · rw [hk hw] at hbase hend
      simp only [regionBase, regionEnd] at hbase hend
      omega
  · have hing : inRegion g r.off.toNat = true := inRegion_iff.2 ⟨hbase, by omega⟩
    rw [hr, inRegion_unique hin hing]

/-- Window bases are aligned to every access size (R60, R73). -/
theorem window_offset_mod {g : Region} {i : Nat} (z : Size) (h : i % sizeBytes z = 0) :
    (regionBase g + i) % sizeBytes z = 0 := by
  have hbase : 4 ∣ regionBase g := by cases g <;> decide
  have hz : sizeBytes z ∣ 4 := by cases z <;> decide
  rw [Nat.add_mod, Nat.mod_eq_zero_of_dvd (hz.trans hbase), h, Nat.zero_add, Nat.zero_mod]

/-! ## Little-endian bytes of a word -/

theorem fromLE_lt (bs : List Byte) : fromLE bs < 256 ^ bs.length := by
  induction bs with
  | nil => decide
  | cons b bs ih =>
    have := b.isLt
    simp only [fromLE, List.length_cons, pow_succ]
    omega

theorem fromLE_div_mod (bs : List Byte) (m : Nat) : fromLE bs / 256 ^ m % 256 = (bs[m]?.getD 0).toNat := by
  induction bs generalizing m with
  | nil => simp [fromLE]
  | cons b bs ih =>
    have := b.isLt
    cases m with
    | zero =>
      simp only [fromLE, pow_zero, Nat.div_one, List.getElem?_cons_zero, Option.getD_some]
      omega
    | succ m =>
      rw [fromLE, pow_succ', ← Nat.div_div_eq_div_mul, List.getElem?_cons_succ, ← ih m]
      congr 2
      omega

/-- Byte `m` of the word that at most four bytes spell. -/
theorem extractLsb'_fromLE {bs : List Byte} (h : bs.length ≤ 4) (m : Nat) :
    (BitVec.ofNat 32 (fromLE bs)).extractLsb' (8 * m) 8 = bs[m]?.getD 0 := by
  have hlt : fromLE bs < 2 ^ 32 :=
    (fromLE_lt bs).trans_le ((Nat.pow_le_pow_right (by decide) h).trans (by decide))
  apply BitVec.eq_of_toNat_eq
  rw [BitVec.extractLsb'_toNat, BitVec.toNat_ofNat, Nat.mod_eq_of_lt hlt, Nat.shiftRight_eq_div_pow, pow_mul,
    show (2 : Nat) ^ 8 = 256 by decide, fromLE_div_mod]

theorem getElem_leBytes (n v : Nat) {m : Nat} (h : m < (leBytes n v).length) :
    (leBytes n v)[m] = BitVec.ofNat 8 (v / 256 ^ m) := by
  induction n generalizing v m with
  | zero => exact absurd h (Nat.not_lt_zero m)
  | succ n ih =>
    cases m with
    | zero => simp [leBytes]
    | succ m => simp only [leBytes, List.getElem_cons_succ, ih, pow_succ', Nat.div_div_eq_div_mul]

/-! ## What a window read answers -/

/-- A window read puts byte m of the window run into byte lane m and zeros above (R63, R70; 10_state.md R22). -/
theorem memRead_byte (s : State) (g : Region) (i : Nat) {n : Nat} (hn : n ≤ 4) (m : Nat) :
    (memRead s g i n).extractLsb' (8 * m) 8 = if m < n then windowByte s g (i + m) else 0 := by
  rw [memRead, extractLsb'_fromLE (by simpa using hn)]
  by_cases h : m < n <;> simp [h]

/-- A window read answers and may draw a free value; it changes nothing else. -/
theorem windowRead_eq (g : Region) (i n : Nat) (s : State) :
    windowRead g i n s = { s with draws := (windowRead g i n s).draws
                                  resp := some { code := .okay, rdata := memRead s g i n } } := by
  unfold windowRead
  dsimp only
  split <;> rfl

theorem windowRead_of_written {g : Region} {i n : Nat} {s : State} (h : allWritten s g i n = true) :
    windowRead g i n s = respond .okay (memRead s g i n) s := by
  rw [windowRead, if_pos h]

/-! ## What the windows show -/

theorem mem_of_read {m : Memory} {a : Nat} {b : Byte} (h : Memory.read m a = some b) : (a, b) ∈ m := by
  induction m with
  | nil => cases h
  | cons c m ih =>
    obtain ⟨k, v⟩ := c
    rw [Memory.read] at h
    split at h
    · next hk => cases h; rw [hk]; exact List.mem_cons_self
    · exact List.mem_cons_of_mem _ (ih h)

/-- Every byte of DIR, written or not, is a two-bit code (10_state.md R50, R56). -/
theorem byteAt_dir_lt {s : State} (h : MemoriesOk s) (j : Nat) : (s.byteAt .dir j).toNat < 4 := by
  rw [State.byteAt, byteIn, State.mem_dir]
  cases hr : Memory.read s.dir j with
  | some b => exact h.dirCodes _ (mem_of_read hr)
  | none => exact toNat_ofNat_lt (Nat.mod_lt _ (by decide))

/-- The AUX byte CLS << 2 | DIR as a sum (R61). -/
theorem aux_byte {d : Byte} (hd : d.toNat < 4) (c : Byte) :
    BitVec.ofNat 8 (c.toNat * 4 + d.toNat) = c <<< 2 ||| d := by
  apply BitVec.eq_of_toNat_eq
  calc (BitVec.ofNat 8 (c.toNat * 4 + d.toNat)).toNat
      = (c.toNat <<< 2 + d.toNat) % 2 ^ 8 := by rw [BitVec.toNat_ofNat, Nat.shiftLeft_eq]
    _ = c.toNat <<< 2 % 2 ^ 8 ||| d.toNat % 2 ^ 8 := by
        rw [Nat.shiftLeft_add_eq_or_of_lt hd, Nat.or_mod_two_pow]
    _ = (c <<< 2 ||| d).toNat := by
        rw [BitVec.toNat_or, BitVec.toNat_shiftLeft, Nat.mod_eq_of_lt d.isLt]

theorem shownByte_of_lt {s : State} {p : Plane} {j : Nat} (h : j < planeSize s.cfg p) :
    shownByte s p j = s.byteAt p j := if_pos h

/-- Every memory fits its window (00_scope.md R7). -/
theorem regionBase_add_planeSize_le {c : Config} (hc : c.InRange) {g : Region} {p : Plane}
    (hp : p ∈ windowPlanes g) : regionBase g + planeSize c p ≤ regionEnd g := by
  obtain ⟨-, -, -, -, hpixels, hsizeF, hpadded, -⟩ := hc
  cases g <;> simp only [windowPlanes, List.mem_cons, List.not_mem_nil, or_false] at hp
  case aux =>
    rcases hp with rfl | rfl <;> simp only [regionBase, regionEnd, planeSize] <;> omega
  all_goals
    subst hp
    simp only [regionBase, regionEnd, planeSize, Nat.mul_assoc]
    omega

/-- Each window of `windows` lies in a region of its own and shows what the port reads there (R60, R61, R65). -/
theorem window_region {s : State} {w : Window} (hc : s.cfg.InRange) (h : MemoriesOk s) (hw : w ∈ windows s) :
    ∃ g, g ≠ .csr ∧ w.base = regionBase g ∧ w.base + w.size ≤ regionEnd g
      ∧ ∀ j, j < w.size → windowByte s g j = w.shows j := by
  simp only [windows, List.mem_cons, List.not_mem_nil, or_false] at hw
  have fits := fun g p => regionBase_add_planeSize_le hc (g := g) (p := p)
  rcases hw with rfl | rfl | rfl | rfl | rfl | rfl
  · exact ⟨.ker, nofun, rfl, Nat.le_refl _, fun j _ => rfl⟩
  · exact ⟨.pix, nofun, rfl, fits .pix .pix (by decide), fun j hj => shownByte_of_lt hj⟩
  · exact ⟨.mag, nofun, rfl, fits .mag .mag (by decide), fun j hj => shownByte_of_lt hj⟩
  · refine ⟨.aux, nofun, rfl, fits .aux .dir (by decide), fun j hj => ?_⟩
    rw [windowByte, shownByte_of_lt (p := .cls) hj, shownByte_of_lt (p := .dir) hj, aux_byte (byteAt_dir_lt h j)]
  · exact ⟨.planeA, nofun, rfl, fits .planeA .a (by decide), fun j hj => shownByte_of_lt hj⟩
  · exact ⟨.planeK, nofun, rfl, fits .planeK .k (by decide), fun j hj => shownByte_of_lt hj⟩

theorem memRead_events (s : State) (rest : List Event) (g : Region) (i n : Nat) :
    memRead { s with events := rest } g i n = memRead s g i n := by cases g <;> rfl

/-- In IDLE an aligned read inside a window answers the bytes of the window (R70). -/
theorem step_window_read {s : State} {r : BusReq} {rest : List Event} {g : Region} {i : Nat}
    (he : s.events = .bus r :: rest) (hidle : s.phase = .idle) (hk : r.kind = .read) (hg : g ≠ .csr)
    (hoff : r.off.toNat = regionBase g + i) (hend : r.off.toNat + sizeBytes r.size ≤ regionEnd g)
    (halign : i % sizeBytes r.size = 0) :
    step s = .next (windowRead g i (sizeBytes r.size) { s with events := rest }) := by
  have hr : accessRegion r = some g :=
    accessRegion_window hg (by omega) hend (hoff ▸ window_offset_mod _ halign) (fun h => by rw [hk] at h; cases h)
  rw [step_window he hr hg, windowAccess_read (s := { s with events := rest }) hidle hk, hoff, Nat.add_sub_cancel_left]

/-! ## PIX -/

/-- A write inside PIX stores all its bytes (R64). -/
theorem memWrite_pix {s : State} {i n : Nat} (h : i + n ≤ planeSize s.cfg .pix) (v : Word) :
    memWrite s i n v = s.store .pix [(i, leBytes n v.toNat)] := by
  rw [memWrite, List.take_of_length_le (by rw [length_leBytes]; omega)]

/-- In IDLE an aligned write inside PIX stores its bytes and gets OKAY (R64, R70). -/
theorem step_pix_write {s : State} {r : BusReq} {rest : List Event} {i : Nat}
    (he : s.events = .bus r :: rest) (hidle : s.phase = .idle) (hc : s.cfg.InRange) (hk : r.kind = .write)
    (hoff : r.off.toNat = regionBase .pix + i) (hfit : i + sizeBytes r.size ≤ planeSize s.cfg .pix)
    (halign : i % sizeBytes r.size = 0) :
    step s = .next (respond .okay 0
      (({ s with events := rest } : State).store .pix [(i, leBytes (sizeBytes r.size) r.wdata.toNat)])) := by
  have hend := regionBase_add_planeSize_le hc (g := .pix) (p := .pix) (by decide)
  have hr : accessRegion r = some .pix :=
    accessRegion_window nofun (by omega) (by omega) (hoff ▸ window_offset_mod _ halign) (fun _ => rfl)
  rw [step_window he hr nofun, windowAccess_write (s := { s with events := rest }) hidle hk, hoff,
    Nat.add_sub_cancel_left, memWrite_pix (s := { s with events := rest }) hfit]

/-- A read of PIX bytes that are written answers their number and draws no free value. -/
theorem windowRead_pix_of_holds {s : State} {i : Nat} {bs : List Byte} (h : HoldsRun s.pix i bs)
    (hfit : i + bs.length ≤ planeSize s.cfg .pix) :
    windowRead .pix i bs.length s = respond .okay (BitVec.ofNat 32 (fromLE bs)) s := by
  have hword : memRead s .pix i bs.length = BitVec.ofNat 32 (fromLE bs) := by
    rw [← leIn_of_read (draw := s.draws) (p := .pix) rfl h, memRead, leIn]
    refine congrArg (BitVec.ofNat 32) (congrArg fromLE (List.map_congr_left fun j hj => ?_))
    have := List.mem_range.1 hj
    exact shownByte_of_lt (by omega)
  rw [windowRead_of_written, hword]
  simp only [allWritten, List.all_eq_true, List.mem_range]
  intro j hj c hc
  simp only [windowCells, windowPlanes, List.mem_map, List.mem_filter, List.mem_singleton] at hc
  obtain ⟨p, ⟨rfl, -⟩, rfl⟩ := hc
  rw [State.mem_pix, h j hj]
  rfl

/-- In IDLE an aligned read of PIX bytes that are written answers their number and changes nothing (R63, R70). -/
theorem step_pix_read {s : State} {r : BusReq} {rest : List Event} {i : Nat} {bs : List Byte}
    (he : s.events = .bus r :: rest) (hidle : s.phase = .idle) (hc : s.cfg.InRange) (hk : r.kind = .read)
    (hoff : r.off.toNat = regionBase .pix + i) (hlen : bs.length = sizeBytes r.size)
    (hfit : i + sizeBytes r.size ≤ planeSize s.cfg .pix) (halign : i % sizeBytes r.size = 0)
    (hholds : HoldsRun s.pix i bs) :
    step s = .next (respond .okay (BitVec.ofNat 32 (fromLE bs)) { s with events := rest }) := by
  have hend := regionBase_add_planeSize_le hc (g := .pix) (p := .pix) (by decide)
  rw [step_window_read (g := .pix) he hidle hk nofun hoff (by omega) halign, ← hlen,
    windowRead_pix_of_holds (s := { s with events := rest }) hholds (hlen ▸ hfit)]

/-- Settles O50: a PIX write and the read after it are `step_pix_write` and `step_pix_read`, any window read is
`step_window_read` of the region that `window_region` gives. -/
theorem pixWriteThenRead : Obligations.pix_write_then_read := by
  refine ⟨fun s r i n rest he hidle hc hk hoff hn hfit halign => ?_,
    fun s r i n w rest he hidle hc hmem hk hw hoff hn hfit halign => ?_⟩
  · subst hn
    have hholds : HoldsRun (Memory.writeRun s.pix i (leBytes (sizeBytes r.size) r.wdata.toNat)) i
        (leBytes (sizeBytes r.size) r.wdata.toNat) := fun j hj => Memory.read_writeRun_inside hj
    refine ⟨_, _, step_pix_write he hidle hc.1 hk hoff hfit halign,
      step_pix_read rfl hidle hc.1 rfl hoff (length_leBytes _ _) hfit halign hholds,
      fun m hm => ?_, fun a ha => ?_, rfl, ?_⟩
    · have hlen : m < (leBytes (sizeBytes r.size) r.wdata.toNat).length := by rwa [length_leBytes]
      rw [← getElem_leBytes _ _ hlen]
      exact hholds m hlen
    · refine Memory.read_writeRun_outside ?_
      rw [length_leBytes]
      unfold InRun at ha
      omega
    · rw [fromLE_leBytes]
      rfl
  · subst hn
    obtain ⟨g, hg, hbase, hend, hshows⟩ := window_region hc.1 hmem hw
    refine ⟨_, memRead s g i (sizeBytes r.size),
      step_window_read he hidle hk hg (hbase ▸ hoff) (by omega) halign, ?_, fun m _ => ?_⟩
    · rw [← memRead_events s rest]
      exact windowRead_eq g i _ _
    · have hsize : sizeBytes r.size ≤ 4 := by rcases sizeBytes_cases r.size with h | h | h <;> omega
      rw [memRead_byte s g i hsize m]
      split
      · exact hshows _ (by omega)
      · rfl

end Sys2Proof.Machine
end

section
/-!
The words (30_encoding.md R90 to R101): the fields of a command word as numbers, the decoder as the inverse of the
encoder, the CTRL values, and the step that meets an ILLEGAL word.
-/

namespace Sys2Proof.Machine

open Sys2Proof

/-! ## The fields of a command word -/

theorem opField_eq (w : Word) : opField w = w.toNat % 256 := by
  simp [opField]

theorem chField_eq (w : Word) : chField w = w.toNat / 256 % 4 := by
  simp [chField, Nat.shiftRight_eq_div_pow]

theorem res0Field_eq (w : Word) : res0Field w = w.toNat / 1024 % 4 := by
  simp [res0Field, Nat.shiftRight_eq_div_pow]

theorem tgtField_eq (w : Word) : tgtField w = w.toNat / 4096 % 4 := by
  simp [tgtField, Nat.shiftRight_eq_div_pow]

theorem res1Field_eq (w : Word) : res1Field w = w.toNat / 16384 := by
  have : w.toNat < 2 ^ 32 := w.isLt
  simp only [res1Field, BitVec.extractLsb_toNat, Nat.shiftRight_eq_div_pow]
  omega

/-- Putting `y` below `x` is an addition of numbers, since the bits of the two do not meet. -/
theorem toNat_append_eq_add {m n : Nat} (x : BitVec m) (y : BitVec n) :
    (x ++ y).toNat = x.toNat * 2 ^ n + y.toNat := by
  rw [BitVec.toNat_append, ← Nat.shiftLeft_add_eq_or_of_lt y.isLt, Nat.shiftLeft_eq]

/-- `OP | CH << 8 | TGT << 12` as a number (R101). -/
theorem commandWord_toNat {op ch tgt : Nat} (hop : op < 256) (hch : ch < 4) (htgt : tgt < 4) :
    (commandWord op ch tgt).toNat = op + 256 * ch + 4096 * tgt := by
  simp only [commandWord, toNat_append_eq_add, BitVec.toNat_ofNat]
  omega

/-- A word with zeros in RES0 and RES1 is made of its other three fields (R90, R94). -/
theorem commandWord_fields {w : Word} (h0 : res0Field w = 0) (h1 : res1Field w = 0) :
    commandWord (opField w) (chField w) (tgtField w) = w := by
  rw [res0Field_eq] at h0
  rw [res1Field_eq] at h1
  rw [opField_eq, chField_eq, tgtField_eq]
  apply BitVec.eq_of_toNat_eq
  rw [commandWord_toNat (by omega) (by omega) (by omega)]
  omega

/-- On a word with nothing in its reserved fields the decoder is the opcode map on the other three (R95, R96). -/
theorem decodeCommand_commandWord {op ch tgt : Nat} (hop : op < 256) (hch : ch < 4) (htgt : tgt < 4) :
    decodeCommand (commandWord op ch tgt) = decodeFields op ch tgt := by
  have hw := commandWord_toNat hop hch htgt
  have h0 : res0Field (commandWord op ch tgt) = 0 := by rw [res0Field_eq]; omega
  have h1 : res1Field (commandWord op ch tgt) = 0 := by rw [res1Field_eq]; omega
  have hfields : opField (commandWord op ch tgt) = op ∧ chField (commandWord op ch tgt) = ch
      ∧ tgtField (commandWord op ch tgt) = tgt := by
    rw [opField_eq, chField_eq, tgtField_eq]
    omega
  obtain ⟨eop, ech, etgt⟩ := hfields
  simp [decodeCommand, h0, h1, eop, ech, etgt]

/-! ## What each kind of row accepts -/

theorem plainCommand_eq_ok {i j : Instr} {ch tgt : Nat} :
    plainCommand i ch tgt = .ok j ↔ ch = 0 ∧ tgt = 0 ∧ j = i := by
  unfold plainCommand
  split_ifs <;> simp_all [eq_comm]

theorem channelCommand_eq_ok {f : Nat → Instr} {j : Instr} {ch tgt : Nat} :
    channelCommand f ch tgt = .ok j ↔ tgt = 0 ∧ j = f ch := by
  unfold channelCommand
  split_ifs <;> simp_all [eq_comm]

theorem cvtCommand_eq_ok {j : Instr} {ch tgt : Nat} : cvtCommand ch tgt = .ok j ↔
    ch = 0 ∧ (tgt = 0 ∧ j = .cvtRgb ∨ tgt = 1 ∧ j = .cvtYcbcr ∨ tgt = 2 ∧ j = .cvtGray) := by
  unfold cvtCommand
  split_ifs
  · simp_all
  · split <;> simp_all [eq_comm]

/-! ## The decoder and the encoder -/

/-- A row of the opcode map yields the instruction that the encoder spells with the row's own fields (R95). -/
theorem encode_of_decodeFields {op ch tgt : Nat} {i : Instr} (hch : ch < 4) (h : decodeFields op ch tgt = .ok i) :
    i.wf = true ∧ encode i = commandWord op ch tgt := by
  unfold decodeFields at h
  split at h
  case h_2 =>
    obtain ⟨rfl, ⟨rfl, rfl⟩ | ⟨rfl, rfl⟩ | ⟨rfl, rfl⟩⟩ := cvtCommand_eq_ok.1 h <;> exact ⟨rfl, rfl⟩
  case h_4 | h_8 =>
    obtain ⟨rfl, rfl⟩ := channelCommand_eq_ok.1 h
    exact ⟨decide_eq_true hch, rfl⟩
  case h_15 => cases h
  all_goals
    obtain ⟨rfl, rfl, rfl⟩ := plainCommand_eq_ok.1 h
    exact ⟨rfl, rfl⟩

/-- The fields of every well-formed command lie in their ranges, and the opcode map reads them back (R92, R93, R95). -/
theorem decodeCommand_encode {i : Instr} (hwf : i.wf = true) (hi : i.isControl = false) :
    decodeCommand (encode i) = .ok i := by
  cases i with
  | start e => cases hi
  | srst e => cases hi
  | fftfImg ch => exact decodeCommand_commandWord (by decide) (of_decide_eq_true hwf) (by decide)
  | wback ch => exact decodeCommand_commandWord (by decide) (of_decide_eq_true hwf) (by decide)
  | _ => exact decodeCommand_commandWord (by decide) (by decide) (by decide)

/-- A word decodes to `i` exactly when `i` is a well-formed command and the word is the one it spells: the decoder
accepts no second spelling (R95, R98). -/
theorem decodeCommand_eq_ok {w : Word} {i : Instr} :
    decodeCommand w = .ok i ↔ i.wf = true ∧ i.isControl = false ∧ w = encode i := by
  refine ⟨fun h => ?_, fun ⟨hwf, hi, hw⟩ => hw ▸ decodeCommand_encode hwf hi⟩
  have hi := isControl_of_decodeCommand h
  unfold decodeCommand at h
  split at h
  · cases h
  · next hres =>
    obtain ⟨h0, h1⟩ := not_or.1 hres
    have hch : chField w < 4 := by rw [chField_eq]; omega
    obtain ⟨hwf, hw⟩ := encode_of_decodeFields hch h
    exact ⟨hwf, hi, by rw [hw, commandWord_fields (not_not.1 h0) (not_not.1 h1)]⟩

/-! ## The CTRL values -/

/-- Settles O4: the two tests of `decodeControl`, in their order. -/
theorem controlValues : Obligations.control_values := by
  refine fun v => ⟨fun h1 => ?_, fun h0 h1 => ?_, fun h0 h1 => ?_⟩
  · simp only [decodeControl, h1, if_true]
  · simp only [decodeControl, h0, h1, Bool.false_eq_true, if_false, if_true]
  · simp only [decodeControl, h0, h1, Bool.false_eq_true, if_false]

/-- The three bits of a CTRL value (10_state.md R34). -/
theorem controlValue_bits (irqEn srst start : Bool) :
    (controlValue irqEn srst start).getLsbD 0 = start ∧ (controlValue irqEn srst start).getLsbD 1 = srst
      ∧ (controlValue irqEn srst start).getLsbD 2 = irqEn := by
  revert irqEn srst start
  decide

theorem decodeControl_encode {i : Instr} (hi : i.isControl = true) : decodeControl (encode i) = some i := by
  cases i with
  | start e =>
    obtain ⟨h0, h1, h2⟩ := controlValue_bits e false true
    rw [encode, (controlValues _).2.1 h0 h1, h2]
  | srst e =>
    obtain ⟨-, h1, h2⟩ := controlValue_bits e true false
    rw [encode, (controlValues _).1 h1, h2]
  | _ => cases hi

/-- Settles O1: a command word goes through the opcode map, a control operation through the bits of CTRL. -/
theorem decodeEncode : Obligations.decode_encode :=
  fun _ hwf => ⟨decodeCommand_encode hwf, decodeControl_encode⟩

/-! ## The opcode table -/

/-- The channel stands in bits [9:8] of the word (R90, R92). -/
theorem commandWord_channel {op ch : Nat} (hop : op < 256) (hch : ch < 4) :
    commandWord op ch 0 = BitVec.ofNat 32 op + BitVec.ofNat 32 0x100 * BitVec.ofNat 32 ch := by
  apply BitVec.eq_of_toNat_eq
  rw [commandWord_toNat hop hch (by decide)]
  simp only [BitVec.toNat_add, BitVec.toNat_mul, BitVec.toNat_ofNat]
  omega

/-- A row of the table that gives the word of a command as `v`. -/
theorem decodeCommand_row {w v : Word} {i : Instr} (hi : i.isControl = false) (hv : i.wf = true → encode i = v) :
    decodeCommand w = .ok i ↔ i.wf = true ∧ w = v := by
  rw [decodeCommand_eq_ok]
  exact and_congr_right fun hwf => by rw [hv hwf, and_iff_right hi]

/-- Settles O2: each row is the word that the encoder spells. -/
theorem opcodeMap : Obligations.opcode_map := by
  intro w i
  cases i with
  | start e => exact ⟨fun h => (nomatch isControl_of_decodeCommand h), False.elim⟩
  | srst e => exact ⟨fun h => (nomatch isControl_of_decodeCommand h), False.elim⟩
  | fftfImg ch =>
    have row := decodeCommand_row (w := w) (i := .fftfImg ch) rfl fun hwf =>
      commandWord_channel (op := 0x10) (by decide) (of_decide_eq_true hwf)
    exact row.trans (and_congr_left' decide_eq_true_iff)
  | wback ch =>
    have row := decodeCommand_row (w := w) (i := .wback ch) rfl fun hwf =>
      commandWord_channel (op := 0x14) (by decide) (of_decide_eq_true hwf)
    exact row.trans (and_congr_left' decide_eq_true_iff)
  | _ => exact (decodeCommand_row rfl fun _ => rfl).trans (and_iff_right rfl)

/-- Settles O3: the listed words are rows of the table, and each ILLEGAL word fails one of the tests of R96. -/
theorem exampleWords : Obligations.example_words := by
  refine ⟨(opcodeMap _ .nop).2 rfl, (opcodeMap _ .cvtRgb).2 rfl, (opcodeMap _ .cvtYcbcr).2 rfl,
    (opcodeMap _ .cvtGray).2 rfl, (opcodeMap _ .kbuild).2 rfl, (opcodeMap _ (.fftfImg 0)).2 (by decide),
    (opcodeMap _ (.fftfImg 2)).2 (by decide), (opcodeMap _ .fftfKer).2 rfl, (opcodeMap _ .pmul).2 rfl,
    (opcodeMap _ .ffti).2 rfl, (opcodeMap _ (.wback 1)).2 (by decide), (opcodeMap _ .blur).2 rfl,
    (opcodeMap _ .grad).2 rfl, (opcodeMap _ .nms).2 rfl, (opcodeMap _ .thresh).2 rfl, (opcodeMap _ .hyst).2 rfl,
    (opcodeMap _ .canny).2 rfl, fun w hw i => ?_⟩
  have rejected : ∃ e, decodeCommand w = .error e := by
    simp only [List.mem_cons, List.not_mem_nil, or_false] at hw
    obtain rfl | rfl | rfl | rfl := hw
    · exact ⟨.reservedTarget, rfl⟩
    · exact ⟨.strayChannel, rfl⟩
    · exact ⟨.reservedBits, rfl⟩
    · exact ⟨.reservedOp, rfl⟩
  obtain ⟨e, he⟩ := rejected
  rw [he]
  exact nofun

/-! ## The step that meets an ILLEGAL word -/

/-- A step whose next input gives the engine its turn. -/
theorem step_engine {s : State} {rest : List Event} (h : s.events = .engine :: rest) :
    step s = (engineTurn { s with events := rest }).outcome := by
  rw [step_eq_outcome, nextTurn, h]

/-- A busy engine that does not decode its latched word reports it (R97). -/
theorem engineTurn_illegal {s : State} (hbusy : s.phase = .busy) (h : ∀ i, decodeCommand s.latch.cmd ≠ .ok i) :
    engineTurn s = .done (raiseError (illegalReport s.latch.cmd) s) := by
  rw [engineTurn, hbusy]
  cases hd : decodeCommand s.latch.cmd with
  | ok i => exact absurd hd (h i)
  | error e => rfl

/-- Settles O6: the engine's turn raises the report of an ILLEGAL word, and `raiseError` touches four registers. -/
theorem illegalCommand : Obligations.illegal_command := by
  intro s rest he hbusy h
  rw [step_engine he, engineTurn_illegal (s := { s with events := rest }) hbusy h]
  rfl

end Sys2Proof.Machine
end

section
/-!
Where an instruction comes from and how a command completes (40_command.md R110 to R116; 30_encoding.md R96, R100):
the engine's turn by phase, the turn of a CTRL write, and the two ends of the completion step.
-/

namespace Sys2Proof.Machine

open Sys2Proof

/-! ## The engine's turn -/

/-- The engine has no step in IDLE (R113). -/
theorem engineTurn_idle {s : State} (h : s.phase = .idle) : engineTurn s = .done s := by
  rw [engineTurn, h]

/-- A busy engine runs the word it has latched (R113; 30_encoding.md R96). -/
theorem engineTurn_decoded {s : State} {i : Instr} (hbusy : s.phase = .busy)
    (hd : decodeCommand s.latch.cmd = .ok i) : engineTurn s = .run i s := by
  simp only [engineTurn, hbusy, hd]

/-- With no input left the engine takes its turn (70_reset_and_hazards.md R277). -/
theorem step_no_input {s : State} (h : s.events = []) : step s = (engineTurn s).outcome := by
  rw [step_eq_outcome, nextTurn, h]

/-! ## The turn of a CTRL write -/

/-- A CTRL write runs the control operation of its value, after its answer (10_state.md R34; 30_encoding.md R100). -/
theorem busTurn_control {v : Word} {i : Instr} (h : decodeControl v = some i) (s : State) :
    busTurn (ctrlWrite v) s = .run i (respond .okay 0 s) := by
  simp only [busTurn, ctrlWriteOf_ctrlWrite, h]

/-- A CTRL write that asks for no control operation writes IRQ_EN (R34). -/
theorem busTurn_irqEn {v : Word} (h : decodeControl v = none) (s : State) :
    busTurn (ctrlWrite v) s = .done (setIrqEn (v.getLsbD 2) (respond .okay 0 s)) := by
  simp only [busTurn, ctrlWriteOf_ctrlWrite, h]

/-- Settles O5: a step is the turn of its input, so each clause is the lemma about that turn. -/
theorem stepRunsDecoded : Obligations.step_runs_decoded := by
  refine ⟨fun s i hbusy hd => ⟨fun he => ?_, fun rest he => ?_⟩,
    fun s v rest he => ⟨fun i hd => ?_, fun hd => ?_⟩,
    fun s hidle => ⟨fun he => ?_, fun rest he => ?_⟩⟩
  · rw [step_no_input he, engineTurn_decoded hbusy hd, Turn.outcome]
  · rw [step_engine he, engineTurn_decoded (s := { s with events := rest }) hbusy hd, Turn.outcome]
  · rw [step_bus he, busTurn_control hd]
    rfl
  · rw [step_bus he, busTurn_irqEn hd]
    rfl
  · rw [step_no_input he, engineTurn_idle hidle, Turn.outcome]
  · rw [step_engine he, engineTurn_idle (s := { s with events := rest }) hidle, Turn.outcome]

/-! ## The completion step -/

/-- Settles O7: NOP has no check that could fail, and no effect before DONE. -/
theorem nopCompletes : Obligations.nop_completes := by
  intro s
  have hok : firstFailure s.latch.params s (checksOf .nop) = none := rfl
  rw [exec_command rfl, runCommand_ok hok]
  rfl

/-- Settles O10: every command is its checks and an effect, and a failed check raises its report without running the
effect. -/
theorem errorsArePrecise : Obligations.errors_are_precise := by
  intro s i e hi he
  rw [exec_command hi, runCommand_error he]
  rfl

end Sys2Proof.Machine
end

section
/-!
The colour-space converter CVT (41_colorspace.md R130 to R138): its rounding in exact rationals, the conversion of one
pixel, the samples a converting case writes and those it leaves, and which case runs for each pair of spaces.
-/

namespace Sys2Proof.Machine

open Sys2Proof

/-! ## Rounding -/

/-- Round half up of a fraction is the floor of the fraction plus 1/2, as R10 defines it. -/
theorem rhu_eq_floor (n : Int) {d : Nat} (hd : 0 < d) : rhu n d = ⌊(n : ℚ) / d + 1 / 2⌋ := by
  have hd' : (d : ℚ) ≠ 0 := by exact_mod_cast hd.ne'
  have hfrac : (n : ℚ) / d + 1 / 2 = ((2 * n + d : ℤ) : ℚ) / ((2 * d : ℕ) : ℚ) := by
    push_cast
    field_simp
  rw [hfrac, Rat.floor_intCast_div_natCast, rhu]
  push_cast
  rfl

/-- The sum of millionths that `roundMillionths` takes stands for the exact rational of R132 and R133. -/
theorem roundMillionths_eq_roundSample {n : Int} {q : ℚ} (h : (n : ℚ) = 1000000 * q) :
    roundMillionths n = roundSample q := by
  have hq : (n : ℚ) / (1000000 : ℕ) = q := by
    rw [h]
    norm_num
  rw [roundMillionths, rhu_eq_floor n (by norm_num), hq, roundSample, clamp8]

/-- A whole sample rounds to itself. -/
theorem roundMillionths_sample (b : Byte) : roundMillionths (1000000 * sampleInt b) = b := by
  have hrhu : rhu (1000000 * sampleInt b) 1000000 = b.toNat := by
    unfold rhu sampleInt
    omega
  have hb := b.isLt
  have hclamp : (min 255 (max 0 (b.toNat : Int))).toNat = b.toNat := by omega
  rw [roundMillionths, hrhu, clamp8, hclamp, BitVec.ofNat_toNat, BitVec.setWidth_eq]

@[simp] theorem cast_sampleInt (b : Byte) : ((sampleInt b : Int) : ℚ) = (b.toNat : ℚ) := by simp [sampleInt]

/-! ## One pixel -/

/-- The luma of R132 and R134 in exact rationals. -/
theorem luma_exact (r g b : Byte) : luma { p0 := r, p1 := g, p2 := b } =
    roundSample (0.299 * (r.toNat : ℚ) + 0.587 * (g.toNat : ℚ) + 0.114 * (b.toNat : ℚ)) := by
  refine roundMillionths_eq_roundSample ?_
  push_cast [cast_sampleInt]
  ring

/-- R132 in exact rationals. -/
theorem rgbToYcbcr_bytes (r g b : Byte) : (rgbToYcbcr { p0 := r, p1 := g, p2 := b }).bytes =
    [roundSample (0.299 * (r.toNat : ℚ) + 0.587 * (g.toNat : ℚ) + 0.114 * (b.toNat : ℚ)),
     roundSample (128 - 0.168736 * (r.toNat : ℚ) - 0.331264 * (g.toNat : ℚ) + 0.5 * (b.toNat : ℚ)),
     roundSample (128 + 0.5 * (r.toNat : ℚ) - 0.418688 * (g.toNat : ℚ) - 0.081312 * (b.toNat : ℚ))] := by
  rw [Pixel.bytes, rgbToYcbcr, luma_exact]
  refine congrArg _ (congrArg₂ _ (roundMillionths_eq_roundSample ?_)
    (congrArg₂ _ (roundMillionths_eq_roundSample ?_) rfl)) <;> push_cast [cast_sampleInt] <;> ring

/-- R133 in exact rationals. -/
theorem ycbcrToRgb_bytes (y cb cr : Byte) : (ycbcrToRgb { p0 := y, p1 := cb, p2 := cr }).bytes =
    [roundSample ((y.toNat : ℚ) + 1.402 * ((cr.toNat : ℚ) - 128)),
     roundSample ((y.toNat : ℚ) - 0.344136 * ((cb.toNat : ℚ) - 128) - 0.714136 * ((cr.toNat : ℚ) - 128)),
     roundSample ((y.toNat : ℚ) + 1.772 * ((cb.toNat : ℚ) - 128))] := by
  rw [Pixel.bytes, ycbcrToRgb]
  refine congrArg₂ _ (roundMillionths_eq_roundSample ?_) (congrArg₂ _ (roundMillionths_eq_roundSample ?_)
    (congrArg₂ _ (roundMillionths_eq_roundSample ?_) rfl)) <;> push_cast [cast_sampleInt] <;> ring

theorem sampleInt_128 : sampleInt 128 = 128 := rfl

/-- Settles O22: the coefficients of luma sum to 1 and those of each chroma to 0, so every sum of millionths is a whole
sample. -/
theorem greyPixelRoundTrip : Obligations.grey_pixel_round_trip := by
  have whole {n : Int} {b : Byte} (h : n = 1000000 * sampleInt b) : roundMillionths n = b :=
    h ▸ roundMillionths_sample b
  intro v
  rw [rgbToYcbcr, ycbcrToRgb, Pixel.mk.injEq, Pixel.mk.injEq]
  refine ⟨⟨whole ?_, whole ?_, whole ?_⟩, whole ?_, whole ?_, whole ?_⟩ <;> simp only [sampleInt_128] <;> ring

/-! ## The samples a converting case reads and writes -/

theorem snapshot_getD (p : Params) (s : State) {i : Nat} (h : i < 3 * (p.w * p.h)) :
    (snapshot p s).getD i 0 = s.byteAt .pix i := by
  simp [snapshot, State.bytesAt_eq, h]

/-- A pixel of the snapshot is PIX as the command reads it (R131). -/
theorem pixelOf_snapshot (p : Params) (s : State) {j : Nat} (h : j < p.w * p.h) : pixelOf (snapshot p s) j =
    { p0 := s.byteAt .pix (3 * j), p1 := s.byteAt .pix (3 * j + 1), p2 := s.byteAt .pix (3 * j + 2) } := by
  rw [pixelOf, snapshot_getD p s (by omega), snapshot_getD p s (by omega), snapshot_getD p s (by omega)]

/-- A run written from the first byte on leaves what lies beyond it. -/
theorem sameOutside_writeRun_zero (m : Memory) {bs : List Byte} {n : Nat} (h : bs.length = n) :
    SameOutside (InRun 0 n) m (Memory.writeRun m 0 bs) := by
  intro a ha
  unfold InRun at ha
  exact Memory.read_writeRun_outside (by omega)

/-- A three-channel target holds the converted pixel j at byte 3j (R131). -/
theorem convertColor_holds (f : Pixel → Pixel) (target : BitVec 2) (p : Params) (s : State) {j : Nat}
    (hj : j < p.w * p.h) :
    HoldsRun (convertColor f target p s).pix (3 * j) (f (pixelOf (snapshot p s) j)).bytes := by
  intro i hi
  have hi3 : i < 3 := hi
  have hlen := length_flatMap_blocks (p.w * p.h) 3 (fun j => (f (pixelOf (snapshot p s) j)).bytes) fun _ _ => rfl
  rw [convertColor_pix, Memory.read_writeRun, if_pos (by rw [hlen]; omega), Nat.sub_zero, Nat.mul_comm 3 j,
    getElem?_flatMap_blocks (p.w * p.h) 3 _ (fun _ _ => rfl) hj hi3]
  exact List.getElem?_eq_getElem hi

/-- What a completed conversion to a three-channel target leaves: the bytes beyond the image, and all that its rule
does not name (R131). -/
theorem convertColor_leaves (f : Pixel → Pixel) (target : BitVec 2) (p : Params) (s : State) :
    SameOutside (InRun 0 (3 * (p.w * p.h))) s.pix (completeDone (convertColor f target p s)).pix
      ∧ (completeDone (convertColor f target p s)).color = target
      ∧ (completeDone (convertColor f target p s)).kerLen = s.kerLen
      ∧ CommandFrame (· == .pix) s (completeDone (convertColor f target p s)) := by
  refine ⟨?_, rfl, rfl, (convertColor_frame f target p s).command⟩
  refine sameOutside_writeRun_zero s.pix ?_
  rw [length_flatMap_blocks _ 3 _ fun _ _ => rfl, Nat.mul_comm]

/-- A Grayscale target holds the converted pixel j at byte j (R131). -/
theorem convertGray_read (f : Pixel → Byte) (p : Params) (s : State) {j : Nat} (hj : j < p.w * p.h) :
    Memory.read (convertGray f p s).pix j = some (f (pixelOf (snapshot p s) j)) := by
  rw [convertGray_pix, Memory.read_writeRun, if_pos (by simpa using hj)]
  simp [hj]

/-- What a completed conversion to Grayscale leaves: PIX from byte W*H on (10_state.md R53), and all that its rule does
not name (R131). -/
theorem convertGray_leaves (f : Pixel → Byte) (p : Params) (s : State) :
    SameOutside (InRun 0 (p.w * p.h)) s.pix (completeDone (convertGray f p s)).pix
      ∧ (completeDone (convertGray f p s)).color = 2
      ∧ (completeDone (convertGray f p s)).kerLen = s.kerLen
      ∧ CommandFrame (· == .pix) s (completeDone (convertGray f p s)) :=
  ⟨sameOutside_writeRun_zero s.pix (by simp), rfl, rfl, (convertGray_frame f p s).command⟩

/-! ## Which case runs (R132 to R136) -/

section Cases

variable {p : Params} (s : State)

theorem cvtRgbEffect_of_rgb (h : p.color = 0) : cvtRgbEffect p s = s := by simp [cvtRgbEffect, h]
theorem cvtRgbEffect_of_ycbcr (h : p.color = 1) : cvtRgbEffect p s = convertColor ycbcrToRgb 0 p s := by
  simp [cvtRgbEffect, h]
theorem cvtYcbcrEffect_of_rgb (h : p.color = 0) : cvtYcbcrEffect p s = convertColor rgbToYcbcr 1 p s := by
  simp [cvtYcbcrEffect, h]
theorem cvtYcbcrEffect_of_ycbcr (h : p.color = 1) : cvtYcbcrEffect p s = s := by simp [cvtYcbcrEffect, h]
theorem cvtGrayEffect_of_rgb (h : p.color = 0) : cvtGrayEffect p s = convertGray luma p s := by
  simp [cvtGrayEffect, h]
theorem cvtGrayEffect_of_ycbcr (h : p.color = 1) : cvtGrayEffect p s = convertGray takeY p s := by
  simp [cvtGrayEffect, h]
theorem cvtGrayEffect_of_gray (h : p.color = 2) : cvtGrayEffect p s = s := by simp [cvtGrayEffect, h]

end Cases

/-- A valid COLOR that is not Grayscale is RGB or YCbCr. -/
theorem GeometryValid.rgb_or_ycbcr {c : Config} {p : Params} (g : GeometryValid c p) (h : p.color ≠ 2) :
    p.color = 0 ∨ p.color = 1 := by
  obtain ⟨-, -, -, -, h3⟩ := g
  generalize p.color = k at h h3
  revert k
  decide

/-- A command that passes its checks completes with its effect (R113). -/
theorem exec_completes {i : Instr} {s t : State} (hi : i.isControl = false)
    (hok : firstFailure s.latch.params s (checksOf i) = none) (ht : effectOf i s.latch.params s = t) :
    exec i s = .next (completeDone t) := by
  rw [exec_command hi, runCommand_ok hok, ht]

/-- The one pair that has no conversion: Grayscale to a colour space (R137). -/
theorem cvtChecks_unsupported {s : State} {target : BitVec 2} (g : GeometryValid s.cfg s.latch.params)
    (hc : s.latch.params.color = 2) (ht : target ≠ 2) :
    firstFailure s.latch.params s (cvtChecks target) =
      some { code := 2, info := BitVec.ofNat 32 (2 * 16 + target.toNat) } := by
  rw [cvtChecks, firstFailure_append_of_pass (geometryChecks_pass g), firstFailure_cons,
    if_pos ((Check.fails_pair _ _ _).2 ⟨hc, ht⟩), Check.report, hc]
  rfl

/-! ## The commands -/

/-- Settles O17: the case is R132's, which writes the converted pixels of the snapshot. -/
theorem cvtYcbcrResult : Obligations.cvt_ycbcr_result := by
  rintro s p rfl g hc
  have hok := cvtChecks_ok (target := 1) g (.inl (by rw [hc]; decide))
  refine ⟨_, exec_completes rfl hok (cvtYcbcrEffect_of_rgb s hc), ?_, convertColor_leaves _ _ _ s⟩
  rintro j R G B hj rfl rfl rfl
  have hholds := convertColor_holds rgbToYcbcr 1 _ s hj
  rwa [pixelOf_snapshot _ s hj, rgbToYcbcr_bytes] at hholds

/-- Settles O18: the case is R133's, which writes the converted pixels of the snapshot. -/
theorem cvtRgbResult : Obligations.cvt_rgb_result := by
  rintro s p rfl g hc
  have hok := cvtChecks_ok (target := 0) g (.inl (by rw [hc]; decide))
  refine ⟨_, exec_completes rfl hok (cvtRgbEffect_of_ycbcr s hc), ?_, convertColor_leaves _ _ _ s⟩
  rintro j Y Cb Cr hj rfl rfl rfl
  have hholds := convertColor_holds ycbcrToRgb 0 _ s hj
  rwa [pixelOf_snapshot _ s hj, ycbcrToRgb_bytes] at hholds

/-- `CVT gray` of a colour image converts by luma or by taking Y, as COLOR says (R134, R135). -/
theorem cvtGrayEffect_of_color {c : Config} {p : Params} (s : State) (g : GeometryValid c p) (h : p.color ≠ 2) :
    cvtGrayEffect p s = convertGray (if p.color = 0 then luma else takeY) p s := by
  rcases g.rgb_or_ycbcr h with hc | hc
  · rw [cvtGrayEffect_of_rgb s hc, if_pos hc]
  · rw [cvtGrayEffect_of_ycbcr s hc, if_neg (by rw [hc]; decide)]

/-- Settles O19: both sources write one byte for each pixel of the snapshot, its luma or its Y. -/
theorem cvtGrayResult : Obligations.cvt_gray_result := by
  rintro s p rfl g hc
  have hok := cvtChecks_ok (target := 2) g (.inr rfl)
  refine ⟨_, exec_completes rfl hok (cvtGrayEffect_of_color s g hc), ?_, convertGray_leaves _ _ s⟩
  rintro j R G B hj rfl rfl rfl
  refine (convertGray_read _ _ s hj).trans (congrArg some ?_)
  rw [pixelOf_snapshot _ s hj]
  split
  · exact luma_exact _ _ _
  · rfl

/-- Settles O20: the pair check passes and the effect is the identity. -/
theorem cvtSameSpace : Obligations.cvt_same_space := by
  intro s g
  refine ⟨fun hc => ?_, fun hc => ?_, fun hc => ?_⟩
  · have hne : s.latch.params.color ≠ 2 := fun h => absurd (hc.symm.trans h) (by decide)
    exact exec_completes rfl (cvtChecks_ok g (.inl hne)) (cvtRgbEffect_of_rgb s hc)
  · have hne : s.latch.params.color ≠ 2 := fun h => absurd (hc.symm.trans h) (by decide)
    exact exec_completes rfl (cvtChecks_ok g (.inl hne)) (cvtYcbcrEffect_of_ycbcr s hc)
  · exact exec_completes rfl (cvtChecks_ok g (.inr rfl)) (cvtGrayEffect_of_gray s hc)

/-- Settles O21: the geometry passes, so the pair check is the one that reports. -/
theorem cvtUnsupported : Obligations.cvt_unsupported := by
  intro s g hc
  exact ⟨errorsArePrecise s .cvtRgb _ rfl (cvtChecks_unsupported g hc (by decide)),
    errorsArePrecise s .cvtYcbcr _ rfl (cvtChecks_unsupported g hc (by decide))⟩

end Sys2Proof.Machine
end

section
/-!
The Gaussian kernel builder KBUILD (42_kernel.md R150 to R154): the check that reports, the taps and KER_LEN it stores,
and what is known of the stored kernel.
-/

namespace Sys2Proof.Machine

open Sys2Proof

/-! ## The check that reports (60_exceptions.md R233) -/

section Reports

variable {p : Params} {s : State} {c : Check}

/-- The first check of a list reports if it fails. -/
theorem firstFailure_of_fails (h : Check.fails p s c = true) (cs : List Check) :
    firstFailure p s (c :: cs) = some (c.report p) := by
  rw [firstFailure_cons, if_pos h]

/-- A check that does not fail leaves the report to the checks after it. -/
theorem firstFailure_of_not_fails (h : ¬ Check.fails p s c = true) (cs : List Check) :
    firstFailure p s (c :: cs) = firstFailure p s cs := by
  rw [firstFailure_cons, if_neg h]

/-- With STD > 0 the size checks decide (R150). -/
theorem kbuildChecks_of_std_pos (h : 0 < p.std) :
    firstFailure p s kbuildChecks = firstFailure p s [.sizeNonneg, .sizeMax] :=
  firstFailure_of_not_fails (by rw [Check.fails_std]; omega) _

end Reports

/-- Settles O13: each clause makes one check of KBUILD fail and those before it pass. -/
theorem kbuildErrors : Obligations.kbuild_errors := by
  intro s
  refine ⟨fun hstd => ?_, fun hstd hneg => ?_, fun hstd hmax => ?_⟩
  · exact errorsArePrecise s .kbuild _ rfl (firstFailure_of_fails ((Check.fails_std _ _).2 hstd) _)
  · refine errorsArePrecise s .kbuild { code := 1, info := 2 } rfl ((kbuildChecks_of_std_pos hstd).trans ?_)
    exact firstFailure_of_fails ((Check.fails_sizeNonneg _ _).2 hneg) _
  · have hnonneg : ¬ Check.fails s.latch.params s .sizeNonneg = true := by
      have : (s.cfg.maxSizeF : Int) < s.latch.params.s := hmax
      rw [Check.fails_sizeNonneg]
      omega
    refine errorsArePrecise s .kbuild { code := 1, info := 3 } rfl ((kbuildChecks_of_std_pos hstd).trans ?_)
    rw [firstFailure_of_not_fails hnonneg]
    exact firstFailure_of_fails ((Check.fails_sizeMax _ _).2 hmax) _

/-! ## The stored kernel (42_kernel.md R151) -/

theorem exec_kbuild {s : State} (hstd : 0 < s.latch.params.std) (v : SizeValid s.cfg s.latch.params) :
    exec .kbuild s = .next (completeDone (kbuildEffect s.latch.params s)) :=
  exec_completes rfl (kbuildChecks_ok hstd v) rfl

/-- Tap i of the kernel that KBUILD writes. -/
theorem kbuildEffect_holds_tap (p : Params) (s : State) {i : Nat} (hi : i ≤ 2 * p.half) :
    HoldsRun (kbuildEffect p s).ker (8 * i) (leBytes 8 (kerImpl s.cfg p.std p.half i).toNat) := by
  intro j hj
  have hj8 : j < 8 := by simpa using hj
  rw [kbuildEffect_ker, Memory.read_writeRun, if_pos (by rw [kernelBytes_length]; omega), Nat.sub_zero,
    Nat.mul_comm 8 i, kernelBytes_get _ _ hi hj8]
  exact List.getElem?_eq_getElem hj

/-- The bytes of KER from tap 2S+1 on stay. -/
theorem kbuildEffect_sameOutside (p : Params) (s : State) :
    SameOutside (InRun 0 (8 * (2 * p.half + 1))) s.ker (kbuildEffect p s).ker := by
  rw [kbuildEffect_ker]
  exact sameOutside_writeRun_zero s.ker (by rw [kernelBytes_length, Nat.mul_comm])

/-- KER_LEN holds 2S+1 without wrapping, since S is an s32 (10_state.md R38). -/
theorem kbuildEffect_kerLen_toNat {p : Params} (h0 : 0 ≤ p.s) (h1 : p.s < 2 ^ 31) (s : State) :
    (kbuildEffect p s).kerLen.toNat = 2 * p.half + 1 := by
  have := kbuildEffect_kerLen_int h0 h1 s
  unfold Params.half
  omega

/-- Settles O23: KBUILD passes its checks, and its effect writes the run of taps and KER_LEN. -/
theorem kbuildResult : Obligations.kbuild_result := by
  rintro s p rfl hstd v
  have hs : s.latch.params.s < 2 ^ 31 := BitVec.toInt_lt
  exact ⟨_, exec_kbuild hstd v, kbuildEffect_kerLen_toNat v.1 hs s, fun i hi => kbuildEffect_holds_tap _ s hi,
    kbuildEffect_sameOutside _ s, rfl, rfl, (kbuildEffect_frame _ s).command⟩

/-! ## What is known of the taps (42_kernel.md R153) -/

/-- A tap stored whole is read back. -/
theorem State.tapAt_of_holds {s : State} {i : Nat} {q : F64} (h : HoldsRun s.ker (8 * i) (leBytes 8 q.toNat)) :
    s.tapAt i = q := by
  rw [State.tapAt, leIn_of_read (length_leBytes 8 _) h, fromLE_leBytes_of_lt (by have := q.isLt; omega),
    BitVec.ofNat_toNat, BitVec.setWidth_eq]

/-- Settles O24: the stored taps are NUM's, which meet the contract, and are read back from the bytes KBUILD wrote. -/
theorem kernelContract : Obligations.kernel_contract := by
  refine ⟨fun c std s i hc hstd hs hi => ?_, ?_⟩
  · rw [kerImpl_eq hc hstd hs hi, kerImpl_eq hc hstd hs (Nat.sub_le _ _)]
    exact (Config.num_contract hc).1 std s i hstd hs hi
  · rintro s p rfl hstd v
    exact ⟨_, exec_kbuild hstd v, fun i hi => State.tapAt_of_holds (kbuildEffect_holds_tap _ s hi)⟩

end Sys2Proof.Machine
end

section
/-!
The computed bounds of the exact kernel (42_kernel.md R152; log 6): each fixed-point function of Machine/Enclosure.lean
lies on its side of the real number it stands for.
-/

namespace Sys2Proof.Machine

open Sys2Proof

/-! ## Fixed-point numbers -/

/-- The real number that a fixed-point number stands for: units of 1/kerOne. -/
noncomputable def fxVal (n : Nat) : ℝ := (n : ℝ) / kerOne

theorem kerOne_pos : (0 : ℝ) < kerOne := by norm_num [kerOne]

theorem fxVal_nonneg (n : Nat) : 0 ≤ fxVal n := div_nonneg n.cast_nonneg kerOne_pos.le

theorem fxVal_pos {n : Nat} (h : 0 < n) : 0 < fxVal n := div_pos (by exact_mod_cast h) kerOne_pos

theorem fxVal_kerOne : fxVal kerOne = 1 := div_self kerOne_pos.ne'

theorem fxVal_zero : fxVal 0 = 0 := by rw [fxVal, Nat.cast_zero, zero_div]

theorem fxVal_add (a b : Nat) : fxVal (a + b) = fxVal a + fxVal b := by
  rw [fxVal, Nat.cast_add, add_div]
  rfl

theorem fxVal_two_mul (a : Nat) : fxVal (2 * a) = 2 * fxVal a := by rw [two_mul, fxVal_add, two_mul]

theorem le_divUp (a : Nat) {b : Nat} (hb : 0 < b) : (a : ℝ) / b ≤ divUp a b := by
  rw [div_le_iff₀' (by exact_mod_cast hb)]
  exact_mod_cast le_smul_ceilDiv (α := ℕ) hb

/-- An integer quotient of a fixed-point number is at most the real quotient. -/
theorem fxVal_div_le (a b : Nat) : fxVal (a / b) ≤ fxVal a / b := by
  rw [fxVal, fxVal, div_right_comm]
  exact div_le_div_of_nonneg_right Nat.cast_div_le kerOne_pos.le

theorem le_fxVal_divUp (a : Nat) {b : Nat} (hb : 0 < b) : fxVal a / b ≤ fxVal (divUp a b) := by
  rw [fxVal, fxVal, div_right_comm]
  exact div_le_div_of_nonneg_right (le_divUp a hb) kerOne_pos.le

theorem fxVal_mul_nat (a n : Nat) : fxVal (a * n) = fxVal a * n := by
  rw [fxVal, fxVal, Nat.cast_mul, mul_div_right_comm]

theorem fxMulLo_le (a b : Nat) : fxVal (fxMulLo a b) ≤ fxVal a * fxVal b :=
  calc fxVal (a * b / kerOne) ≤ fxVal (a * b) / kerOne := fxVal_div_le _ _
    _ = fxVal a * fxVal b := by rw [fxVal_mul_nat, mul_div_assoc, fxVal, fxVal]

theorem le_fxMulHi (a b : Nat) : fxVal a * fxVal b ≤ fxVal (fxMulHi a b) :=
  calc fxVal a * fxVal b = fxVal (a * b) / kerOne := by rw [fxVal_mul_nat, mul_div_assoc, fxVal, fxVal]
    _ ≤ fxVal (divUp (a * b) kerOne) := le_fxVal_divUp _ (by norm_num [kerOne])

/-- The quotient of two fixed-point numbers, from its unrounded form. -/
theorem fxVal_kerOne_mul_div (a b : Nat) : fxVal (kerOne * a) / b = fxVal a / fxVal b := by
  have := kerOne_pos
  rw [fxVal, fxVal, fxVal, Nat.cast_mul]
  field_simp

theorem fxDivLo_le (a b : Nat) : fxVal (kerOne * a / b) ≤ fxVal a / fxVal b :=
  (fxVal_div_le _ _).trans_eq (fxVal_kerOne_mul_div a b)

theorem le_fxDivHi (a : Nat) {b : Nat} (hb : 0 < b) : fxVal a / fxVal b ≤ fxVal (divUp (kerOne * a) b) :=
  (fxVal_kerOne_mul_div a b).symm.trans_le (le_fxVal_divUp _ hb)

/-! ## Powers -/

theorem squareLo_le (k : Nat) {x : Nat} {r : ℝ} (h : fxVal x ≤ r) : fxVal (squareLo k x) ≤ r ^ 2 ^ k := by
  induction k generalizing x r with
  | zero => rwa [pow_zero, pow_one]
  | succ k ih =>
    have hsq : fxVal (fxMulLo x x) ≤ r ^ 2 := by
      rw [sq]
      exact (fxMulLo_le x x).trans (mul_self_le_mul_self (fxVal_nonneg x) h)
    rw [squareLo, pow_succ', pow_mul]
    exact ih hsq

/-- One squaring is done before the k others. Read off the whole definition, since the kernel runs into deep recursion
when it checks the equation that Lean derives for this case. -/
theorem squareHi_succ (k x : Nat) : squareHi (k + 1) x = squareHi k (fxMulHi x x) := by rw [squareHi.eq_def]

theorem le_squareHi (k : Nat) {x : Nat} {r : ℝ} (h0 : 0 ≤ r) (h : r ≤ fxVal x) : r ^ 2 ^ k ≤ fxVal (squareHi k x) := by
  induction k generalizing x r with
  | zero => rwa [pow_zero, pow_one]
  | succ k ih =>
    have hsq : r ^ 2 ≤ fxVal (fxMulHi x x) := by
      rw [sq]
      exact (mul_self_le_mul_self h0 h).trans (le_fxMulHi x x)
    rw [squareHi_succ, pow_succ', pow_mul]
    exact ih (sq_nonneg r) hsq

theorem powLo_le {x : Nat} {r : ℝ} (h : fxVal x ≤ r) (n : Nat) : fxVal (powLo x n) ≤ r ^ n := by
  induction n with
  | zero => rw [powLo, fxVal_kerOne, pow_zero]
  | succ n ih =>
    have hr : 0 ≤ r := (fxVal_nonneg x).trans h
    rw [powLo, pow_succ]
    exact (fxMulLo_le _ _).trans (mul_le_mul ih h (fxVal_nonneg x) (pow_nonneg hr n))

theorem le_powHi {x : Nat} {r : ℝ} (h0 : 0 ≤ r) (h : r ≤ fxVal x) (n : Nat) : r ^ n ≤ fxVal (powHi x n) := by
  induction n with
  | zero => rw [powHi, fxVal_kerOne, pow_zero]
  | succ n ih =>
    rw [powHi, pow_succ]
    exact (mul_le_mul ih h h0 (fxVal_nonneg _)).trans (le_fxMulHi _ _)

/-! ## The exponential series -/

section Series

open Finset Nat

variable {num den : Nat} {t : ℝ}

/-- Each term of the series is the one before it times t/(n+1). -/
theorem expTerm_succ (ht : t = num / den) (n : Nat) :
    t ^ (n + 1) / (n + 1)! = t ^ n / n ! * num / (den * (n + 1) : ℕ) := by
  rw [pow_succ, Nat.factorial_succ, ht]
  push_cast
  field_simp

/-- From a term that is at most t^n/n! on, what `expSumLo` adds up stays below what the first n terms leave of
exp t. -/
theorem expSumLo_le (ht : t = num / den) (fuel : Nat) {n term : Nat} (h : fxVal term ≤ t ^ n / n !) :
    ∑ i ∈ range n, t ^ i / i ! + fxVal (expSumLo num den fuel n term) ≤ Real.exp t := by
  induction fuel generalizing n term with
  | zero =>
    rw [expSumLo, fxVal_zero, add_zero]
    exact Real.sum_le_exp_of_nonneg (ht ▸ by positivity) n
  | succ fuel ih =>
    have hnext : fxVal (term * num / (den * (n + 1))) ≤ t ^ (n + 1) / (n + 1)! := by
      rw [expTerm_succ ht]
      refine (fxVal_div_le _ _).trans ?_
      rw [fxVal_mul_nat]
      gcongr
    have hrest := ih hnext
    rw [sum_range_succ] at hrest
    rw [expSumLo, fxVal_add]
    linarith

/-- Twice the next term covers what is left of the series (t ≤ 1). -/
theorem exp_le_sum_add_two_mul (h0 : 0 ≤ t) (h1 : t ≤ 1) {n : Nat} (hn : 0 < n) :
    Real.exp t ≤ ∑ i ∈ range n, t ^ i / i ! + 2 * (t ^ n / n !) := by
  have hn1 : (1 : ℝ) ≤ n := by exact_mod_cast hn
  have htail : t ^ n * (n + 1) / (n ! * n) ≤ 2 * (t ^ n / n !) :=
    calc t ^ n * (n + 1) / (n ! * n) = (n + 1) / n * (t ^ n / n !) := by field_simp
      _ ≤ 2 * (t ^ n / n !) := by
        refine mul_le_mul_of_nonneg_right ?_ (by positivity)
        rw [div_le_iff₀ (by positivity)]
        linarith
  exact (Real.exp_bound' h0 h1 hn).trans (by gcongr)

theorem le_expSumHi (hden : 0 < den) (ht : t = num / den) (h1 : t ≤ 1) (fuel : Nat) {n term : Nat}
    (hn : 0 < n + fuel) (h : t ^ n / n ! ≤ fxVal term) :
    Real.exp t ≤ ∑ i ∈ range n, t ^ i / i ! + fxVal (expSumHi num den fuel n term) := by
  induction fuel generalizing n term with
  | zero =>
    have hexp := exp_le_sum_add_two_mul (ht ▸ by positivity) h1 (n := n) (by omega)
    rw [expSumHi, fxVal_two_mul]
    linarith
  | succ fuel ih =>
    have hnext : t ^ (n + 1) / (n + 1)! ≤ fxVal (divUp (term * num) (den * (n + 1))) := by
      rw [expTerm_succ ht]
      refine le_trans ?_ (le_fxVal_divUp _ (by positivity))
      rw [fxVal_mul_nat]
      gcongr
    have hrest := ih (by omega) hnext
    rw [sum_range_succ] at hrest
    rw [expSumHi, fxVal_add]
    linarith

end Series

/-- The lower sum starts with the term it is given. -/
theorem expSumLo_pos (num den fuel n : Nat) {term : Nat} (h : 0 < term) : 0 < expSumLo num den (fuel + 1) n term := by
  rw [expSumLo]
  omega

/-! ## The ratio exp(-1/(2σ²)) -/

/-- 1/(2σ²)/256, the exponent of which the model sums the series. -/
noncomputable def splitArg (std : Nat) : ℝ := (500000 : ℕ) / (256 * (std * std) : ℕ)

theorem splitArg_le_one {std : Nat} (h : stdSplit ≤ std) : splitArg std ≤ 1 := by
  have hsq : 45 * 45 ≤ std * std := Nat.mul_le_mul h h
  refine div_le_one_of_le₀ ?_ (Nat.cast_nonneg _)
  exact_mod_cast (by omega : 500000 ≤ 256 * (std * std))

/-- 8 squarings of exp(-1/(2σ²)/256) give exp(-1/(2σ²)). -/
theorem exactGauss_one_eq_pow (std : Nat) : exactGauss std 1 = ((Real.exp (splitArg std))⁻¹) ^ 2 ^ 8 := by
  rw [exactGauss_eq, ← Real.exp_neg, ← Real.exp_nat_mul, gaussArg, splitArg]
  congr 1
  push_cast
  ring

/-- Below the split the ratio is under 2^-160: the exponent is 160 or more, and e is 2 or more. -/
theorem exactGauss_one_le_of_lt_split {std : Nat} (h0 : 0 < std) (h : std < stdSplit) :
    exactGauss std 1 ≤ fxVal 1 := by
  have hsq : std * std ≤ 44 * 44 := by
    have : std ≤ 44 := Nat.le_of_lt_succ h
    exact Nat.mul_le_mul this this
  have harg : (160 : ℝ) ≤ 500000 / ((std : ℝ) * std) := by
    rw [le_div_iff₀ (by positivity)]
    exact_mod_cast (by omega : 160 * (std * std) ≤ 500000)
  have htwo : (2 : ℝ) ≤ Real.exp 1 := by linarith [Real.add_one_le_exp (1 : ℝ)]
  calc exactGauss std 1 = Real.exp (-(500000 / ((std : ℝ) * std))) := by
        rw [exactGauss_eq, gaussArg]
        congr 1
        push_cast
        ring
    _ ≤ Real.exp (-((160 : ℕ) * 1)) := Real.exp_le_exp.2 (by push_cast; linarith)
    _ = (Real.exp 1 ^ 160)⁻¹ := by rw [Real.exp_neg, Real.exp_nat_mul]
    _ ≤ (2 ^ 160)⁻¹ := inv_anti₀ (by positivity) (pow_le_pow_left₀ (by norm_num) htwo 160)
    _ = fxVal 1 := by norm_num [fxVal, kerOne]

theorem ratioLo_le (std : Nat) : fxVal (ratioLo std) ≤ exactGauss std 1 := by
  unfold ratioLo
  split
  · rw [fxVal_zero]
    exact (Real.exp_pos _).le
  · next h =>
    have hstd : stdSplit ≤ std := Nat.le_of_not_lt h
    have hden : 0 < 256 * (std * std) := by
      have : 0 < std := Nat.lt_of_lt_of_le (by decide) hstd
      positivity
    have hsum := le_expSumHi hden rfl (splitArg_le_one hstd) expTerms (n := 0) (term := kerOne) (by decide)
      (by simp [fxVal_kerOne])
    rw [Finset.sum_range_zero, zero_add] at hsum
    rw [exactGauss_one_eq_pow]
    refine squareLo_le 8 ((fxDivLo_le _ _).trans ?_)
    rw [fxVal_kerOne, one_div]
    exact inv_anti₀ (Real.exp_pos _) hsum

theorem le_ratioHi {std : Nat} (h0 : 0 < std) : exactGauss std 1 ≤ fxVal (ratioHi std) := by
  unfold ratioHi
  split
  · next h => exact exactGauss_one_le_of_lt_split h0 h
  · have hsum := expSumLo_le (t := splitArg std) rfl expTerms (n := 0) (term := kerOne) (by simp [fxVal_kerOne])
    have hpos : 0 < expSumLo 500000 (256 * (std * std)) expTerms 0 kerOne :=
      expSumLo_pos _ _ _ _ (by norm_num [kerOne])
    rw [Finset.sum_range_zero, zero_add] at hsum
    rw [exactGauss_one_eq_pow]
    refine le_squareHi 8 (by positivity) (le_trans ?_ (le_fxDivHi _ hpos))
    rw [fxVal_kerOne, one_div]
    exact inv_anti₀ (fxVal_pos hpos) hsum

/-! ## The Gaussian and its sum -/

/-- g_k = r^(k²) (R152). -/
theorem exactGauss_eq_pow (std : Int) (k : Nat) : exactGauss std k = exactGauss std 1 ^ (k * k) := by
  rw [exactGauss_eq, exactGauss_eq, ← Real.exp_nat_mul, gaussArg, gaussArg]
  congr 1
  push_cast
  ring

theorem gaussLo_le (std k : Nat) : fxVal (gaussLo std k) ≤ exactGauss std k := by
  rw [exactGauss_eq_pow]
  exact powLo_le (ratioLo_le std) _

theorem le_gaussHi {std : Nat} (h0 : 0 < std) (k : Nat) : exactGauss std k ≤ fxVal (gaussHi std k) := by
  rw [exactGauss_eq_pow]
  exact le_powHi (Real.exp_pos _).le (le_ratioHi h0) _

/-- The computed sum counts g_|j| for every j ∈ [-S, S]. -/
theorem fxVal_gaussSum (g : Nat → Nat) (s : Nat) :
    fxVal (gaussSum g s) = ∑ j ∈ Finset.Icc (-(s : ℤ)) s, fxVal (g j.natAbs) := by
  induction s with
  | zero => simp [gaussSum]
  | succ s ih =>
    have hpos : ((s : ℤ) + 1).natAbs = s + 1 := by omega
    have hneg : (-((s : ℤ) + 1)).natAbs = s + 1 := by omega
    rw [gaussSum, fxVal_add, fxVal_two_mul, ih, Nat.cast_succ, Finset.sum_Icc_succ_eq_add_endpoints, hpos, hneg]
    ring

theorem exactGauss_natAbs (std j : Int) : exactGauss std (j.natAbs : ℕ) = exactGauss std j := by
  rw [exactGauss_eq, exactGauss_eq, gaussArg_natAbs]

theorem gaussSum_le {g : Nat → Nat} {std : Int} (h : ∀ k : ℕ, fxVal (g k) ≤ exactGauss std k) (s : Nat) :
    fxVal (gaussSum g s) ≤ ∑ j ∈ Finset.Icc (-(s : ℤ)) s, exactGauss std j := by
  rw [fxVal_gaussSum]
  exact Finset.sum_le_sum fun j _ => (h j.natAbs).trans_eq (exactGauss_natAbs std j)

theorem le_gaussSum {g : Nat → Nat} {std : Int} (h : ∀ k : ℕ, exactGauss std k ≤ fxVal (g k)) (s : Nat) :
    ∑ j ∈ Finset.Icc (-(s : ℤ)) s, exactGauss std j ≤ fxVal (gaussSum g s) := by
  rw [fxVal_gaussSum]
  exact Finset.sum_le_sum fun j _ => (exactGauss_natAbs std j).symm.trans_le (h j.natAbs)

theorem gaussSum_pos {g : Nat → Nat} (h : 0 < g 0) (s : Nat) : 0 < gaussSum g s := by
  induction s with
  | zero => exact h
  | succ s ih => rw [gaussSum]; omega

theorem gaussLo_zero (std : Nat) : gaussLo std 0 = kerOne := rfl

/-! ## The weights -/

theorem exactGauss_sum_pos (std : Int) (s : Nat) : 0 < ∑ j ∈ Finset.Icc (-(s : ℤ)) s, exactGauss std j :=
  Finset.sum_pos (fun _ _ => Real.exp_pos _) ⟨0, by simp⟩

theorem weightLo_le {std : Nat} (h0 : 0 < std) (s k : Nat) : fxVal (weightLo std s k) ≤ exactWeight std s k :=
  (fxDivLo_le _ _).trans
    (div_le_div₀ (Real.exp_pos _).le (gaussLo_le std k) (exactGauss_sum_pos std s) (le_gaussSum (le_gaussHi h0) s))

theorem le_weightHi {std : Nat} (h0 : 0 < std) (s k : Nat) : exactWeight std s k ≤ fxVal (weightHi std s k) := by
  have hpos : 0 < gaussSum (gaussLo std) s := gaussSum_pos (by rw [gaussLo_zero]; norm_num [kerOne]) s
  exact (div_le_div₀ (fxVal_nonneg _) (le_gaussHi h0 k) (fxVal_pos hpos) (gaussSum_le (gaussLo_le std) s)).trans
    (le_fxDivHi _ hpos)

/-- Settles O25: the lower Gaussian over the upper sum, and the upper Gaussian over the lower sum. -/
theorem kernelEnclosure : Obligations.kernel_enclosure := by
  intro std s k hstd _
  lift std to ℕ using hstd.le
  have hunit : (2 : ℝ) ^ 160 = kerOne := by norm_num [kerOne]
  rw [Int.toNat_natCast, hunit]
  exact ⟨weightLo_le (by exact_mod_cast hstd) s k, le_weightHi (by exact_mod_cast hstd) s k⟩

end Sys2Proof.Machine
end


section
/-!
The binary64 product (43_convolution.md R179): rounding to even takes the nearest multiple of what it drops, no binary64
value lies nearer than that multiple, and the result overflows exactly from 2^1024 - 2^970 on.
-/

namespace Sys2Proof.Machine

open Sys2Proof

/-! ## Rounding to even -/

/-- No multiple of 2^d is nearer to n than the rounded one, and another one as near makes it an even multiple. -/
theorem roundEven_nearest (n d : Nat) (k : Int) :
    |(roundEven n d : Int) * 2 ^ d - n| ≤ |k * 2 ^ d - n|
      ∧ (k ≠ roundEven n d → |(roundEven n d : Int) * 2 ^ d - n| = |k * 2 ^ d - n| → roundEven n d % 2 = 0) := by
  have hn : ((n / 2 ^ d : Nat) : Int) * 2 ^ d + (n % 2 ^ d : Nat) = n := by exact_mod_cast Nat.div_add_mod' n (2 ^ d)
  have hlt := Nat.mod_lt n (Nat.two_pow_pos d)
  have hcast : ((2 ^ d : Nat) : Int) = 2 ^ d := Nat.cast_pow 2 d
  simp only [roundEven]
  generalize n / 2 ^ d = q at *
  generalize n % 2 ^ d = r at *
  generalize 2 ^ d = D at *
  obtain ⟨e, rfl⟩ : ∃ e, k = q + e := ⟨k - q, by ring⟩
  rw [← hn, ← hcast]
  have he : e ≤ -1 ∧ e * D ≤ -D ∨ e = 0 ∨ e = 1 ∨ 2 ≤ e ∧ 2 * (D : Int) ≤ e * D := by
    rcases lt_trichotomy e 0 with h | h | h
    · have hle : e ≤ -1 := by omega
      have := mul_le_mul_of_nonneg_right hle (Int.natCast_nonneg D)
      exact .inl ⟨hle, by omega⟩
    · exact .inr (.inl h)
    · rcases eq_or_ne e 1 with h1 | h1
      · exact .inr (.inr (.inl h1))
      · have hle : 2 ≤ e := by omega
        exact .inr (.inr (.inr ⟨hle, mul_le_mul_of_nonneg_right hle (Int.natCast_nonneg D)⟩))
  have hmul : ((q : Int) + e) * D - (q * D + r) = e * D - r := by ring
  rw [hmul]
  split_ifs with hup
  · have hres : (((q + 1 : Nat) : Int)) * D - (q * D + r) = D - r := by push_cast; ring
    rw [hres]
    simp only [Int.abs_eq_natAbs]
    rcases he with ⟨he, hD⟩ | rfl | rfl | ⟨he, hD⟩ <;> constructor <;> omega
  · have hres : (q : Int) * D - (q * D + r) = -r := by ring
    rw [hres]
    simp only [Int.abs_eq_natAbs]
    rcases he with ⟨he, hD⟩ | rfl | rfl | ⟨he, hD⟩ <;> constructor <;> omega

theorem roundEven_nearest_of_dvd (n : Nat) {d : Nat} {c : Int} (h : 2 ^ d ∣ c) :
    |(roundEven n d : Int) * 2 ^ d - n| ≤ |c - n|
      ∧ (c ≠ roundEven n d * 2 ^ d → |(roundEven n d : Int) * 2 ^ d - n| = |c - n| → roundEven n d % 2 = 0) := by
  obtain ⟨k, rfl⟩ := h
  rw [mul_comm _ k]
  obtain ⟨hle, heven⟩ := roundEven_nearest n d k
  exact ⟨hle, fun hne => heven fun hk => hne (by rw [hk])⟩

/-- A number that lies at least half way above an odd multiple is rounded up. -/
theorem succ_le_roundEven {n d k : Nat} (hodd : k % 2 = 1) (h : (2 * k + 1) * 2 ^ d ≤ 2 * n) :
    k + 1 ≤ roundEven n d := by
  have hk : k ≤ n / 2 ^ d := by
    refine (Nat.le_div_iff_mul_le (Nat.two_pow_pos d)).2 ?_
    rw [Nat.add_mul, Nat.mul_assoc] at h
    omega
  have hn := Nat.div_add_mod' n (2 ^ d)
  simp only [roundEven]
  rcases eq_or_lt_of_le hk with heq | hlt
  · rw [← heq] at hn ⊢
    rw [Nat.add_mul, Nat.mul_assoc] at h
    rw [if_pos (by omega)]
  · split <;> omega

/-! ## No binary64 value is nearer -/

/-- A count of units is a number of 53 bits, shifted. -/
theorem f64Units_eq_shift (x : F64) : ∃ m e, m < 2 ^ 53 ∧ f64Units x = m * 2 ^ e := by
  have hfrac : f64Frac x < 2 ^ 52 := Nat.mod_lt _ (by norm_num)
  by_cases h : f64Exp x = 0
  · exact ⟨f64Frac x, 0, by omega, by rw [f64Units, if_pos h, pow_zero, Nat.mul_one]⟩
  · exact ⟨2 ^ 52 + f64Frac x, f64Exp x - 1, by omega, by rw [f64Units, if_neg h]⟩

/-- Beside the multiples of 2^d there are only values too small to have been rounded by d bits. -/
theorem f64Units_dvd_or_lt (x : F64) (sh d : Nat) :
    2 ^ d ∣ f64Units x * 2 ^ sh ∨ f64Units x * 2 ^ sh < 2 ^ 52 * 2 ^ d := by
  obtain ⟨m, e, hm, hx⟩ := f64Units_eq_shift x
  rw [hx, Nat.mul_assoc, ← pow_add]
  rcases Nat.lt_or_ge (e + sh) d with h | h
  · right
    calc m * 2 ^ (e + sh) < 2 ^ 53 * 2 ^ (e + sh) := Nat.mul_lt_mul_of_pos_right hm (Nat.two_pow_pos _)
      _ = 2 ^ 52 * 2 ^ (e + sh + 1) := by ring
      _ ≤ 2 ^ 52 * 2 ^ d := Nat.mul_le_mul_left _ (Nat.pow_le_pow_right (by norm_num) h)
  · exact .inl ((pow_dvd_pow 2 h).trans (Dvd.intro_left m rfl))

/-- No signed binary64 value v is nearer to n * 2^-(1074+sh) than the rounded one, and another one as near makes its
last bit even. -/
theorem roundEven_nearest_units (n sh : Nat) {x : F64} {v : Int} (hv : v.natAbs = f64Units x) :
    |(roundEven n (f64Drop n sh) : Int) * 2 ^ f64Drop n sh - n| ≤ |v * 2 ^ sh - n|
      ∧ (v * 2 ^ sh ≠ roundEven n (f64Drop n sh) * 2 ^ f64Drop n sh →
        |(roundEven n (f64Drop n sh) : Int) * 2 ^ f64Drop n sh - n| = |v * 2 ^ sh - n| →
        roundEven n (f64Drop n sh) % 2 = 0) := by
  obtain ⟨-, -, hdrop⟩ := f64Drop_spec n sh
  generalize f64Drop n sh = d at *
  have hscaled : (v * 2 ^ sh).natAbs = f64Units x * 2 ^ sh := by
    rw [Int.natAbs_mul, hv, Int.natAbs_pow]
    rfl
  rcases hdrop with rfl | hbig
  · exact roundEven_nearest_of_dvd n (Dvd.intro_left v rfl)
  rcases f64Units_dvd_or_lt x sh d with hdvd | hsmall
  · refine roundEven_nearest_of_dvd n (Int.natAbs_dvd_natAbs.1 ?_)
    rw [hscaled, Int.natAbs_pow]
    exact hdvd
  · have hfloor := (roundEven_nearest n d (2 ^ 52)).1
    have hbig' : (2 ^ 52 * 2 ^ d : Int) ≤ n := by exact_mod_cast hbig
    have hsmall' : |v * 2 ^ sh| < 2 ^ 52 * 2 ^ d := by
      rw [Int.abs_eq_natAbs, hscaled]
      exact_mod_cast hsmall
    rw [abs_of_nonpos (show (2 ^ 52 : Int) * 2 ^ d - n ≤ 0 by linarith)] at hfloor
    have hlt : |(roundEven n d : Int) * 2 ^ d - n| < |v * 2 ^ sh - n| := by
      have := (abs_lt.1 hsmall').2
      rw [abs_of_neg (show v * 2 ^ sh - n < 0 by linarith)]
      linarith
    exact ⟨hlt.le, fun _ heq => absurd heq hlt.ne⟩

/-! ## Overflow -/

/-- A number rounds below infinity exactly below half a step above the greatest finite value. -/
theorem f64Magnitude_lt_iff (n sh : Nat) :
    (f64Drop n sh - sh) * 2 ^ 52 + roundEven n (f64Drop n sh) < f64InfBits ↔ n < (2 ^ 54 - 1) * 2 ^ (sh + 2044) := by
  obtain ⟨hsh, hle, hdrop⟩ := f64Drop_spec n sh
  generalize f64Drop n sh = d at *
  have htop : roundEven n d ≤ 2 ^ 53 := roundEven_le hle
  simp only [f64InfBits]
  constructor
  · intro hfin
    by_contra hn
    have hd : sh + 2044 < d := by
      by_contra hd
      have hmono : 2 ^ d ≤ 2 ^ (sh + 2044) := Nat.pow_le_pow_right (by norm_num) (by omega)
      have := Nat.two_pow_pos (sh + 2044)
      omega
    rcases eq_or_lt_of_le (Nat.succ_le_of_lt hd) with rfl | hd'
    · have hround := succ_le_roundEven (n := n) (d := sh + 2044 + 1) (k := 2 ^ 53 - 1) (by norm_num)
        (by rw [pow_succ]; omega)
      simp only [Nat.succ_eq_add_one] at hfin
      omega
    · have hnorm : 2 ^ 52 ≤ roundEven n d := le_roundEven (hdrop.resolve_left (by omega))
      omega
  · intro hn
    have hd : d ≤ sh + 2045 := by
      rcases hdrop with rfl | hbig
      · omega
      · by_contra hd
        have hmono : 2 ^ (sh + 2044 + 2) ≤ 2 ^ d := Nat.pow_le_pow_right (by norm_num) (by omega)
        rw [pow_add] at hmono
        omega
    rcases eq_or_lt_of_le hd with rfl | hd'
    · have herror := (roundEven_error n (sh + 2045)).2
      have hround : roundEven n (sh + 2045) < 2 ^ 53 := by
        refine Nat.lt_of_mul_lt_mul_right (a := 2 ^ (sh + 2044 + 1)) ?_
        rw [show sh + 2045 = sh + 2044 + 1 from rfl] at herror ⊢
        rw [pow_succ] at herror ⊢
        omega
      omega
    · omega

theorem f64Inf_fields (s : Bool) :
    f64IsInf (f64Pack s f64InfBits) = true ∧ f64IsFinite (f64Pack s f64InfBits) = false
      ∧ f64Sign (f64Pack s f64InfBits) = s := by
  cases s <;> decide

/-- From the threshold on, the rounded value is the infinity of its sign. -/
theorem f64Round_of_le (s : Bool) {n sh : Nat} (h : (2 ^ 54 - 1) * 2 ^ (sh + 2044) ≤ n) :
    f64Round s n sh = f64Pack s f64InfBits := by
  have hinf := Nat.le_of_not_lt (mt (f64Magnitude_lt_iff n sh).1 h.not_gt)
  rw [f64Round, f64Magnitude, min_eq_left hinf]

theorem f64Round_finite_iff (s : Bool) (n sh : Nat) :
    f64IsFinite (f64Round s n sh) = true ↔ n < (2 ^ 54 - 1) * 2 ^ (sh + 2044) := by
  refine ⟨fun h => ?_, fun h => (f64Round_spec s ((f64Magnitude_lt_iff n sh).2 h)).1⟩
  by_contra hn
  rw [f64Round_of_le s (Nat.le_of_not_lt hn), (f64Inf_fields s).2.1] at h
  cases h

theorem f64Magnitude_lt (n sh : Nat) : f64Magnitude n sh < 2 ^ 63 := (min_le_left _ _).trans_lt (by decide)

theorem f64Sign_round (s : Bool) (n sh : Nat) : f64Sign (f64Round s n sh) = s := f64Sign_pack s (f64Magnitude_lt n sh)

/-- The last bit of a finite result is that of the rounded significand. -/
theorem f64Frac_round_mod_two (s : Bool) {n sh : Nat} (h : n < (2 ^ 54 - 1) * 2 ^ (sh + 2044)) :
    f64Frac (f64Round s n sh) % 2 = roundEven n (f64Drop n sh) % 2 := by
  have hfin := (f64Magnitude_lt_iff n sh).2 h
  have hmag : f64Magnitude n sh = (f64Drop n sh - sh) * 2 ^ 52 + roundEven n (f64Drop n sh) := min_eq_right hfin.le
  rw [f64Round, f64Frac_pack s (f64Magnitude_lt n sh), hmag]
  omega

/-! ## The product of finite values -/

/-- The sign as a factor. -/
def f64Unit (x : F64) : Int := if f64Sign x then -1 else 1

theorem f64Int_eq (x : F64) : f64Int x = f64Unit x * f64Units x := by
  rw [f64Int, f64Unit]
  split <;> ring

theorem f64Unit_mul_self (x : F64) : f64Unit x * f64Unit x = 1 := by
  rw [f64Unit]
  split <;> rfl

theorem f64Unit_ne_zero (x : F64) : f64Unit x ≠ 0 := left_ne_zero_of_mul_eq_one (f64Unit_mul_self x)

theorem natAbs_f64Unit (x : F64) : (f64Unit x).natAbs = 1 := by
  rw [f64Unit]
  split <;> rfl

theorem f64Unit_of_xor {x a b : F64} (h : f64Sign x = xor (f64Sign a) (f64Sign b)) :
    f64Unit x = f64Unit a * f64Unit b := by
  simp only [f64Unit, h]
  cases f64Sign a <;> cases f64Sign b <;> rfl

theorem natAbs_f64Unit_mul (a b x : F64) : (f64Unit a * f64Unit b * f64Int x).natAbs = f64Units x := by
  rw [f64Int_eq, Int.natAbs_mul, Int.natAbs_mul, Int.natAbs_mul, natAbs_f64Unit, natAbs_f64Unit, natAbs_f64Unit,
    Int.natAbs_natCast, Nat.mul_one, Nat.one_mul, Nat.one_mul]

/-- The distance of a value from an exact product, in units of 2^-2148 and turned to the product's side of 0. -/
theorem abs_f64Rat_sub_mul (a b x : F64) : |f64Rat x - f64Rat a * f64Rat b| =
    ((|f64Unit a * f64Unit b * f64Int x * 2 ^ 1074 - (f64Units a * f64Units b : Nat)| : Int) : ℚ) / 2 ^ 2148 := by
  have hunit : (f64Unit a * f64Unit b) * (f64Unit a * f64Unit b) = 1 := by
    rw [mul_mul_mul_comm, f64Unit_mul_self, f64Unit_mul_self, mul_one]
  have hsplit : f64Rat x - f64Rat a * f64Rat b
      = ((f64Int x * 2 ^ 1074 - f64Int a * f64Int b : Int) : ℚ) / 2 ^ 2148 := by
    have hpow : (2 : ℚ) ^ 2148 = 2 ^ 1074 * 2 ^ 1074 := by rw [← pow_add]
    have hpos : (2 : ℚ) ^ 1074 ≠ 0 := by positivity
    rw [f64Rat, f64Rat, f64Rat, hpow, Int.cast_sub, Int.cast_mul, Int.cast_mul, Int.cast_pow, Int.cast_ofNat]
    generalize (2 : ℚ) ^ 1074 = P at *
    field_simp
  have hturn : f64Int x * 2 ^ 1074 - f64Int a * f64Int b = f64Unit a * f64Unit b
      * (f64Unit a * f64Unit b * f64Int x * 2 ^ 1074 - (f64Units a * f64Units b : Nat)) := by
    rw [f64Int_eq a, f64Int_eq b, Nat.cast_mul]
    generalize (2 : Int) ^ 1074 = P
    linear_combination (-(f64Int x) * P) * hunit
  have habs : |f64Unit a * f64Unit b| = 1 := by
    rw [Int.abs_eq_natAbs, Int.natAbs_mul, natAbs_f64Unit, natAbs_f64Unit]
    rfl
  rw [hsplit, hturn, abs_div, abs_of_pos (by positivity : (0 : ℚ) < 2 ^ 2148), ← Int.cast_abs, abs_mul, habs,
    one_mul]

theorem abs_f64Rat_mul (a b : F64) :
    |f64Rat a * f64Rat b| = ((f64Units a * f64Units b : Nat) : ℚ) / 2 ^ 2148 := by
  have h := abs_f64Rat_sub_mul a b 0
  have hzero : f64Int 0 = 0 := by decide
  rw [f64Rat, hzero, Int.cast_zero, zero_div, zero_sub, abs_neg, mul_zero, zero_mul, zero_sub, abs_neg,
    abs_of_nonneg (Int.natCast_nonneg _), Int.cast_natCast] at h
  exact h

/-- The threshold of overflow, as a count of units. -/
theorem f64Mul_lt_iff (a b : F64) : |f64Rat a * f64Rat b| < 2 ^ 1024 - 2 ^ 970
    ↔ f64Units a * f64Units b < (2 ^ 54 - 1) * 2 ^ (1074 + 2044) := by
  have hthreshold : ((2 : ℚ) ^ 1024 - 2 ^ 970) * 2 ^ 2148 = (((2 ^ 54 - 1) * 2 ^ (1074 + 2044) : Nat) : ℚ) := by
    have h1 : (2 : ℚ) ^ 1024 = 2 ^ 54 * 2 ^ 970 := by rw [← pow_add]
    have h2 : (2 : ℚ) ^ (1074 + 2044) = 2 ^ 970 * 2 ^ 2148 := by rw [← pow_add]
    have h3 : ((2 ^ 54 - 1 : Nat) : ℚ) = 2 ^ 54 - 1 := by norm_num
    rw [Nat.cast_mul, h3, Nat.cast_pow, Nat.cast_ofNat, h1, h2]
    generalize (2 : ℚ) ^ 970 = P
    generalize (2 : ℚ) ^ 2148 = Q
    ring
  rw [abs_f64Rat_mul, div_lt_iff₀ (by positivity), hthreshold, Nat.cast_lt]

section Finite

variable {a b : F64} (ha : f64IsFinite a = true) (hb : f64IsFinite b = true)

include ha hb

theorem f64Sign_mul_of_finite : f64Sign (f64Mul a b) = xor (f64Sign a) (f64Sign b) := by
  rw [f64Mul_of_finite ha hb, f64Sign_round]

theorem f64Mul_finite_iff : f64IsFinite (f64Mul a b) = true ↔ |f64Rat a * f64Rat b| < 2 ^ 1024 - 2 ^ 970 := by
  rw [f64Mul_of_finite ha hb, f64Round_finite_iff, f64Mul_lt_iff]

/-- A product of finite values that is not finite is an infinity. -/
theorem f64Mul_finite_or_inf : f64IsFinite (f64Mul a b) = true ∨ f64IsInf (f64Mul a b) = true := by
  rw [f64Mul_of_finite ha hb, f64Round_finite_iff]
  refine (Nat.lt_or_ge _ _).imp_right fun h => ?_
  rw [f64Round_of_le _ h]
  exact (f64Inf_fields _).1

/-- No finite value is nearer to the exact product, and another one as near leaves the fraction even. -/
theorem f64Mul_nearest (hfin : f64IsFinite (f64Mul a b) = true) (c : F64) :
    |f64Rat (f64Mul a b) - f64Rat a * f64Rat b| ≤ |f64Rat c - f64Rat a * f64Rat b|
      ∧ (f64Rat c ≠ f64Rat (f64Mul a b) →
        |f64Rat (f64Mul a b) - f64Rat a * f64Rat b| = |f64Rat c - f64Rat a * f64Rat b| →
        f64Frac (f64Mul a b) % 2 = 0) := by
  have hsign := f64Sign_mul_of_finite ha hb
  have hfrac := hfin
  rw [f64Mul_of_finite ha hb, f64Round_finite_iff] at hfrac
  obtain ⟨-, -, hunits⟩ := f64Round_spec (xor (f64Sign a) (f64Sign b)) ((f64Magnitude_lt_iff _ _).2 hfrac)
  have hparity := f64Frac_round_mod_two (xor (f64Sign a) (f64Sign b)) hfrac
  rw [← f64Mul_of_finite ha hb] at hunits hparity
  have hself : f64Unit a * f64Unit b * f64Int (f64Mul a b) * 2 ^ 1074
      = roundEven (f64Units a * f64Units b) (f64Drop (f64Units a * f64Units b) 1074)
        * 2 ^ f64Drop (f64Units a * f64Units b) 1074 := by
    have hcast := congrArg (Nat.cast (R := Int)) hunits
    rw [Nat.cast_mul, Nat.cast_mul, Nat.cast_pow, Nat.cast_pow, Nat.cast_ofNat] at hcast
    rw [← f64Unit_of_xor hsign, f64Int_eq, ← mul_assoc, f64Unit_mul_self, one_mul, hcast]
  obtain ⟨hle, heven⟩ := roundEven_nearest_units (f64Units a * f64Units b) 1074 (natAbs_f64Unit_mul a b c)
  rw [← hself] at hle heven
  have hpos : (0 : ℚ) < 2 ^ 2148 := by positivity
  rw [abs_f64Rat_sub_mul a b (f64Mul a b), abs_f64Rat_sub_mul a b c, div_le_div_iff_of_pos_right hpos, Int.cast_le,
    div_left_inj' hpos.ne', Int.cast_inj, hparity]
  refine ⟨hle, fun hne => heven fun heq => hne ?_⟩
  have hpow : (2 : Int) ^ 1074 ≠ 0 := by positivity
  have hunit : f64Unit a * f64Unit b ≠ 0 := mul_ne_zero (f64Unit_ne_zero a) (f64Unit_ne_zero b)
  rw [f64Rat, f64Rat, mul_left_cancel₀ hunit (mul_right_cancel₀ hpow heq)]

end Finite

/-! ## NaN and the infinities -/

theorem f64IsNaN_freeNaN (a b : F64) : f64IsNaN (f64FreeNaN a b) = true := by
  have hfrac : f64Frac (Config.nanPattern a b) < 2 ^ 52 := Nat.mod_lt _ (by norm_num)
  have hlt : f64InfBits + max 1 (f64Frac (Config.nanPattern a b)) < 2 ^ 63 := by
    simp only [f64InfBits]
    omega
  rw [f64FreeNaN, f64IsNaN, f64Exp_pack _ hlt, f64Frac_pack _ hlt, Bool.and_eq_true, decide_eq_true_eq,
    decide_eq_true_eq]
  simp only [f64InfBits]
  omega

theorem f64Mul_of_nan {a b : F64} (h : f64IsNaN a = true ∨ f64IsNaN b = true) : f64IsNaN (f64Mul a b) = true := by
  rw [f64Mul, if_pos (by simpa using h)]
  exact f64IsNaN_freeNaN a b

/-- The 63 low bits are the two fields. -/
theorem f64_low_bits (x : F64) : x.toNat % 2 ^ 63 = f64Exp x * 2 ^ 52 + f64Frac x := by
  simp only [f64Exp, f64Frac]
  omega

/-- A zero is what has no exponent and no fraction. -/
theorem f64_low_bits_zero_iff (x : F64) : x.toNat % 2 ^ 63 = 0 ↔ f64IsFinite x = true ∧ f64Rat x = 0 := by
  have hfin : f64IsFinite x = true ↔ f64Exp x ≠ 2047 := decide_eq_true_iff
  have hpos : (2 : ℚ) ^ 1074 ≠ 0 := by positivity
  have hrat : f64Rat x = 0 ↔ f64Units x = 0 := by
    rw [f64Rat, div_eq_zero_iff, or_iff_left hpos, Int.cast_eq_zero, f64Int]
    split <;> omega
  have hunits : f64Units x = 0 ↔ f64Exp x = 0 ∧ f64Frac x = 0 := by
    rw [f64Units]
    split
    · next h => exact (and_iff_right h).symm
    · next h =>
      have := Nat.two_pow_pos (f64Exp x - 1)
      simp [h]
  rw [f64_low_bits, hfin, hrat, hunits]
  omega

theorem not_nan_of_inf {x : F64} (h : f64IsInf x = true) : f64IsNaN x = false := by
  simp only [f64IsInf, Bool.and_eq_true, decide_eq_true_eq] at h
  simp [f64IsNaN, h]

/-- An infinity is no zero. -/
theorem low_bits_ne_zero_of_inf {x : F64} (h : f64IsInf x = true) : x.toNat % 2 ^ 63 ≠ 0 := by
  simp only [f64IsInf, Bool.and_eq_true, decide_eq_true_eq] at h
  rw [f64_low_bits]
  omega

section Infinite

variable {a b : F64} (h : f64IsInf a = true ∨ f64IsInf b = true) (ha : f64IsNaN a = false) (hb : f64IsNaN b = false)

include h ha hb

/-- An infinity times a zero. -/
theorem f64Mul_of_inf_zero (h0 : a.toNat % 2 ^ 63 = 0 ∨ b.toNat % 2 ^ 63 = 0) : f64IsNaN (f64Mul a b) = true := by
  rw [f64Mul, if_neg (by simp [ha, hb]), if_pos (by simpa using h), if_pos h0]
  exact f64IsNaN_freeNaN a b

/-- An infinity times anything else but a NaN. -/
theorem f64Mul_of_inf (h0 : ¬ (a.toNat % 2 ^ 63 = 0 ∨ b.toNat % 2 ^ 63 = 0)) :
    f64IsInf (f64Mul a b) = true ∧ f64Sign (f64Mul a b) = xor (f64Sign a) (f64Sign b) := by
  rw [f64Mul, if_neg (by simp [ha, hb]), if_pos (by simpa using h), if_neg h0]
  obtain ⟨hinf, -, hsign⟩ := f64Inf_fields (xor (f64Sign a) (f64Sign b))
  exact ⟨hinf, hsign⟩

end Infinite

theorem f64IsFinite_ofByte (b : Byte) : f64IsFinite (f64OfByte b) = true := by
  have hb := b.isLt
  exact (f64Round_exact false (by omega) (by norm_num)).1

/-- Settles O26: the finite product is the rounded count of units, whose sign, overflow and nearness are the lemmas
above; a NaN and an infinity take the cases of the definition. -/
theorem productIsNearest : Obligations.product_is_nearest := by
  refine ⟨fun b => ⟨f64IsFinite_ofByte b, f64Rat_ofByte b⟩, fun a b ha hb => ?_, fun a b => f64Mul_of_nan,
    fun a b ha hb => ⟨fun h0 => ?_, fun h0 => ?_⟩⟩
  · exact ⟨f64Sign_mul_of_finite ha hb, f64Mul_finite_iff ha hb, f64Mul_finite_or_inf ha hb,
      fun hfin c _ => f64Mul_nearest ha hb hfin c⟩
  · have hzero := (f64_low_bits_zero_iff b).2 h0
    have hna := not_nan_of_inf ha
    exact ⟨f64Mul_of_inf_zero (.inl ha) hna hb (.inr hzero), f64Mul_of_inf_zero (.inr ha) hb hna (.inl hzero)⟩
  · have hzero := mt (f64_low_bits_zero_iff b).1 h0
    have hna := not_nan_of_inf ha
    have hane := low_bits_ne_zero_of_inf ha
    refine ⟨f64Mul_of_inf (.inl ha) hna hb (not_or.2 ⟨hane, hzero⟩), ?_⟩
    rw [Bool.xor_comm]
    exact f64Mul_of_inf (.inr ha) hb hna (not_or.2 ⟨hzero, hane⟩)

end Sys2Proof.Machine
end
section
/-!
The primitive convolution commands (43_convolution.md R166 to R170): the array each one reads, the region or the channel
it writes, and BLUR with S = 0 (R172).
-/

namespace Sys2Proof.Machine

open Sys2Proof

/-! ## The region a transform writes -/

/-- A plane over whose region an array was stored: every element of the region, and no byte beside it. -/
theorem stored_region {c : Config} {p : Params} {m m' : Memory} {f : Nat → Nat → Cplx} (g : GeometryValid c p)
    (v : SizeValid c p) (hm : m' = Memory.writeRuns m (regionRuns c p.pw p.ph f)) :
    (∀ x y, x < p.pw → y < p.ph → HoldsElement c m' x y (f x y)) ∧ SameOutside (InRegion c p) m m' := by
  subst hm
  exact ⟨fun x y hx hy => holdsElement_region (g.pw_le v) hx hy, sameOutside_region m p f⟩

/-- A completed command whose effect writes only a memory keeps COLOR and KER_LEN, beside its frame. -/
theorem EffectFrame.completed {w : Plane → Bool} {s t : State} (f : EffectFrame w s t) (hcolor : t.color = s.color)
    (hlen : t.kerLen = s.kerLen) :
    (completeDone t).color = s.color ∧ (completeDone t).kerLen = s.kerLen ∧ CommandFrame w s (completeDone t) :=
  ⟨hcolor, hlen, f.command⟩

/-! ## FFTF.IMG (R166) -/

/-- The array FFTF.IMG transforms: the channel's samples at the origin, zeros elsewhere. -/
theorem paddedImage_channelSamples_get (s : State) {p : Params} {ch u v : Nat} (hc : ch < p.c) (hu : u < p.pw)
    (hv : v < p.ph) : (paddedImage p.geom (channelSamples p ch s))[v * p.pw + u]? = some
      (if u < p.w ∧ v < p.h then
        { re := f64OfByte (s.byteAt .pix ((v * p.w + u) * p.c + ch)), im := 0 } else { re := 0, im := 0 }) := by
  refine (paddedImage_get p.geom _ hu hv).trans (congrArg some ?_)
  by_cases hin : u < p.w ∧ v < p.h
  · have hsample := channelSamples_get hc s hin.1 hin.2
    rw [if_pos hin, if_pos (show u < p.geom.w ∧ v < p.geom.h from hin), Params.geom_w,
      List.getD_eq_getElem?_getD, hsample]
    rfl
  · rw [if_neg hin, if_neg (show ¬ (u < p.geom.w ∧ v < p.geom.h) from hin)]
    rfl

theorem exec_fftfImg {s : State} {ch : Nat} (g : GeometryValid s.cfg s.latch.params)
    (v : SizeValid s.cfg s.latch.params) (hc : ch < s.latch.params.c) :
    exec (.fftfImg ch) s = .next (completeDone (fftfImgEffect ch s.latch.params s)) :=
  exec_completes rfl (channelChecks_ok g v hc) rfl

/-- Settles O27: the checks pass, and the effect stores the transform of the padded channel over the region of A. -/
theorem fftfImgResult : Obligations.fftf_img_result := by
  rintro s p ch rfl g v hc
  obtain ⟨helements, hframe⟩ := stored_region g v (fftfImgEffect_planeA ch _ s)
  exact ⟨_, _, exec_fftfImg g v hc, paddedImage_length _ _,
    fun x y hx hy => paddedImage_channelSamples_get s hc hx hy, helements, hframe,
    (fftfImgEffect_frame ch _ s).completed (fftfImgEffect_color ch _ s) (fftfImgEffect_kerLen ch _ s)⟩

/-! ## FFTF.KER (R167) -/

/-- The taps FFTF.KER reads: TAP i for i ≤ 2S. -/
theorem tapList_getD (s : State) {n i : Nat} (hi : i ≤ n) :
    ((List.range (n + 1)).map s.tapAt).getD i f64Zero = s.tapAt i := by
  rw [List.getD_eq_getElem?_getD, List.getElem?_map, List.getElem?_range (by omega)]
  rfl

/-- The array FFTF.KER transforms is that of the taps in KER. -/
theorem wrappedKernel_taps (p : Params) (s : State) :
    wrappedKernel p.geom (fun i => ((List.range (2 * p.half + 1)).map s.tapAt).getD i f64Zero)
      = wrappedKernel p.geom s.tapAt :=
  wrappedKernel_congr p.geom fun _ hi => tapList_getD s hi

section Wrapped

variable {g : Geom} (tap : Nat → F64)

/-- The product of the taps of offsets i and j stands at [i mod PW, j mod PH]. -/
theorem wrappedKernel_get_offset (hw : 1 ≤ g.w) (hh : 1 ≤ g.h) {i j : Int} (hi : -(g.s : Int) ≤ i ∧ i ≤ g.s)
    (hj : -(g.s : Int) ≤ j ∧ j ≤ g.s) :
    (wrappedKernel g tap)[(j % g.ph).toNat * g.pw + (i % g.pw).toNat]? = some
      { re := f64Mul (tap ((g.s : Int) + i).toNat) (tap ((g.s : Int) + j).toNat), im := 0 } := by
  have hpw := g.w_add_le_pw
  have hph := g.h_add_le_ph
  have hu := Int.emod_lt_of_pos i (show (0 : Int) < g.pw by omega)
  have hv := Int.emod_lt_of_pos j (show (0 : Int) < g.ph by omega)
  rw [wrappedKernel_get g tap (by omega) (by omega), kernelEntry, wrappedTap_mod (by omega) hi.1 hi.2,
    wrappedTap_mod (by omega) hj.1 hj.2]
  rfl

/-- A place that no pair of offsets lands on holds zero. -/
theorem wrappedKernel_get_zero (hw : 1 ≤ g.w) (hh : 1 ≤ g.h) {u v : Nat} (hu : u < g.pw) (hv : v < g.ph)
    (h : ∀ i j : Int, -(g.s : Int) ≤ i → i ≤ g.s → -(g.s : Int) ≤ j → j ≤ g.s → ¬ (i % g.pw = u ∧ j % g.ph = v)) :
    (wrappedKernel g tap)[v * g.pw + u]? = some { re := 0, im := 0 } := by
  have hpw := g.w_add_le_pw
  have hph := g.h_add_le_ph
  rw [wrappedKernel_get g tap hu hv, kernelEntry]
  cases hi : wrappedTap g.s g.pw u with
  | none => rfl
  | some _ =>
    cases hj : wrappedTap g.s g.ph v with
    | none => rfl
    | some _ =>
      obtain ⟨i, hi1, hi2, hiu, -⟩ := wrappedTap_some (by omega) hu hi
      obtain ⟨j, hj1, hj2, hjv, -⟩ := wrappedTap_some (by omega) hv hj
      exact absurd ⟨hiu, hjv⟩ (h i j hi1 hi2 hj1 hj2)

end Wrapped

theorem exec_fftfKer {s : State} (g : GeometryValid s.cfg s.latch.params) (v : SizeValid s.cfg s.latch.params)
    (hlen : (s.kerLen.toNat : Int) = 2 * s.latch.params.s + 1) :
    exec .fftfKer s = .next (completeDone (fftfKerEffect s.latch.params s)) :=
  exec_completes rfl (fftfKerChecks_ok g v hlen) rfl

/-- S of valid operands as the integer it is. -/
theorem SizeValid.cast_half {c : Config} {p : Params} (v : SizeValid c p) : (p.half : Int) = p.s :=
  Int.toNat_of_nonneg v.1

/-- Settles O28: the checks pass, and the effect stores the transform of the wrapped taps over the region of K. -/
theorem fftfKerResult : Obligations.fftf_ker_result := by
  rintro s p rfl g v hlen
  obtain ⟨helements, hframe⟩ := stored_region g v (fftfKerEffect_planeK _ s)
  have ⟨hw, _, hh, _⟩ := g
  rw [wrappedKernel_taps] at helements
  refine ⟨_, _, exec_fftfKer g v hlen, wrappedKernel_length _ s.tapAt, ?_, ?_, helements, hframe,
    (fftfKerEffect_frame _ s).completed (fftfKerEffect_color _ s) (fftfKerEffect_kerLen _ s)⟩
  · rw [← v.cast_half]
    exact fun i j hi1 hi2 hj1 hj2 => wrappedKernel_get_offset s.tapAt hw hh ⟨hi1, hi2⟩ ⟨hj1, hj2⟩
  · rw [← v.cast_half]
    exact fun x y hx hy h => wrappedKernel_get_zero s.tapAt hw hh hx hy h

/-! ## PMUL and FFTI (R168, R169) -/

theorem exec_pmul {s : State} (g : GeometryValid s.cfg s.latch.params) (v : SizeValid s.cfg s.latch.params) :
    exec .pmul s = .next (completeDone (pmulEffect s.latch.params s)) :=
  exec_completes rfl (convolutionChecks_ok g v) rfl

theorem exec_ffti {s : State} (g : GeometryValid s.cfg s.latch.params) (v : SizeValid s.cfg s.latch.params) :
    exec .ffti s = .next (completeDone (fftiEffect s.latch.params s)) :=
  exec_completes rfl (convolutionChecks_ok g v) rfl

/-- Settles O29: the checks pass, and the effect stores the product of the two regions over that of A. -/
theorem pmulResult : Obligations.pmul_result := by
  rintro s p rfl g v
  obtain ⟨helements, hframe⟩ := stored_region g v (pmulEffect_planeA _ s)
  exact ⟨_, _, _, exec_pmul g v, s.region_length .a _ _, s.region_length .k _ _,
    fun x y hx hy => ⟨s.region_get .a _ _ hx hy, s.region_get .k _ _ hx hy⟩, helements, hframe,
    (pmulEffect_frame _ s).completed (pmulEffect_color _ s) (pmulEffect_kerLen _ s)⟩

/-- Settles O30: the checks pass, and the effect stores the inverse transform of the region over it. -/
theorem fftiResult : Obligations.ffti_result := by
  rintro s p rfl g v
  obtain ⟨helements, hframe⟩ := stored_region g v (fftiEffect_planeA _ s)
  exact ⟨_, _, exec_ffti g v, s.region_length .a _ _, fun x y hx hy => s.region_get .a _ _ hx hy, helements, hframe,
    (fftiEffect_frame _ s).completed (fftiEffect_color _ s) (fftiEffect_kerLen _ s)⟩

/-! ## WBACK (R170) -/

/-- WBACK's byte of channel `ch` of pixel [x, y]. -/
theorem wbackEffect_read {p : Params} {ch x y : Nat} (hc : ch < p.c) (s : State) (hx : x < p.w) (hy : y < p.h) :
    Memory.read (wbackEffect ch p s).pix ((y * p.w + x) * p.c + ch) = some (writeBack (s.cplxAt .a x y).re) := by
  have hget := realParts_get p s hx hy
  obtain ⟨hj, hval⟩ := List.getElem?_eq_some_iff.1 hget
  have hread := read_channel_inside s.pix (ch := ch) (c := p.c) (by omega) ((realParts p s).map writeBack)
    (j := y * p.w + x) (by simpa using hj)
  rw [List.map_map, List.getElem_map, hval] at hread
  rw [wbackEffect_pix]
  exact hread

/-- WBACK writes no byte but those of its channel. -/
theorem wbackEffect_sameOutside (p : Params) (ch : Nat) (s : State) :
    SameOutside (InChannel p ch) s.pix (wbackEffect ch p s).pix := by
  intro a ha
  have houtside := read_channel_outside s.pix (ch := ch) (c := p.c) ((realParts p s).map writeBack) (b := a) ?_
  · rw [List.map_map] at houtside
    rw [wbackEffect_pix]
    exact houtside
  · rintro j hj rfl
    rw [List.length_map, realParts_length] at hj
    have hw : 0 < p.w := Nat.pos_of_mul_pos_left (by omega : 0 < p.h * p.w)
    exact ha ⟨j % p.w, j / p.w, Nat.mod_lt j hw, (Nat.div_lt_iff_lt_mul hw).2 hj, by rw [Nat.div_add_mod']⟩

theorem exec_wback {s : State} {ch : Nat} (g : GeometryValid s.cfg s.latch.params)
    (v : SizeValid s.cfg s.latch.params) (hc : ch < s.latch.params.c) :
    exec (.wback ch) s = .next (completeDone (wbackEffect ch s.latch.params s)) :=
  exec_completes rfl (channelChecks_ok g v hc) rfl

/-- Settles O31: the checks pass, and the effect writes one byte for each pixel of the channel. -/
theorem wbackResult : Obligations.wback_result := by
  rintro s p ch rfl g v hc
  exact ⟨_, exec_wback g v hc, fun x y hx hy => wbackEffect_read hc s hx hy, wbackEffect_sameOutside _ ch s,
    (wbackEffect_frame ch _ s).completed (wbackEffect_color ch _ s) (wbackEffect_kerLen ch _ s)⟩

/-- A finite value is rounded half up as an exact rational, and clamped. -/
theorem writeBack_of_finite {a : F64} (h : f64IsFinite a = true) : writeBack a = roundSample (f64Rat a) := by
  have hunit : ((2 ^ 1074 : ℕ) : ℚ) = 2 ^ 1074 := Nat.cast_pow 2 1074
  rw [writeBack, if_pos h, rhu_eq_floor _ (by positivity), hunit, roundSample, clamp8, f64Rat]

/-- Settles O32: the finite case is `writeBack_of_finite`, and a value that is not finite takes its fixed byte. -/
theorem writeBackFunction : Obligations.write_back_function := by
  refine fun a => ⟨writeBack_of_finite, fun h => ?_, fun h => ?_, fun h => ?_⟩
  · simp only [f64IsNaN, Bool.and_eq_true, decide_eq_true_eq] at h
    simp [writeBack, f64IsFinite, f64IsInf, h]
  · subst h
    rfl
  · subst h
    rfl

/-! ## BLUR with S = 0 (R172) -/

theorem exec_blur {s : State} (g : GeometryValid s.cfg s.latch.params) (hstd : 0 < s.latch.params.std)
    (v : SizeValid s.cfg s.latch.params) :
    exec .blur s = .next (completeDone (blurEffect s.latch.params s)) :=
  exec_completes rfl (blurChecks_ok g hstd v) rfl

/-- At S = 0 the one tap is 1.0 for every NUM (42_kernel.md R153). -/
theorem kerImpl_zero (c : Config) (std : Int) (i : Nat) : kerImpl c std 0 i = f64One := if_pos rfl

theorem f64One_bytes : leBytes 8 f64One.toNat = [0, 0, 0, 0, 0, 0, 0xF0, 0x3F] := by decide

/-- At S = 0 BLUR's effect is KBUILD's. -/
theorem blurEffect_of_zero {p : Params} (h : p.s = 0) (s : State) : blurEffect p s = kbuildEffect p s := by
  rw [blurEffect, if_pos h]

/-- Settles O33: the checks pass, and the effect is KBUILD's, which stores the one tap 1.0. -/
theorem blurSizeZero : Obligations.blur_size_zero := by
  rintro s p rfl g hstd hs
  have v : SizeValid s.cfg s.latch.params := ⟨hs.ge, by omega⟩
  have hhalf : s.latch.params.half = 0 := by rw [Params.half, hs]; rfl
  have htap := kbuildEffect_holds_tap s.latch.params s (i := 0) (Nat.zero_le _)
  have hframe := kbuildEffect_sameOutside s.latch.params s
  rw [hhalf] at htap hframe
  have hexec := exec_blur g hstd v
  rw [blurEffect_of_zero hs] at hexec
  refine ⟨_, hexec, ?_, ?_, hframe, rfl, (kbuildEffect_frame _ s).command⟩
  · rw [completeDone_kerLen, kbuildEffect_kerLen, hhalf]
    rfl
  · rw [kerImpl_zero, f64One_bytes] at htap
    exact htap

end Sys2Proof.Machine
end

section
/-!
The commands of a convolution run one after another (43_convolution.md R171): after KBUILD no step fails its checks, so
a sequence of them runs their effects.
-/

namespace Sys2Proof.Machine

open Sys2Proof

/-- The commands that follow KBUILD in a convolution of an image with `c` channels (R171). -/
inductive ConvolutionStep (c : Nat) : Instr → Prop where
  | fftfImg {ch : Nat} : ch < c → ConvolutionStep c (.fftfImg ch)
  | fftfKer : ConvolutionStep c .fftfKer
  | pmul : ConvolutionStep c .pmul
  | ffti : ConvolutionStep c .ffti
  | wback {ch : Nat} : ch < c → ConvolutionStep c (.wback ch)

/-- The latched operands `p` pass the checks of every convolution step, and KER_LEN is that of a kernel built for
them. -/
structure ConvolutionReady (p : Params) (s : State) : Prop where
  operands : s.latch.params = p
  geometry : GeometryValid s.cfg p
  size : SizeValid s.cfg p
  kernelLength : (s.kerLen.toNat : Int) = 2 * p.s + 1

section Step

variable {p : Params} {s t : State} {i : Instr}

theorem ConvolutionReady.of_frame {w : Plane → Bool} (h : ConvolutionReady p s) (f : EffectFrame w s t)
    (hlen : t.kerLen = s.kerLen) : ConvolutionReady p t := by
  obtain ⟨-, hcfg, hlatch, -⟩ := f
  obtain ⟨hp, hg, hv, hl⟩ := h
  exact ⟨by rw [hlatch, hp], by rwa [hcfg], by rwa [hcfg], by rwa [hlen]⟩

/-- KBUILD makes a state ready (42_kernel.md R151). -/
theorem kbuildEffect_ready (g : GeometryValid s.cfg s.latch.params) (v : SizeValid s.cfg s.latch.params) :
    ConvolutionReady s.latch.params (kbuildEffect s.latch.params s) :=
  ⟨rfl, g, v, kbuildEffect_kerLen_int v.1 BitVec.toInt_lt s⟩

theorem ConvolutionStep.isControl {c : Nat} (step : ConvolutionStep c i) : i.isControl = false := by
  cases step <;> rfl

theorem ConvolutionStep.checks_pass (step : ConvolutionStep p.c i) (ready : ConvolutionReady p s) :
    firstFailure s.latch.params s (checksOf i) = none := by
  obtain ⟨rfl, g, v, hlen⟩ := ready
  cases step with
  | fftfImg hc => exact channelChecks_ok g v hc
  | fftfKer => exact fftfKerChecks_ok g v hlen
  | pmul => exact convolutionChecks_ok g v
  | ffti => exact convolutionChecks_ok g v
  | wback hc => exact channelChecks_ok g v hc

theorem ConvolutionStep.keeps_ready {c : Nat} (step : ConvolutionStep c i) (ready : ConvolutionReady p s) :
    ConvolutionReady p (effectOf i p s) := by
  cases step with
  | @fftfImg ch _ => exact ready.of_frame (fftfImgEffect_frame ch p s) (fftfImgEffect_kerLen ch p s)
  | fftfKer => exact ready.of_frame (fftfKerEffect_frame p s) (fftfKerEffect_kerLen p s)
  | pmul => exact ready.of_frame (pmulEffect_frame p s) (pmulEffect_kerLen p s)
  | ffti => exact ready.of_frame (fftiEffect_frame p s) (fftiEffect_kerLen p s)
  | @wback ch _ => exact ready.of_frame (wbackEffect_frame ch p s) (wbackEffect_kerLen ch p s)

/-- The flags of the step before pass through. -/
theorem ConvolutionStep.effectOf_completeDone {c : Nat} (step : ConvolutionStep c i) :
    effectOf i p (completeDone s) = completeDone (effectOf i p s) := by
  cases step with
  | @fftfImg ch _ => exact fftfImgEffect_completeDone ch p s
  | fftfKer => exact fftfKerEffect_completeDone p s
  | pmul => exact pmulEffect_completeDone p s
  | ffti => exact fftiEffect_completeDone p s
  | @wback ch _ => exact wbackEffect_completeDone ch p s

theorem ConvolutionStep.exec_completeDone (step : ConvolutionStep p.c i) (ready : ConvolutionReady p s) :
    exec i (completeDone s) = .next (completeDone (effectOf i p s)) := by
  obtain ⟨hp, hg, hv, hl⟩ := ready
  have ready' : ConvolutionReady p (completeDone s) := ⟨hp, hg, hv, hl⟩
  refine (exec_completes step.isControl (step.checks_pass ready') rfl).trans ?_
  rw [completeDone_latch, hp, step.effectOf_completeDone, completeDone_completeDone]

end Step

/-- The effects of a list of commands, one after another. -/
def effectsOf (p : Params) (is : List Instr) (s : State) : State := is.foldl (fun t i => effectOf i p t) s

/-- Convolution steps run in sequence complete with their effects. -/
theorem runSeq_convolution {p : Params} {is : List Instr} {s : State} (steps : ∀ i ∈ is, ConvolutionStep p.c i)
    (ready : ConvolutionReady p s) : runSeq is (completeDone s) = .next (completeDone (effectsOf p is s)) := by
  induction is generalizing s with
  | nil => rfl
  | cons i is ih =>
    obtain ⟨step, rest⟩ := List.forall_mem_cons.1 steps
    rw [runSeq_cons (step.exec_completeDone ready)]
    exact ih rest (step.keeps_ready ready)

/-- KBUILD and the convolution steps after it. -/
theorem runSeq_kbuild {s : State} {is : List Instr} (g : GeometryValid s.cfg s.latch.params)
    (v : SizeValid s.cfg s.latch.params) (hstd : 0 < s.latch.params.std)
    (steps : ∀ i ∈ is, ConvolutionStep s.latch.params.c i) :
    runSeq (.kbuild :: is) s
      = .next (completeDone (effectsOf s.latch.params is (kbuildEffect s.latch.params s))) := by
  rw [runSeq_cons (exec_kbuild hstd v)]
  exact runSeq_convolution steps (kbuildEffect_ready g v)

/-- With S ≥ 1 BLUR's effect is that of KBUILD and then of the steps of R171. -/
theorem blurEffect_eq_effectsOf {p : Params} (h : 1 ≤ p.s) (s : State) : blurEffect p s =
    effectsOf p (.fftfKer :: (List.range p.c).flatMap channelPass) (kbuildEffect p s) := by
  rw [blurEffect, if_neg (by omega), effectsOf, List.foldl_cons, List.foldl_flatMap]
  rfl

/-- Every command of R171's sequence after KBUILD is a convolution step. -/
theorem blurSteps_convolution (c : Nat) :
    ∀ i ∈ .fftfKer :: (List.range c).flatMap channelPass, ConvolutionStep c i := by
  intro i hi
  rcases List.mem_cons.1 hi with rfl | hi
  · exact .fftfKer
  · obtain ⟨ch, hch, hi⟩ := List.mem_flatMap.1 hi
    have hc : ch < c := List.mem_range.1 hch
    simp only [channelPass, List.mem_cons, List.not_mem_nil, or_false] at hi
    rcases hi with rfl | rfl | rfl | rfl
    · exact .fftfImg hc
    · exact .pmul
    · exact .ffti
    · exact .wback hc

/-- Settles O34: both sides complete with the effects of KBUILD, FFTF.KER and the channel passes. -/
theorem blurIsItsSequence : Obligations.blur_is_its_sequence := by
  rintro s p rfl g v hstd hs
  have hblur := exec_blur g hstd v
  refine ⟨⟨_, hblur⟩, ?_⟩
  rw [hblur, blurEffect_eq_effectsOf hs]
  exact (runSeq_kbuild g v hstd (blurSteps_convolution _)).symm

end Sys2Proof.Machine
end

section
/-!
The computed bounds of the exact convolution (43_convolution.md R173; log 6): the model's sum over taps is the sum over
offsets of R173, term by term.
-/

namespace Sys2Proof.Machine

open Sys2Proof

/-- A sum over a list of numbers 0 to n-1. -/
theorem cast_sum_range (n : Nat) (f : Nat → Nat) :
    (((List.range n).map f).sum : ℝ) = ∑ i ∈ Finset.range n, (f i : ℝ) := by
  rw [Nat.cast_list_sum, List.map_map]
  rfl

/-- The model's convolution with fixed-point weights is R173's sum over the offsets. -/
theorem convolveWith_eq (wt : Nat → Nat) (g : Geom) (samples : List Byte) (x y : Nat) :
    (convolveWith wt g samples x y : ℝ) / 2 ^ 320 =
      ∑ i ∈ Finset.Icc (-(g.s : ℤ)) g.s, ∑ j ∈ Finset.Icc (-(g.s : ℤ)) g.s,
        fxVal (wt i.natAbs) * fxVal (wt j.natAbs) * (paddedSample samples g.w g.h (x - i) (y - j) : ℝ) := by
  have hunit : (2 : ℝ) ^ 320 = (kerOne : ℝ) * kerOne := by
    rw [kerOne, Nat.cast_pow, Nat.cast_ofNat, ← pow_add]
  simp only [convolveWith, cast_sum_range, sum_offsets, Finset.sum_div]
  refine Finset.sum_congr rfl fun a _ => Finset.sum_congr rfl fun b _ => ?_
  rw [hunit, tapDistance, tapDistance, fxVal, fxVal]
  push_cast
  field_simp

/-- The table holds the weights of the distances that occur. -/
theorem weightTable_getD (wt : Nat → Nat) {s k : Nat} (h : k ≤ s) : (weightTable wt s).getD k 0 = wt k := by
  rw [weightTable, List.getD_eq_getElem?_getD, List.getElem?_map, List.getElem?_range (by omega)]
  rfl

section Bounds

variable {std : Int} {g : Geom} {wt : Nat → Nat} (samples : List Byte) (x y : Nat)

/-- Weights below the exact ones give a convolution below the exact one. -/
theorem convolveWith_le (h : ∀ k : ℕ, k ≤ g.s → fxVal (wt k) ≤ exactWeight std g.s k) :
    (convolveWith wt g samples x y : ℝ) / 2 ^ 320 ≤ exactConv std g samples x y := by
  have hoffset : ∀ i ∈ Finset.Icc (-(g.s : ℤ)) g.s, fxVal (wt i.natAbs) ≤ exactWeight std g.s i := fun i hi => by
    rw [Finset.mem_Icc] at hi
    exact (h i.natAbs (by omega)).trans_eq (exactWeight_natAbs std g.s i)
  rw [convolveWith_eq, exactConv]
  refine Finset.sum_le_sum fun i hi => Finset.sum_le_sum fun j hj => ?_
  have hi' := hoffset i hi
  have hj' := hoffset j hj
  have := fxVal_nonneg (wt j.natAbs)
  have := (fxVal_nonneg (wt i.natAbs)).trans hi'
  gcongr

/-- Weights above the exact ones give a convolution above the exact one. -/
theorem le_convolveWith (h : ∀ k : ℕ, k ≤ g.s → exactWeight std g.s k ≤ fxVal (wt k)) :
    exactConv std g samples x y ≤ (convolveWith wt g samples x y : ℝ) / 2 ^ 320 := by
  have hoffset : ∀ i ∈ Finset.Icc (-(g.s : ℤ)) g.s,
      0 ≤ exactWeight std g.s i ∧ exactWeight std g.s i ≤ fxVal (wt i.natAbs) := fun i hi => by
    rw [Finset.mem_Icc] at hi
    exact ⟨(exactWeight_le_one std hi.1 hi.2).1,
      (exactWeight_natAbs std g.s i).symm.trans_le (h i.natAbs (by omega))⟩
  rw [convolveWith_eq, exactConv]
  refine Finset.sum_le_sum fun i hi => Finset.sum_le_sum fun j hj => ?_
  obtain ⟨-, hi'⟩ := hoffset i hi
  obtain ⟨hj0, hj'⟩ := hoffset j hj
  have := fxVal_nonneg (wt i.natAbs)
  gcongr

end Bounds

theorem convLo_eq (std : Int) (g : Geom) (samples : List Byte) (x y : Nat) : convLo std g samples x y =
    convolveWith (fun k => (weightTable (weightLo std.toNat g.s) g.s).getD k 0) g samples x y := rfl

theorem convHi_eq (std : Int) (g : Geom) (samples : List Byte) (x y : Nat) : convHi std g samples x y =
    convolveWith (fun k => (weightTable (weightHi std.toNat g.s) g.s).getD k 0) g samples x y := rfl

/-- Settles O35: the tables hold the bounds of the weights, and the sum is monotone in the weights. -/
theorem convolutionEnclosure : Obligations.convolution_enclosure := by
  intro std g samples x y hstd
  lift std to ℕ using hstd.le
  have hpos : 0 < std := by exact_mod_cast hstd
  rw [convLo_eq, convHi_eq, Int.toNat_natCast]
  refine ⟨convolveWith_le samples x y fun k hk => ?_, le_convolveWith samples x y fun k hk => ?_⟩
  · rw [weightTable_getD _ hk]
    exact weightLo_le hpos g.s k
  · rw [weightTable_getD _ hk]
    exact le_weightHi hpos g.s k

end Sys2Proof.Machine
end

section
/-!
The canonical sequence (43_convolution.md R161, R175): each step applies one of NUM's functions to the array the step
before left, so what it leaves in A is the array that NUM's contract is about; and BLUR does so for every channel.
-/

namespace Sys2Proof.Machine

open Sys2Proof

/-! ## What the steps leave in A, K and KER -/

/-- Memory `m` is one over whose region the array `f` was stored. -/
def StoredArray (c : Config) (p : Params) (f : Nat → Cplx) (m : Memory) : Prop :=
  ∃ m₀, m = Memory.writeRuns m₀ (regionRuns c p.pw p.ph fun u v => f (v * p.pw + u))

section Stored

variable {p : Params} {f : Nat → Cplx}

/-- The region is read back as the array. -/
theorem StoredArray.region {s : State} {q : Plane} (h : StoredArray s.cfg p f (s.mem q)) (hp : p.pw ≤ s.cfg.maxPW) :
    s.region q p.pw p.ph = arrayOf (p.pw * p.ph) f := by
  obtain ⟨_, hm⟩ := h
  exact State.region_of_write hm hp

theorem StoredArray.holds {c : Config} {m : Memory} (h : StoredArray c p f m) (hp : p.pw ≤ c.maxPW) {u v : Nat}
    (hu : u < p.pw) (hv : v < p.ph) : HoldsElement c m u v (f (v * p.pw + u)) := by
  obtain ⟨_, rfl⟩ := h
  exact holdsElement_region (f := fun u v => f (v * p.pw + u)) hp hu hv

end Stored

/-- KER holds the kernel of the operands. -/
def StoredKernel (c : Config) (p : Params) (m : Memory) : Prop :=
  ∀ i, i ≤ 2 * p.half → HoldsRun m (8 * i) (leBytes 8 (kerImpl c p.std p.half i).toNat)

/-- A stored kernel is read as NUM's taps, so its wrapped products are those of the canonical sequence. -/
theorem wrappedKernel_stored {p : Params} {s : State} (hc : s.cfg.Valid) (v : SizeValid s.cfg p) (hstd : 0 < p.std)
    (h : StoredKernel s.cfg p s.ker) :
    wrappedKernel p.geom s.tapAt = wrappedKernel p.geom (s.cfg.num.ker p.std p.half) :=
  wrappedKernel_congr p.geom fun i hi =>
    (State.tapAt_of_holds (h i hi)).trans (kerImpl_eq hc hstd v.half_le hi)

/-- FFTF.IMG's samples, from what PIX holds of its channel. -/
theorem channelSamples_eq_of_read {p : Params} {ch : Nat} {s : State} {samples : List Byte} (hc : ch < p.c)
    (hlen : samples.length = p.w * p.h)
    (h : ∀ x y, x < p.w → y < p.h → samples[y * p.w + x]? = Memory.read s.pix ((y * p.w + x) * p.c + ch)) :
    channelSamples p ch s = samples := by
  have hlen' : samples.length = p.h * p.w := by rw [hlen, Nat.mul_comm]
  refine List.ext_getElem ((channelSamples_length p ch s).trans hlen'.symm) fun j hj hj' => ?_
  rw [hlen'] at hj'
  have hw : 0 < p.w := Nat.pos_of_mul_pos_left (by omega : 0 < p.h * p.w)
  have hx := Nat.mod_lt j hw
  have hy := (Nat.div_lt_iff_lt_mul hw).2 hj'
  have hget := channelSamples_get hc s hx hy
  have hread := h _ _ hx hy
  rw [Nat.div_add_mod'] at hget hread
  rw [List.getElem?_eq_getElem hj, Option.some_inj] at hget
  rw [List.getElem?_eq_getElem (by omega)] at hread
  rw [hget, State.byteAt, byteIn, State.mem_pix, ← hread, Option.getD_some]

/-- The byte of a channel of a pixel lies in the image. -/
theorem InChannel.lt {p : Params} {ch a : Nat} (hc : ch < p.c) (h : InChannel p ch a) : a < p.w * p.h * p.c := by
  obtain ⟨x, y, hx, hy, rfl⟩ := h
  have hpixel : y * p.w + x < p.w * p.h := (grid_index hx hy).1
  have := Nat.mul_le_mul_right p.c (show y * p.w + x + 1 ≤ p.w * p.h from hpixel)
  rw [Nat.succ_mul] at this
  omega

/-- Where the image is written, FFTF.IMG's samples are PIX's bytes. -/
theorem channelSamples_eq_read {p : Params} {ch : Nat} {s : State} (hc : ch < p.c)
    (hw : WrittenTo s.pix (p.w * p.h * p.c)) {x y : Nat} (hx : x < p.w) (hy : y < p.h) :
    (channelSamples p ch s)[y * p.w + x]? = Memory.read s.pix ((y * p.w + x) * p.c + ch) := by
  obtain ⟨b, hb⟩ := Option.isSome_iff_exists.1 (hw _ (InChannel.lt hc ⟨x, y, hx, hy, rfl⟩))
  rw [channelSamples_get hc s hx hy, State.byteAt, byteIn, State.mem_pix, hb, Option.getD_some]

/-! ## The four commands -/

theorem fftfKerEffect_keeps_planeA (p : Params) (s : State) : (fftfKerEffect p s).planeA = s.planeA := rfl
theorem fftfImgEffect_keeps_planeK (ch : Nat) (p : Params) (s : State) :
    (fftfImgEffect ch p s).planeK = s.planeK := rfl
theorem fftfKerEffect_keeps_pix (p : Params) (s : State) : (fftfKerEffect p s).pix = s.pix := rfl
theorem kbuildEffect_keeps_pix (p : Params) (s : State) : (kbuildEffect p s).pix = s.pix := rfl
theorem channelSamples_kbuildEffect (ch : Nat) (p : Params) (s : State) :
    channelSamples p ch (kbuildEffect p s) = channelSamples p ch s := rfl

/-- A and K hold the forward transforms of these samples and of the kernel of the operands (R166, R167). -/
structure Transformed (c : Config) (p : Params) (samples : List Byte) (s : State) : Prop where
  cfg : s.cfg = c
  image : StoredArray c p (c.num.fftFwd p.pw p.ph (paddedImage p.geom samples)) s.planeA
  kernel : StoredArray c p (c.num.fftFwd p.pw p.ph (wrappedKernel p.geom (c.num.ker p.std p.half))) s.planeK

section Commands

variable {p : Params} {s : State}

theorem kbuildEffect_storedKernel : StoredKernel s.cfg p (kbuildEffect p s).ker :=
  fun _ hi => kbuildEffect_holds_tap p s hi

variable {c : Config} (hcfg : s.cfg = c)

include hcfg

theorem fftfImgEffect_stored {ch : Nat} {samples : List Byte} (h : channelSamples p ch s = samples) :
    StoredArray c p (c.num.fftFwd p.pw p.ph (paddedImage p.geom samples)) (fftfImgEffect ch p s).planeA := by
  subst hcfg h
  exact ⟨_, fftfImgEffect_planeA ch p s⟩

theorem fftfKerEffect_stored (hc : c.Valid) (v : SizeValid c p) (hstd : 0 < p.std) (h : StoredKernel c p s.ker) :
    StoredArray c p (c.num.fftFwd p.pw p.ph (wrappedKernel p.geom (c.num.ker p.std p.half)))
      (fftfKerEffect p s).planeK := by
  subst hcfg
  rw [← wrappedKernel_stored hc v hstd h, ← wrappedKernel_taps]
  exact ⟨_, fftfKerEffect_planeK p s⟩

omit hcfg

/-- PMUL and FFTI turn the two transforms into the array of the contract (R161). -/
theorem Transformed.result {c : Config} {samples : List Byte} (h : Transformed c p samples s) (hp : p.pw ≤ c.maxPW) :
    StoredArray c p (canonicalArray c.num p.std p.geom samples) (fftiEffect p (pmulEffect p s)).planeA := by
  obtain ⟨rfl, himage, hkernel⟩ := h
  have hproduct : StoredArray s.cfg p (s.cfg.num.pmul p.pw p.ph (s.region .a p.pw p.ph) (s.region .k p.pw p.ph))
      (pmulEffect p s).planeA := ⟨_, pmulEffect_planeA p s⟩
  have hregion := hproduct.region (s := pmulEffect p s) (q := .a) hp
  rw [StoredArray.region (q := .a) himage hp, StoredArray.region (q := .k) hkernel hp] at hregion
  have hresult := fftiEffect_planeA p (pmulEffect p s)
  rw [hregion, pmulEffect_cfg] at hresult
  exact ⟨_, hresult⟩

end Commands

/-- What NUM promises of the array at a pixel (R161). -/
theorem canonicalArray_accurate {c : Config} {p : Params} (hc : c.Valid) (g : GeometryValid c p) (v : SizeValid c p)
    (hstd : 0 < p.std) (hs : 1 ≤ p.s) {samples : List Byte} (hlen : samples.length = p.w * p.h) {x y : Nat}
    (hx : x < p.w) (hy : y < p.h) :
    f64IsFinite (canonicalArray c.num p.std p.geom samples (y * p.pw + x)).re = true
      ∧ |(f64Rat (canonicalArray c.num p.std p.geom samples (y * p.pw + x)).re : ℝ)
          - exactConv p.std p.geom samples x y| ≤ c.epsConv.toReal := by
  obtain ⟨-, hw, -, hh, -⟩ := g
  have hhalf : 1 ≤ p.half := by
    have := v.cast_half
    omega
  exact (Config.num_contract hc).2 p.std p.geom samples x y hstd hhalf v.half_le hw hh hlen hx hy

/-- A pixel lies in the padded region. -/
theorem pixel_in_region {p : Params} {x y : Nat} (hx : x < p.w) (hy : y < p.h) : x < p.pw ∧ y < p.ph := by
  have := w_add_le_pw p
  have := h_add_le_ph p
  omega

theorem channelSamples_length_geom (p : Params) (ch : Nat) (s : State) :
    (channelSamples p ch s).length = p.w * p.h := by rw [channelSamples_length, Nat.mul_comm]

section Canonical

variable {p : Params} {s : State} {ch : Nat} (hc : s.cfg.Valid) (v : SizeValid s.cfg p) (hstd : 0 < p.std)

include hc v hstd

/-- FFTF.IMG and then FFTF.KER, after KBUILD. -/
theorem transformed_image_first :
    Transformed s.cfg p (channelSamples p ch s) (fftfKerEffect p (fftfImgEffect ch p (kbuildEffect p s))) where
  cfg := by simp
  image := by
    rw [fftfKerEffect_keeps_planeA]
    exact fftfImgEffect_stored (kbuildEffect_cfg p s) (channelSamples_kbuildEffect ch p s)
  kernel := fftfKerEffect_stored (by simp) hc v hstd kbuildEffect_storedKernel

/-- FFTF.KER and then FFTF.IMG: the samples it reads are those before, where the image is written. -/
theorem transformed_kernel_first (hch : ch < p.c) (hw : WrittenTo s.pix (p.w * p.h * p.c)) :
    Transformed s.cfg p (channelSamples p ch s) (fftfImgEffect ch p (fftfKerEffect p (kbuildEffect p s))) where
  cfg := by simp
  image := by
    have hsamples : channelSamples p ch (fftfKerEffect p (kbuildEffect p s)) = channelSamples p ch s := by
      refine channelSamples_eq_of_read hch (channelSamples_length_geom p ch s) fun x y hx hy => ?_
      rw [fftfKerEffect_keeps_pix, kbuildEffect_keeps_pix]
      exact channelSamples_eq_read hch hw hx hy
    exact fftfImgEffect_stored (by simp) hsamples
  kernel := by
    rw [fftfImgEffect_keeps_planeK]
    exact fftfKerEffect_stored (kbuildEffect_cfg p s) hc v hstd kbuildEffect_storedKernel

end Canonical

/-- The steps of the canonical sequence after KBUILD. -/
theorem canonicalSteps_convolution {c ch : Nat} {order : List Instr} (hch : ch < c)
    (horder : order = [.fftfImg ch, .fftfKer] ∨ order = [.fftfKer, .fftfImg ch]) :
    ∀ i ∈ order ++ [.pmul, .ffti], ConvolutionStep c i := by
  have hlast : ∀ i ∈ [.pmul, .ffti], ConvolutionStep c i :=
    List.forall_mem_cons.2 ⟨.pmul, List.forall_mem_singleton.2 .ffti⟩
  rcases horder with rfl | rfl
  · exact List.forall_mem_cons.2 ⟨.fftfImg hch, List.forall_mem_cons.2 ⟨.fftfKer, hlast⟩⟩
  · exact List.forall_mem_cons.2 ⟨.fftfKer, List.forall_mem_cons.2 ⟨.fftfImg hch, hlast⟩⟩

/-- Settles O36: in either order A and K hold the two transforms, so A ends as the array of NUM's contract. -/
theorem canonicalAccuracy : Obligations.canonical_accuracy := by
  rintro s p ch order hc rfl g v hstd hs hch hw horder
  set p := s.latch.params with hp
  obtain ⟨u, hu, hdone⟩ : ∃ u, Transformed s.cfg p (channelSamples p ch s) u
      ∧ effectsOf p (order ++ [.pmul, .ffti]) (kbuildEffect p s) = fftiEffect p (pmulEffect p u) := by
    rcases horder with rfl | rfl
    · exact ⟨_, transformed_image_first hc v hstd, rfl⟩
    · exact ⟨_, transformed_kernel_first hc v hstd hch hw, rfl⟩
  refine ⟨_, channelSamples p ch s,
    (runSeq_kbuild g v hstd (canonicalSteps_convolution hch horder)).trans (by rw [← hp, hdone]),
    fun x y hx hy => channelSamples_eq_read hch hw hx hy, fun x y hx hy => ?_⟩
  obtain ⟨hxp, hyp⟩ := pixel_in_region hx hy
  exact ⟨_, (hu.result (g.pw_le v)).holds (g.pw_le v) hxp hyp,
    canonicalArray_accurate hc g v hstd hs (channelSamples_length_geom p ch s) hx hy⟩

end Sys2Proof.Machine
end

section
/-!
BLUR with S ≥ 1 (43_convolution.md R171, R175): what its channel passes have done after each of them.
-/

namespace Sys2Proof.Machine

open Sys2Proof

theorem SameOutside.trans {inside : Nat → Prop} {m m' m'' : Memory} (h : SameOutside inside m m')
    (k : SameOutside inside m' m'') : SameOutside inside m m'' := fun a ha => (k a ha).trans (h a ha)

/-- Two channels share no byte. -/
theorem InChannel.unique {p : Params} {ch ch' a : Nat} (hc : ch < p.c) (hc' : ch' < p.c) (h : InChannel p ch a)
    (h' : InChannel p ch' a) : ch = ch' := by
  obtain ⟨x, y, -, -, rfl⟩ := h
  obtain ⟨x', y', -, -, heq⟩ := h'
  have hmod : ∀ (n : Nat) {k : Nat}, k < p.c → (n * p.c + k) % p.c = k := fun n k hk => by
    rw [Nat.mul_add_mod', Nat.mod_eq_of_lt hk]
  rw [← hmod (y * p.w + x) hc, heq, hmod _ hc']

/-! ## One channel pass -/

section Pass

variable (p : Params) (s : State) (ch : Nat)

/-- The state in which WBACK runs. -/
def passResult : State := fftiEffect p (pmulEffect p (fftfImgEffect ch p s))

theorem blurChannel_eq : blurChannel p s ch = wbackEffect ch p (passResult p s ch) := rfl

theorem passResult_frame : EffectFrame (· == .a) s (passResult p s ch) :=
  ((fftfImgEffect_frame ch p s).trans (pmulEffect_frame p _)).trans (fftiEffect_frame p _)

theorem passResult_color : (passResult p s ch).color = s.color := by simp [passResult]

end Pass

/-- What BLUR has done after the passes of the channels below `n`. -/
structure BlurProgress (p : Params) (s : State) (n : Nat) (t : State) : Prop where
  cfg : t.cfg = s.cfg
  color : t.color = s.color
  planeK : t.planeK = (fftfKerEffect p (kbuildEffect p s)).planeK
  outsideA : SameOutside (InRegion s.cfg p) s.planeA t.planeA
  written : ∀ ch x y, ch < n → x < p.w → y < p.h → Memory.read t.pix ((y * p.w + x) * p.c + ch)
    = some (writeBack (canonicalArray s.cfg.num p.std p.geom (channelSamples p ch s) (y * p.pw + x)).re)
  waiting : ∀ a, (∀ ch, ch < n → ¬ InChannel p ch a) → Memory.read t.pix a = Memory.read s.pix a

section Passes

variable {p : Params} {s t : State} {n : Nat}

/-- Before the passes KBUILD and FFTF.KER have written KER and K only. -/
theorem kernelSteps_frame (p : Params) (s : State) :
    EffectFrame (fun q => q == .ker || q == .k) s (fftfKerEffect p (kbuildEffect p s)) := by
  have ker : ∀ q, (q == Plane.ker || q == .k) = false → (q == Plane.ker) = false := by intro q; cases q <;> decide
  have k : ∀ q, (q == Plane.ker || q == .k) = false → (q == Plane.k) = false := by intro q; cases q <;> decide
  exact ((kbuildEffect_frame p s).mono ker).trans ((fftfKerEffect_frame p _).mono k)

theorem blurProgress_zero : BlurProgress p s 0 (fftfKerEffect p (kbuildEffect p s)) := by
  obtain ⟨hmem, hcfg, -⟩ := kernelSteps_frame p s
  have hpix : (fftfKerEffect p (kbuildEffect p s)).pix = s.pix := hmem .pix rfl
  have hplaneA : (fftfKerEffect p (kbuildEffect p s)).planeA = s.planeA := hmem .a rfl
  refine ⟨hcfg, by simp, rfl, ?_, fun _ _ _ h => absurd h (Nat.not_lt_zero _), ?_⟩
  · rw [hplaneA]
    exact fun _ _ => rfl
  · rw [hpix]
    exact fun _ _ => rfl

/-- The bytes of a channel still to come are those before BLUR, so its pass reads the samples before BLUR. -/
theorem BlurProgress.channelSamples (h : BlurProgress p s n t) (hn : n < p.c)
    (hw : WrittenTo s.pix (p.w * p.h * p.c)) : channelSamples p n t = channelSamples p n s := by
  refine channelSamples_eq_of_read hn (channelSamples_length_geom p n s) fun x y hx hy => ?_
  have hin : InChannel p n ((y * p.w + x) * p.c + n) := ⟨x, y, hx, hy, rfl⟩
  rw [h.waiting _ fun ch hch hin' => absurd (hin'.unique (hch.trans hn) hn hin) hch.ne]
  exact channelSamples_eq_read hn hw hx hy

/-- The pass of a channel leaves the array of NUM's contract in A. -/
theorem BlurProgress.passResult_stored (h : BlurProgress p s n t) (hc : s.cfg.Valid) (g : GeometryValid s.cfg p)
    (v : SizeValid s.cfg p) (hstd : 0 < p.std) (hn : n < p.c) (hw : WrittenTo s.pix (p.w * p.h * p.c)) :
    StoredArray s.cfg p (canonicalArray s.cfg.num p.std p.geom (Machine.channelSamples p n s))
      (passResult p t n).planeA := by
  have transformed : Transformed s.cfg p (Machine.channelSamples p n s) (fftfImgEffect n p t) :=
    { cfg := by rw [fftfImgEffect_cfg, h.cfg]
      image := fftfImgEffect_stored h.cfg (h.channelSamples hn hw)
      kernel := by
        rw [fftfImgEffect_keeps_planeK, h.planeK]
        exact fftfKerEffect_stored (kbuildEffect_cfg p s) hc v hstd kbuildEffect_storedKernel }
  exact transformed.result (g.pw_le v)

/-- A plane over whose region an array was stored keeps every other byte. -/
theorem sameOutside_of_stored {c : Config} {m m' : Memory} {f : Nat → Nat → Cplx} (hcfg : t.cfg = c)
    (hm : m' = Memory.writeRuns m (regionRuns t.cfg p.pw p.ph f)) : SameOutside (InRegion c p) m m' := by
  subst hcfg hm
  exact sameOutside_region m p f

theorem passResult_sameOutside {c : Config} (hcfg : t.cfg = c) (ch : Nat) :
    SameOutside (InRegion c p) t.planeA (passResult p t ch).planeA :=
  ((sameOutside_of_stored hcfg (fftfImgEffect_planeA ch p t)).trans
    (sameOutside_of_stored (by rw [fftfImgEffect_cfg, hcfg]) (pmulEffect_planeA p _))).trans
    (sameOutside_of_stored (by rw [pmulEffect_cfg, fftfImgEffect_cfg, hcfg]) (fftiEffect_planeA p _))

theorem BlurProgress.next (h : BlurProgress p s n t) (hc : s.cfg.Valid) (g : GeometryValid s.cfg p)
    (v : SizeValid s.cfg p) (hstd : 0 < p.std) (hn : n < p.c) (hw : WrittenTo s.pix (p.w * p.h * p.c)) :
    BlurProgress p s (n + 1) (blurChannel p t n) := by
  have hstored := h.passResult_stored hc g v hstd hn hw
  obtain ⟨hmem, hcfg, -⟩ := passResult_frame p t n
  have hpix : (passResult p t n).pix = t.pix := hmem .pix rfl
  have houtside := wbackEffect_sameOutside p n (passResult p t n)
  rw [hpix] at houtside
  rw [blurChannel_eq]
  refine ⟨?_, ?_, ?_, ?_, fun ch x y hch hx hy => ?_, fun a ha => ?_⟩
  · rw [wbackEffect_cfg, hcfg, h.cfg]
  · rw [wbackEffect_color, passResult_color, h.color]
  · exact (hmem .k rfl).trans h.planeK
  · exact h.outsideA.trans (passResult_sameOutside h.cfg n)
  · rcases Nat.lt_succ_iff_lt_or_eq.1 hch with hlt | rfl
    · have hin : InChannel p ch ((y * p.w + x) * p.c + ch) := ⟨x, y, hx, hy, rfl⟩
      rw [houtside _ fun hin' => absurd (hin.unique (hlt.trans hn) hn hin') hlt.ne]
      exact h.written ch x y hlt hx hy
    · obtain ⟨hxp, hyp⟩ := pixel_in_region hx hy
      have helement := cplxIn_of_holds (draw := (passResult p t ch).draws) (q := .a)
        (hstored.holds (g.pw_le v) hxp hyp)
      rw [wbackEffect_read hn _ hx hy, State.cplxAt, hcfg, h.cfg, State.mem_a, helement]
  · rw [houtside a (ha n (Nat.lt_succ_self n))]
    exact h.waiting a fun ch hch => ha ch (hch.trans (Nat.lt_succ_self n))

/-- All passes of BLUR (R171). -/
theorem blurEffect_progress (hc : s.cfg.Valid) (g : GeometryValid s.cfg p) (v : SizeValid s.cfg p)
    (hstd : 0 < p.std) (hs : 1 ≤ p.s) (hw : WrittenTo s.pix (p.w * p.h * p.c)) :
    BlurProgress p s p.c (blurEffect p s) := by
  have passes : ∀ n, n ≤ p.c →
      BlurProgress p s n ((List.range n).foldl (blurChannel p) (fftfKerEffect p (kbuildEffect p s))) := by
    intro n hn
    induction n with
    | zero => exact blurProgress_zero
    | succ n ih =>
      rw [List.range_succ, List.foldl_concat]
      exact (ih (Nat.le_of_succ_le hn)).next hc g v hstd hn hw
  rw [blurEffect, if_neg (by omega)]
  exact passes p.c le_rfl

end Passes

/-- Settles O37: each byte is `writeBack` of NUM's array for its channel, which the contract bounds; the frames are
those of the passes. -/
theorem blurSamples : Obligations.blur_samples := by
  rintro s p hc rfl g v hstd hs hw
  set p := s.latch.params
  have progress := blurEffect_progress hc g v hstd hs hw
  obtain ⟨-, hlen, hker⟩ := blurEffect_sameKernel p s
  refine ⟨completeDone (blurEffect p s), exec_blur g hstd v, fun ch x y samples hch hx hy hsl hread => ?_,
    fun a ha => ?_, ?_, progress.outsideA, ?_, ?_, progress.color, (blurEffect_frame p s).command⟩
  · obtain rfl : channelSamples p ch s = samples := channelSamples_eq_of_read hch hsl hread
    obtain ⟨hfinite, haccurate⟩ := canonicalArray_accurate hc g v hstd hs hsl hx hy
    refine ⟨_, ?_, haccurate⟩
    rw [completeDone_pix, progress.written ch x y hch hx hy, writeBack_of_finite hfinite]
  · exact progress.waiting a fun ch hch hin => ha ⟨Nat.zero_le a, (hin.lt hch).trans_eq (Nat.zero_add _).symm⟩
  · rw [completeDone_ker, hker]
    exact kbuildEffect_sameOutside p s
  · rw [completeDone_planeK, progress.planeK]
    exact sameOutside_of_stored (kbuildEffect_cfg p s) (fftfKerEffect_planeK p (kbuildEffect p s))
  · rw [completeDone_kerLen, hlen]
    exact kbuildEffect_kerLen_toNat v.1 BitVec.toInt_lt s

end Sys2Proof.Machine
end

section
/-!
The gradient and threshold stages of the edge pipeline (44_canny.md R190 to R192, R196 to R198): the planes GRAD and
THRESH write, and what their integer comparisons say of real numbers.
-/

namespace Sys2Proof.Machine

open Sys2Proof

theorem leBytes_four_zero : leBytes 4 0 = [0, 0, 0, 0] := rfl

/-- A pixel on an edge of the image is not interior. -/
theorem isInterior_eq_false {w h x y : Nat} (hb : x = 0 ∨ y = 0 ∨ x + 1 = w ∨ y + 1 = h) :
    isInterior w h x y = false := by
  rw [← Bool.not_eq_true, isInterior_iff]
  omega

/-! ## GRAD (R190, R191) -/

section Gradient

variable (w h : Nat) (P : Nat → Nat → Int) {x y : Nat}

theorem gradMag_border (hb : isInterior w h x y = false) : gradMag w h P x y = 0 := by simp [gradMag, hb]
theorem gradDir_border (hb : isInterior w h x y = false) : gradDir w h P x y = 0 := by simp [gradDir, hb]

variable {w h}

theorem gradMag_interior (hi : isInterior w h x y = true) :
    gradMag w h P x y = (sobelX P x y * sobelX P x y + sobelY P x y * sobelY P x y).toNat := if_pos hi

theorem gradDir_interior (hi : isInterior w h x y = true) :
    gradDir w h P x y = quant (sobelX P x y) (sobelY P x y) := if_pos hi

end Gradient

section GradPlanes

variable {p : Params} {s : State} {x y : Nat} (hw : p.w ≤ s.cfg.maxW) (hx : x < p.w) (hy : y < p.h)

include hw hx hy

theorem gradEffect_holds_mag : HoldsRun (gradEffect p s).mag (4 * planeIndex s.cfg x y)
    (leBytes 4 (gradMag p.w p.h (grayAt p s) x y)) := by
  rw [gradEffect_mag]
  exact holdsRun_magRows hw hx hy

theorem gradEffect_read_dir : Memory.read (gradEffect p s).dir (planeIndex s.cfg x y)
    = some (BitVec.ofNat 8 (gradDir p.w p.h (grayAt p s) x y)) := by
  rw [gradEffect_dir]
  exact read_codeRows hw hx hy

end GradPlanes

/-- GRAD writes no byte of a plane beside the image (10_state.md R53). -/
theorem gradEffect_sameOutside (p : Params) (s : State) : SameOutside (InMag s.cfg p.w p.h) s.mag (gradEffect p s).mag
    ∧ SameOutside (InCode s.cfg p.w p.h) s.dir (gradEffect p s).dir := by
  rw [gradEffect_mag, gradEffect_dir]
  exact ⟨sameOutside_magRows, sameOutside_codeRows⟩

theorem exec_grad {s : State} (g : GeometryValid s.cfg s.latch.params) (hc : s.latch.params.color = 2) :
    exec .grad s = .next (completeDone (gradEffect s.latch.params s)) :=
  exec_completes rfl (gradChecks_ok g hc) rfl

/-- Settles O38: the checks pass, and the effect writes both planes pixel by pixel, interior or border. -/
theorem gradResult : Obligations.grad_result := by
  rintro s p P rfl g hc hP
  set p := s.latch.params
  obtain rfl : grayAt p s = P := funext₂ fun x y => (hP x y).symm
  have ⟨_, hw, _⟩ := g
  obtain ⟨hmag, hdir⟩ := gradEffect_sameOutside p s
  refine ⟨_, exec_grad g hc, ?_, ?_, hmag, hdir,
    (gradEffect_frame p s).completed (gradEffect_color p s) (gradEffect_kerLen p s)⟩
  · rintro x y gx gy hx hy rfl rfl
    have hi : isInterior p.w p.h (x + 1) (y + 1) = true := isInterior_iff.2 (by omega)
    have holds := gradEffect_holds_mag (s := s) hw (x := x + 1) (y := y + 1) (by omega) (by omega)
    have reads := gradEffect_read_dir (s := s) hw (x := x + 1) (y := y + 1) (by omega) (by omega)
    rw [gradMag_interior _ hi] at holds
    rw [gradDir_interior _ hi] at reads
    exact ⟨holds, reads⟩
  · intro x y hx hy hb
    have holds := gradEffect_holds_mag (s := s) hw hx hy
    have reads := gradEffect_read_dir (s := s) hw hx hy
    rw [gradMag_border _ _ _ (isInterior_eq_false hb), leBytes_four_zero] at holds
    rw [gradDir_border _ _ _ (isInterior_eq_false hb)] at reads
    exact ⟨holds, reads⟩

/-! ## The bins of the direction (R192) -/

/-- tan 22.5° = √2 - 1 bounds the bin of 0°, in integers. -/
theorem lt_tan_low_iff {a b : ℤ} (ha : 0 ≤ a) (hb : 0 ≤ b) :
    (a + b) * (a + b) < 2 * (a * a) ↔ (b : ℝ) < (Real.sqrt 2 - 1) * a := by
  have ha' : (0 : ℝ) ≤ a := by exact_mod_cast ha
  have hb' : (0 : ℝ) ≤ b := by exact_mod_cast hb
  calc (a + b) * (a + b) < 2 * (a * a) ↔ ((a + b) * (a + b) : ℝ) < 2 * (a * a) := by norm_cast
    _ ↔ ((a : ℝ) + b) ^ 2 < (Real.sqrt 2 * a) ^ 2 := by
        rw [mul_pow, Real.sq_sqrt (by norm_num), sq, sq]
    _ ↔ (a : ℝ) + b < Real.sqrt 2 * a := sq_lt_sq₀ (by positivity) (by positivity)
    _ ↔ (b : ℝ) < (Real.sqrt 2 - 1) * a := by rw [sub_one_mul, lt_sub_iff_add_lt']

/-- tan 67.5° = √2 + 1 bounds the bin of 90°, in integers. -/
theorem tan_high_lt_iff {a b : ℤ} (ha : 0 ≤ a) :
    (a < b ∧ 2 * (a * a) < (b - a) * (b - a)) ↔ (Real.sqrt 2 + 1) * a < (b : ℝ) := by
  have ha' : (0 : ℝ) ≤ a := by exact_mod_cast ha
  have hroot : 0 ≤ Real.sqrt 2 * a := by positivity
  have squares (hab : (a : ℝ) < b) :
      2 * (a * a) < (b - a) * (b - a) ↔ Real.sqrt 2 * a < (b : ℝ) - a := by
    rw [← sq_lt_sq₀ hroot (sub_nonneg.2 hab.le), mul_pow, Real.sq_sqrt (by norm_num), sq, sq]
    norm_cast
  rw [add_one_mul, ← lt_sub_iff_add_lt]
  constructor
  · rintro ⟨hab, hsq⟩
    exact (squares (by exact_mod_cast hab)).1 hsq
  · intro hlt
    have hab : (a : ℝ) < b := sub_pos.1 (hroot.trans_lt hlt)
    exact ⟨by exact_mod_cast hab, (squares hab).2 hlt⟩

/-- Settles O39: the integer tests of the first two bins are those of the real bounds; the rest is shared. -/
theorem quantIsNearest : Obligations.quant_is_nearest := by
  intro gx gy
  have habs (z : ℤ) : ((z.natAbs : ℤ) : ℝ) = |(z : ℝ)| := by rw [Int.natCast_natAbs, Int.cast_abs]
  have hlow := lt_tan_low_iff (Int.natCast_nonneg gx.natAbs) (Int.natCast_nonneg gy.natAbs)
  have hhigh := tan_high_lt_iff (b := gy.natAbs) (Int.natCast_nonneg gx.natAbs)
  rw [habs, habs] at hlow hhigh
  simp only [quant, hlow, hhigh, Int.cast_abs]

/-! ## THRESH (R196 to R198) -/

/-- Settles O42: for T > 0 both sides compare squares. -/
theorem thresholdComparison : Obligations.threshold_comparison := by
  intro m T
  have hge : thresholdGe m T = true ↔ T ≤ 0 ∨ T * T ≤ 1000000 * (m : Int) := by simp [thresholdGe]
  refine ⟨fun hT => hge.2 (.inl hT), fun hT => hge.trans ?_⟩
  have hT' : (0 : ℝ) < T := by exact_mod_cast hT
  calc (T ≤ 0 ∨ T * T ≤ 1000000 * (m : Int)) ↔ T * T ≤ 1000000 * (m : Int) := or_iff_right hT.not_ge
    _ ↔ (T : ℝ) * T ≤ 1000000 * m := by norm_cast
    _ ↔ ((T : ℝ) / 1000) ^ 2 ≤ m := by
        rw [div_pow, div_le_iff₀ (by norm_num), sq]
        norm_num [mul_comm]
    _ ↔ (T : ℝ) / 1000 ≤ Real.sqrt m := (Real.le_sqrt' (by positivity)).symm

theorem threshEffect_read {p : Params} {s : State} {x y : Nat} (hw : p.w ≤ s.cfg.maxW) (hx : x < p.w) (hy : y < p.h) :
    Memory.read (threshEffect p s).cls (planeIndex s.cfg x y)
      = some (BitVec.ofNat 8 (classOf (magAt s x y) p.hi p.lo)) := by
  rw [threshEffect_cls]
  exact read_codeRows hw hx hy

theorem threshEffect_sameOutside (p : Params) (s : State) :
    SameOutside (InCode s.cfg p.w p.h) s.cls (threshEffect p s).cls := by
  rw [threshEffect_cls]
  exact sameOutside_codeRows

theorem exec_thresh {s : State} (g : GeometryValid s.cfg s.latch.params) (ho : s.latch.params.lo ≤ s.latch.params.hi) :
    exec .thresh s = .next (completeDone (threshEffect s.latch.params s)) :=
  exec_completes rfl (threshChecks_ok g ho) rfl

/-- Settles O43: the effect writes `classOf` of every magnitude, whose branches are the four clauses. -/
theorem threshResult : Obligations.thresh_result := by
  rintro s p M rfl g ho hM
  set p := s.latch.params
  obtain rfl : magAt s = M := funext₂ fun x y => (hM x y).symm
  have ⟨_, hw, _⟩ := g
  refine ⟨_, exec_thresh g ho, fun x y hx hy => ?_, threshEffect_sameOutside p s,
    (threshEffect_frame p s).completed (threshEffect_color p s) (threshEffect_kerLen p s)⟩
  have holds {k : Nat} (hk : classOf (magAt s x y) p.hi p.lo = k) :
      Memory.read (completeDone (threshEffect p s)).cls (planeIndex s.cfg x y) = some (BitVec.ofNat 8 k) :=
    hk ▸ threshEffect_read hw hx hy
  exact ⟨fun h0 => holds (by simp [classOf, h0]), fun h0 hhi => holds (by simp [classOf, h0, hhi]),
    fun h0 hhi hlo => holds (by simp [classOf, h0, hhi, hlo]),
    fun h0 hhi hlo => holds (by simp [classOf, h0, hhi, hlo])⟩

end Sys2Proof.Machine
end

section
/-!
Non-maximum suppression (44_canny.md R193, R194): what NMS leaves at every pixel of the image, and that a second pass
finds nothing more to suppress.
-/

namespace Sys2Proof.Machine

open Sys2Proof

/-- A pixel is kept exactly when it is at least its pair in the snapshot (R194). -/
theorem suppressed_eq_false_iff (M D : Nat → Nat → Nat) {x y : Nat} {n₁ n₂ : Nat × Nat}
    (hn : (n₁, n₂) = neighbourPair (D x y) x y) :
    suppressed M D x y = false ↔ M n₁.1 n₁.2 ≤ M x y ∧ M n₂.1 n₂.2 ≤ M x y := by
  simp [suppressed, ← hn]

/-- Both neighbours of an interior pixel lie in the image (R193). -/
theorem neighbourPair_in_image {w h d x y : Nat} (hi : isInterior w h x y = true) {n₁ n₂ : Nat × Nat}
    (hn : (n₁, n₂) = neighbourPair d x y) : (n₁.1 < w ∧ n₁.2 < h) ∧ n₂.1 < w ∧ n₂.2 < h := by
  obtain ⟨hx, hxw, hy, hyh⟩ := isInterior_iff.1 hi
  unfold neighbourPair at hn
  split at hn <;> obtain ⟨rfl, rfl⟩ := Prod.mk.inj hn <;> dsimp only <;> omega

/-- The elements of distinct pixels share no byte. -/
theorem magElement_unique {c : Config} {x y x' y' a : Nat} (hx : x < c.maxW) (hx' : x' < c.maxW)
    (h : InRun (4 * planeIndex c x y) 4 a) (h' : InRun (4 * planeIndex c x' y') 4 a) : x = x' ∧ y = y' := by
  obtain ⟨h1, h2⟩ := h
  obtain ⟨h1', h2'⟩ := h'
  exact planeIndex_inj hx hx' (by omega)

/-! ## One pass -/

section Pass

variable (p : Params) (s : State) {x y a : Nat}

/-- NMS suppresses this pixel of the image. -/
def NmsZeroes (x y : Nat) : Prop := isInterior p.w p.h x y = true ∧ suppressed (magAt s) (dirAt s) x y = true

variable {p s}

theorem nmsEffect_read_zeroed (hz : NmsZeroes p s x y) (ha : InRun (4 * planeIndex s.cfg x y) 4 a) :
    Memory.read (nmsEffect p s).mag a = some 0 := by
  obtain ⟨hi, hs⟩ := hz
  have hin := isInterior_iff.1 hi
  have hmem : (x, y) ∈ suppressedPixels p.w p.h (magAt s) (dirAt s) :=
    mem_suppressedPixels.2 ⟨by dsimp only; omega, by dsimp only; omega, hi, hs⟩
  rw [nmsEffect_mag]
  exact read_zeroRuns_inside s.mag _ hmem ha

/-- A byte that lies in no suppressed element stays. -/
theorem nmsEffect_read_outside (ha : ∀ x y, NmsZeroes p s x y → ¬ InRun (4 * planeIndex s.cfg x y) 4 a) :
    Memory.read (nmsEffect p s).mag a = Memory.read s.mag a := by
  rw [nmsEffect_mag]
  refine read_zeroRuns_outside s.mag _ fun q hq => ?_
  obtain ⟨-, -, hi, hs⟩ := mem_suppressedPixels.1 hq
  exact ha q.1 q.2 ⟨hi, hs⟩

theorem nmsEffect_read_kept (hw : p.w ≤ s.cfg.maxW) (hx : x < p.w) (hz : ¬ NmsZeroes p s x y)
    (ha : InRun (4 * planeIndex s.cfg x y) 4 a) : Memory.read (nmsEffect p s).mag a = Memory.read s.mag a := by
  refine nmsEffect_read_outside fun x' y' hz' ha' => hz ?_
  have hin := isInterior_iff.1 hz'.1
  obtain ⟨rfl, rfl⟩ := magElement_unique (by omega) (by omega) ha ha'
  exact hz'

end Pass

/-- NMS writes no byte of MAG beside the image. -/
theorem nmsEffect_sameOutside (p : Params) (s : State) :
    SameOutside (InMag s.cfg p.w p.h) s.mag (nmsEffect p s).mag := by
  refine fun a ha => nmsEffect_read_outside fun x y hz hin => ha ?_
  have hxy := isInterior_iff.1 hz.1
  exact ⟨x, y, by omega, by omega, hin⟩

/-- A byte of MAG that reads 0 goes on reading 0. -/
theorem nmsEffect_read_zero {s : State} {a : Nat} (p : Params) (h : Memory.read s.mag a = some 0) :
    Memory.read (nmsEffect p s).mag a = some 0 := by
  rw [nmsEffect_mag]
  exact read_zeroRuns_keep s.mag _ h

theorem exec_nms {s : State} (g : GeometryValid s.cfg s.latch.params) :
    exec .nms s = .next (completeDone (nmsEffect s.latch.params s)) :=
  exec_completes rfl (geometryChecks_ok g) rfl

/-- An element holds the zeros exactly when each of its bytes reads 0. -/
theorem holdsRun_zeros_iff {m : Memory} {b : Nat} :
    HoldsRun m b [0, 0, 0, 0] ↔ ∀ a, InRun b 4 a → Memory.read m a = some 0 := by
  have zero {i : Nat} (hi : i < [(0 : Byte), 0, 0, 0].length) : [(0 : Byte), 0, 0, 0][i] = 0 :=
    (by decide : ∀ c ∈ [(0 : Byte), 0, 0, 0], c = 0) _ (List.getElem_mem hi)
  constructor
  · rintro h a ⟨hlo, hhi⟩
    have hi : a - b < [(0 : Byte), 0, 0, 0].length := Nat.sub_lt_left_of_lt_add hlo hhi
    have hread := h (a - b) hi
    rwa [Nat.add_sub_cancel' hlo, zero hi] at hread
  · intro h i hi
    rw [h _ ⟨Nat.le_add_right b i, Nat.add_lt_add_left hi b⟩, zero hi]

/-- Settles O40: an interior pixel is in the list of suppressed ones exactly when it is below one of its pair. -/
theorem nmsResult : Obligations.nms_result := by
  rintro s p M rfl g hM
  set p := s.latch.params
  obtain rfl : magAt s = M := funext₂ fun x y => (hM x y).symm
  have ⟨_, hw, _⟩ := g
  refine ⟨_, exec_nms g, fun x y n₁ n₂ hx hxw hy hyh hn => ?_, fun a ha => ?_,
    (nmsEffect_frame p s).completed (nmsEffect_color p s) (nmsEffect_kerLen p s)⟩
  · have hi : isInterior p.w p.h x y = true := isInterior_iff.2 ⟨hx, hxw, hy, hyh⟩
    have hpair : (n₁, n₂) = neighbourPair (dirAt s x y) x y := hn
    have hkept := suppressed_eq_false_iff (magAt s) (dirAt s) hpair
    constructor
    · intro hge a ha
      refine nmsEffect_read_kept hw (show x < p.w by omega) (fun hz => ?_) ha
      exact Bool.false_ne_true ((hkept.2 hge).symm.trans hz.2)
    · intro hlt
      have hs : suppressed (magAt s) (dirAt s) x y = true := by rwa [← Bool.not_eq_false, hkept]
      exact holdsRun_zeros_iff.2 fun a ha => nmsEffect_read_zeroed ⟨hi, hs⟩ ha
  · refine nmsEffect_read_outside fun x y hz hin => ha ?_
    obtain ⟨hx, hxw, hy, hyh⟩ := isInterior_iff.1 hz.1
    exact ⟨x, y, hx, hxw, hy, hyh, hin⟩

/-! ## A second pass -/

/-- A magnitude all of whose bytes read 0. -/
theorem magAt_of_zeros {s : State} {x y : Nat}
    (h : ∀ a, InRun (4 * planeIndex s.cfg x y) 4 a → Memory.read s.mag a = some 0) : magAt s x y = 0 :=
  leIn_of_holds (v := 0) (holdsRun_zeros_iff.2 h) (by norm_num)

/-- A written magnitude reads the same from a memory that agrees on its bytes, at every draw. -/
theorem magAt_congr {s t : State} {x y : Nat} (hcfg : t.cfg = s.cfg)
    (hw : ∀ a, InRun (4 * planeIndex s.cfg x y) 4 a → (Memory.read s.mag a).isSome)
    (h : ∀ a, InRun (4 * planeIndex s.cfg x y) 4 a → Memory.read t.mag a = Memory.read s.mag a) :
    magAt t x y = magAt s x y := by
  unfold magAt leIn
  rw [hcfg]
  refine congrArg fromLE (List.map_congr_left fun i hi => ?_)
  have hin : InRun (4 * planeIndex s.cfg x y) 4 (4 * planeIndex s.cfg x y + i) :=
    ⟨Nat.le_add_right _ _, Nat.add_lt_add_left (List.mem_range.1 hi) _⟩
  obtain ⟨b, hb⟩ := Option.isSome_iff_exists.1 (hw _ hin)
  rw [byteIn, byteIn, h _ hin, hb]
  rfl

/-- A written direction reads the same at every draw. -/
theorem dirAt_congr {s t : State} {x y : Nat} (hcfg : t.cfg = s.cfg) (hdir : t.dir = s.dir)
    (hw : (Memory.read s.dir (planeIndex s.cfg x y)).isSome) : dirAt t x y = dirAt s x y := by
  obtain ⟨b, hb⟩ := Option.isSome_iff_exists.1 hw
  rw [dirAt, dirAt, State.byteAt, State.byteAt, byteIn, byteIn, State.mem_dir, State.mem_dir, hcfg, hdir, hb]
  rfl

/-- MAG and DIR are written over the image. -/
def PlanesWritten (p : Params) (s : State) : Prop :=
  ∀ x y, x < p.w → y < p.h → (Memory.read s.dir (planeIndex s.cfg x y)).isSome
    ∧ ∀ a, InRun (4 * planeIndex s.cfg x y) 4 a → (Memory.read s.mag a).isSome

section SecondPass

variable {p : Params} {s : State} {x y : Nat} (hw : p.w ≤ s.cfg.maxW) (written : PlanesWritten p s) (hx : x < p.w)
  (hy : y < p.h)

include hw written hx hy

theorem magAt_nmsEffect_kept (hz : ¬ NmsZeroes p s x y) : magAt (nmsEffect p s) x y = magAt s x y :=
  magAt_congr (nmsEffect_cfg p s) (written x y hx hy).2 fun _ ha => nmsEffect_read_kept hw hx hz ha

theorem magAt_nmsEffect_le : magAt (nmsEffect p s) x y ≤ magAt s x y := by
  by_cases hz : NmsZeroes p s x y
  · rw [magAt_of_zeros fun a ha => nmsEffect_read_zeroed hz (by rwa [nmsEffect_cfg] at ha)]
    exact Nat.zero_le _
  · exact (magAt_nmsEffect_kept hw written hx hy hz).le

/-- A pixel that one pass keeps is kept again: its neighbours are unchanged or lowered to 0. -/
theorem nmsZeroes_of_second_pass (hz : NmsZeroes p (nmsEffect p s) x y) : NmsZeroes p s x y := by
  obtain ⟨hi, hs⟩ := hz
  by_contra hkeep
  rcases hn : neighbourPair (dirAt s x y) x y with ⟨n₁, n₂⟩
  have hdir : dirAt (nmsEffect p s) x y = dirAt s x y :=
    dirAt_congr (nmsEffect_cfg p s) ((nmsEffect_frame p s).1 .dir rfl) (written x y hx hy).1
  obtain ⟨⟨hx₁, hy₁⟩, hx₂, hy₂⟩ := neighbourPair_in_image hi hn.symm
  have hfirst : suppressed (magAt s) (dirAt s) x y = false := Bool.eq_false_iff.2 fun h => hkeep ⟨hi, h⟩
  obtain ⟨hge₁, hge₂⟩ := (suppressed_eq_false_iff (magAt s) (dirAt s) hn.symm).1 hfirst
  have hsecond : suppressed (magAt (nmsEffect p s)) (dirAt (nmsEffect p s)) x y = false := by
    refine (suppressed_eq_false_iff _ _ (by rw [hdir, hn])).2 ?_
    rw [magAt_nmsEffect_kept hw written hx hy hkeep]
    exact ⟨(magAt_nmsEffect_le hw written hx₁ hy₁).trans hge₁,
      (magAt_nmsEffect_le hw written hx₂ hy₂).trans hge₂⟩
  exact Bool.false_ne_true (hsecond.symm.trans hs)

end SecondPass

/-- Settles O41: a second pass suppresses only pixels the first one did, and those are 0 already. -/
theorem nmsIsIdempotent : Obligations.nms_is_idempotent := by
  rintro s t u p rfl g written ht hu a
  set p := s.latch.params
  have ⟨_, hw, _⟩ := g
  rw [exec_nms g] at ht
  injection ht with ht
  subst ht
  have g' : GeometryValid (completeDone (nmsEffect p s)).cfg (completeDone (nmsEffect p s)).latch.params := g
  rw [exec_nms g'] at hu
  injection hu with hu
  subst hu
  change Memory.read (nmsEffect p (completeDone (nmsEffect p s))).mag a = Memory.read (nmsEffect p s).mag a
  rw [nmsEffect_completeDone, completeDone_mag]
  by_cases ha : ∃ x y, NmsZeroes p (nmsEffect p s) x y ∧ InRun (4 * planeIndex s.cfg x y) 4 a
  · obtain ⟨x, y, hz, hin⟩ := ha
    have hxy := isInterior_iff.1 hz.1
    have hz₁ := nmsZeroes_of_second_pass hw written (by omega) (by omega) hz
    rw [nmsEffect_read_zeroed hz (by rwa [nmsEffect_cfg]), nmsEffect_read_zeroed hz₁ hin]
  · exact nmsEffect_read_outside fun x y hz hin => ha ⟨x, y, hz, by rwa [nmsEffect_cfg] at hin⟩

end Sys2Proof.Machine
end

section
/-!
Hysteresis (44_canny.md R199 to R203): linking from the strong pixels finds exactly the edge set of R200, and HYST
writes its map.
-/

namespace Sys2Proof.Machine

open Sys2Proof

theorem adjacent_iff {a b : Nat × Nat} : adjacent a b = true ↔ Neighbour a b := by
  simp only [adjacent, Neighbour, Bool.and_eq_true, decide_eq_true_eq, abs_le, and_assoc]
  refine and_congr_right fun _ => ?_
  omega

theorem mem_imagePixels {w h : Nat} {q : Nat × Nat} : q ∈ imagePixels w h ↔ q.1 < w ∧ q.2 < h := by
  obtain ⟨x, y⟩ := q
  simp [imagePixels, and_comm]

/-! ## The linker -/

section Link

variable {w h : Nat} {cls : Nat → Nat → Nat} {edges front weak : List (Nat × Nat)}

/-- A round of linking may begin: every candidate is an edge already found or a weak pixel still waiting, and of the
edges only those of the front can have a waiting neighbour. -/
structure Linking (w h : Nat) (cls : Nat → Nat → Nat) (edges front weak : List (Nat × Nat)) : Prop where
  sound : ∀ q ∈ edges, InEdgeSet w h cls q
  waiting : ∀ q ∈ weak, Candidate w h cls q ∧ cls q.1 q.2 ≠ 2
  cover : ∀ q, Candidate w h cls q → q ∈ edges ∨ q ∈ weak
  front_edges : front ⊆ edges
  frontier : ∀ q ∈ weak, ∀ r ∈ edges, Neighbour q r → r ∈ front

/-- The waiting pixels next to the front. -/
def foundNext (front weak : List (Nat × Nat)) : List (Nat × Nat) := weak.filter fun q => front.any (adjacent q)

/-- The waiting pixels that stay. -/
def leftOver (front weak : List (Nat × Nat)) : List (Nat × Nat) := weak.filter fun q => !front.any (adjacent q)

theorem mem_foundNext {q : Nat × Nat} : q ∈ foundNext front weak ↔ q ∈ weak ∧ ∃ r ∈ front, Neighbour q r := by
  simp [foundNext, adjacent_iff]

theorem mem_leftOver {q : Nat × Nat} : q ∈ leftOver front weak ↔ q ∈ weak ∧ ∀ r ∈ front, ¬ Neighbour q r := by
  simp [leftOver, ← adjacent_iff]

theorem length_foundNext_add_leftOver (front weak : List (Nat × Nat)) :
    (foundNext front weak).length + (leftOver front weak).length = weak.length :=
  (List.length_eq_length_filter_add _).symm

theorem linkEdges_succ (fuel : Nat) (edges front weak : List (Nat × Nat)) :
    linkEdges (fuel + 1) edges front weak = if (foundNext front weak).isEmpty then edges
      else linkEdges fuel (edges ++ foundNext front weak) (foundNext front weak) (leftOver front weak) := rfl

theorem Linking.next (l : Linking w h cls edges front weak) :
    Linking w h cls (edges ++ foundNext front weak) (foundNext front weak) (leftOver front weak) where
  sound q hq := by
    rcases List.mem_append.1 hq with hq | hq
    · exact l.sound q hq
    · obtain ⟨hweak, r, hr, hqr⟩ := mem_foundNext.1 hq
      exact .joined q r (l.waiting q hweak).1 hqr (l.sound r (l.front_edges hr))
  waiting q hq := l.waiting q (mem_leftOver.1 hq).1
  cover q hq := by
    rcases l.cover q hq with hedge | hweak
    · exact .inl (List.mem_append_left _ hedge)
    · by_cases hnext : ∃ r ∈ front, Neighbour q r
      · exact .inl (List.mem_append_right _ (mem_foundNext.2 ⟨hweak, hnext⟩))
      · exact .inr (mem_leftOver.2 ⟨hweak, fun r hr hqr => hnext ⟨r, hr, hqr⟩⟩)
  front_edges := List.subset_append_right _ _
  frontier q hq r hr hqr := by
    obtain ⟨hweak, hfar⟩ := mem_leftOver.1 hq
    rcases List.mem_append.1 hr with hr | hr
    · exact absurd hqr (hfar r (l.frontier q hweak r hr hqr))
    · exact hr

/-- Where no waiting pixel is next to the front, the edges found are closed under R200's paths. -/
theorem Linking.complete (l : Linking w h cls edges front weak) (hnone : foundNext front weak = []) {q : Nat × Nat}
    (hq : InEdgeSet w h cls q) : q ∈ edges := by
  induction hq with
  | strong q hcand htwo => exact (l.cover q hcand).resolve_right fun hweak => (l.waiting q hweak).2 htwo
  | joined q r hcand hqr _ hr =>
    refine (l.cover q hcand).resolve_right fun hweak => ?_
    have hfound := mem_foundNext.2 ⟨hweak, r, l.frontier q hweak r hr hqr, hqr⟩
    rw [hnone] at hfound
    exact List.not_mem_nil hfound

/-- With a round for each waiting pixel the linker finds the whole edge set, and nothing else. -/
theorem mem_linkEdges {fuel : Nat} (l : Linking w h cls edges front weak) (hfuel : weak.length < fuel)
    {q : Nat × Nat} : q ∈ linkEdges fuel edges front weak ↔ InEdgeSet w h cls q := by
  induction fuel generalizing edges front weak with
  | zero => omega
  | succ fuel ih =>
    rw [linkEdges_succ]
    split
    · next hempty => exact ⟨l.sound q, l.complete (List.isEmpty_iff.1 hempty)⟩
    · next hfound =>
      have hpos : 0 < (foundNext front weak).length :=
        List.length_pos_iff.2 fun h0 => hfound (List.isEmpty_iff.2 h0)
      have := length_foundNext_add_leftOver front weak
      exact ih l.next (by omega)

end Link

/-- The linker's edge set is that of R200. -/
theorem mem_edgeSet {w h : Nat} {cls : Nat → Nat → Nat} {q : Nat × Nat} :
    q ∈ edgeSet w h cls ↔ InEdgeSet w h cls q := by
  have strong {q : Nat × Nat} : q ∈ ((imagePixels w h).filter fun q => decide (cls q.1 q.2 = 2)) ↔
      (q.1 < w ∧ q.2 < h) ∧ cls q.1 q.2 = 2 := by simp [mem_imagePixels]
  have weak {q : Nat × Nat} : q ∈ ((imagePixels w h).filter fun q => decide (cls q.1 q.2 = 1)) ↔
      (q.1 < w ∧ q.2 < h) ∧ cls q.1 q.2 = 1 := by simp [mem_imagePixels]
  refine mem_linkEdges ⟨fun q hq => ?_, fun q hq => ?_, fun q hq => ?_, List.Subset.refl _, fun _ _ r hr _ => hr⟩
    (Nat.lt_succ_self _)
  · obtain ⟨⟨hx, hy⟩, htwo⟩ := strong.1 hq
    exact .strong q ⟨hx, hy, .inr htwo⟩ htwo
  · obtain ⟨⟨hx, hy⟩, hone⟩ := weak.1 hq
    exact ⟨⟨hx, hy, .inl hone⟩, by omega⟩
  · obtain ⟨hx, hy, hone | htwo⟩ := hq
    · exact .inr (weak.2 ⟨⟨hx, hy⟩, hone⟩)
    · exact .inl (strong.2 ⟨⟨hx, hy⟩, htwo⟩)

/-! ## The map (R203) -/

theorem imagePixels_length (w h : Nat) : (imagePixels w h).length = w * h := by
  rw [imagePixels, length_flatMap_blocks h w _ fun _ _ => by simp, Nat.mul_comm]

theorem imagePixels_get {w h x y : Nat} (hx : x < w) (hy : y < h) : (imagePixels w h)[y * w + x]? = some (x, y) := by
  rw [imagePixels, getElem?_flatMap_blocks h w _ (fun _ _ => by simp) hy hx]
  simp [hx]

theorem edgeMap_length (w h : Nat) (cls : Nat → Nat → Nat) : (edgeMap w h cls).length = w * h := by
  rw [edgeMap, List.length_map, imagePixels_length]

section HystMap

variable {p : Params} {s : State} {x y : Nat} (hx : x < p.w) (hy : y < p.h)

include hx hy

/-- HYST's byte of a pixel. -/
theorem hystEffect_read : Memory.read (hystEffect p s).pix (y * p.w + x)
    = some (if (edgeSet p.w p.h (clsAt s)).contains (x, y) then 255 else 0) := by
  have hin : y * p.w + x < p.w * p.h := (grid_index hx hy).1
  rw [hystEffect_pix, Memory.read_writeRun, if_pos (by rw [edgeMap_length]; omega), Nat.sub_zero, edgeMap,
    List.getElem?_map, imagePixels_get hx hy, Option.map_some]

theorem hystEffect_read_edge (he : InEdgeSet p.w p.h (clsAt s) (x, y)) :
    Memory.read (hystEffect p s).pix (y * p.w + x) = some 255 := by
  rw [hystEffect_read hx hy, if_pos (List.contains_iff_mem.2 (mem_edgeSet.2 he))]

theorem hystEffect_read_nonEdge (he : ¬ InEdgeSet p.w p.h (clsAt s) (x, y)) :
    Memory.read (hystEffect p s).pix (y * p.w + x) = some 0 := by
  rw [hystEffect_read hx hy, if_neg fun hc => he (mem_edgeSet.1 (List.contains_iff_mem.1 hc))]

end HystMap

theorem hystEffect_sameOutside (p : Params) (s : State) :
    SameOutside (InRun 0 (p.w * p.h)) s.pix (hystEffect p s).pix := by
  rw [hystEffect_pix]
  exact sameOutside_writeRun_zero s.pix (edgeMap_length _ _ _)

theorem exec_hyst {s : State} (g : GeometryValid s.cfg s.latch.params) :
    exec .hyst s = .next (completeDone (hystEffect s.latch.params s)) :=
  exec_completes rfl (geometryChecks_ok g) rfl

/-- Settles O44: the map marks the linker's edges, which are the edge set of R200. -/
theorem hystResult : Obligations.hyst_result := by
  rintro s p cls rfl g hcls
  set p := s.latch.params
  obtain rfl : clsAt s = cls := funext₂ fun x y => (hcls x y).symm
  exact ⟨_, exec_hyst g, fun x y hx hy => ⟨hystEffect_read_edge hx hy, hystEffect_read_nonEdge hx hy⟩,
    hystEffect_sameOutside p s, hystEffect_color p s, hystEffect_kerLen p s, (hystEffect_frame p s).command⟩

end Sys2Proof.Machine
end

section
/-!
CANNY as the sequence of its sub-commands (44_canny.md R205): no stage fails its checks, and the stages neither read
nor write the completion flags or LATCH.
-/

namespace Sys2Proof.Machine

open Sys2Proof

/-! ## The stages after the conversion -/

/-- The operands as the stages after the conversion take them: COLOR is Grayscale (log 20). -/
def Params.gray (p : Params) : Params := { p with color := 2 }

/-- The image the stages after the conversion work on: that of CVT gray, unless it is Grayscale already. -/
def cannyImage (p : Params) (s : State) : State := if p.color ≠ 2 then cvtGrayEffect p s else s

/-- CANNY's stages after the conversion (R205). -/
def edgeStages : List Instr := [.blur, .grad, .nms, .thresh, .hyst]

theorem Params.gray_of_gray {p : Params} (h : p.color = 2) : p.gray = p := by rw [Params.gray, ← h]

theorem cannyImage_of_gray {p : Params} (h : p.color = 2) (s : State) : cannyImage p s = s := if_neg fun hne => hne h

theorem cannyImage_of_color {p : Params} (h : p.color ≠ 2) (s : State) : cannyImage p s = cvtGrayEffect p s := if_pos h

theorem cannyEffect_eq_effectsOf (p : Params) (s : State) :
    cannyEffect p s = effectsOf p.gray edgeStages (cannyImage p s) := rfl

theorem cannyImage_frame (p : Params) (s : State) : EffectFrame (· == .pix) s (cannyImage p s) := by
  unfold cannyImage
  split
  · exact cvtGrayEffect_frame p s
  · exact .refl _ s

theorem exec_canny {s : State} (g : GeometryValid s.cfg s.latch.params) (v : SizeValid s.cfg s.latch.params)
    (hstd : 0 < s.latch.params.std) (ho : s.latch.params.lo ≤ s.latch.params.hi) :
    exec .canny s = .next (completeDone (cannyEffect s.latch.params s)) :=
  exec_completes rfl (cannyChecks_ok g hstd v ho) rfl

/-- A stage of the edge pipeline. -/
inductive EdgeStage : Instr → Prop where
  | blur : EdgeStage .blur
  | grad : EdgeStage .grad
  | nms : EdgeStage .nms
  | thresh : EdgeStage .thresh
  | hyst : EdgeStage .hyst

/-- The latched operands `p` pass the checks of every stage (R204). -/
structure EdgeReady (p : Params) (s : State) : Prop where
  operands : s.latch.params = p
  geometry : GeometryValid s.cfg p
  grayscale : p.color = 2
  size : SizeValid s.cfg p
  std_pos : 0 < p.std
  thresholds : p.lo ≤ p.hi

section Stage

variable {p : Params} {s : State} {i : Instr}

theorem EdgeStage.isControl (stage : EdgeStage i) : i.isControl = false := by cases stage <;> rfl

theorem EdgeStage.checks_pass (stage : EdgeStage i) (ready : EdgeReady p s) :
    firstFailure s.latch.params s (checksOf i) = none := by
  obtain ⟨rfl, g, hc, v, hstd, ho⟩ := ready
  cases stage with
  | blur => exact blurChecks_ok g hstd v
  | grad => exact gradChecks_ok g hc
  | nms => exact geometryChecks_ok g
  | thresh => exact threshChecks_ok g ho
  | hyst => exact geometryChecks_ok g

theorem EdgeStage.effect_frame (stage : EdgeStage i) : ∃ w, EffectFrame w s (effectOf i p s) := by
  cases stage with
  | blur => exact ⟨_, blurEffect_frame p s⟩
  | grad => exact ⟨_, gradEffect_frame p s⟩
  | nms => exact ⟨_, nmsEffect_frame p s⟩
  | thresh => exact ⟨_, threshEffect_frame p s⟩
  | hyst => exact ⟨_, hystEffect_frame p s⟩

theorem EdgeStage.keeps_ready (stage : EdgeStage i) (ready : EdgeReady p s) : EdgeReady p (effectOf i p s) := by
  obtain ⟨_, _, hcfg, hlatch, -⟩ := stage.effect_frame (p := p) (s := s)
  obtain ⟨hp, g, hc, v, hstd, ho⟩ := ready
  exact ⟨by rw [hlatch, hp], by rwa [hcfg], hc, by rwa [hcfg], hstd, ho⟩

theorem EdgeStage.effectOf_completeDone (stage : EdgeStage i) :
    effectOf i p (completeDone s) = completeDone (effectOf i p s) := by
  cases stage with
  | blur => exact blurEffect_completeDone p s
  | grad => exact gradEffect_completeDone p s
  | nms => exact nmsEffect_completeDone p s
  | thresh => exact threshEffect_completeDone p s
  | hyst => exact hystEffect_completeDone p s

theorem EdgeStage.effectOf_withLatch (stage : EdgeStage i) (L : Latch) :
    effectOf i p (withLatch L s) = withLatch L (effectOf i p s) := by
  cases stage with
  | blur => exact blurEffect_withLatch p L s
  | grad => exact gradEffect_withLatch p L s
  | nms => exact nmsEffect_withLatch p L s
  | thresh => exact threshEffect_withLatch p L s
  | hyst => exact hystEffect_withLatch p L s

theorem EdgeStage.exec (stage : EdgeStage i) (ready : EdgeReady p s) :
    exec i s = .next (completeDone (effectOf i p s)) :=
  exec_completes stage.isControl (stage.checks_pass ready) (by rw [ready.operands])

theorem EdgeStage.exec_completeDone (stage : EdgeStage i) (ready : EdgeReady p s) :
    Machine.exec i (completeDone s) = .next (completeDone (effectOf i p s)) := by
  obtain ⟨hp, g, hc, v, hstd, ho⟩ := ready
  have ready' : EdgeReady p (completeDone s) := ⟨hp, g, hc, v, hstd, ho⟩
  rw [stage.exec ready', stage.effectOf_completeDone, completeDone_completeDone]

end Stage

/-! ## The stages in sequence -/

theorem edgeStages_stage : ∀ i ∈ edgeStages, EdgeStage i :=
  List.forall_mem_cons.2 ⟨.blur, List.forall_mem_cons.2 ⟨.grad, List.forall_mem_cons.2 ⟨.nms,
    List.forall_mem_cons.2 ⟨.thresh, List.forall_mem_singleton.2 .hyst⟩⟩⟩⟩

/-- Stages run one after another complete with their effects. -/
theorem runSeq_stages {p : Params} {s : State} {is : List Instr} (stages : ∀ i ∈ is, EdgeStage i)
    (ready : EdgeReady p s) : runSeq is (completeDone s) = .next (completeDone (effectsOf p is s)) := by
  induction is generalizing s with
  | nil => rfl
  | cons i is ih =>
    obtain ⟨stage, rest⟩ := List.forall_mem_cons.1 stages
    rw [runSeq_cons (stage.exec_completeDone ready)]
    exact ih rest (stage.keeps_ready ready)

theorem runSeq_edgeStages {p : Params} {s : State} (ready : EdgeReady p s) :
    runSeq edgeStages s = .next (completeDone (effectsOf p edgeStages s)) := by
  rw [edgeStages, runSeq_cons (EdgeStage.blur.exec ready)]
  exact runSeq_stages (List.forall_mem_cons.1 edgeStages_stage).2 (EdgeStage.blur.keeps_ready ready)

theorem effectsOf_withLatch (p : Params) {is : List Instr} (stages : ∀ i ∈ is, EdgeStage i) (L : Latch) (s : State) :
    effectsOf p is (withLatch L s) = withLatch L (effectsOf p is s) := by
  induction is generalizing s with
  | nil => rfl
  | cons i is ih =>
    obtain ⟨stage, rest⟩ := List.forall_mem_cons.1 stages
    have hfirst := ih rest (effectOf i p s)
    rw [← stage.effectOf_withLatch] at hfirst
    exact hfirst

/-- CANNY on a Grayscale image. -/
theorem canny_sequence_gray {s : State} (g : GeometryValid s.cfg s.latch.params) (v : SizeValid s.cfg s.latch.params)
    (hstd : 0 < s.latch.params.std) (ho : s.latch.params.lo ≤ s.latch.params.hi) (hc : s.latch.params.color = 2) :
    exec .canny s = runSeq edgeStages s := by
  have hrun := runSeq_edgeStages (s := s) ⟨rfl, g, hc, v, hstd, ho⟩
  rw [exec_canny g v hstd ho, hrun, cannyEffect_eq_effectsOf, Params.gray_of_gray hc, cannyImage_of_gray hc]

/-- On a colour image the stages run under a LATCH whose COLOR is Grayscale, and leave what CANNY leaves (log 20). -/
theorem canny_sequence_color {s : State} (g : GeometryValid s.cfg s.latch.params) (v : SizeValid s.cfg s.latch.params)
    (hstd : 0 < s.latch.params.std) (ho : s.latch.params.lo ≤ s.latch.params.hi) (hc : s.latch.params.color ≠ 2) :
    runSeq edgeStages (withLatch { s.latch with color := 2 } (completeDone (cvtGrayEffect s.latch.params s)))
      = .next (withLatch { s.latch with color := 2 } (completeDone (cannyEffect s.latch.params s))) := by
  set p := s.latch.params
  set L : Latch := { s.latch with color := 2 }
  obtain ⟨-, hcfg, -⟩ := cvtGrayEffect_frame p s
  have ready : EdgeReady p.gray (withLatch L (cvtGrayEffect p s)) :=
    ⟨rfl, hcfg ▸ g.gray, rfl, hcfg ▸ v, hstd, ho⟩
  have hrun := runSeq_stages edgeStages_stage ready
  rw [effectsOf_withLatch p.gray edgeStages_stage, ← cannyImage_of_color hc, ← cannyEffect_eq_effectsOf] at hrun
  rw [← cannyImage_of_color hc]
  exact hrun

theorem withLatch_self {L : Latch} {s : State} (h : s.latch = L) : withLatch L s = s := by
  subst h
  rfl

/-- Settles O45: no stage fails its checks, so the sequence completes with the effects CANNY is made of. -/
theorem cannyIsItsSequence : Obligations.canny_is_its_sequence := by
  rintro s p rfl g v hstd ho
  set p := s.latch.params
  refine ⟨fun hc => ⟨⟨_, exec_canny g v hstd ho⟩, canny_sequence_gray g v hstd ho hc⟩, fun hc => ?_⟩
  obtain ⟨-, -, hlatch, -⟩ := cvtGrayEffect_frame p s
  obtain ⟨-, -, hdone, -⟩ := cannyEffect_frame p s
  refine ⟨completeDone (cvtGrayEffect p s), withLatch { s.latch with color := 2 } (completeDone (cannyEffect p s)),
    exec_completes rfl (cvtChecks_ok g (.inr rfl)) rfl, ?_, (exec_canny g v hstd ho).trans ?_⟩
  · change runSeq edgeStages
      (withLatch { (cvtGrayEffect p s).latch with color := 2 } (completeDone (cvtGrayEffect p s))) = _
    rw [hlatch]
    exact canny_sequence_color g v hstd ho hc
  · exact congrArg _ (withLatch_self (s := completeDone (cannyEffect p s)) hdone).symm

end Sys2Proof.Machine
end

section
/-!
The edge map CANNY leaves (44_canny.md R203, R205): what BLUR and the stages after it write, a pixel of magnitude 0
that stays 0 to the end, and the bytes no stage touches.
-/

namespace Sys2Proof.Machine

open Sys2Proof

/-! ## What BLUR leaves -/

theorem SameOutside.mono {q q' : Nat → Prop} {m m' : Memory} (h : SameOutside q m m') (hq : ∀ a, q a → q' a) :
    SameOutside q' m m' := fun a ha => h a fun hin => ha (hq a hin)

theorem SameOutside.of_eq {q : Nat → Prop} {m m' : Memory} (h : m' = m) : SameOutside q m m' := fun _ _ => by rw [h]

section Blur

variable (p : Params) (s : State)

/-- A channel pass writes its channel of PIX and the region of A. -/
theorem blurChannel_sameOutside {ch : Nat} (hc : ch < p.c) :
    SameOutside (InRun 0 (p.w * p.h * p.c)) s.pix (blurChannel p s ch).pix
      ∧ SameOutside (InRegion s.cfg p) s.planeA (blurChannel p s ch).planeA
      ∧ (blurChannel p s ch).planeK = s.planeK := by
  obtain ⟨hmem, -⟩ := passResult_frame p s ch
  obtain ⟨hmem', -⟩ := wbackEffect_frame ch p (passResult p s ch)
  have hpix := wbackEffect_sameOutside p ch (passResult p s ch)
  have hplaneA := passResult_sameOutside (p := p) (t := s) rfl ch
  refine ⟨?_, ?_, (hmem' .k rfl).trans (hmem .k rfl)⟩
  · rw [show (passResult p s ch).pix = s.pix from hmem .pix rfl] at hpix
    exact hpix.mono fun a ha => ⟨Nat.zero_le a, (ha.lt hc).trans_eq (Nat.zero_add _).symm⟩
  · exact hplaneA.trans (.of_eq (hmem' .a rfl))

theorem blurChannels_sameOutside {chs : List Nat} (hc : ∀ ch ∈ chs, ch < p.c) :
    SameOutside (InRun 0 (p.w * p.h * p.c)) s.pix (chs.foldl (blurChannel p) s).pix
      ∧ SameOutside (InRegion s.cfg p) s.planeA (chs.foldl (blurChannel p) s).planeA
      ∧ (chs.foldl (blurChannel p) s).planeK = s.planeK := by
  induction chs generalizing s with
  | nil => exact ⟨.of_eq rfl, .of_eq rfl, rfl⟩
  | cons ch chs ih =>
    obtain ⟨hch, hrest⟩ := List.forall_mem_cons.1 hc
    obtain ⟨hpix, hplaneA, hplaneK⟩ := blurChannel_sameOutside p s hch
    obtain ⟨hpix', hplaneA', hplaneK'⟩ := ih (blurChannel p s ch) hrest
    obtain ⟨-, hcfg, -⟩ := blurChannel_frame p s ch
    rw [hcfg] at hplaneA'
    rw [List.foldl_cons]
    exact ⟨hpix.trans hpix', hplaneA.trans hplaneA', hplaneK'.trans hplaneK⟩

/-- BLUR writes nothing of PIX beyond the image, and of A and K the regions, unless S = 0 (R171, R172). -/
theorem blurEffect_sameOutside :
    SameOutside (InRun 0 (p.w * p.h * p.c)) s.pix (blurEffect p s).pix
      ∧ SameOutside (fun a => p.s ≠ 0 ∧ InRegion s.cfg p a) s.planeA (blurEffect p s).planeA
      ∧ SameOutside (fun a => p.s ≠ 0 ∧ InRegion s.cfg p a) s.planeK (blurEffect p s).planeK := by
  by_cases hs : p.s = 0
  · rw [blurEffect_of_zero hs]
    exact ⟨.of_eq rfl, .of_eq rfl, .of_eq rfl⟩
  · obtain ⟨hmem, hcfg, -⟩ := kernelSteps_frame p s
    obtain ⟨hpix, hplaneA, hplaneK⟩ := blurChannels_sameOutside p (fftfKerEffect p (kbuildEffect p s))
      (chs := List.range p.c) fun _ => List.mem_range.1
    have hkernel := sameOutside_of_stored (kbuildEffect_cfg p s) (fftfKerEffect_planeK p (kbuildEffect p s))
    rw [hcfg] at hplaneA
    rw [blurEffect, if_neg hs]
    exact ⟨(SameOutside.of_eq (hmem .pix rfl)).trans hpix,
      ((SameOutside.of_eq (hmem .a rfl)).trans hplaneA).mono fun _ ha => ⟨hs, ha⟩,
      (hkernel.trans (.of_eq hplaneK)).mono fun _ ha => ⟨hs, ha⟩⟩

end Blur

/-! ## The stages after BLUR -/

theorem InEdgeSet.candidate {w h : Nat} {cls : Nat → Nat → Nat} {q : Nat × Nat} (he : InEdgeSet w h cls q) :
    Candidate w h cls q := by
  cases he with
  | strong _ hc => exact hc
  | joined _ _ hc => exact hc

/-- GRAD, NMS and THRESH: the state HYST reads. -/
def classified (p : Params) (s : State) : State := threshEffect p (nmsEffect p (gradEffect p s))

theorem cannyEffect_eq_hyst (p : Params) (s : State) : cannyEffect p s =
    hystEffect p.gray (classified p.gray (blurEffect p.gray (cannyImage p s))) := rfl

section Classified

variable (p : Params) (s : State)

theorem classified_frame : EffectFrame (fun q => q == .mag || q == .dir || q == .cls) s (classified p s) := by
  have grad : ∀ q, (q == Plane.mag || q == .dir || q == .cls) = false → (q == Plane.mag || q == .dir) = false := by
    intro q; cases q <;> decide
  have mag : ∀ q, (q == Plane.mag || q == .dir || q == .cls) = false → (q == Plane.mag) = false := by
    intro q; cases q <;> decide
  have cls : ∀ q, (q == Plane.mag || q == .dir || q == .cls) = false → (q == Plane.cls) = false := by
    intro q; cases q <;> decide
  exact (((gradEffect_frame p s).mono grad).trans ((nmsEffect_frame p _).mono mag)).trans
    ((threshEffect_frame p _).mono cls)

theorem classified_sameKernel : SameKernel s (classified p s) :=
  ((gradEffect_sameKernel p s).trans (nmsEffect_sameKernel p _)).trans (threshEffect_sameKernel p _)

/-- The stages write no byte of a plane beside the image (10_state.md R53). -/
theorem classified_sameOutside : SameOutside (InMag s.cfg p.w p.h) s.mag (classified p s).mag
    ∧ SameOutside (InCode s.cfg p.w p.h) s.dir (classified p s).dir
    ∧ SameOutside (InCode s.cfg p.w p.h) s.cls (classified p s).cls := by
  obtain ⟨hmag, hdir⟩ := gradEffect_sameOutside p s
  have hnms := nmsEffect_sameOutside p (gradEffect p s)
  have hcls := threshEffect_sameOutside p (nmsEffect p (gradEffect p s))
  obtain ⟨grad, -⟩ := gradEffect_frame p s
  obtain ⟨nms, -⟩ := nmsEffect_frame p (gradEffect p s)
  obtain ⟨thresh, -⟩ := threshEffect_frame p (nmsEffect p (gradEffect p s))
  rw [gradEffect_cfg] at hnms
  rw [nmsEffect_cfg, gradEffect_cfg] at hcls
  exact ⟨(hmag.trans hnms).trans (.of_eq (thresh .mag rfl)),
    hdir.trans (.of_eq ((thresh .dir rfl).trans (nms .dir rfl))),
    (SameOutside.of_eq ((nms .cls rfl).trans (grad .cls rfl))).trans hcls⟩

variable {p s} {x y : Nat}

/-- A pixel of gradient 0 is in class 0, whatever NMS and the thresholds do (R198). -/
theorem classified_zero (hw : p.w ≤ s.cfg.maxW) (hx : x < p.w) (hy : y < p.h)
    (h0 : gradMag p.w p.h (grayAt p s) x y = 0) : clsAt (classified p s) x y = 0 := by
  have hcfg : (nmsEffect p (gradEffect p s)).cfg = s.cfg := by rw [nmsEffect_cfg, gradEffect_cfg]
  have hgrad := gradEffect_holds_mag (s := s) hw hx hy
  rw [h0] at hgrad
  have hmag : magAt (nmsEffect p (gradEffect p s)) x y = 0 := by
    refine magAt_of_zeros fun a ha => nmsEffect_read_zero p (holdsRun_zeros_iff.1 hgrad a ?_)
    rwa [hcfg] at ha
  have hcls := threshEffect_read (p := p) (s := nmsEffect p (gradEffect p s)) (by rwa [hcfg]) hx hy
  rw [hmag, hcfg] at hcls
  rw [clsAt, State.byteAt, byteIn, classified, threshEffect_cfg, hcfg, State.mem_cls, hcls]
  rfl

end Classified

/-- HYST leaves 0 where the class is 0: such a pixel is no candidate (R200). -/
theorem hystEffect_read_zero {p : Params} {s : State} {x y : Nat} (hx : x < p.w) (hy : y < p.h)
    (h0 : clsAt s x y = 0) : Memory.read (hystEffect p s).pix (y * p.w + x) = some 0 := by
  refine hystEffect_read_nonEdge hx hy fun he => ?_
  obtain ⟨-, -, hone | htwo⟩ := he.candidate
  · exact absurd (h0.symm.trans hone) (by decide)
  · exact absurd (h0.symm.trans htwo) (by decide)

/-! ## CANNY -/

section Canny

variable (p : Params) (s : State)

/-- The state CANNY's stages after BLUR begin in. -/
def cannyBlurred : State := blurEffect p.gray (cannyImage p s)

theorem cannyImage_sameOutside {c : Config} (g : GeometryValid c p) :
    SameOutside (InRun 0 (p.w * p.h)) s.pix (cannyImage p s).pix := by
  by_cases hc : p.color = 2
  · rw [cannyImage_of_gray hc]
    exact .of_eq rfl
  · rw [cannyImage_of_color hc, cvtGrayEffect_of_color s g hc]
    exact (convertGray_leaves _ p s).1

theorem cannyBlurred_cfg : (cannyBlurred p s).cfg = s.cfg := by
  obtain ⟨-, hcfg, -⟩ := cannyImage_frame p s
  obtain ⟨-, hcfg', -⟩ := blurEffect_frame p.gray (cannyImage p s)
  exact hcfg'.trans hcfg

/-- CANNY's byte of a pixel is 0 or 255. -/
theorem cannyEffect_read {x y : Nat} (hx : x < p.w) (hy : y < p.h) :
    Memory.read (cannyEffect p s).pix (y * p.w + x) = some 0
      ∨ Memory.read (cannyEffect p s).pix (y * p.w + x) = some 255 := by
  rw [cannyEffect_eq_hyst]
  by_cases he : InEdgeSet p.w p.h (clsAt (classified p.gray (cannyBlurred p s))) (x, y)
  · exact .inr (hystEffect_read_edge (p := p.gray) hx hy he)
  · exact .inl (hystEffect_read_nonEdge (p := p.gray) hx hy he)

/-- CANNY marks no pixel at which the smoothed image has gradient 0. -/
theorem cannyEffect_read_zero (hw : p.w ≤ s.cfg.maxW) {x y : Nat} (hx : x < p.w) (hy : y < p.h)
    (h0 : gradMag p.w p.h (grayAt p.gray (cannyBlurred p s)) x y = 0) :
    Memory.read (cannyEffect p s).pix (y * p.w + x) = some 0 := by
  rw [cannyEffect_eq_hyst]
  exact hystEffect_read_zero (p := p.gray) hx hy
    (classified_zero (p := p.gray) (s := cannyBlurred p s) (by rw [cannyBlurred_cfg]; exact hw) hx hy h0)

theorem cannyEffect_kernel : SameKernel (kbuildEffect p.gray (cannyImage p s)) (cannyEffect p s) :=
  ((blurEffect_sameKernel p.gray _).trans (classified_sameKernel p.gray _)).trans (hystEffect_sameKernel p.gray _)

theorem cannyEffect_ker_sameOutside :
    SameOutside (InRun 0 (8 * (2 * p.half + 1))) s.ker (cannyEffect p s).ker := by
  obtain ⟨himage, -⟩ := cannyImage_frame p s
  obtain ⟨-, -, hker⟩ := cannyEffect_kernel p s
  exact ((SameOutside.of_eq (himage .ker rfl)).trans (kbuildEffect_sameOutside p.gray _)).trans (.of_eq hker)

theorem cannyEffect_pix_sameOutside {c : Config} (g : GeometryValid c p) :
    SameOutside (InRun 0 (p.w * p.h)) s.pix (cannyEffect p s).pix := by
  obtain ⟨hblur, -⟩ := blurEffect_sameOutside p.gray (cannyImage p s)
  obtain ⟨hclassified, -⟩ := classified_frame p.gray (cannyBlurred p s)
  rw [show p.gray.w * p.gray.h * p.gray.c = p.w * p.h from Nat.mul_one _] at hblur
  exact (((cannyImage_sameOutside p s g).trans hblur).trans (.of_eq (hclassified .pix rfl))).trans
    (hystEffect_sameOutside p.gray _)

/-- Outside KER and PIX, CANNY's planes are those that BLUR and the stages up to THRESH leave. -/
theorem cannyEffect_planes : SameOutside (fun a => p.s ≠ 0 ∧ InRegion s.cfg p a) s.planeA (cannyEffect p s).planeA
    ∧ SameOutside (fun a => p.s ≠ 0 ∧ InRegion s.cfg p a) s.planeK (cannyEffect p s).planeK
    ∧ SameOutside (InMag s.cfg p.w p.h) s.mag (cannyEffect p s).mag
    ∧ SameOutside (InCode s.cfg p.w p.h) s.dir (cannyEffect p s).dir
    ∧ SameOutside (InCode s.cfg p.w p.h) s.cls (cannyEffect p s).cls := by
  obtain ⟨himage, hcfg, -⟩ := cannyImage_frame p s
  obtain ⟨-, hplaneA, hplaneK⟩ := blurEffect_sameOutside p.gray (cannyImage p s)
  obtain ⟨hblur, -⟩ := blurEffect_frame p.gray (cannyImage p s)
  obtain ⟨hmag, hdir, hcls⟩ := classified_sameOutside p.gray (cannyBlurred p s)
  obtain ⟨hclassified, -⟩ := classified_frame p.gray (cannyBlurred p s)
  obtain ⟨hhyst, -⟩ := hystEffect_frame p.gray (classified p.gray (cannyBlurred p s))
  rw [hcfg] at hplaneA hplaneK
  rw [cannyBlurred_cfg] at hmag hdir hcls
  exact ⟨((SameOutside.of_eq (himage .a rfl)).trans hplaneA).trans
      (.of_eq ((hhyst .a rfl).trans (hclassified .a rfl))),
    ((SameOutside.of_eq (himage .k rfl)).trans hplaneK).trans
      (.of_eq ((hhyst .k rfl).trans (hclassified .k rfl))),
    ((SameOutside.of_eq ((hblur .mag rfl).trans (himage .mag rfl))).trans hmag).trans (.of_eq (hhyst .mag rfl)),
    ((SameOutside.of_eq ((hblur .dir rfl).trans (himage .dir rfl))).trans hdir).trans (.of_eq (hhyst .dir rfl)),
    ((SameOutside.of_eq ((hblur .cls rfl).trans (himage .cls rfl))).trans hcls).trans (.of_eq (hhyst .cls rfl))⟩

end Canny

/-- Settles O46: HYST writes the map, a border pixel has gradient 0, and each plane's bytes beside the image stay from
stage to stage. -/
theorem cannyMap : Obligations.canny_map := by
  rintro s p rfl g v hstd ho
  set p := s.latch.params
  have ⟨_, hw, _⟩ := g
  obtain ⟨-, hlen, -⟩ := cannyEffect_kernel p s
  have hcolor := hystEffect_color p.gray (classified p.gray (cannyBlurred p s))
  refine ⟨_, exec_canny g v hstd ho, hcolor, ?_, fun x y hx hy => cannyEffect_read p s hx hy,
    fun x y hx hy hb => ?_, cannyEffect_pix_sameOutside p s g, cannyEffect_ker_sameOutside p s, ?_⟩
  · rw [completeDone_kerLen, hlen]
    exact kbuildEffect_kerLen_toNat (p := p.gray) v.1 BitVec.toInt_lt _
  · exact cannyEffect_read_zero p s hw hx hy (gradMag_border _ _ _ (isInterior_eq_false hb))
  · obtain ⟨hplaneA, hplaneK, hmag, hdir, hcls⟩ := cannyEffect_planes p s
    exact ⟨hplaneA, hplaneK, hmag, hdir, hcls, (cannyEffect_frame p s).command⟩

end Sys2Proof.Machine
end

section
/-!
CANNY on a uniform image (44_canny.md R206): the conversion keeps it uniform, BLUR keeps its value wherever the whole
kernel lies in the image, and where the smoothed image is flat there is no gradient and no edge.
-/

namespace Sys2Proof.Machine

open Sys2Proof

/-! ## The exact convolution of a flat window (43_convolution.md R173) -/

/-- The exact weights sum to 1 (42_kernel.md R152). -/
theorem exactWeight_sum (std : ℤ) (s : ℕ) : ∑ k ∈ Finset.Icc (-(s : ℤ)) s, exactWeight std s k = 1 := by
  simp only [exactWeight]
  rw [← Finset.sum_div, div_self (exactGauss_sum_pos std s).ne']

/-- Where every sample under the kernel is `n`, so is the exact convolution. -/
theorem exactConv_of_flat (std : ℤ) {g : Geom} {samples : List Byte} {x y n : ℕ}
    (flat : ∀ i ∈ Finset.Icc (-(g.s : ℤ)) g.s, ∀ j ∈ Finset.Icc (-(g.s : ℤ)) g.s,
      paddedSample samples g.w g.h (x - i) (y - j) = n) : exactConv std g samples x y = n := by
  calc exactConv std g samples x y
      = ∑ i ∈ Finset.Icc (-(g.s : ℤ)) g.s, ∑ j ∈ Finset.Icc (-(g.s : ℤ)) g.s,
          exactWeight std g.s i * exactWeight std g.s j * (n : ℝ) :=
        Finset.sum_congr rfl fun i hi => Finset.sum_congr rfl fun j hj => by rw [flat i hi j hj]
    _ = (∑ i ∈ Finset.Icc (-(g.s : ℤ)) g.s, exactWeight std g.s i)
          * (∑ j ∈ Finset.Icc (-(g.s : ℤ)) g.s, exactWeight std g.s j) * n := by
        rw [Finset.sum_mul_sum, Finset.sum_mul]
        exact Finset.sum_congr rfl fun _ _ => (Finset.sum_mul _ _ _).symm
    _ = n := by rw [exactWeight_sum, one_mul, one_mul]

/-! ## Rounding near a sample -/

/-- A value less than 1/2 away from a sample rounds to it. -/
theorem roundSample_of_near {a : ℚ} {b : Byte} (h : |(a : ℝ) - b.toNat| < 1 / 2) : roundSample a = b := by
  have hq : |a - (b.toNat : ℚ)| < 1 / 2 := by
    rw [← Rat.cast_lt (K := ℝ)]
    push_cast
    exact h
  obtain ⟨hlo, hhi⟩ := abs_lt.1 hq
  have hfloor : ⌊a + 1 / 2⌋ = (b.toNat : ℤ) := by
    rw [Int.floor_eq_iff, Int.cast_natCast]
    constructor <;> linarith
  have hb := b.isLt
  have hclamp : (min 255 (max 0 (b.toNat : ℤ))).toNat = b.toNat := by omega
  rw [roundSample, hfloor, hclamp, BitVec.ofNat_toNat, BitVec.setWidth_eq]

/-- EPS_CONV is below 1/2 (00_scope.md R6). -/
theorem epsConv_lt_half {c : Config} (h : c.InRange) : c.epsConv.toReal < 1 / 2 := by
  obtain ⟨-, -, -, -, -, -, -, -, -, -, hden, hlt⟩ := h
  have hden' : (0 : ℝ) < c.epsConv.den := by exact_mod_cast hden
  have hlt' : (2 * c.epsConv.num : ℝ) < c.epsConv.den := by exact_mod_cast hlt
  rw [Ratio.toReal, div_lt_div_iff₀ hden' two_pos]
  linarith

/-! ## A flat window stays flat -/

/-- Where the exact convolution is a sample, BLUR writes that sample (43_convolution.md R175, R176). -/
theorem blurEffect_read_of_conv {p : Params} {s : State} (hc : s.cfg.Valid) (g : GeometryValid s.cfg p)
    (v : SizeValid s.cfg p) (hstd : 0 < p.std) (hs : 1 ≤ p.s) (hw : WrittenTo s.pix (p.w * p.h * p.c))
    {ch x y : Nat} (hch : ch < p.c) (hx : x < p.w) (hy : y < p.h) {b : Byte}
    (hconv : exactConv p.std p.geom (channelSamples p ch s) x y = (b.toNat : ℝ)) :
    Memory.read (blurEffect p s).pix ((y * p.w + x) * p.c + ch) = some b := by
  obtain ⟨hfinite, haccurate⟩ :=
    canonicalArray_accurate hc g v hstd hs (channelSamples_length_geom p ch s) hx hy
  rw [hconv] at haccurate
  rw [(blurEffect_progress hc g v hstd hs hw).written ch x y hch hx hy, writeBack_of_finite hfinite,
    roundSample_of_near (haccurate.trans_lt (epsConv_lt_half hc.1))]

/-- Every pixel of the Grayscale image is `b`. -/
def UniformGray (p : Params) (s : State) (b : Byte) : Prop := ∀ j, j < p.w * p.h → Memory.read s.pix j = some b

section Uniform

variable {p : Params} {s : State} {b : Byte}

theorem byteAt_of_read {q : Plane} {a : Nat} (h : Memory.read (s.mem q) a = some b) : s.byteAt q a = b := by
  rw [State.byteAt, byteIn, h, Option.getD_some]

theorem UniformGray.written (u : UniformGray p s b) : WrittenTo s.pix (p.gray.w * p.gray.h * p.gray.c) := by
  intro a ha
  rw [u a (ha.trans_eq (Nat.mul_one _))]
  rfl

/-- The samples BLUR reads, with the zeros around them. -/
theorem UniformGray.paddedSample (u : UniformGray p s b) (x y : ℤ) :
    paddedSample (channelSamples p.gray 0 s) p.w p.h x y
      = if 0 ≤ x ∧ x < p.w ∧ 0 ≤ y ∧ y < p.h then b.toNat else 0 := by
  unfold Machine.paddedSample
  split
  · next hin =>
    have hx : x.toNat < p.w := by omega
    have hy : y.toNat < p.h := by omega
    have hget := channelSamples_get (p := p.gray) (ch := 0) Nat.one_pos s hx hy
    have hread := u _ (grid_index hx hy).1
    rw [show (y.toNat * p.gray.w + x.toNat) * p.gray.c + 0 = y.toNat * p.w + x.toNat from Nat.mul_one _,
      byteAt_of_read (q := .pix) hread] at hget
    rw [List.getD_eq_getElem?_getD]
    exact congrArg (fun o => BitVec.toNat (o.getD 0)) hget
  · rfl

/-- BLUR keeps the value of a uniform image where the whole kernel lies in the image, and everywhere if it is 0. -/
theorem UniformGray.blurred (u : UniformGray p s b) (hc : s.cfg.Valid) (g : GeometryValid s.cfg p.gray)
    (v : SizeValid s.cfg p) (hstd : 0 < p.std) (hs : 1 ≤ p.s) {x y : Nat} (hx : x < p.w) (hy : y < p.h)
    (hin : b = 0 ∨ (p.half ≤ x ∧ x + p.half < p.w ∧ p.half ≤ y ∧ y + p.half < p.h)) :
    Memory.read (blurEffect p.gray s).pix (y * p.w + x) = some b := by
  have hconv : exactConv p.std p.gray.geom (channelSamples p.gray 0 s) x y = (b.toNat : ℝ) := by
    refine exactConv_of_flat p.std fun i hi j hj => (u.paddedSample _ _).trans ?_
    have hi' : -(p.half : ℤ) ≤ i ∧ i ≤ p.half := Finset.mem_Icc.1 hi
    have hj' : -(p.half : ℤ) ≤ j ∧ j ≤ p.half := Finset.mem_Icc.1 hj
    rcases hin with rfl | hin
    · exact ite_self _
    · exact if_pos (by omega)
  have hread := blurEffect_read_of_conv hc g v hstd hs u.written Nat.one_pos hx hy hconv
  rwa [show (y * p.gray.w + x) * p.gray.c + 0 = y * p.w + x from Nat.mul_one _] at hread

end Uniform

/-! ## Flat windows have no gradient -/

/-- At an interior pixel whose 3 × 3 window is flat, gx = gy = 0. -/
theorem gradMag_of_flat {w h x y : Nat} {P : Nat → Nat → Int} {k : Int}
    (flat : isInterior w h x y = true → ∀ x' y', x' ≤ x + 1 → x ≤ x' + 1 → y' ≤ y + 1 → y ≤ y' + 1 → P x' y' = k) :
    gradMag w h P x y = 0 := by
  by_cases hi : isInterior w h x y = true
  · obtain ⟨hx, -, hy, -⟩ := isInterior_iff.1 hi
    have window {x' y' : Nat} (hx' : x' = x - 1 ∨ x' = x ∨ x' = x + 1) (hy' : y' = y - 1 ∨ y' = y ∨ y' = y + 1) :
        P x' y' = k := flat hi x' y' (by omega) (by omega) (by omega) (by omega)
    have hgx : sobelX P x y = 0 := by simp [sobelX, window]
    have hgy : sobelY P x y = 0 := by simp [sobelY, window]
    rw [gradMag_interior P hi, hgx, hgy]
    rfl
  · exact gradMag_border w h P (Bool.eq_false_iff.2 hi)

/-- CANNY marks no pixel whose window in the smoothed image is flat. -/
theorem cannyEffect_read_of_flat {p : Params} {s : State} (hw : p.w ≤ s.cfg.maxW) {x y : Nat} (hx : x < p.w)
    (hy : y < p.h) {b : Byte} (flat : ∀ x' y', x' < p.w → y' < p.h → x' ≤ x + 1 → x ≤ x' + 1 → y' ≤ y + 1 → y ≤ y' + 1 →
      Memory.read (cannyBlurred p s).pix (y' * p.w + x') = some b) :
    Memory.read (cannyEffect p s).pix (y * p.w + x) = some 0 := by
  refine cannyEffect_read_zero p s hw hx hy (gradMag_of_flat (k := sampleInt b) ?_)
  intro hi x' y' hx1 hx2 hy1 hy2
  have hxy := isInterior_iff.1 hi
  have hread := flat x' y' (by omega) (by omega) hx1 hx2 hy1 hy2
  exact congrArg sampleInt (byteAt_of_read (s := cannyBlurred p s) (q := .pix) hread)

/-! ## The conversion keeps a uniform image uniform -/

theorem luma_zero : luma { p0 := 0, p1 := 0, p2 := 0 } = 0 := by decide

/-- The image CANNY smooths is uniform, and 0 if every sample was. -/
theorem cannyImage_uniform {p : Params} {s : State} (g : GeometryValid s.cfg p) {v : Nat → Byte}
    (h : ∀ j ch, j < p.w * p.h → ch < p.c → Memory.read s.pix (j * p.c + ch) = some (v ch)) :
    ∃ b, UniformGray p (cannyImage p s) b ∧ ((∀ ch, ch < p.c → v ch = 0) → b = 0) := by
  by_cases hc : p.color = 2
  · have hone : p.c = 1 := by rw [Params.c, hc]; rfl
    rw [hone] at h ⊢
    rw [cannyImage_of_gray hc]
    exact ⟨v 0, fun j hj => by simpa using h j 0 hj Nat.one_pos, fun hz => hz 0 Nat.one_pos⟩
  · have hthree : p.c = 3 := by rcases g.rgb_or_ycbcr hc with h' | h' <;> rw [Params.c, h'] <;> rfl
    rw [hthree] at h ⊢
    rw [cannyImage_of_color hc, cvtGrayEffect_of_color s g hc]
    have sample {j ch : Nat} (hj : j < p.w * p.h) (hch : ch < 3) : s.byteAt .pix (3 * j + ch) = v ch := by
      rw [Nat.mul_comm]
      exact byteAt_of_read (h j ch hj hch)
    refine ⟨(if p.color = 0 then luma else takeY) { p0 := v 0, p1 := v 1, p2 := v 2 }, fun j hj => ?_, fun hz => ?_⟩
    · rw [convertGray_read _ _ s hj, pixelOf_snapshot p s hj, ← sample hj (ch := 0) (by decide),
        ← sample hj (ch := 1) (by decide), ← sample hj (ch := 2) (by decide)]
      rfl
    · rw [hz 0 (by decide), hz 1 (by decide), hz 2 (by decide)]
      split
      · exact luma_zero
      · rfl

/-! ## CANNY -/

section Canny

variable {p : Params} {s : State} {b : Byte}

theorem uniformGray_of_pixels
    (h : ∀ x y, x < p.w → y < p.h → Memory.read s.pix (y * p.w + x) = some b) : UniformGray p s b := by
  intro j hj
  have hpos : 0 < p.w := Nat.pos_of_mul_pos_right (by omega : 0 < p.w * p.h)
  have hread := h (j % p.w) (j / p.w) (Nat.mod_lt j hpos) ((Nat.div_lt_iff_lt_mul hpos).2 (by rwa [Nat.mul_comm]))
  rwa [Nat.div_add_mod'] at hread

/-- CANNY's map is all 0 where the smoothed image is uniform. -/
theorem UniformGray.no_edge (u : UniformGray p (cannyBlurred p s) b) (hw : p.w ≤ s.cfg.maxW) :
    UniformGray p (cannyEffect p s) 0 :=
  uniformGray_of_pixels fun _ _ hx hy =>
    cannyEffect_read_of_flat hw hx hy fun _ _ hx' hy' _ _ _ _ => u _ (grid_index hx' hy').1

variable (u : UniformGray p (cannyImage p s) b)

include u

/-- With S = 0 nothing is smoothed (43_convolution.md R172). -/
theorem UniformGray.cannyBlurred_of_size_zero (hs : p.s = 0) : UniformGray p (cannyBlurred p s) b := by
  rw [cannyBlurred, blurEffect_of_zero (p := p.gray) hs]
  exact u

theorem UniformGray.cannyBlurred_read (hc : s.cfg.Valid) (g : GeometryValid s.cfg p) (v : SizeValid s.cfg p)
    (hstd : 0 < p.std) (hs : 1 ≤ p.s) {x y : Nat} (hx : x < p.w) (hy : y < p.h)
    (hin : b = 0 ∨ (p.half ≤ x ∧ x + p.half < p.w ∧ p.half ≤ y ∧ y + p.half < p.h)) :
    Memory.read (cannyBlurred p s).pix (y * p.w + x) = some b := by
  obtain ⟨-, hcfg, -⟩ := cannyImage_frame p s
  rw [← hcfg] at hc g v
  exact u.blurred hc g.gray v hstd hs hx hy hin

end Canny

/-- Settles O47: the smoothed image is flat around each of these pixels, so its gradient there is 0. -/
theorem cannyUniformImage : Obligations.canny_uniform_image := by
  rintro s p v rfl g vs hstd ho himage
  set p := s.latch.params
  have ⟨_, hw, _⟩ := g
  obtain ⟨b, u, hzero⟩ := cannyImage_uniform g himage
  have sizeZero (hs : p.s = 0) : UniformGray p (cannyEffect p s) 0 := (u.cannyBlurred_of_size_zero hs).no_edge hw
  refine ⟨_, exec_canny g vs hstd ho, sizeZero, fun hc hv => ?_, fun hc hs x y hx hxw hy hyh => ?_⟩
  · rcases vs.1.eq_or_lt with hs | hs
    · exact sizeZero hs.symm
    · have blurred : UniformGray p (cannyBlurred p s) b := uniformGray_of_pixels fun x y hx hy =>
        u.cannyBlurred_read hc g vs hstd hs hx hy (.inl (hzero hv))
      exact blurred.no_edge hw
  · refine cannyEffect_read_of_flat (b := b) hw (by omega) (by omega) fun x' y' hx' hy' hx1 hx2 hy1 hy2 => ?_
    exact u.cannyBlurred_read hc g vs hstd hs hx' hy' (.inr (by omega))

end Sys2Proof.Machine
end

section
/-!
Errors and exceptions (60_exceptions.md R230 to R243): the order of validation, the report of each failing check, that
every step answers, and that STATUS and the error report agree after every step.
-/

namespace Sys2Proof.Machine

open Sys2Proof

/-! ## The engine never halts (R236) -/

/-- Every instruction answers a next state: a command completes in one of its two ways, a control operation at once. -/
theorem exec_answers (i : Instr) (s : State) : ∃ t, exec i s = .next t := by
  cases hi : i.isControl with
  | false => exact ⟨_, (exec_command hi s).trans (complete_next _ _ s)⟩
  | true =>
    obtain ⟨t, ht, -⟩ := exec_control_resp hi s
    exact ⟨t, ht⟩

/-- Settles O15: a turn that runs no instruction leaves a state, and every instruction answers one. -/
theorem engineNeverHalts : Obligations.engine_never_halts := by
  intro s
  rw [step_eq_outcome]
  cases nextTurn s with
  | run i u => exact exec_answers i u
  | done u => exact ⟨u, rfl⟩

/-! ## The order of the checks (R233, R234) -/

theorem nodup_checkOrder (ch : Nat) (target : BitVec 2) : (checkOrder ch target).Nodup := by simp [checkOrder]

/-- The global order is the checks of CANNY, which take no operand of the word, and then these four. -/
theorem checkOrder_eq (ch : Nat) (target : BitVec 2) :
    checkOrder ch target = cannyChecks ++ [.channel ch, .grayscale, .kernelLength, .pair target] := rfl

section Order

variable {cs : List Check} {ch : Nat} {target : BitVec 2} (h : cs.Sublist cannyChecks)

include h

theorem sublist_checkOrder : cs.Sublist (checkOrder ch target) := by
  rw [checkOrder_eq]
  exact h.trans (List.sublist_append_left _ _)

theorem append_singleton_sublist_checkOrder {c : Check}
    (hc : c ∈ [.channel ch, .grayscale, .kernelLength, .pair target]) : (cs ++ [c]).Sublist (checkOrder ch target) := by
  rw [checkOrder_eq]
  exact h.append (List.singleton_sublist.2 hc)

end Order

/-- Each command's checks stand in the global order (R234). -/
theorem checksOf_sublist_checkOrder {i : Instr} {ch : Nat} {target : BitVec 2}
    (hch : ∀ n, .channel n ∈ checksOf i → n = ch) (ht : ∀ g, .pair g ∈ checksOf i → g = target) :
    (checksOf i).Sublist (checkOrder ch target) := by
  cases i with
  | nop | start | srst => exact List.nil_sublist _
  | cvtRgb | cvtYcbcr | cvtGray =>
    have := ht _ (List.mem_append_right geometryChecks (List.mem_singleton_self _))
    exact append_singleton_sublist_checkOrder (cs := geometryChecks) (by decide) (by simp [this])
  | fftfImg n | wback n =>
    have := hch n (List.mem_append_right convolutionChecks (List.mem_singleton_self _))
    exact append_singleton_sublist_checkOrder (cs := convolutionChecks) (by decide) (by simp [this])
  | fftfKer => exact append_singleton_sublist_checkOrder (cs := convolutionChecks) (by decide) (by simp)
  | grad => exact append_singleton_sublist_checkOrder (cs := geometryChecks) (by decide) (by simp)
  | kbuild | pmul | ffti | blur | nms | thresh | hyst | canny => exact sublist_checkOrder (by decide)

/-- Filtering a list without repetitions by the members of a sublist gives the sublist. -/
theorem filter_mem_eq_of_sublist {cs ds : List Check} (h : cs.Sublist ds) (hd : ds.Nodup) :
    (ds.filter fun c => decide (c ∈ cs)) = cs := by
  have hkeep : (cs.filter fun c => decide (c ∈ cs)) = cs := List.filter_eq_self.2 fun _ => decide_eq_true
  have hsub := h.filter fun c => decide (c ∈ cs)
  rw [hkeep] at hsub
  have hle : (ds.filter fun c => decide (c ∈ cs)).Subperm cs :=
    (hd.filter _).subperm fun _ hc => of_decide_eq_true (List.mem_filter.1 hc).2
  exact (hsub.eq_of_length_le hle.length_le).symm

/-- Settles O11: a command's checks are a sublist of the global order, so they are what is left of it. -/
theorem checkOrderIsGlobal : Obligations.check_order_is_global := by
  intro s i ch target hch ht
  rw [filter_mem_eq_of_sublist (checksOf_sublist_checkOrder hch ht) (nodup_checkOrder ch target)]

/-! ## The report of a failing check (R230) -/

section Report

variable {s : State} {i : Instr} {c : Check} {cs ds : List Check}

theorem firstFailure_snoc_of_ok {p : Params} (ok : firstFailure p s cs = none) (hc : ¬ Check.fails p s c = true) :
    firstFailure p s (cs ++ [c]) = none := by
  rw [firstFailure_append_of_pass ((firstFailure_none_iff _ _ _).1 ok), firstFailure_of_not_fails hc, firstFailure]

variable (hi : i.isControl = false)

include hi

/-- A command whose checks pass up to one that fails raises that one's report, whatever the checks after it say. -/
theorem exec_reports (hchecks : checksOf i = cs ++ c :: ds) (ok : firstFailure s.latch.params s cs = none)
    (hc : Check.fails s.latch.params s c = true) : exec i s = .next (raiseError (c.report s.latch.params) s) := by
  refine errorsArePrecise s i _ hi ?_
  rw [hchecks, firstFailure_append_of_pass ((firstFailure_none_iff _ _ _).1 ok)]
  exact firstFailure_of_fails hc ds

/-- S < 0 and S > MAX_SIZE_F, for a command that checks S next (10_state.md R30). -/
theorem exec_size_errors (hchecks : checksOf i = cs ++ .sizeNonneg :: .sizeMax :: ds)
    (ok : firstFailure s.latch.params s cs = none) :
    (s.latch.sizeF.toInt < 0 →
      exec i s = .next { s with errCode := 1, errInfo := 2, err := true, phase := .idle })
    ∧ ((s.cfg.maxSizeF : Int) < s.latch.sizeF.toInt →
      exec i s = .next { s with errCode := 1, errInfo := 3, err := true, phase := .idle }) := by
  refine ⟨fun hneg => exec_reports hi hchecks ok ((Check.fails_sizeNonneg _ _).2 hneg), fun hmax => ?_⟩
  have hmax' : (s.cfg.maxSizeF : Int) < s.latch.params.s := hmax
  have hnonneg : ¬ Check.fails s.latch.params s .sizeNonneg = true := by
    rw [Check.fails_sizeNonneg]
    omega
  have hchecks' : checksOf i = (cs ++ [.sizeNonneg]) ++ .sizeMax :: ds := by rw [hchecks, List.append_cons]
  exact exec_reports hi hchecks' (firstFailure_snoc_of_ok ok hnonneg) ((Check.fails_sizeMax _ _).2 hmax)

end Report

/-- Every command but NOP and KBUILD checks the geometry first (R234). -/
theorem checksOf_eq_geometryChecks_append {i : Instr} (hi : i.isControl = false) (hnop : i ≠ .nop)
    (hkbuild : i ≠ .kbuild) : ∃ cs, checksOf i = geometryChecks ++ cs := by
  cases i with
  | nop => exact absurd rfl hnop
  | kbuild => exact absurd rfl hkbuild
  | start | srst => cases hi
  | _ => exact ⟨_, rfl⟩

/-- Settles O12: W, H and COLOR are the first three checks, and each clause makes the ones before its own pass. -/
theorem geometryErrors : Obligations.geometry_errors := by
  intro s i hi hnop hkbuild
  obtain ⟨ds, hds⟩ := checksOf_eq_geometryChecks_append hi hnop hkbuild
  have widthOk (h1 : 1 ≤ s.latch.w.toNat) (h2 : s.latch.w.toNat ≤ s.cfg.maxW) :
      firstFailure s.latch.params s [.width] = none := by
    refine firstFailure_snoc_of_ok (cs := []) rfl ?_
    rw [Check.fails_width]
    simp only [Latch.params]
    omega
  have heightOk (h3 : 1 ≤ s.latch.h.toNat) (h4 : s.latch.h.toNat ≤ s.cfg.maxH) :
      ¬ Check.fails s.latch.params s .height = true := by
    rw [Check.fails_height]
    simp only [Latch.params]
    omega
  refine ⟨fun hw => ?_, fun h1 h2 hh => ?_, fun h1 h2 h3 h4 hcolor => ?_⟩
  · exact exec_reports (cs := []) hi hds rfl ((Check.fails_width _ _).2 hw)
  · exact exec_reports (cs := [.width]) hi hds (widthOk h1 h2) ((Check.fails_height _ _).2 hh)
  · have ok := firstFailure_snoc_of_ok (widthOk h1 h2) (heightOk h3 h4)
    exact exec_reports hi hds ok ((Check.fails_color _ _).2 hcolor)

/-- STD ≤ 0, then S out of range, for a command that checks KBUILD's operands after the geometry
(43_convolution.md R171; 44_canny.md R204). -/
theorem exec_std_size_errors {s : State} {i : Instr} {ds : List Check} (hi : i.isControl = false)
    (hchecks : checksOf i = geometryChecks ++ kbuildChecks ++ ds) (g : GeometryValid s.cfg s.latch.params) :
    (s.latch.std.toInt ≤ 0 →
      exec i s = .next { s with errCode := 1, errInfo := 1, err := true, phase := .idle })
    ∧ (0 < s.latch.std.toInt → s.latch.sizeF.toInt < 0 →
      exec i s = .next { s with errCode := 1, errInfo := 2, err := true, phase := .idle })
    ∧ (0 < s.latch.std.toInt → (s.cfg.maxSizeF : Int) < s.latch.sizeF.toInt →
      exec i s = .next { s with errCode := 1, errInfo := 3, err := true, phase := .idle }) := by
  have stdOk (hstd : 0 < s.latch.std.toInt) : firstFailure s.latch.params s (geometryChecks ++ [.std]) = none :=
    firstFailure_snoc_of_ok (geometryChecks_ok g) (mt (Check.fails_std _ _).1 hstd.not_ge)
  have sizeErrors (hstd : 0 < s.latch.std.toInt) :=
    exec_size_errors (cs := geometryChecks ++ [.std]) (ds := ds) hi hchecks (stdOk hstd)
  exact ⟨fun hstd => exec_reports hi hchecks (geometryChecks_ok g) ((Check.fails_std _ _).2 hstd),
    fun hstd => (sizeErrors hstd).1, fun hstd => (sizeErrors hstd).2⟩

/-- Settles O14: each clause names the checks that pass and the one that fails. -/
theorem operandErrors : Obligations.operand_errors := by
  intro s g
  have geometry := geometryChecks_ok g
  refine ⟨?_, ?_, fun v ch hch => ?_, fun v hlen => ?_, fun hcolor => ?_, fun ho => ⟨?_, fun hstd v => ?_⟩⟩
  · simp only [List.mem_cons, List.not_mem_nil, or_false]
    rintro i ((rfl | rfl | rfl) | ⟨ch, rfl | rfl⟩) <;>
      exact exec_size_errors (cs := geometryChecks) rfl rfl geometry
  · simp only [List.mem_cons, List.not_mem_nil, or_false]
    rintro i (rfl | rfl)
    · exact exec_std_size_errors (ds := []) rfl rfl g
    · exact exec_std_size_errors (ds := [.thresholds]) rfl rfl g
  · have ok := convolutionChecks_ok g v
    have hfails := (Check.fails_channel s.latch.params s ch).2 hch
    exact ⟨exec_reports rfl rfl ok hfails, exec_reports rfl rfl ok hfails⟩
  · exact exec_reports rfl rfl (convolutionChecks_ok g v) ((Check.fails_kernelLength _ _).2 hlen)
  · exact exec_reports rfl rfl geometry ((Check.fails_grayscale _ _).2 hcolor)
  · exact exec_reports rfl rfl geometry ((Check.fails_thresholds _ _).2 ho)
  · exact exec_reports (cs := blurChecks) rfl rfl (blurChecks_ok g hstd v) ((Check.fails_thresholds _ _).2 ho)

end Sys2Proof.Machine
end

section
/-!
STATUS and the error report agree after every step (10_state.md R35 to R37; 60_exceptions.md R230, R241): what the
engine's turn and a host access leave of them.
-/

namespace Sys2Proof.Machine

open Sys2Proof

/-! ## The reports -/

/-- An error code of the table of R230: 1 to 4. -/
def ErrorReport.InTable (e : ErrorReport) : Prop := e.code ≠ 0 ∧ e.code.toNat ≤ 4

theorem illegalReport_inTable (w : Word) : (illegalReport w).InTable := by
  simp [illegalReport, ErrorReport.InTable]

theorem Check.report_inTable (p : Params) (c : Check) : (c.report p).InTable := by
  cases c <;> simp [Check.report, ErrorReport.InTable]

/-! ## Which completions the engine's turn can take -/

/-- The frame of every command's effect: the completion flags and the error report are no part of it
(40_command.md R113). -/
theorem effectOf_frame (i : Instr) (p : Params) (s : State) : ∃ w, EffectFrame w s (effectOf i p s) := by
  cases i with
  | nop | start | srst => exact ⟨fun _ => false, .refl _ s⟩
  | cvtRgb =>
    rw [effectOf, cvtRgbEffect]
    split
    · exact ⟨_, convertColor_frame _ _ p s⟩
    · exact ⟨fun _ => false, .refl _ s⟩
  | cvtYcbcr =>
    rw [effectOf, cvtYcbcrEffect]
    split
    · exact ⟨_, convertColor_frame _ _ p s⟩
    · exact ⟨fun _ => false, .refl _ s⟩
  | cvtGray => exact ⟨_, cvtGrayEffect_frame p s⟩
  | kbuild => exact ⟨_, kbuildEffect_frame p s⟩
  | fftfImg ch => exact ⟨_, fftfImgEffect_frame ch p s⟩
  | fftfKer => exact ⟨_, fftfKerEffect_frame p s⟩
  | pmul => exact ⟨_, pmulEffect_frame p s⟩
  | ffti => exact ⟨_, fftiEffect_frame p s⟩
  | wback ch => exact ⟨_, wbackEffect_frame ch p s⟩
  | blur => exact ⟨_, blurEffect_frame p s⟩
  | grad => exact ⟨_, gradEffect_frame p s⟩
  | nms => exact ⟨_, nmsEffect_frame p s⟩
  | thresh => exact ⟨_, threshEffect_frame p s⟩
  | hyst => exact ⟨_, hystEffect_frame p s⟩
  | canny => exact ⟨_, cannyEffect_frame p s⟩

/-- What the engine's turn leaves: nothing new in IDLE; while BUSY an error of the table, or DONE (R113, R114;
30_encoding.md R97). -/
inductive EngineResult (s : State) : State → Prop where
  | waited : EngineResult s s
  | failed (e : ErrorReport) : s.phase = .busy → e.InTable → EngineResult s (raiseError e s)
  | completed (i : Instr) : s.phase = .busy → EngineResult s (completeDone (effectOf i s.latch.params s))

theorem engineTurn_result {s t : State} (h : (engineTurn s).outcome = .next t) : EngineResult s t := by
  cases hp : s.phase with
  | idle =>
    rw [engineTurn_idle hp] at h
    cases h
    exact .waited
  | busy =>
    cases hd : decodeCommand s.latch.cmd with
    | error e =>
      rw [engineTurn_illegal hp (fun i => by rw [hd]; nofun)] at h
      cases h
      exact .failed _ hp (illegalReport_inTable _)
    | ok i =>
      rw [engineTurn_decoded hp hd, Turn.outcome, exec_command (isControl_of_decodeCommand hd)] at h
      rcases runCommand_cases h with ⟨-, rfl⟩ | ⟨e, he, rfl⟩
      · exact .completed i hp
      · obtain ⟨c, -, -, rfl⟩ := firstFailure_some he
        exact .failed _ hp (Check.report_inTable _ c)

/-! ## The flags -/

/-- PHASE and the report stay, and DONE and ERR are at most cleared. -/
theorem FlagsOk.of_cleared {s t : State} (h : FlagsOk s) (hp : t.phase = s.phase) (hd : t.done = true → s.done = true)
    (he : t.err = true → s.err = true) (hc : t.errCode = s.errCode) (hi : t.errInfo = s.errInfo) : FlagsOk t where
  busyClear hb := by
    obtain ⟨hdone, herr⟩ := h.busyClear (hp ▸ hb)
    exact ⟨by simpa [hdone] using hd, by simpa [herr] using he⟩
  notBoth hb := h.notBoth (hb.imp hd he)
  codeRange := hc ▸ h.codeRange
  errHasCode ht := hc ▸ h.errHasCode (he ht)
  noCodeNoInfo h0 := hi ▸ h.noCodeNoInfo (hc ▸ h0)

/-- All is cleared: a reset, or an accepted doorbell (40_command.md R111). -/
theorem FlagsOk.of_zero {s : State} (hd : s.done = false) (he : s.err = false) (hc : s.errCode = 0)
    (hi : s.errInfo = 0) : FlagsOk s where
  busyClear _ := ⟨hd, he⟩
  notBoth := by simp [hd]
  codeRange := by simp [hc]
  errHasCode := by simp [he]
  noCodeNoInfo _ := hi

/-- A busy engine has DONE = 0, so an error leaves it alone. -/
theorem FlagsOk.raised {s : State} {e : ErrorReport} (h : FlagsOk s) (hb : s.phase = .busy) (he : e.InTable) :
    FlagsOk (raiseError e s) where
  busyClear := nofun
  notBoth := by simp [(h.busyClear hb).1]
  codeRange := he.2
  errHasCode _ := he.1
  noCodeNoInfo h0 := absurd h0 he.1

/-- A busy engine has ERR = 0, so DONE is alone. -/
theorem FlagsOk.completed {s : State} (h : FlagsOk s) (hb : s.phase = .busy) : FlagsOk (completeDone s) where
  busyClear := nofun
  notBoth := by simp [(h.busyClear hb).2]
  codeRange := h.codeRange
  errHasCode := h.errHasCode
  noCodeNoInfo := h.noCodeNoInfo

theorem EngineResult.flagsOk {s t : State} (r : EngineResult s t) (h : FlagsOk s) : FlagsOk t := by
  cases r with
  | waited => exact h
  | failed e hb he => exact h.raised hb he
  | completed i hb =>
    obtain ⟨_, -, -, -, -, herr, -, -, hcode, hinfo, -, -, -, -, -, -, -, -, -, hdone, hphase⟩ :=
      effectOf_frame i s.latch.params s
    have heffect : FlagsOk (effectOf i s.latch.params s) :=
      h.of_cleared hphase (hdone ▸ id) (herr ▸ id) hcode hinfo
    exact heffect.completed (hphase.trans hb)

/-! ## Accesses and resets -/

/-- The host can clear DONE and ERR, and reaches neither PHASE nor the report (10_state.md R35 to R37). -/
theorem csrWrite_flagsOk {s : State} (h : FlagsOk s) (off : Nat) (v : Word) : FlagsOk (csrWrite off v s) := by
  unfold csrWrite geometryWrite
  split
  case h_1 => exact h.of_cleared rfl (by simp +contextual) (by simp +contextual) rfl rfl
  case h_3 | h_4 | h_5 => split <;> exact h.of_cleared rfl id id rfl rfl
  all_goals exact h.of_cleared rfl id id rfl rfl

theorem AccessResult.flagsOk {s t : State} {r : BusReq} (a : AccessResult r s t) (h : FlagsOk s) : FlagsOk t := by
  cases a with
  | answered | drew | blocked | pixWritten => exact h.of_cleared rfl id id rfl rfl
  | registerWritten => exact (csrWrite_flagsOk h _ _).of_cleared rfl id id rfl rfl

theorem doorbell_flagsOk {s : State} (h : FlagsOk s) : FlagsOk (doorbell s) := by
  cases hp : s.phase with
  | idle => rw [doorbell_idle hp]; exact .of_zero rfl rfl rfl rfl
  | busy => rw [doorbell_busy hp]; exact h.of_cleared rfl id id rfl rfl

theorem softReset_flagsOk {s : State} (h : FlagsOk s) : FlagsOk (softReset s) := by
  cases hp : s.phase with
  | idle => rw [softReset_idle hp]; exact .of_zero rfl rfl rfl rfl
  | busy => rw [softReset_busy hp]; exact h.of_cleared rfl id id rfl rfl

theorem powerOnReset_flagsOk (s : State) : FlagsOk (powerOnReset s) := by
  unfold powerOnReset
  split <;> exact .of_zero rfl rfl rfl rfl

theorem busTurn_flagsOk {r : BusReq} {s t : State} (h : FlagsOk s) (ht : (busTurn r s).outcome = .next t) :
    FlagsOk t := by
  have answered (e : Bool) : FlagsOk (setIrqEn e (respond .okay 0 s)) := h.of_cleared rfl id id rfl rfl
  cases hc : ctrlWriteOf r with
  | none =>
    rw [busTurn_of_not_ctrl hc] at ht
    cases ht
    exact (access_result r s).flagsOk h
  | some v =>
    cases hd : decodeControl v with
    | none =>
      simp only [busTurn, hc, hd] at ht
      cases ht
      exact answered _
    | some i =>
      simp only [busTurn, hc, hd] at ht
      have hi := isControl_of_decodeControl hd
      cases i with
      | start e => cases ht; exact doorbell_flagsOk (answered e)
      | srst e => cases ht; exact softReset_flagsOk (answered e)
      | _ => cases hi

/-- Settles O58: only the turn of a busy engine sets DONE or ERR, and both are 0 then. -/
theorem stepKeepsFlags : Obligations.step_keeps_flags := by
  intro s t hs ht
  have h (rest : List Event) : FlagsOk { s with events := rest } := hs.of_cleared rfl id id rfl rfl
  rw [step_eq_outcome] at ht
  cases he : s.events with
  | nil =>
    rw [nextTurn, he] at ht
    exact (engineTurn_result ht).flagsOk hs
  | cons e rest =>
    rw [nextTurn, he] at ht
    cases e with
    | bus r => exact busTurn_flagsOk (h rest) ht
    | engine => exact (engineTurn_result ht).flagsOk (h rest)
    | powerOn => cases ht; exact powerOnReset_flagsOk _

end Sys2Proof.Machine
end

section
/-!
The resets (70_reset_and_hazards.md R260 to R263): what SRST and the reset input leave of the registers, and which
bytes of the memories the reset input makes unwritten, in IDLE and while BUSY.
-/

namespace Sys2Proof.Machine

open Sys2Proof

/-! ## Soft reset -/

/-- In IDLE the soft-reset values are those of the other registers: PHASE stays. -/
theorem resetRegisters_of_idle {s : State} (h : s.phase = .idle) : resetRegisters s =
    { s with
      irqEn := false, done := false, err := false, ovf := false, haz := false
      errCode := 0, errInfo := 0, cmd := 0, imgW := 0, imgH := 0, color := 0, kerLen := 0
      stdDev := 1400, sizeF := 2, thrHi := 76800, thrLo := 25600 } := by
  rw [resetRegisters, ← h]

theorem exec_srst (e : Bool) (s : State) : exec (.srst e) s = .next (softReset (setIrqEn e s)) := rfl

/-- Settles O9: SRST is the soft reset after IRQ_EN, which the reset of the registers then overwrites. -/
theorem softReset_spec : Obligations.soft_reset := by
  refine fun s e => ⟨fun h => ?_, fun h => ?_⟩
  · have hidle : (setIrqEn e s).phase = .idle := h
    rw [exec_srst, softReset_idle hidle, resetRegisters_of_idle hidle]
    rfl
  · have hbusy : (setIrqEn e s).phase = .busy := h
    rw [exec_srst, softReset_busy hbusy]
    rfl

/-! ## The registers after the reset input -/

theorem step_powerOn {s : State} {rest : List Event} (h : s.events = .powerOn :: rest) :
    step s = .next (powerOnReset { s with events := rest }) := by
  rw [step_eq_outcome, nextTurn, h]
  rfl

theorem powerOnReset_idle {s : State} (h : s.phase = .idle) :
    powerOnReset s = clearLatch (resetRegisters (eraseMemories (fun _ _ => true) s)) := by
  rw [powerOnReset, h]

theorem powerOnReset_busy {s : State} (h : s.phase = .busy) :
    powerOnReset s = clearLatch (resetRegisters (eraseMemories (cancelledWrites s) s)) := by
  rw [powerOnReset, h]

/-- In either phase the registers are reset and LATCH is cleared, whatever becomes of the memories. -/
theorem powerOnReset_registers (s : State) : ∃ q, powerOnReset s = clearLatch (resetRegisters (eraseMemories q s)) := by
  cases h : s.phase with
  | idle => exact ⟨_, powerOnReset_idle h⟩
  | busy => exact ⟨_, powerOnReset_busy h⟩

@[simp] theorem eraseMemories_cfg (q : Plane → Nat → Bool) (s : State) : (eraseMemories q s).cfg = s.cfg := rfl

/-- After the registers are reset each of them reads as after power-up (10_state.md R55). -/
theorem csrRead_resetRegisters (off : Nat) (s : State) :
    csrRead off (clearLatch (resetRegisters s)) = csrRead off (State.resetOf s.cfg) := rfl

theorem csrRead_powerOnReset (off : Nat) (s : State) :
    csrRead off (powerOnReset s) = csrRead off (State.resetOf s.cfg) := by
  obtain ⟨q, hq⟩ := powerOnReset_registers s
  rw [hq, csrRead_resetRegisters, eraseMemories_cfg]

/-- The flags that the reset input clears (R260). -/
theorem powerOnReset_flags (s : State) : (powerOnReset s).irqEn = false ∧ (powerOnReset s).done = false
    ∧ (powerOnReset s).err = false ∧ (powerOnReset s).ovf = false ∧ (powerOnReset s).haz = false := by
  obtain ⟨q, hq⟩ := powerOnReset_registers s
  rw [hq]
  exact ⟨rfl, rfl, rfl, rfl, rfl⟩

/-! ## The memories after the reset input -/

/-- In IDLE every element becomes unwritten (R260). -/
theorem read_powerOnReset_idle {s : State} (h : s.phase = .idle) (p : Plane) (a : Nat) :
    Memory.read ((powerOnReset s).mem p) a = none := by
  rw [powerOnReset_idle h, clearLatch_mem, resetRegisters_mem, eraseMemories_mem, Memory.read_erase, if_pos rfl]

/-- While BUSY the bytes of the cancelled command become unwritten and the others stay (R261). -/
theorem read_powerOnReset_busy {s : State} (h : s.phase = .busy) (p : Plane) (a : Nat) :
    Memory.read ((powerOnReset s).mem p) a =
      if cancelledWrites s p a then none else Memory.read (s.mem p) a := by
  rw [powerOnReset_busy h, clearLatch_mem, resetRegisters_mem, eraseMemories_mem, Memory.read_erase]

section Cancelled

variable {s : State} {i : Instr} (p : Plane) (a : Nat)

theorem cancelledWrites_of_illegal (h : ∀ i, decodeCommand s.latch.cmd ≠ .ok i) : cancelledWrites s p a = false := by
  cases hd : decodeCommand s.latch.cmd with
  | error e => rw [cancelledWrites, hd]
  | ok i => exact absurd hd (h i)

variable (hd : decodeCommand s.latch.cmd = .ok i)
include hd

theorem cancelledWrites_of_ok (ok : firstFailure s.latch.params s (checksOf i) = none) :
    cancelledWrites s p a = namesWritten s.cfg i s.latch.params p a := by
  simp only [cancelledWrites, hd, ok]

theorem cancelledWrites_of_failure (hf : firstFailure s.latch.params s (checksOf i) ≠ none) :
    cancelledWrites s p a = false := by
  obtain ⟨e, he⟩ := Option.ne_none_iff_exists'.1 hf
  simp only [cancelledWrites, hd, he]

end Cancelled

/-- What is named does not depend on the inputs still to come. -/
theorem cancelledWrites_events (s : State) (rest : List Event) :
    cancelledWrites { s with events := rest } = cancelledWrites s := by
  funext p a
  cases hd : decodeCommand s.latch.cmd with
  | error e => simp only [cancelledWrites, hd]
  | ok i =>
    have hcheck :=
      firstFailure_congr (p := s.latch.params) (s := s) (t := { s with events := rest }) rfl rfl (checksOf i)
    simp only [cancelledWrites, hd, hcheck]

/-- Settles O54: the registers do not depend on the phase, and the bytes made unwritten are all of them in IDLE, and
while BUSY those of the cancelled command, of which a rejected one has none. -/
theorem powerOnReset_spec : Obligations.power_on_reset := by
  intro s rest he
  obtain ⟨hirq, hdone, herr, hovf, hhaz⟩ := powerOnReset_flags { s with events := rest }
  have hread (hb : s.phase = .busy) (p : Plane) (a : Nat) :=
    read_powerOnReset_busy (s := { s with events := rest }) hb p a
  rw [cancelledWrites_events] at hread
  refine ⟨_, step_powerOn he, powerOnReset_phase _, hirq, hdone, herr, hovf, hhaz,
    fun off => csrRead_powerOnReset off _, fun hidle => read_powerOnReset_idle hidle,
    fun hb i hd => ⟨fun ok p a => ?_, fun hf p a => ?_⟩, fun hb hd p a => ?_⟩
  · rw [hread hb, cancelledWrites_of_ok p a hd ok]
    rfl
  · rw [hread hb, cancelledWrites_of_failure p a hd hf]
    rfl
  · rw [hread hb, cancelledWrites_of_illegal p a hd]
    rfl

end Sys2Proof.Machine
end

section
/-!
The bytes a command's rule names as written (70_reset_and_hazards.md R261): each test of `namesWritten` as the set of
bytes its rule describes, and that no command's effect reaches beyond that set.
-/

namespace Sys2Proof.Machine

open Sys2Proof

/-! ## The tests of `namesWritten` -/

theorem inRun_zero_iff {n a : Nat} : InRun 0 n a ↔ a < n := by simp [InRun]

theorem tapNamed_iff (p : Params) (a : Nat) : tapNamed p a = true ↔ InRun 0 (8 * (2 * p.half + 1)) a := by
  rw [tapNamed, decide_eq_true_eq, inRun_zero_iff]

theorem cvtNames_iff (p : Params) (target : BitVec 2) (q : Plane) (a : Nat) :
    cvtNames p target q a = true ↔ q = .pix ∧ p.color ≠ target ∧ InRun 0 (p.w * p.h * channels target) a := by
  cases q <;> simp [cvtNames, inRun_zero_iff]

/-- The bytes of a channel are those of its remainder (10_state.md R46). -/
theorem inChannel_iff {p : Params} {ch a : Nat} (hc : ch < p.c) :
    InChannel p ch a ↔ a % p.c = ch ∧ a < p.w * p.h * p.c := by
  refine ⟨fun h => ⟨?_, h.lt hc⟩, fun ⟨hmod, hlt⟩ => ?_⟩
  · obtain ⟨x, y, -, -, rfl⟩ := h
    rw [Nat.mul_add_mod_of_lt hc]
  · have hpix : a / p.c < p.w * p.h := (Nat.div_lt_iff_lt_mul (by omega)).2 hlt
    have hw : 0 < p.w := Nat.pos_of_mul_pos_right (Nat.zero_lt_of_lt hpix)
    refine ⟨a / p.c % p.w, a / p.c / p.w, Nat.mod_lt _ hw, Nat.div_lt_of_lt_mul hpix, ?_⟩
    rw [Nat.div_add_mod', ← hmod, Nat.div_add_mod']

theorem blurNames_iff {c : Config} {p : Params} (hpw : p.pw ≤ c.maxPW) (n : Nat) (q : Plane) (a : Nat) :
    blurNames c p n q a = true ↔ (q = .ker ∧ InRun 0 (8 * (2 * p.half + 1)) a)
      ∨ ((q = .a ∨ q = .k) ∧ p.s ≠ 0 ∧ InRegion c p a) ∨ (q = .pix ∧ p.s ≠ 0 ∧ InRun 0 (p.w * p.h * n) a) := by
  cases q <;> simp [blurNames, tapNamed_iff, regionNamed_iff hpw, inRun_zero_iff]

theorem magNamed_image_iff {c : Config} {w h : Nat} (hw : w ≤ c.maxW) (a : Nat) :
    magNamed c w h (fun _ _ => true) a = true ↔ InMag c w h a := by
  simp [magNamed_iff hw, InMag]

/-- An interior pixel is a pixel of the image. -/
theorem magNamed_interior_iff {c : Config} {w h : Nat} (hw : w ≤ c.maxW) (a : Nat) :
    magNamed c w h (isInterior w h) a = true
      ↔ ∃ x y, isInterior w h x y = true ∧ InRun (4 * planeIndex c x y) 4 a := by
  rw [magNamed_iff hw]
  refine ⟨fun ⟨x, y, _, _, hi, ha⟩ => ⟨x, y, hi, ha⟩, fun ⟨x, y, hi, ha⟩ => ?_⟩
  have hin := isInterior_iff.1 hi
  exact ⟨x, y, by omega, by omega, hi, ha⟩

/-- The model's test names the bytes of the rule's line, for operands that pass the command's checks. -/
theorem namesWritten_iff {s : State} {p : Params} {i : Instr} (ok : firstFailure p s (checksOf i) = none) (q : Plane)
    (a : Nat) : namesWritten s.cfg i p q a = true ↔ RuleWrites s.cfg p i q a := by
  have width (hg : geometryChecks ⊆ checksOf i) : p.w ≤ s.cfg.maxW := by
    obtain ⟨-, hw, -⟩ := geometryValid_of_ok ok hg
    exact hw
  have padWidth (hg : geometryChecks ⊆ checksOf i) (hs : [.sizeNonneg, .sizeMax] ⊆ checksOf i) :
      p.pw ≤ s.cfg.maxPW :=
    (geometryValid_of_ok ok hg).pw_le (sizeValid_of_ok ok hs)
  cases i with
  | nop | start | srst => simp [namesWritten, RuleWrites]
  | cvtRgb | cvtYcbcr =>
    rw [namesWritten, cvtNames_iff, show channels _ = 3 from rfl, Nat.mul_comm _ 3, RuleWrites]
  | cvtGray => rw [namesWritten, cvtNames_iff, show channels 2 = 1 from rfl, Nat.mul_one, RuleWrites]
  | kbuild => simp [namesWritten, RuleWrites, tapNamed_iff]
  | fftfImg ch =>
    have hpw := padWidth (by simp [checksOf, channelChecks, convolutionChecks])
      (by simp [checksOf, channelChecks, convolutionChecks])
    simp [namesWritten, RuleWrites, regionNamed_iff hpw]
  | fftfKer | pmul | ffti =>
    have hpw := padWidth (by decide) (by decide)
    simp [namesWritten, RuleWrites, regionNamed_iff hpw]
  | wback ch =>
    have hc : ch < p.c := channel_lt_of_ok ok (by simp [checksOf, channelChecks])
    simp [namesWritten, RuleWrites, inChannel_iff hc, and_assoc]
  | blur => rw [namesWritten, blurNames_iff (padWidth (by decide) (by decide)), RuleWrites]
  | grad =>
    have hw := width (by decide)
    cases q <;> simp [namesWritten, RuleWrites, magNamed_image_iff hw, codeNamed_iff hw]
  | nms => simp [namesWritten, RuleWrites, magNamed_interior_iff (width (by decide))]
  | thresh => simp [namesWritten, RuleWrites, codeNamed_iff (width (by decide))]
  | hyst => simp [namesWritten, RuleWrites, inRun_zero_iff]
  | canny =>
    have hw := width (by decide)
    have hpw := padWidth (by decide) (by decide)
    cases q <;> simp [namesWritten, RuleWrites, magNamed_image_iff hw, codeNamed_iff hw, blurNames_iff hpw,
      inRun_zero_iff]

/-! ## No effect reaches beyond them -/

/-- An effect that writes one memory, and of it only the bytes `inside`. -/
theorem EffectFrame.sameOutside {q : Plane} {inside : Nat → Prop} {s t : State} (f : EffectFrame (· == q) s t)
    (h : SameOutside inside (s.mem q) (t.mem q)) (r : Plane) :
    SameOutside (fun a => r = q ∧ inside a) (s.mem r) (t.mem r) := by
  by_cases hr : r = q
  · subst hr
    exact h.mono fun _ ha => ⟨rfl, ha⟩
  · obtain ⟨hmem, -⟩ := f
    exact .of_eq (hmem r (beq_false_of_ne hr))

section Effects

variable (p : Params) (s : State) (q : Plane)

/-- A conversion from another space writes PIX over the image (R131). -/
theorem convertColor_covered (f : Pixel → Pixel) {target : BitVec 2} (h : p.color ≠ target) :
    SameOutside (fun a => q = .pix ∧ p.color ≠ target ∧ InRun 0 (3 * (p.w * p.h)) a) (s.mem q)
      ((convertColor f target p s).mem q) :=
  ((convertColor_frame f target p s).sameOutside (convertColor_leaves f target p s).1 q).mono
    fun _ ⟨hq, ha⟩ => ⟨hq, h, ha⟩

/-- CVT converts only from the other colour space, and to the current one writes nothing (R136). -/
theorem cvtRgbEffect_covered : SameOutside (RuleWrites s.cfg p .cvtRgb q) (s.mem q) ((cvtRgbEffect p s).mem q) := by
  unfold cvtRgbEffect
  split
  · next hc => exact convertColor_covered p s q _ fun h => by rw [h] at hc; cases hc
  · exact .of_eq rfl

theorem cvtYcbcrEffect_covered :
    SameOutside (RuleWrites s.cfg p .cvtYcbcr q) (s.mem q) ((cvtYcbcrEffect p s).mem q) := by
  unfold cvtYcbcrEffect
  split
  · next hc => exact convertColor_covered p s q _ fun h => by rw [h] at hc; cases hc
  · exact .of_eq rfl

theorem cvtGrayEffect_covered {c : Config} (g : GeometryValid c p) :
    SameOutside (RuleWrites s.cfg p .cvtGray q) (s.mem q) ((cvtGrayEffect p s).mem q) := by
  by_cases hc : p.color = 2
  · rw [cvtGrayEffect_of_gray s hc]
    exact .of_eq rfl
  · rw [cvtGrayEffect_of_color s g hc]
    exact ((convertGray_frame _ p s).sameOutside (convertGray_leaves _ p s).1 q).mono fun _ ⟨hq, ha⟩ => ⟨hq, hc, ha⟩

theorem gradEffect_covered : SameOutside (RuleWrites s.cfg p .grad q) (s.mem q) ((gradEffect p s).mem q) := by
  obtain ⟨hmag, hdir⟩ := gradEffect_sameOutside p s
  obtain ⟨hmem, -⟩ := gradEffect_frame p s
  cases q with
  | mag => exact hmag.mono fun _ ha => .inl ⟨rfl, ha⟩
  | dir => exact hdir.mono fun _ ha => .inr ⟨rfl, ha⟩
  | _ => exact .of_eq (hmem _ rfl)

/-- NMS writes elements of interior pixels (R194). -/
theorem nmsEffect_sameOutside_interior :
    SameOutside (fun a => ∃ x y, isInterior p.w p.h x y = true ∧ InRun (4 * planeIndex s.cfg x y) 4 a) s.mag
      (nmsEffect p s).mag :=
  fun _ ha => nmsEffect_read_outside fun x y hz hin => ha ⟨x, y, hz.1, hin⟩

theorem blurEffect_covered : SameOutside (RuleWrites s.cfg p .blur q) (s.mem q) ((blurEffect p s).mem q) := by
  obtain ⟨hpix, hplaneA, hplaneK⟩ := blurEffect_sameOutside p s
  obtain ⟨hmem, -⟩ := blurEffect_frame p s
  obtain ⟨-, -, hker⟩ := blurEffect_sameKernel p s
  cases q with
  | ker => exact ((kbuildEffect_sameOutside p s).trans (.of_eq hker)).mono fun _ ha => .inl ⟨rfl, ha⟩
  | a => exact hplaneA.mono fun _ ha => .inr (.inl ⟨.inl rfl, ha⟩)
  | k => exact hplaneK.mono fun _ ha => .inr (.inl ⟨.inr rfl, ha⟩)
  | pix =>
    by_cases hs : p.s = 0
    · rw [blurEffect_of_zero hs]
      exact .of_eq rfl
    · exact hpix.mono fun _ ha => .inr (.inr ⟨rfl, hs, ha⟩)
  | mag | dir | cls => exact .of_eq (hmem _ rfl)

theorem cannyEffect_covered {c : Config} (g : GeometryValid c p) :
    SameOutside (RuleWrites s.cfg p .canny q) (s.mem q) ((cannyEffect p s).mem q) := by
  obtain ⟨hplaneA, hplaneK, hmag, hdir, hcls⟩ := cannyEffect_planes p s
  cases q with
  | pix => exact (cannyEffect_pix_sameOutside p s g).mono fun _ ha => .inl ⟨rfl, ha⟩
  | mag => exact hmag.mono fun _ ha => .inr (.inl ⟨rfl, ha⟩)
  | dir => exact hdir.mono fun _ ha => .inr (.inr (.inl ⟨.inl rfl, ha⟩))
  | cls => exact hcls.mono fun _ ha => .inr (.inr (.inl ⟨.inr rfl, ha⟩))
  | ker => exact (cannyEffect_ker_sameOutside p s).mono fun _ ha => .inr (.inr (.inr (.inl ⟨rfl, ha⟩)))
  | a => exact hplaneA.mono fun _ ha => .inr (.inr (.inr (.inr ⟨.inl rfl, ha⟩)))
  | k => exact hplaneK.mono fun _ ha => .inr (.inr (.inr (.inr ⟨.inr rfl, ha⟩)))

end Effects

/-- The effect of a command that passed its checks changes no byte but those of its rule's line. -/
theorem effectOf_covered {s : State} {p : Params} {i : Instr} (ok : firstFailure p s (checksOf i) = none)
    (q : Plane) : SameOutside (RuleWrites s.cfg p i q) (s.mem q) ((effectOf i p s).mem q) := by
  have geometry (hg : geometryChecks ⊆ checksOf i) : GeometryValid s.cfg p := geometryValid_of_ok ok hg
  cases i with
  | nop | start | srst => exact .of_eq rfl
  | cvtRgb => exact cvtRgbEffect_covered p s q
  | cvtYcbcr => exact cvtYcbcrEffect_covered p s q
  | cvtGray => exact cvtGrayEffect_covered p s q (geometry (by decide))
  | kbuild => exact (kbuildEffect_frame p s).sameOutside (kbuildEffect_sameOutside p s) q
  | fftfImg ch =>
    exact (fftfImgEffect_frame ch p s).sameOutside (sameOutside_of_stored rfl (fftfImgEffect_planeA ch p s)) q
  | fftfKer => exact (fftfKerEffect_frame p s).sameOutside (sameOutside_of_stored rfl (fftfKerEffect_planeK p s)) q
  | pmul => exact (pmulEffect_frame p s).sameOutside (sameOutside_of_stored rfl (pmulEffect_planeA p s)) q
  | ffti => exact (fftiEffect_frame p s).sameOutside (sameOutside_of_stored rfl (fftiEffect_planeA p s)) q
  | wback ch => exact (wbackEffect_frame ch p s).sameOutside (wbackEffect_sameOutside p ch s) q
  | blur => exact blurEffect_covered p s q
  | grad => exact gradEffect_covered p s q
  | nms => exact (nmsEffect_frame p s).sameOutside (nmsEffect_sameOutside_interior p s) q
  | thresh => exact (threshEffect_frame p s).sameOutside (threshEffect_sameOutside p s) q
  | hyst => exact (hystEffect_frame p s).sameOutside (hystEffect_sameOutside p s) q
  | canny => exact cannyEffect_covered p s q (geometry (by decide))

/-- Settles O55: the test names the bytes of the rule's line, and the effect changes no other. -/
theorem namedBytesCoverTheEffect : Obligations.named_bytes_cover_the_effect := by
  refine fun s i hi ok => ⟨namesWritten_iff ok, _, exec_completes hi ok rfl, fun q a hn => ?_⟩
  rw [completeDone_mem]
  exact effectOf_covered ok q a fun hr => Bool.eq_false_iff.1 hn ((namesWritten_iff ok q a).2 hr)

end Sys2Proof.Machine
end
